-- ==== Sys2Proof/Config.lean ====
section
/-! DEFINITION. What is fixed for the machine (spec rules R6, R7) and the free values of what the spec leaves
unspecified. The effort table CHAIN of R7 and the constant tables of the format stand in files a repair may mend
(`Machine/Operands.lean`, `Decode.lean`). -/

namespace Sys2Proof.Config

/-- R7 `LENW`: OPEN with default 32; the default is taken (DESIGN CHOICE, log 7). -/
def lenw : Nat := 32

/-- R6 `WSIZE`: largest back-reference distance. -/
def wsize : Nat := 32768

/-- R6 `MIN_MATCH`. -/
def minMatch : Nat := 3

/-- R6 `MAX_MATCH`. -/
def maxMatch : Nat := 258

/-- R6 `MAX_BITS`: longest code of the literal/length and distance alphabets. -/
def maxBits : Nat := 15

/-- R6 `RDMAX`: largest `n` of one `read_bits(n)`. -/
def rdMax : Nat := 16

/-- R6 `STORED_MAX`: most bytes in one stored block. -/
def storedMax : Nat := 65535

/-- Free value: number `slot` of the registers the spec calls unspecified at the moment stamped `stamp`
(R410: engine registers after an abort; R442: INF working registers at a call start). -/
opaque freeNat (stamp slot : Nat) : Nat

/-- Free value: the byte in cell `addr` of `IN` while the host has not written it (R26, R440: unspecified). -/
opaque freeInByte (addr : Nat) : BitVec 8

/-- Free value: the byte in cell `addr` of `OUT` where the spec calls the contents unspecified (R27, R79, R388,
R410); a new `stamp` at every call start and abort. -/
opaque freeOutByte (stamp addr : Nat) : BitVec 8

/-! Free values of unit operations on operands for which the spec states no result (log 16). -/

/-- Free value: the code that WRITE_CODE writes for operands outside the ranges of R152. -/
opaque freeCode (code len : Nat) : Nat

/-- Free value: the code of used symbol `v` that CANONICAL_CODES answers for an array that fails R170. -/
opaque freeCanonicalCode (lens : List Nat) (v : Nat) : Nat

/-- Free value: `CHAIN(level)` for a level outside 1 to 9 (R349). -/
opaque freeChain (level : Nat) : Nat

/-- Free value: the length index (`part` 0) and the extra value (`part` 1) of a length outside 3 to 258 (R101). -/
opaque freeLength (len part : Nat) : Nat

/-- Free value: the distance index (`part` 0) and the extra value (`part` 1) of a distance outside 1 to 32768 (R103). -/
opaque freeDistance (dist part : Nat) : Nat

end Sys2Proof.Config
end

