-- ==== Sys2Proof/Word.lean ====
section
/-! DEFINITION. The word types and the small data types that both the decoder and the state use. -/

namespace Sys2Proof

/-- R65: a byte is 8 bits everywhere. -/
abbrev Byte := BitVec 8

/-- A host-visible length register of `LENW` bits (R23 to R25). -/
abbrev Len := BitVec Config.lenw

/-- R401: the seven error causes, in the order of their codes 1 to 7. -/
inductive Cause where
  | unexpectedEnd
  | invalidBlockType
  | invalidHuffmanTable
  | invalidStoredLength
  | invalidBackReference
  | invalidSymbol
  | outputOverflow
  deriving DecidableEq, Repr

/-- R22 `ERR_CLASS`: 0 none, 1 `UnexpectedEnd`, 2 `CorruptedFile`, 3 `ResourceExhausted`. -/
inductive ErrClass where
  | none
  | unexpectedEnd
  | corruptedFile
  | resourceExhausted
  deriving DecidableEq, Repr

/-- R31: a Huffman decode table. `code` is `none` where `lens` is 0: the spec calls the code of an unused symbol
meaningless, so the model holds no value there (log 12). -/
structure HuffTable where
  n     : Nat
  lens  : List Nat
  count : List Nat
  code  : List (Option Nat)
  valid : Bool
  deriving DecidableEq, Repr

/-- R32: the three per-block table instances, the ones `build_from_lengths` writes during a call. -/
inductive BlockTable where
  | cl
  | ll
  | d
  deriving DecidableEq, Repr

/-- R32: all five table instances, the ones `decode_symbol` may read. -/
inductive TableId where
  | fll
  | fd
  | block (t : BlockTable)
  deriving DecidableEq, Repr

end Sys2Proof
end

