-- ==== Sys2Proof/Syntax.lean ====
section
/-! DEFINITION. The instructions: one constructor per row of spec/opcode_table.json, in the table's order. "Instruction"
is the spec's word (44_inflate_blocks.md) for one element of the stream the inflate engine interprets; the two host
commands and the unit operations of the units have rows too. Extra-bit fields have exactly their row's width. -/

namespace Sys2Proof

inductive Instr where
  /-- R215: header of a stored block; `final` is BFINAL. -/
  | blkStored (final : Bool)
  /-- R217: header of a fixed-Huffman block. -/
  | blkFixed (final : Bool)
  /-- R218: header of a dynamic-Huffman block. -/
  | blkDynamic (final : Bool)
  /-- R214: header with the reserved type. -/
  | blkReserved (final : Bool)
  /-- R215: the LEN and NLEN fields of a stored block. -/
  | storedLen (len nlen : BitVec 16)
  /-- R219: HLIT, HDIST and HCLEN of a dynamic block. -/
  | dynCounts (hlit hdist : BitVec 5) (hclen : BitVec 4)
  /-- R220: one 3-bit code length of the code-length alphabet. -/
  | dynCll (v : BitVec 3)
  /-- R251: a literal below 144 (8-bit fixed code). -/
  | lit0To143 (b : Byte)
  /-- R251: a literal from 144 on (9-bit fixed code). -/
  | lit144To255 (b : Byte)
  /-- R252: end of block. -/
  | eob
  /-- R260: length symbol 257. -/
  | len257
  /-- R261: length symbol 258. -/
  | len258
  /-- R262: length symbol 259. -/
  | len259
  /-- R263: length symbol 260. -/
  | len260
  /-- R264: length symbol 261. -/
  | len261
  /-- R265: length symbol 262. -/
  | len262
  /-- R266: length symbol 263. -/
  | len263
  /-- R267: length symbol 264. -/
  | len264
  /-- R268: length symbol 265. -/
  | len265 (x : BitVec 1)
  /-- R269: length symbol 266. -/
  | len266 (x : BitVec 1)
  /-- R270: length symbol 267. -/
  | len267 (x : BitVec 1)
  /-- R271: length symbol 268. -/
  | len268 (x : BitVec 1)
  /-- R272: length symbol 269. -/
  | len269 (x : BitVec 2)
  /-- R273: length symbol 270. -/
  | len270 (x : BitVec 2)
  /-- R274: length symbol 271. -/
  | len271 (x : BitVec 2)
  /-- R275: length symbol 272. -/
  | len272 (x : BitVec 2)
  /-- R276: length symbol 273. -/
  | len273 (x : BitVec 3)
  /-- R277: length symbol 274. -/
  | len274 (x : BitVec 3)
  /-- R278: length symbol 275. -/
  | len275 (x : BitVec 3)
  /-- R279: length symbol 276. -/
  | len276 (x : BitVec 3)
  /-- R280: length symbol 277. -/
  | len277 (x : BitVec 4)
  /-- R281: length symbol 278. -/
  | len278 (x : BitVec 4)
  /-- R282: length symbol 279. -/
  | len279 (x : BitVec 4)
  /-- R283: length symbol 280. -/
  | len280 (x : BitVec 4)
  /-- R284: length symbol 281. -/
  | len281 (x : BitVec 5)
  /-- R285: length symbol 282. -/
  | len282 (x : BitVec 5)
  /-- R286: length symbol 283. -/
  | len283 (x : BitVec 5)
  /-- R287: length symbol 284. -/
  | len284 (x : BitVec 5)
  /-- R288: length symbol 285. -/
  | len285
  /-- R257: a literal/length symbol without meaning. -/
  | ll286
  /-- R257: a literal/length symbol without meaning. -/
  | ll287
  /-- R290: distance symbol 0. -/
  | dist0
  /-- R291: distance symbol 1. -/
  | dist1
  /-- R292: distance symbol 2. -/
  | dist2
  /-- R293: distance symbol 3. -/
  | dist3
  /-- R294: distance symbol 4. -/
  | dist4 (y : BitVec 1)
  /-- R295: distance symbol 5. -/
  | dist5 (y : BitVec 1)
  /-- R296: distance symbol 6. -/
  | dist6 (y : BitVec 2)
  /-- R297: distance symbol 7. -/
  | dist7 (y : BitVec 2)
  /-- R298: distance symbol 8. -/
  | dist8 (y : BitVec 3)
  /-- R299: distance symbol 9. -/
  | dist9 (y : BitVec 3)
  /-- R300: distance symbol 10. -/
  | dist10 (y : BitVec 4)
  /-- R301: distance symbol 11. -/
  | dist11 (y : BitVec 4)
  /-- R302: distance symbol 12. -/
  | dist12 (y : BitVec 5)
  /-- R303: distance symbol 13. -/
  | dist13 (y : BitVec 5)
  /-- R304: distance symbol 14. -/
  | dist14 (y : BitVec 6)
  /-- R305: distance symbol 15. -/
  | dist15 (y : BitVec 6)
  /-- R306: distance symbol 16. -/
  | dist16 (y : BitVec 7)
  /-- R307: distance symbol 17. -/
  | dist17 (y : BitVec 7)
  /-- R308: distance symbol 18. -/
  | dist18 (y : BitVec 8)
  /-- R309: distance symbol 19. -/
  | dist19 (y : BitVec 8)
  /-- R310: distance symbol 20. -/
  | dist20 (y : BitVec 9)
  /-- R311: distance symbol 21. -/
  | dist21 (y : BitVec 9)
  /-- R312: distance symbol 22. -/
  | dist22 (y : BitVec 10)
  /-- R313: distance symbol 23. -/
  | dist23 (y : BitVec 10)
  /-- R314: distance symbol 24. -/
  | dist24 (y : BitVec 11)
  /-- R315: distance symbol 25. -/
  | dist25 (y : BitVec 11)
  /-- R316: distance symbol 26. -/
  | dist26 (y : BitVec 12)
  /-- R317: distance symbol 27. -/
  | dist27 (y : BitVec 12)
  /-- R318: distance symbol 28. -/
  | dist28 (y : BitVec 13)
  /-- R319: distance symbol 29. -/
  | dist29 (y : BitVec 13)
  /-- R258: a distance symbol without meaning. -/
  | dist30
  /-- R258: a distance symbol without meaning. -/
  | dist31
  /-- R225: the next code length is `v`. -/
  | clLen (v : BitVec 4)
  /-- R226: repeat the previous code length `3 + x` times. -/
  | clRep16 (x : BitVec 2)
  /-- R227: `3 + x` code lengths of 0. -/
  | clZero17 (x : BitVec 3)
  /-- R228: `11 + x` code lengths of 0. -/
  | clZero18 (x : BitVec 7)
  /-- R382: a `CTRL` write with START = 1, OP = 0; LEVEL is latched and ignored. -/
  | decompress (level : BitVec 4)
  /-- R383: a `CTRL` write with START = 1, OP = 1. -/
  | compress (level : BitVec 4)
  /-- R131. -/
  | readBits (n : Nat)
  /-- R133. -/
  | rdAlign
  /-- R134. -/
  | hasData
  /-- R135. -/
  | readByte
  /-- R66. -/
  | outAppend (b : Byte)
  /-- R151: only bits `n-1` to 0 of `value` are used. -/
  | writeBits (value n : Nat)
  /-- R152. -/
  | writeCode (code len : Nat)
  /-- R153. -/
  | wrAlign
  /-- R154. -/
  | writeByte (b : Byte)
  /-- R155. -/
  | finish
  /-- R171: build table `t` from `lens`; the symbols in `required` must have a code. -/
  | buildFromLengths (t : BlockTable) (lens required : List Nat)
  /-- R172. -/
  | canonicalCodes (lens : List Nat)
  /-- R176: decode one symbol with table `t`. -/
  | decodeSymbol (t : TableId)
  /-- R191, R196. -/
  | buildCodes (freqs : List Len) (maxBits : Nat)
  /-- R350: search at input position `pos` with the effort of `level`. -/
  | longestMatch (pos level : Nat)
  /-- R353. -/
  | emitLit (b : Byte)
  /-- R354. -/
  | emitMatch (len dist : Nat)
  /-- R355. -/
  | emitEob
  /-- R345: the body of COMPRESS at level 0. -/
  | compress0
  /-- R348: the body of COMPRESS at levels 1 to 9. -/
  | compress1To9
  /-- R256, after the range check R255. -/
  | matchCopy
  deriving DecidableEq, Repr

end Sys2Proof
end

