-- ==== Sys2Proof/WellFormed.lean ====
section
/-! DEFINITION. Which terms of `Instr` are instructions: the operand ranges the spec gives each operand that its type
does not already bound. -/

namespace Sys2Proof

/-- The operand checks. Every other operand is bounded by its type. -/
def Instr.wellFormed : Instr → Bool
  | .lit0To143 b        => decide (b.toNat ≤ 143)                                   -- R104, R251
  | .lit144To255 b      => decide (144 ≤ b.toNat)                                   -- R104, R251
  | .compress level     => decide (level.toNat ≤ 9)                                 -- R21, R385
  | .readBits n         => decide (1 ≤ n ∧ n ≤ Config.rdMax)                        -- R131, R136
  | .writeBits _ n      => decide (1 ≤ n ∧ n ≤ Config.rdMax)                        -- R151
  | .writeCode code len => decide (1 ≤ len ∧ len ≤ Config.maxBits ∧ code < 2 ^ len) -- R152
  | .canonicalCodes lens => lens.all fun l => decide (l ≤ Config.maxBits)           -- R170 (a)
  | .buildCodes freqs maxBits =>
      decide (1 ≤ maxBits ∧ maxBits ≤ Config.maxBits ∧
        (freqs.filter fun f => f != 0).length ≤ 2 ^ maxBits)                        -- R191, R194
  | .longestMatch _ level => decide (1 ≤ level ∧ level ≤ 9)                         -- R349, R350
  | .emitMatch len dist =>
      decide (Config.minMatch ≤ len ∧ len ≤ Config.maxMatch ∧ 1 ≤ dist ∧ dist ≤ Config.wsize) -- R341, R354
  | _ => true

end Sys2Proof
end

