-- ==== Sys2Proof/Decode.lean ====
section
/-! DEFINITION. Bits to instructions and back: bit and byte order (R8, R9, R67, R68), the constant tables of the format
(R100 to R105, R111), the canonical Huffman code (R170 to R176), the decoder and the encoder. What a bit pattern means
depends on where the engine stands (R115, R120), so both take a context. The decoder is total on any bits and rejects
by name. -/

namespace Sys2Proof

/-! ## Bits and bytes -/

/-- R67: the value of a field whose bits stand in stream order, least-significant bit first. -/
def bitsToNat : List Bool → Nat
  | [] => 0
  | b :: bs => b.toNat + 2 * bitsToNat bs

/-- R67: the `n` bits of field value `v` in stream order, least-significant bit first. -/
def fieldBits : (n v : Nat) → List Bool
  | 0, _ => []
  | n + 1, v => v.testBit 0 :: fieldBits n (v / 2)

/-- R68: the `len` bits of a Huffman code in stream order, most-significant code bit first. -/
def codeBits : (len code : Nat) → List Bool
  | 0, _ => []
  | n + 1, c => c.testBit n :: codeBits n c

/-- R8: the stream bits of a byte sequence. -/
def bytesToBits (bs : List Byte) : List Bool :=
  bs.flatMap fun b => fieldBits 8 b.toNat

/-- R8: `n` bytes from stream bits; missing bits are 0. -/
def packBytes : (n : Nat) → List Bool → List Byte
  | 0, _ => []
  | n + 1, bits => BitVec.ofNat 8 (bitsToNat (bits.take 8)) :: packBytes n (bits.drop 8)

/-- R71, R90: stream bits as bytes, padded with zero bits to a byte boundary. -/
def bitsToBytes (bits : List Bool) : List Byte :=
  packBytes ((bits.length + 7) / 8) bits

/-! ## Constant tables -/

/-- R100 `LBASE`. -/
def lbaseTable : List Nat :=
  [3, 4, 5, 6, 7, 8, 9, 10, 11, 13, 15, 17, 19, 23, 27] ++
  [31, 35, 43, 51, 59, 67, 83, 99, 115, 131, 163, 195, 227, 258]

/-- R100 `LEXTRA`. -/
def lextraTable : List Nat :=
  [0, 0, 0, 0, 0, 0, 0, 0, 1, 1, 1, 1, 2, 2, 2] ++ [2, 3, 3, 3, 3, 4, 4, 4, 4, 5, 5, 5, 5, 0]

/-- R102 `DBASE`. -/
def dbaseTable : List Nat :=
  [1, 2, 3, 4, 5, 7, 9, 13, 17, 25, 33, 49, 65, 97, 129] ++
  [193, 257, 385, 513, 769, 1025, 1537, 2049, 3073, 4097, 6145, 8193, 12289, 16385, 24577]

/-- R102 `DEXTRA`. -/
def dextraTable : List Nat :=
  [0, 0, 0, 0, 1, 1, 2, 2, 3, 3, 4, 4, 5, 5, 6] ++ [6, 7, 7, 8, 8, 9, 9, 10, 10, 11, 11, 12, 12, 13, 13]

/-- R111 `ORDER`: which code-length symbol the `k`-th 3-bit field belongs to. -/
def orderTable : List Nat :=
  [16, 17, 18, 0, 8, 7, 9, 6, 10, 5, 11, 4, 12, 3, 13, 2, 14, 1, 15]

/-- `LBASE[i]`, `i` in 0 to 28. -/
def lbase (i : Nat) : Nat := lbaseTable.getD i 0
/-- `LEXTRA[i]`, `i` in 0 to 28. -/
def lextra (i : Nat) : Nat := lextraTable.getD i 0
/-- `DBASE[j]`, `j` in 0 to 29. -/
def dbase (j : Nat) : Nat := dbaseTable.getD j 0
/-- `DEXTRA[j]`, `j` in 0 to 29. -/
def dextra (j : Nat) : Nat := dextraTable.getD j 0

/-- R104 `FIXED_LL`: code lengths of the fixed literal/length code. -/
def fixedLL : List Nat :=
  List.replicate 144 8 ++ List.replicate 112 9 ++ List.replicate 24 7 ++ List.replicate 8 8

/-- R105 `FIXED_D`: code lengths of the fixed distance code. -/
def fixedD : List Nat := List.replicate 30 5

/-! ## The canonical Huffman code -/

/-- R171: `count[0..15]`, with `count[0] = 0` (R172: unused symbols are not counted). -/
def countLengths (lens : List Nat) : List Nat :=
  0 :: (List.range 15).map fun L => lens.count (L + 1)

/-- R171: the loop `left <- 2 * left - count[L]; if left < 0 …` over the counts from length 1 on. -/
def notOverSubscribed : (left : Nat) → (counts : List Nat) → Bool
  | _, [] => true
  | left, c :: cs => if 2 * left < c then false else notOverSubscribed (2 * left - c) cs

/-- R170: a code length array that a table can be built from. -/
def lensValid (lens : List Nat) : Bool :=
  lens.all (fun l => decide (l ≤ Config.maxBits)) && notOverSubscribed 1 ((countLengths lens).drop 1)

/-- R172: `first[1], first[2], …` from `first` of the length before and the counts from that length on. -/
def firstCodes : (first : Nat) → (counts : List Nat) → List Nat
  | _, [] => []
  | first, c :: cs => let f := (first + c) <<< 1
                      f :: firstCodes f cs

/-- R172: codes handed out in symbol order; `next[L]` is the next free code of length `L`. -/
def assignCodes : (next : List Nat) → (lens : List Nat) → List (Option Nat)
  | _, [] => []
  | next, l :: ls =>
    if l = 0 then none :: assignCodes next ls
    else some (next.getD l 0) :: assignCodes (next.set l (next.getD l 0 + 1)) ls

/-- R172 `canonical_codes(lens)`, for a valid array: `none` for an unused symbol. -/
def canonicalCodes (lens : List Nat) : List (Option Nat) :=
  assignCodes (0 :: firstCodes 0 ((countLengths lens).take 15)) lens

/-- R171: every required symbol is in the alphabet and used. -/
def requiredUsed (lens required : List Nat) : Bool :=
  required.all fun s => decide (s < lens.length ∧ lens.getD s 0 ≠ 0)

/-- R171 `build_from_lengths(lens, required)`: `none` is the failure `InvalidHuffmanTable`. -/
def buildTable (lens required : List Nat) : Option HuffTable :=
  if lensValid lens && requiredUsed lens required then
    some ⟨lens.length, lens, countLengths lens, canonicalCodes lens, true⟩
  else none

/-- A table with no symbol and `valid = 0` (R440: the reset contents are unspecified; DESIGN CHOICE, log 6). -/
def HuffTable.empty : HuffTable := ⟨0, [], [], [], false⟩

/-- R104 `T_FLL`, a constant (R32, R440, D28). -/
def tableFLL : HuffTable := (buildTable fixedLL [256]).getD HuffTable.empty

/-- R105 `T_FD`, a constant. -/
def tableFD : HuffTable := (buildTable fixedD []).getD HuffTable.empty

/-- The first symbol, counting from `s`, whose code is the `k`-bit number `v`. -/
def findLeaf (k v : Nat) : (s : Nat) → (lens : List Nat) → (codes : List (Option Nat)) → Option Nat
  | s, l :: ls, c :: cs => if l = k ∧ c = some v then some s else findLeaf k v (s + 1) ls cs
  | _, _, _ => none

/-- R175: the symbol of the leaf reached by the `k` bits with value `v` (first bit most significant). -/
def HuffTable.leafAt (T : HuffTable) (k v : Nat) : Option Nat := findLeaf k v 0 T.lens T.code

/-- R175: some used code longer than `k` bits begins with the `k` bits of value `v`. -/
def HuffTable.innerNode (T : HuffTable) (k v : Nat) : Bool :=
  (T.lens.zip T.code).any fun p => decide (k < p.1) && (p.2.map fun c => c >>> (p.1 - k)) == some v

/-- How a walk through the trie ends, with the number of bits read. -/
inductive SymResult where
  | sym (s used : Nat)
  | short (used : Nat)
  | dead (used : Nat)
  deriving DecidableEq, Repr

/-- R176: the walk from the node reached by `k` bits of value `v`; a bit is read first, then the descent is tested. -/
def HuffTable.walk (T : HuffTable) : (k v : Nat) → (bits : List Bool) → SymResult
  | k, _, [] => .short k
  | k, v, b :: bs =>
    match T.leafAt (k + 1) (2 * v + b.toNat) with
    | some s => .sym s (k + 1)
    | none => if T.innerNode (k + 1) (2 * v + b.toNat) then T.walk (k + 1) (2 * v + b.toNat) bs else .dead (k + 1)

/-- The code bits of symbol `s` in table `T` (R178 (d)), if it has a code. -/
def HuffTable.symBits (T : HuffTable) (s : Nat) : Option (List Bool) :=
  if T.valid then (T.code.getD s none).map fun c => codeBits (T.lens.getD s 0) c else none

/-! ## The decoder -/

/-- Where an instruction stands, which fixes its format (R115, R120). -/
inductive Ctx where
  | ctrl
  | header
  | storedLen
  | dynCounts
  | dynCll
  /-- `first`: no code length has been decoded yet (R226). -/
  | cl (T : HuffTable) (first : Bool)
  | ll (T : HuffTable)
  | dist (T : HuffTable)
  deriving DecidableEq, Repr

/-- What the decoder answers: an instruction and its number of bits, or a rejection by name. -/
inductive DecodeResult where
  | ok (i : Instr) (used : Nat)
  /-- R131: the bits end before the instruction does (`UnexpectedEnd`). -/
  | short
  /-- R176, R229: no symbol, or a symbol outside the alphabet (`InvalidSymbol`). -/
  | noLeaf
  /-- R226: symbol 16 before any code length (`InvalidHuffmanTable`), seen before its extra bits. -/
  | noPrevious
  /-- R381: a `CTRL` write with START = 0. -/
  | noStart
  /-- R385: COMPRESS with a level above 9. -/
  | illegalLevel
  /-- R176: the table is not valid. -/
  | tableInvalid
  deriving DecidableEq, Repr

/-- The `w`-bit extra field after the first `used` bits (R67), given to `mk`. -/
def withField (w : Nat) (bits : List Bool) (used : Nat) (mk : BitVec w → Instr) : DecodeResult :=
  if (bits.drop used).length < w then .short
  else .ok (mk (BitVec.ofNat w (bitsToNat ((bits.drop used).take w)))) (used + w)

/-- R250: the instruction of literal/length symbol `s`, whose code took `used` bits. -/
def llInstr (s : Nat) (bits : List Bool) (used : Nat) : DecodeResult :=
  if s < 144 then .ok (.lit0To143 (BitVec.ofNat 8 s)) used
  else if s < 256 then .ok (.lit144To255 (BitVec.ofNat 8 s)) used
  else match s with
  | 256 => .ok .eob used
  | 257 => .ok .len257 used
  | 258 => .ok .len258 used
  | 259 => .ok .len259 used
  | 260 => .ok .len260 used
  | 261 => .ok .len261 used
  | 262 => .ok .len262 used
  | 263 => .ok .len263 used
  | 264 => .ok .len264 used
  | 265 => withField 1 bits used .len265
  | 266 => withField 1 bits used .len266
  | 267 => withField 1 bits used .len267
  | 268 => withField 1 bits used .len268
  | 269 => withField 2 bits used .len269
  | 270 => withField 2 bits used .len270
  | 271 => withField 2 bits used .len271
  | 272 => withField 2 bits used .len272
  | 273 => withField 3 bits used .len273
  | 274 => withField 3 bits used .len274
  | 275 => withField 3 bits used .len275
  | 276 => withField 3 bits used .len276
  | 277 => withField 4 bits used .len277
  | 278 => withField 4 bits used .len278
  | 279 => withField 4 bits used .len279
  | 280 => withField 4 bits used .len280
  | 281 => withField 5 bits used .len281
  | 282 => withField 5 bits used .len282
  | 283 => withField 5 bits used .len283
  | 284 => withField 5 bits used .len284
  | 285 => .ok .len285 used
  | 286 => .ok .ll286 used
  | 287 => .ok .ll287 used
  | _ => .noLeaf

/-- R254, R258: the instruction of distance symbol `j`. -/
def distInstr (j : Nat) (bits : List Bool) (used : Nat) : DecodeResult :=
  match j with
  | 0 => .ok .dist0 used
  | 1 => .ok .dist1 used
  | 2 => .ok .dist2 used
  | 3 => .ok .dist3 used
  | 4 => withField 1 bits used .dist4
  | 5 => withField 1 bits used .dist5
  | 6 => withField 2 bits used .dist6
  | 7 => withField 2 bits used .dist7
  | 8 => withField 3 bits used .dist8
  | 9 => withField 3 bits used .dist9
  | 10 => withField 4 bits used .dist10
  | 11 => withField 4 bits used .dist11
  | 12 => withField 5 bits used .dist12
  | 13 => withField 5 bits used .dist13
  | 14 => withField 6 bits used .dist14
  | 15 => withField 6 bits used .dist15
  | 16 => withField 7 bits used .dist16
  | 17 => withField 7 bits used .dist17
  | 18 => withField 8 bits used .dist18
  | 19 => withField 8 bits used .dist19
  | 20 => withField 9 bits used .dist20
  | 21 => withField 9 bits used .dist21
  | 22 => withField 10 bits used .dist22
  | 23 => withField 10 bits used .dist23
  | 24 => withField 11 bits used .dist24
  | 25 => withField 11 bits used .dist25
  | 26 => withField 12 bits used .dist26
  | 27 => withField 12 bits used .dist27
  | 28 => withField 13 bits used .dist28
  | 29 => withField 13 bits used .dist29
  | 30 => .ok .dist30 used
  | 31 => .ok .dist31 used
  | _ => .noLeaf

/-- R222: the instruction of code-length symbol `c`. -/
def clInstr (first : Bool) (c : Nat) (bits : List Bool) (used : Nat) : DecodeResult :=
  if c < 16 then .ok (.clLen (BitVec.ofNat 4 c)) used
  else match c with
  | 16 => if first then .noPrevious else withField 2 bits used .clRep16
  | 17 => withField 3 bits used .clZero17
  | 18 => withField 7 bits used .clZero18
  | _ => .noLeaf

/-- A Huffman-coded instruction: its symbol, then what `next` makes of it. -/
def withSymbol (T : HuffTable) (bits : List Bool) (next : Nat → List Bool → Nat → DecodeResult) : DecodeResult :=
  if T.valid then
    match T.walk 0 0 bits with
    | .sym s used => next s bits used
    | .short _ => .short
    | .dead _ => .noLeaf
  else .tableInvalid

/-- R91, R92: the instruction of a block header with BFINAL `f` and BTYPE bits `b0` (bit 0), `b1` (bit 1). -/
def headerInstr (f b0 b1 : Bool) : Instr :=
  match b1, b0 with
  | false, false => .blkStored f
  | false, true => .blkFixed f
  | true, false => .blkDynamic f
  | true, true => .blkReserved f

/-- R21, R119, R381, R385: a write of the 8 bits of `CTRL`. Bits 3:2 are ignored. -/
def ctrlInstr (start op : Bool) (level : BitVec 4) : DecodeResult :=
  if start then
    if op then (if level.toNat ≤ 9 then .ok (.compress level) 8 else .illegalLevel)
    else .ok (.decompress level) 8
  else .noStart

/-- The decoder: the instruction at the head of `bits` in context `c`. -/
def decode (c : Ctx) (bits : List Bool) : DecodeResult :=
  match c with
  | .ctrl =>
    match bits with
    | start :: op :: _ :: _ :: l0 :: l1 :: l2 :: l3 :: _ =>
      ctrlInstr start op (BitVec.ofNat 4 (bitsToNat [l0, l1, l2, l3]))
    | _ => .short
  | .header =>
    match bits with
    | f :: b0 :: b1 :: _ => .ok (headerInstr f b0 b1) 3
    | _ => .short
  | .storedLen =>
    if bits.length < 32 then .short
    else .ok (.storedLen (BitVec.ofNat 16 (bitsToNat (bits.take 16)))
      (BitVec.ofNat 16 (bitsToNat ((bits.drop 16).take 16)))) 32
  | .dynCounts =>
    if bits.length < 14 then .short
    else .ok (.dynCounts (BitVec.ofNat 5 (bitsToNat (bits.take 5))) (BitVec.ofNat 5 (bitsToNat ((bits.drop 5).take 5)))
      (BitVec.ofNat 4 (bitsToNat ((bits.drop 10).take 4)))) 14
  | .dynCll => withField 3 bits 0 .dynCll
  | .cl T first => withSymbol T bits (clInstr first)
  | .ll T => withSymbol T bits llInstr
  | .dist T => withSymbol T bits distInstr

/-- The decoder on bytes (R8). -/
def decodeBytes (c : Ctx) (bs : List Byte) : DecodeResult := decode c (bytesToBits bs)

/-! ## The encoder -/

/-- R97, R251, R252, R257: symbol number and extra-bits field of a literal/length instruction. -/
def llParts : Instr → Option (Nat × List Bool)
  | .lit0To143 b => some (b.toNat, [])
  | .lit144To255 b => some (b.toNat, [])
  | .eob => some (256, [])
  | .len257 => some (257, [])
  | .len258 => some (258, [])
  | .len259 => some (259, [])
  | .len260 => some (260, [])
  | .len261 => some (261, [])
  | .len262 => some (262, [])
  | .len263 => some (263, [])
  | .len264 => some (264, [])
  | .len265 x => some (265, fieldBits 1 x.toNat)
  | .len266 x => some (266, fieldBits 1 x.toNat)
  | .len267 x => some (267, fieldBits 1 x.toNat)
  | .len268 x => some (268, fieldBits 1 x.toNat)
  | .len269 x => some (269, fieldBits 2 x.toNat)
  | .len270 x => some (270, fieldBits 2 x.toNat)
  | .len271 x => some (271, fieldBits 2 x.toNat)
  | .len272 x => some (272, fieldBits 2 x.toNat)
  | .len273 x => some (273, fieldBits 3 x.toNat)
  | .len274 x => some (274, fieldBits 3 x.toNat)
  | .len275 x => some (275, fieldBits 3 x.toNat)
  | .len276 x => some (276, fieldBits 3 x.toNat)
  | .len277 x => some (277, fieldBits 4 x.toNat)
  | .len278 x => some (278, fieldBits 4 x.toNat)
  | .len279 x => some (279, fieldBits 4 x.toNat)
  | .len280 x => some (280, fieldBits 4 x.toNat)
  | .len281 x => some (281, fieldBits 5 x.toNat)
  | .len282 x => some (282, fieldBits 5 x.toNat)
  | .len283 x => some (283, fieldBits 5 x.toNat)
  | .len284 x => some (284, fieldBits 5 x.toNat)
  | .len285 => some (285, [])
  | .ll286 => some (286, [])
  | .ll287 => some (287, [])
  | _ => none

/-- R97, R254, R258: symbol number and extra-bits field of a distance instruction. -/
def distParts : Instr → Option (Nat × List Bool)
  | .dist0 => some (0, [])
  | .dist1 => some (1, [])
  | .dist2 => some (2, [])
  | .dist3 => some (3, [])
  | .dist4 y => some (4, fieldBits 1 y.toNat)
  | .dist5 y => some (5, fieldBits 1 y.toNat)
  | .dist6 y => some (6, fieldBits 2 y.toNat)
  | .dist7 y => some (7, fieldBits 2 y.toNat)
  | .dist8 y => some (8, fieldBits 3 y.toNat)
  | .dist9 y => some (9, fieldBits 3 y.toNat)
  | .dist10 y => some (10, fieldBits 4 y.toNat)
  | .dist11 y => some (11, fieldBits 4 y.toNat)
  | .dist12 y => some (12, fieldBits 5 y.toNat)
  | .dist13 y => some (13, fieldBits 5 y.toNat)
  | .dist14 y => some (14, fieldBits 6 y.toNat)
  | .dist15 y => some (15, fieldBits 6 y.toNat)
  | .dist16 y => some (16, fieldBits 7 y.toNat)
  | .dist17 y => some (17, fieldBits 7 y.toNat)
  | .dist18 y => some (18, fieldBits 8 y.toNat)
  | .dist19 y => some (19, fieldBits 8 y.toNat)
  | .dist20 y => some (20, fieldBits 9 y.toNat)
  | .dist21 y => some (21, fieldBits 9 y.toNat)
  | .dist22 y => some (22, fieldBits 10 y.toNat)
  | .dist23 y => some (23, fieldBits 10 y.toNat)
  | .dist24 y => some (24, fieldBits 11 y.toNat)
  | .dist25 y => some (25, fieldBits 11 y.toNat)
  | .dist26 y => some (26, fieldBits 12 y.toNat)
  | .dist27 y => some (27, fieldBits 12 y.toNat)
  | .dist28 y => some (28, fieldBits 13 y.toNat)
  | .dist29 y => some (29, fieldBits 13 y.toNat)
  | .dist30 => some (30, [])
  | .dist31 => some (31, [])
  | _ => none

/-- R113: symbol number and extra-bits field of a code-length instruction. -/
def clParts : Instr → Option (Nat × List Bool)
  | .clLen v => some (v.toNat, [])
  | .clRep16 x => some (16, fieldBits 2 x.toNat)
  | .clZero17 x => some (17, fieldBits 3 x.toNat)
  | .clZero18 x => some (18, fieldBits 7 x.toNat)
  | _ => none

/-- A symbol's code (R68) followed by its extra-bits field (R67). -/
def encodeParts (T : HuffTable) (p : Option (Nat × List Bool)) : Option (List Bool) :=
  p.bind fun q => (T.symBits q.1).map fun code => code ++ q.2

/-- The encoder: the stream bits (for a command, the bits of the `CTRL` write) of an instruction in context `c`;
`none` where the instruction has no encoding there. Unit operations have none anywhere (R119). -/
def encode (c : Ctx) (i : Instr) : Option (List Bool) :=
  match c with
  | .ctrl =>
    match i with
    | .decompress level => some ([true, false, false, false] ++ fieldBits 4 level.toNat)
    | .compress level => some ([true, true, false, false] ++ fieldBits 4 level.toNat)
    | _ => none
  | .header =>
    match i with
    | .blkStored f => some [f, false, false]
    | .blkFixed f => some [f, true, false]
    | .blkDynamic f => some [f, false, true]
    | .blkReserved f => some [f, true, true]
    | _ => none
  | .storedLen =>
    match i with
    | .storedLen len nlen => some (fieldBits 16 len.toNat ++ fieldBits 16 nlen.toNat)
    | _ => none
  | .dynCounts =>
    match i with
    | .dynCounts hlit hdist hclen => some (fieldBits 5 hlit.toNat ++ fieldBits 5 hdist.toNat ++ fieldBits 4 hclen.toNat)
    | _ => none
  | .dynCll =>
    match i with
    | .dynCll v => some (fieldBits 3 v.toNat)
    | _ => none
  | .cl T _ => encodeParts T (clParts i)
  | .ll T => encodeParts T (llParts i)
  | .dist T => encodeParts T (distParts i)

/-! ## Words as spec/opcode_table.json writes them

The table gives a word without its context, and two formats may share a bit pattern. `tableSlot` names the context in
which a table word of `nbits` bits is read, and its stream bits (log 14). A row with a `width` is a value assembled by
`read_bits` or a `CTRL` value, bit 0 first in the stream (R120); a symbol row is a string in stream order, whose first
character is the word's most significant bit. -/

/-- The instruction that occupies exactly all of `bits` in context `c`. -/
def decodeExact (c : Ctx) (bits : List Bool) : Option Instr :=
  match decode c bits with
  | .ok i used => if used = bits.length then some i else none
  | _ => none

/-- Is `i` a literal? -/
def Instr.isLiteral : Instr → Bool
  | .lit0To143 _ | .lit144To255 _ => true
  | _ => false

/-- Context and stream bits of a table word. -/
def tableSlot (nbits w : Nat) : Option (Ctx × List Bool) :=
  if nbits = 32 then some (.storedLen, fieldBits 32 w)
  else if nbits ≤ 3 then some (.header, fieldBits 3 w)
  else if nbits = 8 ∧ w < 8 ∧ w ≠ 1 ∧ w ≠ 3 then some (.header, fieldBits 3 w)
  else if (decodeExact (.dist tableFD) (codeBits nbits w)).isSome then some (.dist tableFD, codeBits nbits w)
  else match decodeExact (.ll tableFLL) (codeBits nbits w) with
  | some i =>
    if nbits = 8 ∧ i.isLiteral ∧ w % 2 = 1 then some (.ctrl, fieldBits 8 w)
    else some (.ll tableFLL, codeBits nbits w)
  | none =>
    if nbits = 8 then some (.ctrl, fieldBits 8 w)
    else if (nbits = 14 ∨ nbits = 16) ∧ w < 2 ^ 14 then some (.dynCounts, fieldBits 14 w)
    else none

/-- The instruction the decoder reads from a table word. -/
def decodeTableWord (nbits w : Nat) : Option Instr :=
  (tableSlot nbits w).bind fun p =>
    match decode p.1 p.2 with
    | .ok i _ => some i
    | _ => none

end Sys2Proof
end

