-- ==== Sys2Proof/Machine/State.lean ====
section
/-! DEFINITION. The state of the block (10_state.md), the reasons a step can stop, and the state after reset. Registers a
host sees as words are bit vectors; offsets, counts and symbol numbers inside the engines are natural numbers whose
ranges are an invariant (R11; `Safety.lean`), since no rule shifts, masks or wraps them (R458). -/

namespace Sys2Proof.Machine

/-- R26, R27: the contents of a byte memory, as the cells that hold a value the model knows: addresses strictly rising. An
address that is not listed holds an unspecified byte. -/
abbrev Memory := List Host.Cell

/-- R22 `STATUS.STATE`. -/
inductive CallState where
  | idle
  | busy
  | done
  | error
  deriving DecidableEq, Repr

/-- R22: the fields of `STATUS`. `errCause` is `none` for code 0. -/
structure Status where
  state      : CallState
  errClass   : ErrClass
  errCause   : Option Cause
  fixedReady : Bool
  deriving DecidableEq, Repr

/-- R28: the Bit Reader's cursor. -/
structure Reader where
  byte : Nat
  bit  : Nat
  len  : Nat
  deriving DecidableEq, Repr

/-- R30: the Bit Writer. -/
structure Writer where
  acc      : Byte
  cnt      : Nat
  finished : Bool
  deriving DecidableEq, Repr

/-- R34 `INF.state`. -/
inductive BlockState where
  | start
  | stored
  | fixedHuffman
  | dynamicHuffman
  | finished
  deriving DecidableEq, Repr

/-- The model's own: which part of a block the inflate engine reads next (R211 to R229; log 2). -/
inductive Phase where
  | header
  | storedLen
  | dynCounts
  | dynCll
  | codeLengths
  | body
  | distance
  deriving DecidableEq, Repr

/-- R34, R35: the registers of the Decompressor; `phase` and `k` (the index of R220's loop) are the model's own. -/
structure Inflate where
  state : BlockState
  final : Bool
  btype : BitVec 2
  LEN   : BitVec 16
  NLEN  : BitVec 16
  hlit  : BitVec 5
  hdist : BitVec 5
  hclen : BitVec 4
  cll   : Vector (BitVec 3) 19
  L     : Vector (BitVec 4) 320
  i     : Nat
  sym   : Nat
  mlen  : Nat
  dsym  : Nat
  mdist : Nat
  phase : Phase
  k     : Nat
  deriving DecidableEq, Repr

/-- R36: the registers of the Compressor. -/
structure Deflate where
  level    : BitVec 4
  pos      : Nat
  bestLen  : Nat
  bestDist : Nat
  examined : Nat
  deriving DecidableEq, Repr

/-- R33: the arrays of the Huffman encoder. -/
structure Encoder where
  freq  : List Len
  elen  : List Nat
  ecode : List (Option Nat)
  deriving DecidableEq, Repr

/-- The model's own: what a unit operation returns (log 3). -/
inductive Ret where
  | none
  /-- The operation raised `c` outside a call. -/
  | raised (c : Cause)
  | num (v : Nat)
  | flag (b : Bool)
  /-- R350: the two numbers of `longest_match`. -/
  | pair (a b : Nat)
  | codes (cs : List (Option Nat))
  deriving DecidableEq, Repr

/-- R380: the moves by which the host changes the block. -/
inductive HostMove where
  | writeIn (addr : Nat) (b : Byte)
  | writeInLen (v : Len)
  | writeOutMax (v : Len)
  | writeCtrl (v : BitVec 8)
  deriving DecidableEq, Repr

/-- R20: the state of the block; `ret`, `host` and `fresh` are the model's own (logs 3, 4, 5). -/
structure State where
  ctrl   : BitVec 8
  status : Status
  inLen  : Len
  outLen : Len
  outMax : Len
  inBuf  : Memory
  outBuf : Memory
  rd     : Reader
  wr     : Writer
  tCL    : HuffTable
  tLL    : HuffTable
  tD     : HuffTable
  enc    : Encoder
  inf    : Inflate
  dfl    : Deflate
  ret    : Ret
  host   : List HostMove
  fresh  : Nat
  deriving DecidableEq, Repr

/-- Why the machine stops with a fault. The spec's own errors are no faults: they are the abort of R410. -/
inductive Fault where
  /-- A host write to an address of `IN` at or above 2^LENW - 1, which does not exist (R26). Raised by the host move;
  safe: the machine stops. -/
  | noSuchCell
  deriving DecidableEq, Repr

/-- Why the machine refuses. -/
inductive Refusal where
  /-- An instruction without a meaning in the model; safe. No arm of `exec` uses it. -/
  | notModelled (mnemonic : String)
  /-- Operands for which the spec itself refuses a unit operation (R136, R151, R194; I20, I22). Raised by READ_BITS,
  WRITE_BITS and BUILD_CODES; safe. -/
  | outsideContract
  /-- A writer operation after `finish()` (R151, R153, R155, R452). Raised by the writer; safe. -/
  | writerFinished
  /-- `decode_symbol` on a table with `valid` = 0 (R176). Raised by decoding; safe. -/
  | tableInvalid
  /-- A COMPRESS command with level 10 to 15 (R385). Raised by the command; safe. -/
  | illegalLevel
  /-- A host move while a call runs (R384). Raised by the host's moves; safe. -/
  | hostBusy
  deriving DecidableEq, Repr

/-- R440, R28: the Bit Reader after reset. -/
def Reader.reset : Reader := ⟨0, 0, 0⟩

/-- R440, R150: the Bit Writer after reset and at the start of a compress call. -/
def Writer.reset : Writer := ⟨0, 0, false⟩

/-- R440, R34, R35: the registers of the Decompressor after reset. -/
def Inflate.reset : Inflate :=
  { state := .start, final := false, btype := 0, LEN := 0, NLEN := 0, hlit := 0, hdist := 0, hclen := 0
    cll := Vector.replicate 19 0, L := Vector.replicate 320 0
    i := 0, sym := 0, mlen := 0, dsym := 0, mdist := 0, phase := .header, k := 0 }

/-- R440, R36: the registers of the Compressor after reset. -/
def Deflate.reset : Deflate := ⟨0, 0, 0, 0, 0⟩

/-- R440: the state after power-on reset. The contents of the per-block tables and of the encoder arrays are unspecified;
they are empty here (DESIGN CHOICE, log 6). `IN` and `OUT` list nothing: their contents are free bytes (log 5). -/
def State.reset : State :=
  { ctrl := 0
    status := ⟨.idle, .none, none, false⟩
    inLen := 0, outLen := 0, outMax := BitVec.allOnes Config.lenw
    inBuf := [], outBuf := []
    rd := Reader.reset, wr := Writer.reset
    tCL := HuffTable.empty, tLL := HuffTable.empty, tD := HuffTable.empty
    enc := ⟨[], [], []⟩
    inf := Inflate.reset, dfl := Deflate.reset
    ret := .none, host := [], fresh := 0 }

end Sys2Proof.Machine
end

