-- ==== Sys2Proof/Machine/Ops.lean ====
section
/-! DEFINITION. The shared operations over memory and registers: byte memories, results of operations, free values,
appending to `OUT` (R66), raising an error and the abort of a call (R410), the start (R381, R442) and the end (R388) of a
call. -/

namespace Sys2Proof.Machine

/-! ## Byte memories -/

/-- The byte listed at address `a`. -/
def Memory.read? : Memory → (a : Nat) → Option Byte
  | [], _ => none
  | (k, b) :: m, a => if k = a then some b else Memory.read? m a

/-- `m` with byte `b` at address `a`; keeps the addresses rising. -/
def Memory.write : Memory → (a : Nat) → (b : Byte) → Memory
  | [], a, b => [(a, b)]
  | (k, c) :: m, a, b =>
    if a < k then (a, b) :: (k, c) :: m
    else if a = k then (a, b) :: m
    else (k, c) :: Memory.write m a b

/-- Every address listed is above `lo` (if there is a `lo`) and the addresses rise strictly. -/
def Memory.risesFrom : (lo : Option Nat) → Memory → Bool
  | _, [] => true
  | lo, (k, _) :: m => decide (∀ l ∈ lo, l < k) && Memory.risesFrom (some k) m

/-- The canonical form of a memory. An unlisted address reads as no known value, so rising addresses are all of it. -/
def Memory.wf (m : Memory) : Bool := Memory.risesFrom none m

/-- The bytes `bs` from address `a` on. -/
def Memory.writeList (m : Memory) (a : Nat) : (bs : List Byte) → Memory
  | [] => m
  | b :: bs => Memory.writeList (m.write a b) (a + 1) bs

/-- R10 `MemRead(IN, a, 1)`; a free byte where the host has written nothing (R26; log 5). -/
def inByte (s : State) (a : Nat) : Byte := (s.inBuf.read? a).getD (Config.freeInByte a)

/-- R10 `MemRead(OUT, a, 1)`; a free byte where the contents are unspecified (R27; log 5). -/
def outByte (s : State) (a : Nat) : Byte := (s.outBuf.read? a).getD (Config.freeOutByte s.fresh a)

/-! ## Results of operations -/

/-- The result of an operation inside the block: a value and the state, a raised cause and the state at that moment, or a
refusal. -/
inductive Res (α : Type) where
  | ok (a : α) (s : State)
  | raise (c : Cause) (s : State)
  | refuse (r : Refusal)

/-- Sequencing: lines of pseudocode happen in order (R10). -/
def Res.bind {α β : Type} (r : Res α) (f : α → State → Res β) : Res β :=
  match r with
  | .ok a s => f a s
  | .raise c s => .raise c s
  | .refuse w => .refuse w

/-- R10 `for x in l`: the body runs for each element in order. -/
def Res.each {α : Type} (f : α → State → Res Unit) : (l : List α) → State → Res Unit
  | [], s => .ok () s
  | a :: l, s => (f a s).bind fun _ s' => Res.each f l s'

/-! ## Unspecified register contents

R410: after an abort every engine register and per-block table is unspecified. R442, R32: so are the INF working registers and
the contents of the per-block tables at the start of a decompress call. Each is a free value within the register's width (log 11). -/

/-- An unspecified Bit Reader. -/
def freeReader (t : Nat) : Reader :=
  ⟨Config.freeNat t 0 % 2 ^ Config.lenw, Config.freeNat t 1 % 8, Config.freeNat t 2 % 2 ^ Config.lenw⟩

/-- An unspecified Bit Writer. -/
def freeWriter (t : Nat) : Writer :=
  ⟨BitVec.ofNat 8 (Config.freeNat t 3), Config.freeNat t 4 % 8, Config.freeNat t 5 % 2 = 1⟩

/-- An unspecified value of `INF.state`. -/
def freeBlockState (v : Nat) : BlockState :=
  match v % 5 with
  | 0 => .start
  | 1 => .stored
  | 2 => .fixedHuffman
  | 3 => .dynamicHuffman
  | _ => .finished

/-- Unspecified registers of the Decompressor; the model's own `phase` and `k` are at their start values. -/
def freeInflate (t : Nat) : Inflate :=
  { state := freeBlockState (Config.freeNat t 10), final := Config.freeNat t 11 % 2 = 1
    btype := BitVec.ofNat 2 (Config.freeNat t 12)
    LEN := BitVec.ofNat 16 (Config.freeNat t 13), NLEN := BitVec.ofNat 16 (Config.freeNat t 14)
    hlit := BitVec.ofNat 5 (Config.freeNat t 15), hdist := BitVec.ofNat 5 (Config.freeNat t 16)
    hclen := BitVec.ofNat 4 (Config.freeNat t 17)
    cll := ⟨((List.range 19).map fun j => BitVec.ofNat 3 (Config.freeNat t (100 + j))).toArray, by simp⟩
    L := ⟨((List.range 320).map fun j => BitVec.ofNat 4 (Config.freeNat t (200 + j))).toArray, by simp⟩
    i := Config.freeNat t 18 % 2 ^ 9, sym := Config.freeNat t 19 % 2 ^ 9, mlen := Config.freeNat t 20 % 2 ^ 9
    dsym := Config.freeNat t 21 % 2 ^ 5, mdist := Config.freeNat t 22 % 2 ^ 16, phase := .header, k := 0 }

/-- Unspecified registers of the Compressor. -/
def freeDeflate (t : Nat) : Deflate :=
  ⟨BitVec.ofNat 4 (Config.freeNat t 30), Config.freeNat t 31 % 2 ^ Config.lenw, Config.freeNat t 32 % 2 ^ 9,
   Config.freeNat t 33 % 2 ^ 16, Config.freeNat t 34 % 2 ^ 16⟩

/-- An unspecified per-block table; `base` tells the tables' slots apart. -/
def freeTable (t base : Nat) : HuffTable :=
  { n := Config.freeNat t base % 321
    lens := (List.range (Config.freeNat t base % 321)).map fun j => Config.freeNat t (base + 100 + j) % 16
    count := (List.range 16).map fun L => Config.freeNat t (base + 50 + L) % 321
    code := (List.range (Config.freeNat t base % 321)).map fun j => some (Config.freeNat t (base + 500 + j) % 2 ^ 15)
    valid := Config.freeNat t (base + 1) % 2 = 1 }

/-! ## Errors -/

/-- R401: the class of a cause. -/
def causeClass : Cause → ErrClass
  | .unexpectedEnd => .unexpectedEnd
  | .outputOverflow => .resourceExhausted
  | .invalidBlockType | .invalidHuffmanTable | .invalidStoredLength | .invalidBackReference | .invalidSymbol => .corruptedFile

/-- R410: the abort of the current call with cause `c`. The engine registers, the per-block tables and the contents of `OUT`
are unspecified afterwards; `IN`, `IN_LEN`, `OUT_MAX` and `FIXED_READY` are unchanged. `FREQ`, `ELEN` and `ECODE`, which R410
does not name, are kept (DESIGN CHOICE, log 29). There is no return from it (R411):
the next call starts fresh. -/
def abort (c : Cause) (s : State) : State :=
  { s with
    status := { s.status with state := .error, errClass := causeClass c, errCause := some c }
    outLen := 0
    outBuf := []
    rd := freeReader s.fresh
    wr := freeWriter s.fresh
    tCL := freeTable s.fresh 1000
    tLL := freeTable s.fresh 2000
    tD := freeTable s.fresh 3000
    inf := freeInflate s.fresh
    dfl := freeDeflate s.fresh
    ret := .raised c
    fresh := s.fresh + 1 }

/-- R10 `raise c`: aborts the current call. Outside a call there is none to abort: the unit operation reports the cause to
whoever issued it, and the state stays as the operation left it (V71; log 3). -/
def raiseError (c : Cause) (s : State) : State :=
  if s.status.state = .busy then abort c s else { s with ret := .raised c }

/-- The outcome of an instruction that returns nothing. -/
def Res.toNext : Res Unit → Host.Outcome State Fault Refusal
  | .ok _ s => .next s
  | .raise c s => .next (raiseError c s)
  | .refuse r => .refused r

/-- The outcome of a unit operation: the value it returns is left in `ret`. -/
def Res.toReturn : Res Ret → Host.Outcome State Fault Refusal
  | .ok v s => .next { s with ret := v }
  | .raise c s => .next (raiseError c s)
  | .refuse r => .refused r

/-! ## The output buffer -/

/-- R66 `OutAppend(b)`. -/
def appendByte (b : Byte) (s : State) : Res Unit :=
  if s.outMax ≤ s.outLen then .raise .outputOverflow s
  else .ok () { s with outBuf := s.outBuf.write s.outLen.toNat b, outLen := s.outLen + 1 }

/-! ## Start and end of a call -/

/-- R381, R442: what the start of every call does. `CTRL` keeps OP and LEVEL, START clears itself (R21); the old contents of
`OUT` are dead (R27). `FREQ`, `ELEN` and `ECODE`, which R442 does not list, are kept (DESIGN CHOICE, log 29). -/
def startCall (op : Bool) (level : BitVec 4) (s : State) : State :=
  { s with
    ctrl := BitVec.ofNat 8 (2 * op.toNat + 16 * level.toNat)
    status := { s.status with state := .busy, errClass := .none, errCause := none }
    outLen := 0
    outBuf := []
    fresh := s.fresh + 1 }

/-- R210, R442: the start of a decompress call. The working registers of the Decompressor and the contents of the per-block
tables, with `valid` = 0, are unspecified (log 11). The writer and the Compressor's registers, not used by the call, stay
(DESIGN CHOICE, log 27). -/
def startDecompress (level : BitVec 4) (s : State) : State :=
  let t := startCall false level s
  { t with
    rd := ⟨0, 0, t.inLen.toNat⟩
    inf := { freeInflate s.fresh with state := .start, final := false, btype := 0 }
    tCL := { freeTable s.fresh 1000 with valid := false }
    tLL := { freeTable s.fresh 2000 with valid := false }
    tD := { freeTable s.fresh 3000 with valid := false } }

/-- R340, R442: the start of a compress call. The reader, the Decompressor's registers and the per-block tables, not used by the
call, stay (DESIGN CHOICE, log 27). -/
def startCompress (level : BitVec 4) (s : State) : State :=
  { startCall true level s with
    wr := Writer.reset
    dfl := { level := level, pos := 0, bestLen := 0, bestDist := 0, examined := 0 } }

/-- R388: the end of a call, success. Outside a call there is nothing to end. -/
def completeCall (s : State) : State :=
  if s.status.state = .busy then { s with status := { s.status with state := .done } } else s

/-- R21 `CTRL.OP`: which engine the current call runs. -/
def ctrlOp (s : State) : Bool := s.ctrl.getLsbD 1

end Sys2Proof.Machine
end

