-- ==== Sys2Proof/Machine/Operands.lean ====
section
/-! DEFINITION. The operand forms: values with extra bits (R253, R254), the counts of a dynamic header (R219), the inverse
tables of the encoder (R101, R103), the table instances (R32) and the search effort of a level (R7, R349). -/

namespace Sys2Proof.Machine

/-- R253: the length that length symbol `s` with extra value `x` stands for. -/
def lengthValue (s x : Nat) : Nat := lbase (s - 257) + x

/-- R254: the distance that distance symbol `j` with extra value `y` stands for. -/
def distanceValue (j y : Nat) : Nat := dbase j + y

/-- R219 `nlen`. -/
def Inflate.nlen (f : Inflate) : Nat := f.hlit.toNat + 257
/-- R219 `ndist`. -/
def Inflate.ndist (f : Inflate) : Nat := f.hdist.toNat + 1
/-- R219 `ncode`. -/
def Inflate.ncode (f : Inflate) : Nat := f.hclen.toNat + 4
/-- R222 `total`. -/
def Inflate.total (f : Inflate) : Nat := f.nlen + f.ndist

/-- R221: the lengths of the code-length alphabet. -/
def Inflate.clLens (f : Inflate) : List Nat := f.cll.toList.map BitVec.toNat
/-- R224: the literal/length code lengths. -/
def Inflate.llLens (f : Inflate) : List Nat := (f.L.toList.take f.nlen).map BitVec.toNat
/-- R224: the distance code lengths. -/
def Inflate.dLens (f : Inflate) : List Nat := ((f.L.toList.drop f.nlen).take f.ndist).map BitVec.toNat

/-- The largest index below `n` whose entry in `table` is at most `v`; 0 if there is none. -/
def lastIndexLe (table : List Nat) (v : Nat) : (n : Nat) → Nat
  | 0 => 0
  | n + 1 => if table.getD n 0 ≤ v then n else lastIndexLe table v n

/-- R101: the length index of a length. -/
def lengthIndex (len : Nat) : Nat := if len = 258 then 28 else lastIndexLe lbaseTable len 28

/-- R103: the distance index of a distance. -/
def distanceIndex (dist : Nat) : Nat := lastIndexLe dbaseTable dist 30

/-- R101, R354: the length index and the extra value of a length. For a length outside 3 to 258 they are free values in their
ranges (DESIGN CHOICE, log 16). -/
def lengthFields (len : Nat) : Nat × Nat :=
  if Config.minMatch ≤ len ∧ len ≤ Config.maxMatch then (lengthIndex len, len - lbase (lengthIndex len))
  else (Config.freeLength len 0 % 29, Config.freeLength len 1 % 2 ^ lextra (Config.freeLength len 0 % 29))

/-- R103, R354: the distance index and the extra value of a distance. For a distance outside 1 to 32768 they are free values in
their ranges (DESIGN CHOICE, log 16). -/
def distanceFields (dist : Nat) : Nat × Nat :=
  if 1 ≤ dist ∧ dist ≤ Config.wsize then (distanceIndex dist, dist - dbase (distanceIndex dist))
  else (Config.freeDistance dist 0 % 30, Config.freeDistance dist 1 % 2 ^ dextra (Config.freeDistance dist 0 % 30))

/-- R152: the code that WRITE_CODE writes: the operand within its ranges, a free value of `len` bits outside them (DESIGN CHOICE,
log 16). -/
def writtenCode (code len : Nat) : Nat :=
  if len ≤ Config.maxBits ∧ code < 2 ^ len then code else Config.freeCode code len % 2 ^ len

/-- R172: the codes that CANONICAL_CODES answers: the canonical ones of an array that passes R170; otherwise a free value for each
used symbol (DESIGN CHOICE, log 16). -/
def answeredCodes (lens : List Nat) : List (Option Nat) :=
  if lensValid lens then canonicalCodes lens
  else (List.range lens.length).map fun v => if lens.getD v 0 = 0 then none else some (Config.freeCanonicalCode lens v)

/-- R32: the table a name stands for. The static tables are constants. -/
def tableOf (t : TableId) (s : State) : HuffTable :=
  match t with
  | .fll => tableFLL
  | .fd => tableFD
  | .block .cl => s.tCL
  | .block .ll => s.tLL
  | .block .d => s.tD

/-- Write a per-block table. -/
def setTable (t : BlockTable) (T : HuffTable) (s : State) : State :=
  match t with
  | .cl => { s with tCL := T }
  | .ll => { s with tLL := T }
  | .d => { s with tD := T }

/-- R217, R224: `LL`, the literal/length table of the current block. -/
def currentLL (s : State) : HuffTable := if s.inf.state = .fixedHuffman then tableFLL else s.tLL

/-- R217, R224: `D`, the distance table of the current block. -/
def currentD (s : State) : HuffTable := if s.inf.state = .fixedHuffman then tableFD else s.tD

/-- R7, R349 `CHAIN(level)`, levels 1 to 9: OPEN, the spec's default values are taken (DESIGN CHOICE, log 8). No other level has a
CHAIN; there it is a free value (DESIGN CHOICE, log 16). -/
def chain (level : Nat) : Nat :=
  if 1 ≤ level ∧ level ≤ 9 then [4, 8, 16, 32, 64, 128, 256, 1024, 32768].getD (level - 1) 0
  else Config.freeChain level

end Sys2Proof.Machine
end

