-- ==== Sys2Proof/Machine/Flags.lean ====
section
/-! DEFINITION. The single-bit latches (R37) and the fields of `STATUS` (R22): how they are packed for the host, and the
operations that set and test them. -/

namespace Sys2Proof.Machine

/-- R22: the code of `STATUS.STATE`. -/
def callStateCode : CallState → Nat
  | .idle => 0
  | .busy => 1
  | .done => 2
  | .error => 3

/-- R22: the code of `STATUS.ERR_CLASS`. -/
def errClassCode : ErrClass → Nat
  | .none => 0
  | .unexpectedEnd => 1
  | .corruptedFile => 2
  | .resourceExhausted => 3

/-- R401: the code of a cause. -/
def causeCode : Cause → Nat
  | .unexpectedEnd => 1
  | .invalidBlockType => 2
  | .invalidHuffmanTable => 3
  | .invalidStoredLength => 4
  | .invalidBackReference => 5
  | .invalidSymbol => 6
  | .outputOverflow => 7

/-- R22: `STATUS` as the host reads it. Bits 15:9 read as 0. -/
def statusWord (st : Status) : BitVec 16 :=
  BitVec.ofNat 16 (callStateCode st.state + 4 * errClassCode st.errClass +
    16 * (match st.errCause with | some c => causeCode c | none => 0) + 256 * st.fixedReady.toNat)

/-- R38: the static tables have been built. -/
def setFixedReady (s : State) : State := { s with status := { s.status with fixedReady := true } }

/-- R211, R230: the end of a block. The loop's exit test reads `INF.final`; a final block ends the call (R388), another
header follows otherwise. The tables of a dynamic block are dead from here on (R32, R78) and keep their contents until they are
built again (DESIGN CHOICE, log 28). -/
def endBlock (s : State) : State :=
  if s.inf.final then completeCall { s with inf := { s.inf with state := .finished } }
  else { s with inf := { s.inf with state := .start, phase := .header } }

/-- R21 to R25: what the host reads from register number `n`; `none` for a number that names no register. `IN_LEN` and `OUT_MAX`
are refused while a call runs (R23, R25, R453, I19): `none`. `STATUS` and `OUT_LEN` are readable at any time (R22, R24, R445), and a
read of `CTRL` gives 0 (R21; log 24). -/
def readReg (n : Nat) (s : State) : Option Nat :=
  match n with
  | 0 => some 0
  | 1 => some (statusWord s.status).toNat
  | 2 => if s.status.state = .busy then none else some s.inLen.toNat
  | 3 => some s.outLen.toNat
  | 4 => if s.status.state = .busy then none else some s.outMax.toNat
  | _ => none

/-- R380, R388, R75: what the host reads from `OUT` at `addr`; refused while a call runs (D36). An address at or above 2^LENW - 1
is no cell of `OUT` (R27), so a read there gets no answer (DESIGN CHOICE, log 25). -/
def hostReadOut (addr : Nat) (s : State) : Option Byte :=
  if s.status.state = .busy ∨ 2 ^ Config.lenw - 1 ≤ addr then none else some (outByte s addr)

end Sys2Proof.Machine
end

