-- ==== Sys2Proof/Machine/Reader.lean ====
section
/-! DEFINITION. The Bit Reader (40_bit_reader.md) and the append to `OUT` as unit operations. -/

namespace Sys2Proof.Machine

/-- R29: the stream position of the next unread bit. -/
def streamPos (s : State) : Nat := 8 * s.rd.byte + s.rd.bit

/-- R130: the number of unread bits. -/
def unreadBits (s : State) : Nat := 8 * (s.rd.len - s.rd.byte) - s.rd.bit

/-- R8: stream bit `p` of `IN`. -/
def streamBit (s : State) (p : Nat) : Bool := (inByte s (p / 8)).getLsbD (p % 8)

/-- The `n` stream bits from position `p` on. -/
def streamBits (s : State) (p n : Nat) : List Bool := (List.range n).map fun i => streamBit s (p + i)

/-- The next unread bits, at most `n` of them. -/
def nextBits (n : Nat) (s : State) : List Bool := streamBits s (streamPos s) (min n (unreadBits s))

/-- The cursor `n` bits further on. -/
def advance (n : Nat) (s : State) : State :=
  { s with rd := { s.rd with byte := (streamPos s + n) / 8, bit := (streamPos s + n) % 8 } }

/-- R131 `read_bits(n)`, R136. -/
def readBits (n : Nat) (s : State) : Res Nat :=
  if n = 0 ∨ Config.rdMax < n then .refuse .outsideContract
  else if unreadBits s < n then .raise .unexpectedEnd s
  else .ok (bitsToNat (streamBits s (streamPos s) n)) (advance n s)

/-- R133 `rd_align()`. -/
def rdAlign (s : State) : State :=
  if s.rd.bit ≠ 0 then { s with rd := { s.rd with byte := s.rd.byte + 1, bit := 0 } } else s

/-- R134 `has_data()`. -/
def hasData (s : State) : Bool := decide (s.rd.byte < s.rd.len)

/-- R135 `read_byte()`; its precondition `RD.bit = 0` is the caller's (log 15). -/
def readByte (s : State) : Res Byte :=
  if s.rd.len ≤ s.rd.byte then .raise .unexpectedEnd s
  else .ok (inByte s s.rd.byte) { s with rd := { s.rd with byte := s.rd.byte + 1 } }

/-- READ_BITS, R131. -/
def execReadBits (n : Nat) (s : State) : Host.Outcome State Fault Refusal :=
  ((readBits n s).bind fun v t => Res.ok (Ret.num v) t).toReturn

/-- RD_ALIGN, R133. -/
def execRdAlign (s : State) : Host.Outcome State Fault Refusal :=
  (Res.ok Ret.none (rdAlign s)).toReturn

/-- HAS_DATA, R134. -/
def execHasData (s : State) : Host.Outcome State Fault Refusal :=
  (Res.ok (Ret.flag (hasData s)) s).toReturn

/-- READ_BYTE, R135. -/
def execReadByte (s : State) : Host.Outcome State Fault Refusal :=
  ((readByte s).bind fun b t => Res.ok (Ret.num b.toNat) t).toReturn

/-- OUT_APPEND, R66. -/
def execOutAppend (b : Byte) (s : State) : Host.Outcome State Fault Refusal :=
  ((appendByte b s).bind fun _ t => Res.ok Ret.none t).toReturn

end Sys2Proof.Machine
end

