-- ==== Sys2Proof/Machine/Writer.lean ====
section
/-! DEFINITION. The Bit Writer (41_bit_writer.md). -/

namespace Sys2Proof.Machine

/-- R151: the body of the loop of `write_bits`: one bit goes to the lowest free position; a full byte is appended. -/
def writeBit (b : Bool) (s : State) : Res Unit :=
  let acc : Byte := s.wr.acc + BitVec.ofNat 8 (b.toNat <<< s.wr.cnt)
  if s.wr.cnt = 7 then
    (appendByte acc { s with wr := { s.wr with acc := acc } }).bind fun _ t =>
      .ok () { t with wr := { t.wr with acc := 0, cnt := 0 } }
  else .ok () { s with wr := { s.wr with acc := acc, cnt := s.wr.cnt + 1 } }

/-- R151 `write_bits(value, n)`: bits `n-1` to 0 of `value`, bit 0 first. -/
def writeBits (value n : Nat) (s : State) : Res Unit :=
  if n = 0 ∨ Config.rdMax < n then .refuse .outsideContract
  else if s.wr.finished then .refuse .writerFinished
  else Res.each writeBit (fieldBits n value) s

/-- R152 `write_code(code, len)`: most-significant code bit first. Operands outside the ranges of R152 write `len` free bits
(log 16). -/
def writeCode (code len : Nat) (s : State) : Res Unit :=
  if s.wr.finished then .refuse .writerFinished
  else Res.each (fun b t => writeBits b.toNat 1 t) (codeBits len (writtenCode code len)) s

/-- R153 `wr_align()`. -/
def wrAlign (s : State) : Res Unit :=
  if s.wr.finished then .refuse .writerFinished
  else if s.wr.cnt ≠ 0 then
    (appendByte s.wr.acc s).bind fun _ t => .ok () { t with wr := { t.wr with acc := 0, cnt := 0 } }
  else .ok () s

/-- R154 `write_byte(b)`. -/
def writeByte (b : Byte) (s : State) : Res Unit := writeBits b.toNat 8 s

/-- R155 `finish()`: a final alignment; the result is `OUT[0 .. OUT_LEN-1]`. -/
def finish (s : State) : Res Unit :=
  (wrAlign s).bind fun _ t => .ok () { t with wr := { t.wr with finished := true } }

/-- WRITE_BITS, R151. -/
def execWriteBits (value n : Nat) (s : State) : Host.Outcome State Fault Refusal :=
  ((writeBits value n s).bind fun _ t => Res.ok Ret.none t).toReturn

/-- WRITE_CODE, R152. -/
def execWriteCode (code len : Nat) (s : State) : Host.Outcome State Fault Refusal :=
  ((writeCode code len s).bind fun _ t => Res.ok Ret.none t).toReturn

/-- WR_ALIGN, R153. -/
def execWrAlign (s : State) : Host.Outcome State Fault Refusal :=
  ((wrAlign s).bind fun _ t => Res.ok Ret.none t).toReturn

/-- WRITE_BYTE, R154. -/
def execWriteByte (b : Byte) (s : State) : Host.Outcome State Fault Refusal :=
  ((writeByte b s).bind fun _ t => Res.ok Ret.none t).toReturn

/-- FINISH, R155: the length of the result is returned; its bytes stand in `OUT`. -/
def execFinish (s : State) : Host.Outcome State Fault Refusal :=
  ((finish s).bind fun _ t => Res.ok (Ret.num t.outLen.toNat) t).toReturn

end Sys2Proof.Machine
end

