-- ==== Sys2Proof/Machine/Huffman.lean ====
section
/-! DEFINITION. The Huffman tables: the decode side (42_huffman_decode.md) and the length-limited code builder
(43_huffman_encode.md). The table functions themselves stand in `Decode.lean`. -/

namespace Sys2Proof.Machine

/-- R171: build a per-block table; a failed build clears `T.valid` (R37) and raises. The table `t` is an operand of the model's
own: R171 returns the table and names no instance (DESIGN CHOICE, log 23). -/
def buildInto (t : BlockTable) (lens required : List Nat) (s : State) : Res Unit :=
  match buildTable lens required with
  | some T => .ok () (setTable t T s)
  | none => .raise .invalidHuffmanTable (setTable t { tableOf (.block t) s with valid := false } s)

/-- R176 `decode_symbol(T)`. A code has at most 15 bits, so 16 unread bits decide the walk. -/
def decodeSymbol (t : TableId) (s : State) : Res Nat :=
  if (tableOf t s).valid then
    match (tableOf t s).walk 0 0 (nextBits 16 s) with
    | .sym v used => .ok v (advance used s)
    | .short used => .raise .unexpectedEnd (advance used s)
    | .dead used => .raise .invalidSymbol (advance used s)
  else .refuse .tableInvalid

/-- R196 Step A: a Huffman tree. -/
inductive HuffTree where
  | leaf (s : Nat)
  | node (l r : HuffTree)
  deriving DecidableEq, Repr

/-- R196 Step A: an item of the priority queue. -/
structure HuffItem where
  weight : Nat
  order  : Nat
  tree   : HuffTree
  deriving DecidableEq, Repr

/-- Insert into a queue kept in rising (weight, order). -/
def insertItem (x : HuffItem) : List HuffItem → List HuffItem
  | [] => [x]
  | y :: q =>
    if x.weight < y.weight ∨ (x.weight = y.weight ∧ x.order < y.order) then x :: y :: q
    else y :: insertItem x q

/-- R196 Step A: the two smallest items are merged until one is left. -/
def mergeItems : (fuel order : Nat) → List HuffItem → Option HuffTree
  | fuel + 1, k, a :: b :: q => mergeItems fuel (k + 1) (insertItem ⟨a.weight + b.weight, k, .node a.tree b.tree⟩ q)
  | _, _, a :: _ => some a.tree
  | _, _, [] => none

/-- R196 Step A: the depths of the leaves, the root at `d`. -/
def leafDepths : (d : Nat) → HuffTree → List (Nat × Nat)
  | d, .leaf s => [(s, d)]
  | d, .node l r => leafDepths (d + 1) l ++ leafDepths (d + 1) r

/-- The symbols with a frequency above 0, in index order, with their frequencies. -/
def usedSymbols (freqs : List Len) : List (Nat × Nat) :=
  ((List.range freqs.length).zip (freqs.map BitVec.toNat)).filter fun p => p.2 ≠ 0

/-- R196 Step A: depths of the used symbols in the unconstrained tree over an alphabet of `n` symbols. -/
def huffmanDepths (n : Nat) (used : List (Nat × Nat)) : List Nat :=
  match mergeItems used.length n (used.foldl (fun q p => insertItem ⟨p.2, p.1, .leaf p.1⟩ q) []) with
  | some t => (leafDepths 0 t).map Prod.snd
  | none => []

/-- R196 Step A: `num[0..m]`, the number of symbols at each depth. -/
def depthCounts (depths : List Nat) : List Nat :=
  (List.range (depths.foldl max 0 + 1)).map fun l => depths.count l

/-- R196 Step B: the counts above `b` added to `num[b]`. -/
def foldCounts (b : Nat) (num : List Nat) : List Nat := num.take b ++ [(num.drop b).sum]

/-- R196 Step B: the scaled Kraft sum `total`. -/
def kraftTotal (b : Nat) (num : List Nat) : Nat :=
  ((List.range b).map fun j => num.getD (j + 1) 0 <<< (b - (j + 1))).sum

/-- R196 Step B: one code of the longest length at most `l` becomes two of the next length. -/
def splitCode : (l : Nat) → (num : List Nat) → List Nat
  | 0, num => num
  | l + 1, num =>
    if 0 < num.getD (l + 1) 0 then
      (num.set (l + 1) (num.getD (l + 1) 0 - 1)).set (l + 2) (num.getD (l + 2) 0 + 2)
    else splitCode l num

/-- R196 Step B: passes of the loop while `total > 2^b`. -/
def repairCounts (b : Nat) : (fuel total : Nat) → (num : List Nat) → List Nat
  | 0, _, num => num
  | fuel + 1, total, num =>
    if 2 ^ b < total then
      repairCounts b fuel (total - 1) (splitCode (b - 1) (num.set b (num.getD b 0 - 1)))
    else num

/-- R196 Step B. -/
def limitCounts (b : Nat) (num : List Nat) : List Nat :=
  if b + 1 < num.length then
    repairCounts b (kraftTotal b (foldCounts b num)) (kraftTotal b (foldCounts b num)) (foldCounts b num)
  else num

/-- R196 Step C: insertion by falling frequency, then rising index. -/
def insertByFreq (x : Nat × Nat) : List (Nat × Nat) → List (Nat × Nat)
  | [] => [x]
  | y :: l => if y.2 < x.2 ∨ (x.2 = y.2 ∧ x.1 < y.1) then x :: y :: l else y :: insertByFreq x l

/-- R196 Step C: the lengths in rising order, `num[l]` times each. -/
def lengthSupply (num : List Nat) : List Nat :=
  (List.range num.length).flatMap fun l => if l = 0 then [] else List.replicate (num.getD l 0) l

/-- The length handed to symbol `s`; 0 if it got none. -/
def lengthFor (s : Nat) : List (Nat × Nat) → Nat
  | [] => 0
  | (t, l) :: q => if t = s then l else lengthFor s q

/-- R193, R196: the code lengths of the reference `build_codes` (BUILD_CODES of R7; log 9). -/
def referenceLengths (freqs : List Len) (maxBits : Nat) : List Nat :=
  let used := usedSymbols freqs
  let supply :=
    if used.length ≤ 1 then List.replicate used.length 1
    else lengthSupply (limitCounts maxBits (depthCounts (huffmanDepths freqs.length used)))
  let order := used.foldl (fun l p => insertByFreq p l) []
  (List.range freqs.length).map fun s => lengthFor s ((order.map Prod.fst).zip supply)

/-- R191, R194 `build_codes(freqs, max_bits)`. -/
def buildCodes (freqs : List Len) (maxBits : Nat) (s : State) : Res (List (Option Nat)) :=
  if maxBits = 0 ∨ Config.maxBits < maxBits ∨ 2 ^ maxBits < (usedSymbols freqs).length then .refuse .outsideContract
  else
    let lens := referenceLengths freqs maxBits
    .ok (canonicalCodes lens) { s with enc := ⟨freqs, lens, canonicalCodes lens⟩ }

/-- BUILD_FROM_LENGTHS, R171. The result goes to the per-block instance `t` that the operation names (DESIGN CHOICE, log 23), and
`lens` may have any number of entries, with the length in `T.n`: R31 gives `T.n` the range 0 to 320, V99 builds an array of
32768 entries (DESIGN CHOICE, log 22). -/
def execBuildFromLengths (t : BlockTable) (lens required : List Nat) (s : State) : Host.Outcome State Fault Refusal :=
  ((buildInto t lens required s).bind fun _ u => Res.ok Ret.none u).toReturn

/-- CANONICAL_CODES, R172; for an array that fails R170 the codes are free values (log 16). -/
def execCanonicalCodes (lens : List Nat) (s : State) : Host.Outcome State Fault Refusal :=
  (Res.ok (Ret.codes (answeredCodes lens)) s).toReturn

/-- DECODE_SYMBOL, R176. -/
def execDecodeSymbol (t : TableId) (s : State) : Host.Outcome State Fault Refusal :=
  ((decodeSymbol t s).bind fun v u => Res.ok (Ret.num v) u).toReturn

/-- BUILD_CODES, R191: lengths and codes stand in `ELEN` and `ECODE`; the codes are returned. -/
def execBuildCodes (freqs : List Len) (maxBits : Nat) (s : State) : Host.Outcome State Fault Refusal :=
  ((buildCodes freqs maxBits s).bind fun cs u => Res.ok (Ret.codes cs) u).toReturn

end Sys2Proof.Machine
end

