-- ==== Sys2Proof/Machine/Blocks.lean ====
section
/-! DEFINITION. The Decompressor at block level (44_inflate_blocks.md): headers, stored blocks, the header of a dynamic
block and its code length sequence. Each meaning starts after its instruction's bits have been consumed. -/

namespace Sys2Proof.Machine

/-- R212, R213: a header's fields are latched and the block's state entered. -/
def enterBlock (final : Bool) (btype : BitVec 2) (state : BlockState) (phase : Phase) (s : State) : State :=
  { s with inf := { s.inf with final := final, btype := btype, state := state, phase := phase } }

/-- BLK_STORED, R213, R215: the padding up to the byte boundary is discarded; the length fields come next. -/
def execBlkStored (final : Bool) (s : State) : Host.Outcome State Fault Refusal :=
  .next (rdAlign (enterBlock final 0 .stored .storedLen s))

/-- BLK_FIXED, R213, R217, R38. -/
def execBlkFixed (final : Bool) (s : State) : Host.Outcome State Fault Refusal :=
  .next (setFixedReady (enterBlock final 1 .fixedHuffman .body s))

/-- BLK_DYNAMIC, R213, R218. -/
def execBlkDynamic (final : Bool) (s : State) : Host.Outcome State Fault Refusal :=
  .next (enterBlock final 2 .dynamicHuffman .dynCounts s)

/-- BLK_RESERVED, R213, R214: the fields are latched, then the type is rejected. -/
def execBlkReserved (final : Bool) (s : State) : Host.Outcome State Fault Refusal :=
  (Res.raise (α := Unit) .invalidBlockType { s with inf := { s.inf with final := final, btype := 3 } }).toNext

/-- R216: one byte of the stored copy; the read precedes the append. -/
def copyStoredByte (s : State) : Res Unit := (readByte s).bind appendByte

/-- R215, R216: the length check, the copy and the end of the block. -/
def storedBlock (len nlen : BitVec 16) (s : State) : Res Unit :=
  let t := { s with inf := { s.inf with LEN := len, NLEN := nlen } }
  if len ≠ ~~~nlen then .raise .invalidStoredLength t
  else (Res.each (fun _ u => copyStoredByte u) (List.range len.toNat) t).bind fun _ u => .ok () (endBlock u)

/-- STORED_LEN, R215, R216. -/
def execStoredLen (len nlen : BitVec 16) (s : State) : Host.Outcome State Fault Refusal :=
  (storedBlock len nlen s).toNext

/-- DYN_COUNTS, R219, and the clearing of `INF.cll` that opens R220. -/
def execDynCounts (hlit hdist : BitVec 5) (hclen : BitVec 4) (s : State) : Host.Outcome State Fault Refusal :=
  .next { s with inf := { s.inf with hlit := hlit, hdist := hdist, hclen := hclen
                                     cll := Vector.replicate 19 0, k := 0, phase := .dynCll } }

/-- R220: the length of code-length symbol `ORDER[k]`; nothing past the 19 entries. -/
def storeCll (v : BitVec 3) (s : State) : State :=
  { s with inf := { s.inf with cll := s.inf.cll.setIfInBounds (orderTable.getD s.inf.k 19) v, k := s.inf.k + 1 } }

/-- DYN_CLL, R220; after the last field the code-length table is built (R221) and the sequence starts (R222). -/
def execDynCll (v : BitVec 3) (s : State) : Host.Outcome State Fault Refusal :=
  let t := storeCll v s
  if t.inf.k < t.inf.ncode then .next t
  else ((buildInto .cl t.inf.clLens [] t).bind fun _ u =>
    .ok () { u with inf := { u.inf with i := 0, phase := .codeLengths } }).toNext

/-- R222, R224: the exit test of the sequence's loop; at its end the two tables are built, literal/length first. -/
def afterLengths (s : State) : Res Unit :=
  if s.inf.i < s.inf.total then .ok () s
  else (buildInto .ll s.inf.llLens [256] s).bind fun _ t =>
    (buildInto .d t.inf.dLens [] t).bind fun _ u => .ok () { u with inf := { u.inf with phase := .body } }

/-- R225 to R228: `INF.L[INF.i] <- v; INF.i <- INF.i + 1`. -/
def pushLength (v : BitVec 4) (s : State) : State :=
  { s with inf := { s.inf with L := s.inf.L.setIfInBounds s.inf.i v, i := s.inf.i + 1 } }

/-- `rep` times `pushLength v`. -/
def pushLengths (v : BitVec 4) : (rep : Nat) → State → State
  | 0, s => s
  | rep + 1, s => pushLengths v rep (pushLength v s)

/-- R223, R226 to R228: a repeat that would overrun the sequence is invalid and stores nothing. -/
def repeatLength (v : BitVec 4) (rep : Nat) (s : State) : Res Unit :=
  if s.inf.total < s.inf.i + rep then .raise .invalidHuffmanTable s
  else afterLengths (pushLengths v rep s)

/-- CL_LEN, R225. -/
def execClLen (v : BitVec 4) (s : State) : Host.Outcome State Fault Refusal :=
  (afterLengths (pushLength v s)).toNext

/-- CL_REP16, R226. -/
def execClRep16 (x : BitVec 2) (s : State) : Host.Outcome State Fault Refusal :=
  (if s.inf.i = 0 then Res.raise .invalidHuffmanTable s
   else repeatLength (s.inf.L.toList.getD (s.inf.i - 1) 0) (3 + x.toNat) s).toNext

/-- CL_ZERO17, R227. -/
def execClZero17 (x : BitVec 3) (s : State) : Host.Outcome State Fault Refusal :=
  (repeatLength 0 (3 + x.toNat) s).toNext

/-- CL_ZERO18, R228. -/
def execClZero18 (x : BitVec 7) (s : State) : Host.Outcome State Fault Refusal :=
  (repeatLength 0 (11 + x.toNat) s).toNext

end Sys2Proof.Machine
end

