-- ==== Sys2Proof/Machine/Symbols.lean ====
section
/-! DEFINITION. The Decompressor at symbol level (45_inflate_symbols.md): literals, end of block, length symbols, distance
symbols and the back-reference copy. Each meaning starts after its symbol and extra bits have been consumed. -/

namespace Sys2Proof.Machine

/-- R229: `INF.sym` holds the literal/length symbol decoded. -/
def setSym (sym : Nat) (s : State) : State := { s with inf := { s.inf with sym := sym } }

/-- R251: a literal is appended. -/
def literal (b : Byte) (s : State) : Res Unit := appendByte b (setSym b.toNat s)

/-- LIT_0_143, R251. -/
def execLit0To143 (b : Byte) (s : State) : Host.Outcome State Fault Refusal := (literal b s).toNext

/-- LIT_144_255, R251. -/
def execLit144To255 (b : Byte) (s : State) : Host.Outcome State Fault Refusal := (literal b s).toNext

/-- EOB, R252. -/
def execEob (s : State) : Host.Outcome State Fault Refusal := .next (endBlock (setSym 256 s))

/-- R253: a length symbol with extra value `x`; a distance symbol comes next (R250). -/
def lengthSymbol (sym x : Nat) (s : State) : State :=
  { s with inf := { s.inf with sym := sym, mlen := lengthValue sym x, phase := .distance } }

/-- R257, R258: a symbol without meaning. -/
def noMeaning (s : State) : Res Unit := .raise .invalidSymbol s

/-- R256: one byte of the copy, read `INF.mdist` bytes back in the output so far. -/
def copyMatchByte (s : State) : Res Unit := appendByte (outByte s (s.outLen.toNat - s.inf.mdist)) s

/-- R255, R256: the range check, then the copy of `INF.mlen` bytes, byte by byte. -/
def matchCopy (s : State) : Res Unit :=
  if s.outLen.toNat < s.inf.mdist then .raise .invalidBackReference s
  else Res.each (fun _ t => copyMatchByte t) (List.range s.inf.mlen) s

/-- R254 to R256: a distance symbol with extra value `y`, the check and the copy; the next element follows. -/
def distanceSymbol (j y : Nat) (s : State) : Res Unit :=
  (matchCopy { s with inf := { s.inf with dsym := j, mdist := distanceValue j y } }).bind fun _ t =>
    .ok () { t with inf := { t.inf with phase := .body } }

/-- MATCH_COPY, R256, after the range check R255. -/
def execMatchCopy (s : State) : Host.Outcome State Fault Refusal :=
  ((matchCopy s).bind fun _ t => Res.ok Ret.none t).toReturn

/-! ## Length symbols -/

/-- LEN257, R260. -/
def execLen257 (s : State) : Host.Outcome State Fault Refusal := .next (lengthSymbol 257 0 s)

/-- LEN258, R261. -/
def execLen258 (s : State) : Host.Outcome State Fault Refusal := .next (lengthSymbol 258 0 s)

/-- LEN259, R262. -/
def execLen259 (s : State) : Host.Outcome State Fault Refusal := .next (lengthSymbol 259 0 s)

/-- LEN260, R263. -/
def execLen260 (s : State) : Host.Outcome State Fault Refusal := .next (lengthSymbol 260 0 s)

/-- LEN261, R264. -/
def execLen261 (s : State) : Host.Outcome State Fault Refusal := .next (lengthSymbol 261 0 s)

/-- LEN262, R265. -/
def execLen262 (s : State) : Host.Outcome State Fault Refusal := .next (lengthSymbol 262 0 s)

/-- LEN263, R266. -/
def execLen263 (s : State) : Host.Outcome State Fault Refusal := .next (lengthSymbol 263 0 s)

/-- LEN264, R267. -/
def execLen264 (s : State) : Host.Outcome State Fault Refusal := .next (lengthSymbol 264 0 s)

/-- LEN265, R268. -/
def execLen265 (x : BitVec 1) (s : State) : Host.Outcome State Fault Refusal := .next (lengthSymbol 265 x.toNat s)

/-- LEN266, R269. -/
def execLen266 (x : BitVec 1) (s : State) : Host.Outcome State Fault Refusal := .next (lengthSymbol 266 x.toNat s)

/-- LEN267, R270. -/
def execLen267 (x : BitVec 1) (s : State) : Host.Outcome State Fault Refusal := .next (lengthSymbol 267 x.toNat s)

/-- LEN268, R271. -/
def execLen268 (x : BitVec 1) (s : State) : Host.Outcome State Fault Refusal := .next (lengthSymbol 268 x.toNat s)

/-- LEN269, R272. -/
def execLen269 (x : BitVec 2) (s : State) : Host.Outcome State Fault Refusal := .next (lengthSymbol 269 x.toNat s)

/-- LEN270, R273. -/
def execLen270 (x : BitVec 2) (s : State) : Host.Outcome State Fault Refusal := .next (lengthSymbol 270 x.toNat s)

/-- LEN271, R274. -/
def execLen271 (x : BitVec 2) (s : State) : Host.Outcome State Fault Refusal := .next (lengthSymbol 271 x.toNat s)

/-- LEN272, R275. -/
def execLen272 (x : BitVec 2) (s : State) : Host.Outcome State Fault Refusal := .next (lengthSymbol 272 x.toNat s)

/-- LEN273, R276. -/
def execLen273 (x : BitVec 3) (s : State) : Host.Outcome State Fault Refusal := .next (lengthSymbol 273 x.toNat s)

/-- LEN274, R277. -/
def execLen274 (x : BitVec 3) (s : State) : Host.Outcome State Fault Refusal := .next (lengthSymbol 274 x.toNat s)

/-- LEN275, R278. -/
def execLen275 (x : BitVec 3) (s : State) : Host.Outcome State Fault Refusal := .next (lengthSymbol 275 x.toNat s)

/-- LEN276, R279. -/
def execLen276 (x : BitVec 3) (s : State) : Host.Outcome State Fault Refusal := .next (lengthSymbol 276 x.toNat s)

/-- LEN277, R280. -/
def execLen277 (x : BitVec 4) (s : State) : Host.Outcome State Fault Refusal := .next (lengthSymbol 277 x.toNat s)

/-- LEN278, R281. -/
def execLen278 (x : BitVec 4) (s : State) : Host.Outcome State Fault Refusal := .next (lengthSymbol 278 x.toNat s)

/-- LEN279, R282. -/
def execLen279 (x : BitVec 4) (s : State) : Host.Outcome State Fault Refusal := .next (lengthSymbol 279 x.toNat s)

/-- LEN280, R283. -/
def execLen280 (x : BitVec 4) (s : State) : Host.Outcome State Fault Refusal := .next (lengthSymbol 280 x.toNat s)

/-- LEN281, R284. -/
def execLen281 (x : BitVec 5) (s : State) : Host.Outcome State Fault Refusal := .next (lengthSymbol 281 x.toNat s)

/-- LEN282, R285. -/
def execLen282 (x : BitVec 5) (s : State) : Host.Outcome State Fault Refusal := .next (lengthSymbol 282 x.toNat s)

/-- LEN283, R286. -/
def execLen283 (x : BitVec 5) (s : State) : Host.Outcome State Fault Refusal := .next (lengthSymbol 283 x.toNat s)

/-- LEN284, R287. -/
def execLen284 (x : BitVec 5) (s : State) : Host.Outcome State Fault Refusal := .next (lengthSymbol 284 x.toNat s)

/-- LEN285, R288. -/
def execLen285 (s : State) : Host.Outcome State Fault Refusal := .next (lengthSymbol 285 0 s)

/-- LL286, R257. -/
def execLl286 (s : State) : Host.Outcome State Fault Refusal := (noMeaning (setSym 286 s)).toNext

/-- LL287, R257. -/
def execLl287 (s : State) : Host.Outcome State Fault Refusal := (noMeaning (setSym 287 s)).toNext

/-! ## Distance symbols -/

/-- DIST0, R290. -/
def execDist0 (s : State) : Host.Outcome State Fault Refusal := (distanceSymbol 0 0 s).toNext

/-- DIST1, R291. -/
def execDist1 (s : State) : Host.Outcome State Fault Refusal := (distanceSymbol 1 0 s).toNext

/-- DIST2, R292. -/
def execDist2 (s : State) : Host.Outcome State Fault Refusal := (distanceSymbol 2 0 s).toNext

/-- DIST3, R293. -/
def execDist3 (s : State) : Host.Outcome State Fault Refusal := (distanceSymbol 3 0 s).toNext

/-- DIST4, R294. -/
def execDist4 (y : BitVec 1) (s : State) : Host.Outcome State Fault Refusal := (distanceSymbol 4 y.toNat s).toNext

/-- DIST5, R295. -/
def execDist5 (y : BitVec 1) (s : State) : Host.Outcome State Fault Refusal := (distanceSymbol 5 y.toNat s).toNext

/-- DIST6, R296. -/
def execDist6 (y : BitVec 2) (s : State) : Host.Outcome State Fault Refusal := (distanceSymbol 6 y.toNat s).toNext

/-- DIST7, R297. -/
def execDist7 (y : BitVec 2) (s : State) : Host.Outcome State Fault Refusal := (distanceSymbol 7 y.toNat s).toNext

/-- DIST8, R298. -/
def execDist8 (y : BitVec 3) (s : State) : Host.Outcome State Fault Refusal := (distanceSymbol 8 y.toNat s).toNext

/-- DIST9, R299. -/
def execDist9 (y : BitVec 3) (s : State) : Host.Outcome State Fault Refusal := (distanceSymbol 9 y.toNat s).toNext

/-- DIST10, R300. -/
def execDist10 (y : BitVec 4) (s : State) : Host.Outcome State Fault Refusal := (distanceSymbol 10 y.toNat s).toNext

/-- DIST11, R301. -/
def execDist11 (y : BitVec 4) (s : State) : Host.Outcome State Fault Refusal := (distanceSymbol 11 y.toNat s).toNext

/-- DIST12, R302. -/
def execDist12 (y : BitVec 5) (s : State) : Host.Outcome State Fault Refusal := (distanceSymbol 12 y.toNat s).toNext

/-- DIST13, R303. -/
def execDist13 (y : BitVec 5) (s : State) : Host.Outcome State Fault Refusal := (distanceSymbol 13 y.toNat s).toNext

/-- DIST14, R304. -/
def execDist14 (y : BitVec 6) (s : State) : Host.Outcome State Fault Refusal := (distanceSymbol 14 y.toNat s).toNext

/-- DIST15, R305. -/
def execDist15 (y : BitVec 6) (s : State) : Host.Outcome State Fault Refusal := (distanceSymbol 15 y.toNat s).toNext

/-- DIST16, R306. -/
def execDist16 (y : BitVec 7) (s : State) : Host.Outcome State Fault Refusal := (distanceSymbol 16 y.toNat s).toNext

/-- DIST17, R307. -/
def execDist17 (y : BitVec 7) (s : State) : Host.Outcome State Fault Refusal := (distanceSymbol 17 y.toNat s).toNext

/-- DIST18, R308. -/
def execDist18 (y : BitVec 8) (s : State) : Host.Outcome State Fault Refusal := (distanceSymbol 18 y.toNat s).toNext

/-- DIST19, R309. -/
def execDist19 (y : BitVec 8) (s : State) : Host.Outcome State Fault Refusal := (distanceSymbol 19 y.toNat s).toNext

/-- DIST20, R310. -/
def execDist20 (y : BitVec 9) (s : State) : Host.Outcome State Fault Refusal := (distanceSymbol 20 y.toNat s).toNext

/-- DIST21, R311. -/
def execDist21 (y : BitVec 9) (s : State) : Host.Outcome State Fault Refusal := (distanceSymbol 21 y.toNat s).toNext

/-- DIST22, R312. -/
def execDist22 (y : BitVec 10) (s : State) : Host.Outcome State Fault Refusal := (distanceSymbol 22 y.toNat s).toNext

/-- DIST23, R313. -/
def execDist23 (y : BitVec 10) (s : State) : Host.Outcome State Fault Refusal := (distanceSymbol 23 y.toNat s).toNext

/-- DIST24, R314. -/
def execDist24 (y : BitVec 11) (s : State) : Host.Outcome State Fault Refusal := (distanceSymbol 24 y.toNat s).toNext

/-- DIST25, R315. -/
def execDist25 (y : BitVec 11) (s : State) : Host.Outcome State Fault Refusal := (distanceSymbol 25 y.toNat s).toNext

/-- DIST26, R316. -/
def execDist26 (y : BitVec 12) (s : State) : Host.Outcome State Fault Refusal := (distanceSymbol 26 y.toNat s).toNext

/-- DIST27, R317. -/
def execDist27 (y : BitVec 12) (s : State) : Host.Outcome State Fault Refusal := (distanceSymbol 27 y.toNat s).toNext

/-- DIST28, R318. -/
def execDist28 (y : BitVec 13) (s : State) : Host.Outcome State Fault Refusal := (distanceSymbol 28 y.toNat s).toNext

/-- DIST29, R319. -/
def execDist29 (y : BitVec 13) (s : State) : Host.Outcome State Fault Refusal := (distanceSymbol 29 y.toNat s).toNext

/-- DIST30, R258. -/
def execDist30 (s : State) : Host.Outcome State Fault Refusal :=
  (noMeaning { s with inf := { s.inf with dsym := 30 } }).toNext

/-- DIST31, R258. -/
def execDist31 (s : State) : Host.Outcome State Fault Refusal :=
  (noMeaning { s with inf := { s.inf with dsym := 31 } }).toNext

end Sys2Proof.Machine
end

