-- ==== Sys2Proof/Machine/Deflate.lean ====
section
/-! DEFINITION. The Compressor (46_deflate.md): the reference search, emission and the two bodies of COMPRESS (R344 to R355).
Which outputs the spec allows beside the reference (R356) is defined in `Safety.lean` (log 10). -/

namespace Sys2Proof.Machine

/-- R36: the input length `n` of the compressor. -/
def inputLength (s : State) : Nat := s.inLen.toNat

/-- R350: the loop `while m < maxl and IN[p+m] = IN[pos+m]`, `left` = `maxl - m`. -/
def extendMatch (s : State) (p pos : Nat) : (left m : Nat) → Nat
  | 0, m => m
  | left + 1, m => if inByte s (p + m) = inByte s (pos + m) then extendMatch s p pos left (m + 1) else m

/-- R349: the three bytes at `p` equal the three bytes at `pos`. -/
def sameThree (s : State) (p pos : Nat) : Bool :=
  decide (inByte s p = inByte s pos ∧ inByte s (p + 1) = inByte s (pos + 1) ∧ inByte s (p + 2) = inByte s (pos + 2))

/-- R350: the loop over distances `d`, with `left` of them to come; answers best length, best distance, candidates examined. -/
def searchFrom (s : State) (pos maxl chainMax : Nat) : (left d bestLen bestDist examined : Nat) → Nat × Nat × Nat
  | 0, _, bl, bd, ex => (bl, bd, ex)
  | left + 1, d, bl, bd, ex =>
    if chainMax ≤ ex then (bl, bd, ex)
    else if sameThree s (pos - d) pos then
      let m := extendMatch s (pos - d) pos (maxl - 3) 3
      let r := if bl < m then (m, d) else (bl, bd)
      if r.1 = maxl then (r.1, r.2, ex + 1)
      else searchFrom s pos maxl chainMax left (d + 1) r.1 r.2 (ex + 1)
    else searchFrom s pos maxl chainMax left (d + 1) bl bd ex

/-- R350 `longest_match(pos, l)`: best length, best distance, candidates examined. -/
def longestMatch (pos level : Nat) (s : State) : Nat × Nat × Nat :=
  if inputLength s - pos < 3 then (0, 0, 0)
  else searchFrom s pos (min Config.maxMatch (inputLength s - pos)) (chain level) (min pos Config.wsize) 1 0 0 0

/-- R348, R350: the search of the parse loop, with its result assigned to `DEF.best_len` and `DEF.best_dist`. -/
def searchAt (pos level : Nat) (s : State) : State :=
  let r := longestMatch pos level s
  { s with dfl := { s.dfl with bestLen := r.1, bestDist := r.2.1, examined := r.2.2 } }

/-- R353 `emit LIT b`. -/
def emitLit (b : Byte) (s : State) : Res Unit :=
  if b.toNat ≤ 143 then writeCode (0x30 + b.toNat) 8 s else writeCode (0x190 + (b.toNat - 144)) 9 s

/-- An extra-bits field of width `w`; nothing is written when the width is 0 (R354). -/
def emitExtra (v w : Nat) (s : State) : Res Unit := if 0 < w then writeBits v w s else .ok () s

/-- R354: the length symbol's fixed code. -/
def emitLengthCode (sym : Nat) (s : State) : Res Unit :=
  if sym ≤ 279 then writeCode (sym - 256) 7 s else writeCode (0xC0 + (sym - 280)) 8 s

/-- R354 `emit MATCH len, dist`. For a length or a distance that no token has (R341) its index and extra value are free values
(log 16); the rest is written as for a token. -/
def emitMatch (len dist : Nat) (s : State) : Res Unit :=
  let l := lengthFields len
  let d := distanceFields dist
  (emitLengthCode (257 + l.1) s).bind fun _ s1 =>
  (emitExtra l.2 (lextra l.1) s1).bind fun _ s2 =>
  (writeCode d.1 5 s2).bind fun _ s3 =>
  emitExtra d.2 (dextra d.1) s3

/-- R355 `emit EOB`. -/
def emitEob (s : State) : Res Unit := writeCode 0 7 s

/-- R344: the number of stored blocks at level 0. -/
def storedBlockCount (n : Nat) : Nat := max 1 ((n + (Config.storedMax - 1)) / Config.storedMax)

/-- R345: chunk `k` of `nb` as one stored block. -/
def emitStoredBlock (nb k : Nat) (s : State) : Res Unit :=
  let a := Config.storedMax * k
  let len := min Config.storedMax (inputLength s - a)
  (writeBits (if k + 1 = nb then 1 else 0) 1 s).bind fun _ s1 =>
  (writeBits 0 2 s1).bind fun _ s2 =>
  (wrAlign s2).bind fun _ s3 =>
  (writeBits len 16 s3).bind fun _ s4 =>
  (writeBits (0xFFFF - len) 16 s4).bind fun _ s5 =>
  Res.each (fun j t => writeByte (inByte t (a + j)) t) (List.range len) s5

/-- R345 with R340, R388: the body of COMPRESS at level 0 and the end of the call. -/
def compressStored (s : State) : Res Unit :=
  (Res.each (emitStoredBlock (storedBlockCount (inputLength s))) (List.range (storedBlockCount (inputLength s))) s).bind
    fun _ t => (finish t).bind fun _ u => .ok () (completeCall u)

/-- R348: one pass of the greedy parse loop at `DEF.pos`. -/
def parseStep (s : State) : Res Unit :=
  let t := searchAt s.dfl.pos s.dfl.level.toNat s
  if 3 ≤ t.dfl.bestLen then
    (emitMatch t.dfl.bestLen t.dfl.bestDist t).bind fun _ u =>
      .ok () { u with dfl := { u.dfl with pos := u.dfl.pos + u.dfl.bestLen } }
  else
    (emitLit (inByte t t.dfl.pos) t).bind fun _ u => .ok () { u with dfl := { u.dfl with pos := u.dfl.pos + 1 } }

/-- R348: the parse loop `while DEF.pos < n`; each pass advances `DEF.pos`, so `fuel = n` passes are enough. -/
def parseLoop : (fuel : Nat) → State → Res Unit
  | 0, s => .ok () s
  | fuel + 1, s =>
    if s.dfl.pos < inputLength s then (parseStep s).bind fun _ t => parseLoop fuel t else .ok () s

/-- R348 with R38, R340, R388: the body of COMPRESS at levels 1 to 9 and the end of the call. -/
def compressFixed (s : State) : Res Unit :=
  (writeBits 1 1 (setFixedReady s)).bind fun _ s1 =>
  (writeBits 1 2 s1).bind fun _ s2 =>
  (parseLoop (inputLength s2) { s2 with dfl := { s2.dfl with pos := 0 } }).bind fun _ s3 =>
  (emitEob s3).bind fun _ s4 =>
  (finish s4).bind fun _ s5 => .ok () (completeCall s5)

/-- LONGEST_MATCH, R350; at a level outside 1 to 9 CHAIN is a free value (log 16). The pair is returned in `ret` and only `DEF.examined` is
written; the assignment to `DEF.best_len` and `DEF.best_dist` is R348's (DEDUCED, log 26). -/
def execLongestMatch (pos level : Nat) (s : State) : Host.Outcome State Fault Refusal :=
  let r := longestMatch pos level s
  (Res.ok (Ret.pair r.1 r.2.1) { s with dfl := { s.dfl with examined := r.2.2 } }).toReturn

/-- EMIT_LIT, R353. -/
def execEmitLit (b : Byte) (s : State) : Host.Outcome State Fault Refusal :=
  ((emitLit b s).bind fun _ t => Res.ok Ret.none t).toReturn

/-- EMIT_MATCH, R354. -/
def execEmitMatch (len dist : Nat) (s : State) : Host.Outcome State Fault Refusal :=
  ((emitMatch len dist s).bind fun _ t => Res.ok Ret.none t).toReturn

/-- EMIT_EOB, R355. -/
def execEmitEob (s : State) : Host.Outcome State Fault Refusal :=
  ((emitEob s).bind fun _ t => Res.ok Ret.none t).toReturn

/-- COMPRESS_0, R345. -/
def execCompress0 (s : State) : Host.Outcome State Fault Refusal := (compressStored s).toNext

/-- COMPRESS_1_9, R348, at the level in `DEF.level`; at a level outside 1 to 9 CHAIN is a free value (log 16). -/
def execCompress1To9 (s : State) : Host.Outcome State Fault Refusal := (compressFixed s).toNext

end Sys2Proof.Machine
end

