-- ==== Sys2Proof/Machine/Command.lean ====
section
/-! DEFINITION. The two host commands (47_host_commands.md): a command starts a call; the engine's steps run it (log 1). -/

namespace Sys2Proof.Machine

/-- DECOMPRESS, R381, R382; while a call runs it is refused (R384). -/
def execDecompress (level : BitVec 4) (s : State) : Host.Outcome State Fault Refusal :=
  if s.status.state = .busy then .refused .hostBusy else .next (startDecompress level s)

/-- COMPRESS, R381, R383; a level above 9 is refused (R385), as is a command while a call runs (R384). -/
def execCompress (level : BitVec 4) (s : State) : Host.Outcome State Fault Refusal :=
  if s.status.state = .busy then .refused .hostBusy
  else if 9 < level.toNat then .refused .illegalLevel
  else .next (startCompress level s)

end Sys2Proof.Machine
end

