-- ==== Sys2Proof/Machine/Fetch.lean ====
section
/-! DEFINITION. What the block does next: the instruction the active engine fetches, or the host's next move. `Step.lean`
only runs what this file finds. -/

namespace Sys2Proof.Machine

/-- What a step consists of: run an instruction at a state, or an outcome without an instruction. -/
inductive Action where
  | run (i : Instr) (s : State)
  | settle (o : Host.Outcome State Fault Refusal)

/-- R211 to R229, R250: where the inflate engine stands in the stream. -/
def fetchCtx (s : State) : Ctx :=
  match s.inf.phase with
  | .header => .header
  | .storedLen => .storedLen
  | .dynCounts => .dynCounts
  | .dynCll => .dynCll
  | .codeLengths => .cl s.tCL (decide (s.inf.i = 0))
  | .body => .ll (currentLL s)
  | .distance => .dist (currentD s)

/-- The most bits one fetched instruction has (R115; the 32 bits of STORED_LEN are the longest). -/
def fetchWidth : Nat := 32

/-- The inflate engine's fetch: the instruction at the cursor, which moves past it, or the error that ends the call. -/
def fetchStream (s : State) : Action :=
  match decode (fetchCtx s) (nextBits fetchWidth s) with
  | .ok i used => .run i (advance used s)
  | .short => .settle (.next (raiseError .unexpectedEnd s))
  | .noLeaf => .settle (.next (raiseError .invalidSymbol s))
  | .noPrevious => .settle (.next (raiseError .invalidHuffmanTable s))
  | .tableInvalid => .settle (.refused .tableInvalid)
  | .illegalLevel => .settle (.refused .illegalLevel)
  | .noStart => .settle (.next s)

/-- R340: which body the deflate engine runs. -/
def deflateInstr (s : State) : Instr := if s.dfl.level = 0 then .compress0 else .compress1To9

/-- R380, R381, R384, R385: one move of the host. -/
def hostMove (m : HostMove) (s : State) : Action :=
  if s.status.state = .busy then .settle (.refused .hostBusy)
  else match m with
  | .writeIn addr b =>
    if addr < 2 ^ Config.lenw - 1 then .settle (.next { s with inBuf := s.inBuf.write addr b })
    else .settle (.fault .noSuchCell)
  | .writeInLen v => .settle (.next { s with inLen := v })
  | .writeOutMax v => .settle (.next { s with outMax := v })
  | .writeCtrl v =>
    match decode .ctrl (fieldBits 8 v.toNat) with
    | .ok i _ => .run i s
    | .illegalLevel => .settle (.refused .illegalLevel)
    | _ => .settle (.next s)

/-- R3, R75, R455: while a call runs its engine takes the steps; otherwise the host's pending moves are taken in order, and
without one the block is idle and nothing changes (R440). -/
def nextAction (s : State) : Action :=
  if s.status.state = .busy then
    if ctrlOp s then .run (deflateInstr s) s else fetchStream s
  else match s.host with
  | [] => .settle (.next s)
  | m :: rest => hostMove m { s with host := rest }

/-! ## Placing one instruction for the next step

A program is loaded from outside: the host writes the input and a command (R445), or, for one table word, the functions
below set exactly what the fetch needs (log 14). -/

/-- The block with the inflate engine at the start of an input whose first bits are `bits`, in context `c`. -/
def placeStream (c : Ctx) (bits : List Bool) (s : State) : State :=
  let at_ (state : BlockState) (phase : Phase) : State :=
    { s with
      ctrl := s.ctrl &&& 0xFD
      status := { s.status with state := .busy }
      inLen := 4
      inBuf := s.inBuf.writeList 0 (packBytes 4 bits)
      rd := ⟨0, 0, 4⟩
      inf := { s.inf with state := state, phase := phase } }
  match c with
  | .ctrl => s
  | .header => at_ .start .header
  | .storedLen => at_ .stored .storedLen
  | .dynCounts => at_ .dynamicHuffman .dynCounts
  | .dynCll => at_ .dynamicHuffman .dynCll
  | .cl _ _ => at_ .dynamicHuffman .codeLengths
  | .ll _ => at_ .fixedHuffman .body
  | .dist _ => at_ .fixedHuffman .distance

/-- The block at rest with a `CTRL` write of `v` as the host's next move. -/
def placeCommand (v : BitVec 8) (s : State) : State :=
  { s with
    status := { s.status with state := if s.status.state = .busy then .idle else s.status.state }
    host := .writeCtrl v :: s.host }

/-- The block with the table word `w` of `nbits` bits as what the next step fetches; unchanged for a word that is none. -/
def placeWord (nbits w : Nat) (s : State) : State :=
  match tableSlot nbits w with
  | some (.ctrl, _) => placeCommand (BitVec.ofNat 8 w) s
  | some (c, bits) => placeStream c bits s
  | none => s

end Sys2Proof.Machine
end

