-- ==== Sys2Proof/Machine/Step.lean ====
section
/-! DEFINITION. One step of the block, and the placing of one table word for the next step. Both only call `Fetch.lean`. -/

namespace Sys2Proof.Machine

/-- One step: the engine's next instruction, or the host's next move. -/
def step (s : State) : Host.Outcome State Fault Refusal :=
  match nextAction s with
  | .run i t => exec i t
  | .settle o => o

/-- `s` with the table word `w` of `nbits` bits as what `step` fetches next. -/
def State.withFetchWord (s : State) (nbits w : Nat) : State := placeWord nbits w s

end Sys2Proof.Machine
end

