-- ==== Sys2Proof/Safety.lean ====
section
/-! DEFINITION. The terms claims use: runs of an engine, the invariant of the block (R11, R22, R28, R30, R34 to R36), what the
writer has written (R156), the shape of a meaning's effect, and the set of outputs the spec allows the Compressor (R341 to
R343, R356). -/

namespace Sys2Proof.Machine

/-- Stream bits written as 0 and 1 (R9). -/
def streamOf (bits : List Nat) : List Bool := bits.map fun b => b == 1

/-! ## Runs -/

/-- Steps until the call ends, at most `n` of them; a fault or refusal stops the run. -/
def engineRun : (n : Nat) → State → Host.Outcome State Fault Refusal
  | 0, s => .next s
  | n + 1, s =>
    if s.status.state = .busy then
      match step s with
      | .next t => engineRun n t
      | .fault f => .fault f
      | .refused r => .refused r
    else .next s

/-- Instructions one after the other, stopping at a fault or refusal. -/
def execAll : List Instr → State → Host.Outcome State Fault Refusal
  | [], s => .next s
  | i :: is, s =>
    match exec i s with
    | .next t => execAll is t
    | .fault f => .fault f
    | .refused r => .refused r

/-- R79, R388: the result of a call, `OUT[0 .. OUT_LEN-1]`. -/
def outBytes (s : State) : List Byte := (List.range s.outLen.toNat).map (outByte s)

/-- `IN[a .. a+n-1]`. -/
def inBytes (s : State) (a n : Nat) : List Byte := (List.range n).map fun k => inByte s (a + k)

/-- R66: `n` more bytes fit below `OUT_MAX`. -/
abbrev roomFor (n : Nat) (s : State) : Prop := s.outLen.toNat + n ≤ s.outMax.toNat

/-- Every byte of `OUT` outside `[lo, hi)` reads in `t` as it does in `s`. -/
abbrev outFrame (lo hi : Nat) (s t : State) : Prop := ∀ a, a < lo ∨ hi ≤ a → outByte t a = outByte s a

/-! ## Tables -/

/-- R171: `T` is a table that `build_from_lengths` built. -/
def builtTable (T : HuffTable) : Prop := buildTable T.lens [] = some T

/-- The table of a context is one that `build_from_lengths` built. -/
def ctxOk : Ctx → Prop
  | .cl T _ | .ll T | .dist T => builtTable T
  | .ctrl | .header | .storedLen | .dynCounts | .dynCll => True

/-- R170: the Kraft sum of a code length array, scaled by 2^15. -/
def kraftSum (lens : List Nat) : Nat := ((lens.filter fun l => l != 0).map fun l => 2 ^ (15 - l)).sum

/-- R170, R171: a length array that a table can be built from, with every required symbol in use. -/
abbrev lengthsBuild (lens required : List Nat) : Prop :=
  (∀ l ∈ lens, l ≤ 15) ∧ kraftSum lens ≤ 2 ^ 15 ∧ ∀ v ∈ required, v < lens.length ∧ lens.getD v 0 ≠ 0

/-- R172: the scaled Kraft sum of the used symbols that come before symbol `v` of length `l` in the canonical order, first by
length, then by index. -/
def kraftBefore (lens : List Nat) (v l : Nat) : Nat :=
  (((List.range lens.length).filter fun u =>
    decide (lens.getD u 0 ≠ 0 ∧ (lens.getD u 0 < l ∨ (lens.getD u 0 = l ∧ u < v)))).map
      fun u => 2 ^ (15 - lens.getD u 0)).sum

/-! ## The invariant -/

/-- R150: bits of `WR.acc` at and above `WR.cnt` are 0. -/
abbrev writerOk (s : State) : Prop := s.wr.cnt ≤ 7 ∧ s.wr.acc.toNat < 2 ^ s.wr.cnt

/-- R28: the cursor stays in the input. -/
abbrev readerOk (s : State) : Prop :=
  s.rd.bit ≤ 7 ∧ s.rd.byte ≤ s.rd.len ∧ (s.rd.byte = s.rd.len → s.rd.bit = 0)

/-- R171, R178 (a): a valid table is the canonical table of its lengths. -/
def tableOk (T : HuffTable) : Prop := T.valid = true → builtTable T

/-- R26, R27, R60: memories are in canonical form, `IN` lists only cells that exist, and `OUT` lists exactly the cells below
`OUT_LEN` (R62). -/
abbrev memoryOk (s : State) : Prop :=
  s.inBuf.wf = true ∧ (∀ c ∈ s.inBuf, c.1 < 2 ^ Config.lenw - 1) ∧
  s.outBuf.map Prod.fst = List.range s.outLen.toNat

/-- R22: `ERR_CLASS` and `ERR_CAUSE` are non-zero exactly when `STATE` = ERROR, and the class is the cause's. -/
abbrev statusOk (s : State) : Prop :=
  match s.status.errCause with
  | none => s.status.state ≠ .error ∧ s.status.errClass = .none
  | some c => s.status.state = .error ∧ s.status.errClass = causeClass c

/-- R458: every register held as a number fits its width (R28, R30, R35, R36). -/
abbrev widthsOk (s : State) : Prop :=
  s.rd.byte < 2 ^ Config.lenw ∧ s.rd.bit < 2 ^ 3 ∧ s.rd.len < 2 ^ Config.lenw ∧ s.wr.cnt < 2 ^ 3 ∧
  s.inf.i < 2 ^ 9 ∧ s.inf.sym < 2 ^ 9 ∧ s.inf.mlen < 2 ^ 9 ∧ s.inf.dsym < 2 ^ 5 ∧ s.inf.mdist < 2 ^ 16 ∧
  s.dfl.pos < 2 ^ Config.lenw ∧ s.dfl.bestLen < 2 ^ 9 ∧ s.dfl.bestDist < 2 ^ 16 ∧ s.dfl.examined < 2 ^ 16

/-- R34, R211 to R229: where the inflate engine stands agrees with `INF.state` and with the registers that part reads. -/
abbrev phaseOk (s : State) : Prop :=
  match s.inf.phase with
  | .header => s.inf.state = .start
  | .storedLen => s.inf.state = .stored ∧ s.rd.bit = 0
  | .dynCounts => s.inf.state = .dynamicHuffman
  | .dynCll => s.inf.state = .dynamicHuffman ∧ s.inf.k < s.inf.ncode
  | .codeLengths => s.inf.state = .dynamicHuffman ∧ s.inf.i < s.inf.total ∧ s.tCL.valid = true
  | .body =>
    s.inf.state = .fixedHuffman ∨ (s.inf.state = .dynamicHuffman ∧ s.tLL.valid = true ∧ s.tD.valid = true)
  | .distance =>
    (s.inf.state = .fixedHuffman ∨ (s.inf.state = .dynamicHuffman ∧ s.tLL.valid = true ∧ s.tD.valid = true)) ∧
    3 ≤ s.inf.mlen ∧ s.inf.mlen ≤ 258

/-- While a decompress call runs. -/
abbrev inflateOk (s : State) : Prop :=
  readerOk s ∧ s.rd.len = s.inLen.toNat ∧ phaseOk s ∧ tableOk s.tCL ∧ tableOk s.tLL ∧ tableOk s.tD

/-- While a compress call runs (between its start and the engine's step). -/
abbrev deflateOk (s : State) : Prop := s.wr = Writer.reset ∧ s.dfl.level.toNat ≤ 9 ∧ s.outLen = 0

/-- The invariant of the block. -/
abbrev Inv (s : State) : Prop :=
  memoryOk s ∧ statusOk s ∧ widthsOk s ∧
  (s.status.state = .busy →
    s.outLen ≤ s.outMax ∧ (ctrlOp s = false → inflateOk s) ∧ (ctrlOp s = true → deflateOk s))

/-- A safe run of `n` steps: none of them faults or refuses. -/
def safeRun (n : Nat) (s : State) : Prop := ∃ t, Sys2Proof.core.run n s = .next t

/-! ## What the writer has written -/

/-- R156: the bits written so far: the bytes of `OUT`, then the bits waiting in `WR.acc`. -/
def writtenBits (s : State) : List Bool := bytesToBits (outBytes s) ++ fieldBits s.wr.cnt s.wr.acc.toNat

/-- A writer operation `i` completes at `s` by writing exactly `bits`: the bits come after those written before, the partial
byte keeps its form, only `OUT`, `OUT_LEN`, the partial byte and the returned value change, and no byte of `OUT` outside the
new ones changes. -/
def writesBits (i : Instr) (bits : List Bool) (s : State) : Prop :=
  ∃ (m : Memory) (len : Len) (acc : Byte) (cnt : Nat) (t : State),
    t = { s with outBuf := m, outLen := len, wr := ⟨acc, cnt, s.wr.finished⟩, ret := .none } ∧
    exec i s = .next t ∧ writerOk t ∧ writtenBits t = writtenBits s ++ bits ∧
    outFrame s.outLen.toNat len.toNat s t

/-- The writer is ready for `n` more bits: not finished, in form, and the bytes they complete fit (R151). -/
abbrev writerReady (n : Nat) (s : State) : Prop :=
  s.wr.finished = false ∧ writerOk s ∧ roomFor ((s.wr.cnt + n) / 8) s

/-- R157: an item written and read back: a field of `n` bits, or an alignment to the byte boundary. -/
inductive BitItem where
  | field (value n : Nat)
  | align
  deriving DecidableEq, Repr

/-- The writer operation of an item. -/
def BitItem.write : BitItem → Instr
  | .field value n => .writeBits value n
  | .align => .wrAlign

/-- R136, R151: the widths of a field. -/
abbrev BitItem.ok : BitItem → Prop
  | .field _ n => 1 ≤ n ∧ n ≤ 16
  | .align => True

/-- The stream position after the items, the first of them at `pos`. -/
def itemsEnd : (pos : Nat) → List BitItem → Nat
  | pos, [] => pos
  | pos, .field _ n :: items => itemsEnd (pos + n) items
  | pos, .align :: items => itemsEnd ((pos + 7) / 8 * 8) items

/-- R157: the reader's operations on the items, one after the other from `r` to `u`, return the fields' values. -/
def readsBack : List BitItem → (r u : State) → Prop
  | [], r, u => u = r
  | .field value n :: items, r, u =>
    ∃ r', exec (.readBits n) r = .next r' ∧ r'.ret = .num (value % 2 ^ n) ∧ readsBack items r' u
  | .align :: items, r, u => ∃ r', exec .rdAlign r = .next r' ∧ readsBack items r' u

/-! ## Shapes of effects -/

/-- R211, R230, R388: the state after the block that ended in `u`, while a call runs: a final block ends the call, another
header follows otherwise. -/
def blockOver (u : State) : State :=
  if u.inf.final then
    { u with inf := { u.inf with state := .finished }, status := { u.status with state := .done } }
  else { u with inf := { u.inf with state := .start, phase := .header } }

/-- R225 to R228: the code length and the number of copies that a code-length instruction stands for; `none` where it has no
previous length. -/
def clEffect (s : State) : Instr → Option (BitVec 4 × Nat)
  | .clLen v => some (v, 1)
  | .clRep16 x => if s.inf.i = 0 then none else some (s.inf.L.toList.getD (s.inf.i - 1) 0, 3 + x.toNat)
  | .clZero17 x => some (0, 3 + x.toNat)
  | .clZero18 x => some (0, 11 + x.toNat)
  | _ => none

/-- `L` with `rep` entries from `i` on set to `v`. -/
abbrev filledWith (L L' : Vector (BitVec 4) 320) (i rep : Nat) (v : BitVec 4) : Prop :=
  ∀ (j : Nat) (hj : j < 320), L'[j] = if i ≤ j ∧ j < i + rep then v else L[j]

/-- `i` is length symbol `sym` with the length `len`: at every state it sets `INF.sym` and `INF.mlen`, and a distance symbol
comes next; nothing else changes (R253). -/
def lengthMeaning (i : Instr) (sym len : Nat) : Prop :=
  3 ≤ len ∧ len ≤ 258 ∧
  ∀ s, exec i s = .next { s with inf := { s.inf with sym := sym, mlen := len, phase := .distance } }

/-- `i` is distance symbol `j` with the distance `d`: where `d` bytes have been produced and the match fits, the `INF.mlen`
bytes from `d` bytes back are appended with the repetition of R259 (a), the element is over, and nothing else changes; the
bytes of `OUT` outside the new ones keep their values (R254 to R256, R259). -/
def distanceMeaning (i : Instr) (j d : Nat) : Prop :=
  1 ≤ d ∧ d ≤ 32768 ∧
  ∀ s, d ≤ s.outLen.toNat → roomFor s.inf.mlen s →
    ∃ (m : Memory) (t : State),
      t = { s with outBuf := m, outLen := BitVec.ofNat Config.lenw (s.outLen.toNat + s.inf.mlen)
                   inf := { s.inf with dsym := j, mdist := d, phase := .body } } ∧
      exec i s = .next t ∧
      (∀ k, k < s.inf.mlen → outByte t (s.outLen.toNat + k) = outByte s (s.outLen.toNat - d + k % d)) ∧
      outFrame s.outLen.toNat (s.outLen.toNat + s.inf.mlen) s t


/-- What the host finds after an abort of `s` with cause `c` (R410): the cause and its class, `STATE` = ERROR, `OUT_LEN` = 0;
`IN`, `IN_LEN` and `OUT_MAX` unchanged, `FIXED_READY` as it was. That `CTRL` (log 19), the encoder arrays (log 29) and the host's
pending moves (log 4), which R410 does not name, are unchanged too is the model's own. -/
def abortedWith (c : Cause) (s t : State) : Prop :=
  t.status = { s.status with state := .error, errClass := causeClass c, errCause := some c } ∧ t.outLen = 0 ∧
  t.inBuf = s.inBuf ∧ t.inLen = s.inLen ∧ t.outMax = s.outMax ∧ t.ctrl = s.ctrl ∧ t.enc = s.enc ∧ t.host = s.host

/-- `i` is a distance symbol with the distance `d`: while a call runs, it ends the call with `InvalidBackReference` where fewer
than `d` bytes have been produced, whether or not the match would fit (R255, R406, R415), and with `OutputOverflow` where the
distance is in range and the match does not fit (R256, R408). -/
def distanceFailure (i : Instr) (d : Nat) : Prop :=
  ∀ s, s.status.state = .busy →
    (s.outLen.toNat < d → ∃ t, exec i s = .next t ∧ abortedWith .invalidBackReference s t) ∧
    (d ≤ s.outLen.toNat → s.outLen ≤ s.outMax → ¬ roomFor s.inf.mlen s →
      ∃ t, exec i s = .next t ∧ abortedWith .outputOverflow s t)

/-- `i` ends the current call with cause `c` in every state in which a call runs. -/
def endsCallWith (i : Instr) (c : Cause) : Prop :=
  ∀ s, s.status.state = .busy → ∃ t, exec i s = .next t ∧ abortedWith c s t

/-! ## The outputs the spec allows the Compressor -/

/-- R341: a token. -/
inductive Token where
  | lit (b : Byte)
  | copy (len dist : Nat)
  deriving DecidableEq, Repr

/-- R256, R341: `len` bytes from `dist` back, byte by byte. -/
def copyBack (dist : Nat) : (len : Nat) → List Byte → List Byte
  | 0, h => h
  | n + 1, h => copyBack dist n (h ++ [h.getD (h.length - dist) 0])

/-- R341: one token applied to the bytes so far; defined in its ranges and where `dist` is at most the length. -/
def applyToken (h : List Byte) : Token → Option (List Byte)
  | .lit b => some (h ++ [b])
  | .copy len dist =>
    if Config.minMatch ≤ len ∧ len ≤ Config.maxMatch ∧ 1 ≤ dist ∧ dist ≤ Config.wsize ∧ dist ≤ h.length then
      some (copyBack dist len h)
    else none

/-- R341: the expansion of a token sequence. -/
def expandTokens : List Byte → List Token → Option (List Byte)
  | h, [] => some h
  | h, t :: ts => (applyToken h t).bind fun h' => expandTokens h' ts

/-- R342: `ts` is a valid parse of `input[a .. b-1]`. -/
def validParse (input : List Byte) (a b : Nat) (ts : List Token) : Prop :=
  expandTokens (input.take a) ts = some (input.take b)

/-- R343: `MATCH len, dist` is valid at position `pos`. -/
def validMatch (input : List Byte) (pos len dist : Nat) : Prop :=
  Config.minMatch ≤ len ∧ len ≤ min Config.maxMatch (input.length - pos) ∧
  1 ≤ dist ∧ dist ≤ min pos Config.wsize ∧
  ∀ k, k < len → input[pos + k]? = input[pos + k - dist]?

/-- R97, R104, R105: the stream bits of length index `i` with extra value `x` and distance index `j` with extra value `y` in a fixed
block. -/
def matchBits (i x j y : Nat) : List Bool :=
  (tableFLL.symBits (257 + i)).getD [] ++ fieldBits (lextra i) x ++ (tableFD.symBits j).getD [] ++ fieldBits (dextra j) y

/-- R95, R97, R101, R103, R104, R105: the stream bits of a token in a fixed block. -/
def tokenBits : Token → List Bool
  | .lit b => (tableFLL.symBits b.toNat).getD []
  | .copy len dist =>
    matchBits (lengthIndex len) (len - lbase (lengthIndex len)) (distanceIndex dist) (dist - dbase (distanceIndex dist))

/-- R356: a block of an allowed output. -/
inductive OutBlock where
  | stored (bytes : List Byte)
  | fixed (tokens : List Token)
  deriving DecidableEq, Repr

/-- R348: the tokens of the greedy parse of `IN` from `pos` on, with the search of R350 at the level. -/
def greedyTokens (s : State) (level : Nat) : (fuel pos : Nat) → List Token
  | 0, _ => []
  | fuel + 1, pos =>
    if pos < inputLength s then
      if 3 ≤ (longestMatch pos level s).1 then
        .copy (longestMatch pos level s).1 (longestMatch pos level s).2.1 ::
          greedyTokens s level fuel (pos + (longestMatch pos level s).1)
      else .lit (inByte s pos) :: greedyTokens s level fuel (pos + 1)
    else []

/-- R344: chunk `k` of the input at level 0. -/
def storedChunk (s : State) (k : Nat) : List Byte :=
  inBytes s (Config.storedMax * k) (min Config.storedMax (inputLength s - Config.storedMax * k))

/-- R93, R94: the stream bits of a block that starts at stream position `pos`. -/
def blockBits (pos : Nat) (final : Bool) : OutBlock → List Bool
  | .stored bytes =>
    [final, false, false] ++ List.replicate ((8 - (pos + 3) % 8) % 8) false ++ fieldBits 16 bytes.length ++
    fieldBits 16 (0xFFFF - bytes.length) ++ bytesToBits bytes
  | .fixed tokens => [final, true, false] ++ tokens.flatMap tokenBits ++ codeBits 7 0

/-- R90: blocks back to back from position `pos` on; the last and only the last is final. -/
def blocksBits : (pos : Nat) → List OutBlock → List Bool
  | _, [] => []
  | pos, b :: bs => blockBits pos bs.isEmpty b ++ blocksBits (pos + (blockBits pos bs.isEmpty b).length) bs

/-- R356 (c): the blocks carry consecutive segments of `input` from position `a` to its end. -/
def blocksCarry (input : List Byte) : (a : Nat) → List OutBlock → Prop
  | a, [] => a = input.length
  | a, .stored bytes :: bs =>
    bytes.length ≤ Config.storedMax ∧ bytes = (input.drop a).take bytes.length ∧ blocksCarry input (a + bytes.length) bs
  | a, .fixed tokens :: bs => ∃ b, a ≤ b ∧ b ≤ input.length ∧ validParse input a b tokens ∧ blocksCarry input b bs

/-- R356: `output` is allowed for `(input, level)`. -/
def allowedOutput (input : List Byte) (level : Nat) (output : List Byte) : Prop :=
  ∃ blocks : List OutBlock,
    blocks ≠ [] ∧
    (level = 0 → (∀ b ∈ blocks, ∃ bytes, b = .stored bytes) ∧ blocks.length = storedBlockCount input.length) ∧
    blocksCarry input 0 blocks ∧
    output = bitsToBytes (blocksBits 0 blocks)

end Sys2Proof.Machine
end

