-- ==== Sys2Proof/Certificates/Slice0/Obligations.lean ====
section
/-! DEFINITION. The statements for the provers. Each docstring names the rules of the spec it formalises. The word
"completes" means that `exec` answers a next state for every state and operands that meet hypotheses on them alone.
`abortedWith` says what R410 says of an abort, and beside it that `CTRL`, the encoder arrays and the host's pending moves stay: that
is the model's own (logs 19, 29 and 4). -/

open Sys2Proof Sys2Proof.Machine

/-! ## Encoding -/

/-- Words of every encoded family, written out from 30_encoding.md, 44_inflate_blocks.md and 45_inflate_symbols.md, decode to
the instructions they stand for. A check on fixed words. -/
def Obligations.SampleWordsDecode : Prop :=
  decode .header (streamOf [1, 0, 0]) = .ok (.blkStored true) 3 ∧
  decode .header (streamOf [1, 1, 0]) = .ok (.blkFixed true) 3 ∧
  decode .header (streamOf [0, 0, 1]) = .ok (.blkDynamic false) 3 ∧
  decode .header (streamOf [0, 1, 1]) = .ok (.blkReserved false) 3 ∧
  decode .dynCounts (streamOf [1, 0, 0, 0, 0, 0, 0, 0, 0, 0, 1, 1, 1, 1]) = .ok (.dynCounts 1 0 15) 14 ∧
  decode .dynCll (streamOf [1, 1, 0]) = .ok (.dynCll 3) 3 ∧
  decodeBytes .storedLen [0x0A, 0x00, 0xF4, 0xFF] = .ok (.storedLen 0x000A 0xFFF4) 32 ∧
  decode (.ll tableFLL) (streamOf [1, 0, 0, 1, 0, 0, 0, 1]) = .ok (.lit0To143 0x61) 8 ∧
  decode (.ll tableFLL) (streamOf [1, 1, 1, 1, 1, 1, 1, 1, 1]) = .ok (.lit144To255 0xFF) 9 ∧
  decode (.ll tableFLL) (streamOf [0, 0, 0, 0, 0, 0, 0]) = .ok .eob 7 ∧
  decode (.ll tableFLL) (streamOf [0, 0, 0, 1, 1, 0, 1, 1, 0]) = .ok (.len269 1) 9 ∧
  decode (.ll tableFLL) (streamOf [1, 1, 0, 0, 0, 1, 1, 0]) = .ok .ll286 8 ∧
  decode (.dist tableFD) (streamOf [0, 0, 1, 1, 0, 1, 0]) = .ok (.dist6 1) 7 ∧
  decode (.dist tableFD) (streamOf [1, 1, 1, 1]) = .noLeaf ∧
  decode .ctrl (streamOf [1, 0, 0, 0, 0, 0, 0, 0]) = .ok (.decompress 0) 8 ∧
  decode .ctrl (streamOf [1, 1, 0, 0, 0, 1, 1, 0]) = .ok (.compress 6) 8

/-- R21, R119, R385: what a write of the value `v` to `CTRL` means: nothing without START; DECOMPRESS for OP = 0 with any
LEVEL; COMPRESS of LEVEL for OP = 1 up to level 9, and no command above; bits 3:2 never matter. -/
def Obligations.ControlWritesDecode : Prop :=
  ∀ v : BitVec 8, decode .ctrl (fieldBits 8 v.toNat) =
    if v.getLsbD 0 = false then .noStart
    else if v.getLsbD 1 = false then .ok (.decompress (v.extractLsb' 4 4)) 8
    else if v.toNat / 16 ≤ 9 then .ok (.compress (v.extractLsb' 4 4)) 8
    else .illegalLevel

/-- Decoding what the encoder writes gives the instruction back, with exactly its bits used and whatever follows it, in every
context, for every well-formed instruction with every operand. The one exception is R226: symbol 16 before any length. -/
def Obligations.EncodeThenDecode : Prop :=
  ∀ (c : Ctx) (i : Instr) (bits rest : List Bool), ctxOk c → i.wellFormed = true → encode c i = some bits →
    (∀ T x, ¬ (c = .cl T true ∧ i = .clRep16 x)) →
    decode c (bits ++ rest) = .ok i bits.length

/-- What the decoder accepts is exactly what the encoder writes for a well-formed instruction, in every stream context. -/
def Obligations.DecodeThenEncode : Prop :=
  ∀ (c : Ctx) (bits : List Bool) (i : Instr) (used : Nat), ctxOk c → c ≠ .ctrl → decode c bits = .ok i used →
    i.wellFormed = true ∧ used ≤ bits.length ∧ encode c i = some (bits.take used)

/-- R402: a stream element that is cut short is reported as such, wherever it is cut: no prefix of an encoding decodes to
anything. -/
def Obligations.TruncatedElementIsShort : Prop :=
  ∀ (c : Ctx) (i : Instr) (bits : List Bool) (n : Nat), ctxOk c → encode c i = some bits → n < bits.length →
    (∀ T x, ¬ (c = .cl T true ∧ i = .clRep16 x)) →
    decode c (bits.take n) = .short

/-- R95 to R99, R113: in a built table, the instruction of every symbol that has a code has an encoding of the code's length
and its extra bits, for each of the three alphabets. -/
def Obligations.UsedSymbolsHaveEncodings : Prop :=
  ∀ (T : HuffTable) (i : Instr) (sym : Nat) (extra : List Bool), builtTable T → T.lens.getD sym 0 ≠ 0 →
    (llParts i = some (sym, extra) →
      ∃ bits, encode (.ll T) i = some bits ∧ bits.length = T.lens.getD sym 0 + extra.length) ∧
    (distParts i = some (sym, extra) →
      ∃ bits, encode (.dist T) i = some bits ∧ bits.length = T.lens.getD sym 0 + extra.length) ∧
    (clParts i = some (sym, extra) → ∀ first,
      ∃ bits, encode (.cl T first) i = some bits ∧ bits.length = T.lens.getD sym 0 + extra.length)

/-! ## A step runs the decoded instruction -/

/-- While the inflate engine runs, the step is the instruction decoded at the cursor, run after the cursor has moved past it;
while the deflate engine runs, it is the body of the level (R340); at rest, a `CTRL` write of the host is the command it
decodes to (R381), and without a move of the host nothing happens (R440). -/
def Obligations.StepRunsDecodedInstruction : Prop :=
  ∀ (s : State) (i : Instr) (used : Nat),
    (s.status.state = .busy → ctrlOp s = false → decode (fetchCtx s) (nextBits 32 s) = .ok i used →
      step s = exec i { s with rd := ⟨(8 * s.rd.byte + s.rd.bit + used) / 8, (8 * s.rd.byte + s.rd.bit + used) % 8,
        s.rd.len⟩ }) ∧
    (s.status.state = .busy → ctrlOp s = true → step s = exec (if s.dfl.level = 0 then .compress0 else .compress1To9) s) ∧
    (∀ v rest, s.status.state ≠ .busy → s.host = .writeCtrl v :: rest → decode .ctrl (fieldBits 8 v.toNat) = .ok i used →
      step s = exec i { s with host := rest }) ∧
    (s.status.state ≠ .busy → s.host = [] → step s = .next s)

/-- R8, R29: the bits that a fetch sees are the unread bits of `IN` from the cursor on, in stream order, up to the end of the
input. -/
def Obligations.FetchReadsStreamBits : Prop :=
  ∀ (n k : Nat) (s : State),
    (nextBits n s)[k]? =
      if k < n ∧ k < 8 * (s.rd.len - s.rd.byte) - s.rd.bit then
        some ((inByte s ((8 * s.rd.byte + s.rd.bit + k) / 8)).getLsbD ((8 * s.rd.byte + s.rd.bit + k) % 8))
      else none

/-- R402, R407, R404 (e): what ends the call at the fetch: an element cut short by the end of the input, a code that leads to no
symbol, and symbol 16 before any code length. -/
def Obligations.FetchErrorsEndTheCall : Prop :=
  ∀ s : State, s.status.state = .busy → ctrlOp s = false →
    (decode (fetchCtx s) (nextBits 32 s) = .short → ∃ t, step s = .next t ∧ abortedWith .unexpectedEnd s t) ∧
    (decode (fetchCtx s) (nextBits 32 s) = .noLeaf → ∃ t, step s = .next t ∧ abortedWith .invalidSymbol s t) ∧
    (decode (fetchCtx s) (nextBits 32 s) = .noPrevious → ∃ t, step s = .next t ∧ abortedWith .invalidHuffmanTable s t)

/-! ## Bit Reader -/

/-- R131, R132 (b), (c), R136: `read_bits(n)`. The value has the next `n` stream bits, the first the least significant; only the
cursor moves, by exactly `n`; with fewer than `n` unread bits the cursor stays and `UnexpectedEnd` is raised; widths outside
1 to 16 are refused. -/
def Obligations.ReadBitsReturnsNextBits : Prop :=
  ∀ (n : Nat) (s : State),
    (1 ≤ n → n ≤ 16 → n ≤ 8 * (s.rd.len - s.rd.byte) - s.rd.bit →
      ∃ v, v < 2 ^ n ∧
        (∀ i, i < n → v.testBit i =
          (inByte s ((8 * s.rd.byte + s.rd.bit + i) / 8)).getLsbD ((8 * s.rd.byte + s.rd.bit + i) % 8)) ∧
        exec (.readBits n) s = .next { s with
          rd := ⟨(8 * s.rd.byte + s.rd.bit + n) / 8, (8 * s.rd.byte + s.rd.bit + n) % 8, s.rd.len⟩, ret := .num v }) ∧
    (1 ≤ n → n ≤ 16 → 8 * (s.rd.len - s.rd.byte) - s.rd.bit < n →
      exec (.readBits n) s = .next (raiseError .unexpectedEnd s)) ∧
    (n = 0 ∨ 16 < n → exec (.readBits n) s = .refused .outsideContract)

/-- R132 (a), R70: one read of `a + b` bits is a read of `a` and then of `b` bits, the second result above the first. -/
def Obligations.ReadBitsSplits : Prop :=
  ∀ (a b : Nat) (s : State), 1 ≤ a → 1 ≤ b → a + b ≤ 16 → a + b ≤ 8 * (s.rd.len - s.rd.byte) - s.rd.bit →
    ∃ x y s1 s2, exec (.readBits a) s = .next s1 ∧ s1.ret = .num x ∧ exec (.readBits b) s1 = .next s2 ∧ s2.ret = .num y ∧
      exec (.readBits (a + b)) s = .next { s2 with ret := .num (x + y <<< a) }

/-- R133, R134: `rd_align()` moves to the next byte boundary and nowhere from one; `has_data()` tells whether a byte, and so
whether a bit, is unread. -/
def Obligations.ReaderAlignAndHasData : Prop :=
  ∀ s : State,
    exec .rdAlign s = .next { s with
      rd := if s.rd.bit ≠ 0 then ⟨s.rd.byte + 1, 0, s.rd.len⟩ else s.rd, ret := .none } ∧
    exec .hasData s = .next { s with ret := .flag (decide (s.rd.byte < s.rd.len)) } ∧
    (readerOk s → (s.rd.byte < s.rd.len ↔ 0 < 8 * (s.rd.len - s.rd.byte) - s.rd.bit))

/-- R135: `read_byte()` at a byte boundary is `read_bits(8)` and returns the byte at the cursor; at the end of the input it
raises `UnexpectedEnd`. -/
def Obligations.ReadByteIsReadBitsEight : Prop :=
  ∀ s : State, s.rd.bit = 0 →
    (s.rd.byte < s.rd.len →
      exec .readByte s = .next { s with
        rd := { s.rd with byte := s.rd.byte + 1 }, ret := .num (inByte s s.rd.byte).toNat } ∧
      exec (.readBits 8) s = exec .readByte s) ∧
    (s.rd.len ≤ s.rd.byte → exec .readByte s = .next (raiseError .unexpectedEnd s))

/-- R66: `OutAppend(b)` writes the byte at `OUT_LEN` and no other, and adds one to `OUT_LEN`; at `OUT_MAX` it raises
`OutputOverflow`. -/
def Obligations.OutAppendWritesOneByte : Prop :=
  ∀ (b : Byte) (s : State),
    (s.outLen.toNat < s.outMax.toNat →
      ∃ (m : Memory) (t : State),
        t = { s with outBuf := m, outLen := BitVec.ofNat Config.lenw (s.outLen.toNat + 1), ret := .none } ∧
        exec (.outAppend b) s = .next t ∧ (s.outBuf.wf = true → m.wf = true) ∧
        outByte t s.outLen.toNat = b ∧ outFrame s.outLen.toNat (s.outLen.toNat + 1) s t) ∧
    (s.outMax.toNat ≤ s.outLen.toNat → exec (.outAppend b) s = .next (raiseError .outputOverflow s))

/-! ## Bit Writer -/

/-- R151, R156: `write_bits(value, n)` puts bits 0 to `n - 1` of `value` after the bits written before, bit 0 first; widths
outside 1 to 16 are refused. -/
def Obligations.WriteBitsAppendsField : Prop :=
  ∀ (value n : Nat) (s : State),
    (1 ≤ n → n ≤ 16 → writerReady n s → writesBits (.writeBits value n) (fieldBits n value) s) ∧
    (n = 0 ∨ 16 < n → exec (.writeBits value n) s = .refused .outsideContract)

/-- R152, R154, R68: `write_code(code, len)` puts the `len` code bits, the most significant first; `write_byte(b)` puts the 8
bits of `b`, and at a byte boundary is `OutAppend(b)`. Outside the operand ranges of R152
WRITE_CODE puts `len` bits of a free value: the model's own (DESIGN CHOICE, log 16). -/
def Obligations.WriteCodeAndByteAppend : Prop :=
  (∀ (code len : Nat) (s : State), 1 ≤ len → len ≤ 15 → code < 2 ^ len → writerReady len s →
    writesBits (.writeCode code len) (codeBits len code) s) ∧
  (∀ code len : Nat, len = 0 ∨ 15 < len ∨ 2 ^ len ≤ code → ∃ v, v < 2 ^ len ∧
    ∀ s : State, writerReady len s → writesBits (.writeCode code len) (codeBits len v) s) ∧
  (∀ (b : Byte) (s : State), writerReady 8 s → writesBits (.writeByte b) (fieldBits 8 b.toNat) s) ∧
  (∀ (b : Byte) (s : State), writerReady 8 s → s.wr.cnt = 0 → exec (.writeByte b) s = exec (.outAppend b) s)

/-- R151, R153, R408: a writer operation that completes more bytes than fit below `OUT_MAX` ends the current call with
`OutputOverflow`. -/
def Obligations.WriterOverflowEndsCall : Prop :=
  ∀ s : State, s.status.state = .busy → s.wr.finished = false → writerOk s → s.outLen ≤ s.outMax →
    (∀ value n, 1 ≤ n → n ≤ 16 → ¬ roomFor ((s.wr.cnt + n) / 8) s →
      ∃ t, exec (.writeBits value n) s = .next t ∧ abortedWith .outputOverflow s t) ∧
    (∀ code len, ¬ roomFor ((s.wr.cnt + len) / 8) s →
      ∃ t, exec (.writeCode code len) s = .next t ∧ abortedWith .outputOverflow s t) ∧
    (∀ b, ¬ roomFor 1 s → ∃ t, exec (.writeByte b) s = .next t ∧ abortedWith .outputOverflow s t) ∧
    (s.wr.cnt ≠ 0 → ¬ roomFor 1 s →
      (∃ t, exec .wrAlign s = .next t ∧ abortedWith .outputOverflow s t) ∧
      (∃ t, exec .finish s = .next t ∧ abortedWith .outputOverflow s t))

/-- R153, R155: `wr_align()` fills the partial byte with zero bits and does nothing at a byte boundary; `finish()` aligns,
retires the writer and answers the length of the result. -/
def Obligations.WriterAlignAndFinish : Prop :=
  ∀ s : State, s.wr.finished = false → writerOk s →
    (s.wr.cnt = 0 → exec .wrAlign s = .next { s with ret := .none }) ∧
    (s.wr.cnt ≠ 0 → roomFor 1 s → writesBits .wrAlign (List.replicate (8 - s.wr.cnt) false) s) ∧
    ((s.wr.cnt ≠ 0 → roomFor 1 s) →
      ∃ (m : Memory) (len : Len) (t : State),
        t = { s with outBuf := m, outLen := len, wr := ⟨0, 0, true⟩, ret := .num len.toNat } ∧
        exec .finish s = .next t ∧
        bytesToBits (outBytes t) = writtenBits s ++ List.replicate ((8 - s.wr.cnt) % 8) false ∧
        outFrame s.outLen.toNat len.toNat s t)

/-- R452, R155: after `finish()` every operation of the writer is refused, those of the emission rules among them. -/
def Obligations.WriterDeadAfterFinish : Prop :=
  ∀ s : State, s.wr.finished = true →
    (∀ value n, 1 ≤ n → n ≤ 16 → exec (.writeBits value n) s = .refused .writerFinished) ∧
    (∀ code len, exec (.writeCode code len) s = .refused .writerFinished) ∧
    (∀ b, exec (.writeByte b) s = .refused .writerFinished) ∧
    exec .wrAlign s = .refused .writerFinished ∧ exec .finish s = .refused .writerFinished ∧
    (∀ b, exec (.emitLit b) s = .refused .writerFinished) ∧
    (∀ len dist, exec (.emitMatch len dist) s = .refused .writerFinished) ∧
    exec .emitEob s = .refused .writerFinished

/-- R157: the mirror law. What a fresh writer writes, field by field and alignment by alignment, a reader constructed on the
finished bytes reads back field by field, and then it has fewer than 8 unread bits, all zero. -/
def Obligations.ReaderMirrorsWriter : Prop :=
  ∀ (items : List BitItem) (w : State), (∀ i ∈ items, i.ok) → w.wr = ⟨0, 0, false⟩ → w.outLen = 0 →
    (itemsEnd 0 items + 7) / 8 ≤ w.outMax.toNat →
    ∃ t, execAll (items.map BitItem.write ++ [.finish]) w = .next t ∧
      ∀ r : State, r.rd = ⟨0, 0, t.outLen.toNat⟩ → (∀ a, a < t.outLen.toNat → inByte r a = outByte t a) →
        ∃ u, readsBack items r u ∧ 8 * (u.rd.len - u.rd.byte) - u.rd.bit < 8 ∧
          ∀ k, k < 8 * (u.rd.len - u.rd.byte) - u.rd.bit → streamBit u (8 * u.rd.byte + u.rd.bit + k) = false

/-! ## Huffman tables -/

/-- R170, R171: `build_from_lengths` succeeds exactly for arrays of lengths up to 15 that meet the Kraft inequality and use every
required symbol; then the table holds the lengths, their counts and the canonical codes; a failed build clears `valid` and
raises `InvalidHuffmanTable`. That the table goes to the instance `t` that the operation names (log 23), and that an array may have
any number of entries where R31 gives 0 to 320 (log 22), are the model's own (DESIGN CHOICE). -/
def Obligations.BuildFromLengthsChecksKraft : Prop :=
  ∀ (t : BlockTable) (lens required : List Nat) (s : State),
    (lengthsBuild lens required →
      exec (.buildFromLengths t lens required) s = .next { setTable t
        ⟨lens.length, lens, 0 :: (List.range 15).map (fun L => lens.count (L + 1)), canonicalCodes lens, true⟩ s with
          ret := .none }) ∧
    (¬ lengthsBuild lens required →
      exec (.buildFromLengths t lens required) s =
        .next (raiseError .invalidHuffmanTable (setTable t { tableOf (.block t) s with valid := false } s)))

/-- R172, R178 (b), (c): the canonical codes of a valid array. The code of a used symbol, read as a fraction of its length's
range, is the Kraft sum of the symbols before it in the order by length and then by index; so each code fits its length and no
code is the beginning of another. An unused symbol has no code. For an array that fails R170, for which R172 states no
result, every used symbol gets a code that is a free value: the model's own (DESIGN CHOICE, log 16). -/
def Obligations.CanonicalCodesFollowTheOrder : Prop :=
  ∀ (lens : List Nat) (s : State),
    (lengthsBuild lens [] → ∃ codes, exec (.canonicalCodes lens) s = .next { s with ret := .codes codes } ∧
      codes.length = lens.length ∧
      (∀ (v : Nat), lens[v]? = some 0 → codes[v]? = some none) ∧
      (∀ v l, lens[v]? = some l → l ≠ 0 →
        ∃ code, codes[v]? = some (some code) ∧ code < 2 ^ l ∧ code * 2 ^ (15 - l) = kraftBefore lens v l) ∧
      (∀ (u v k l c d : Nat), u ≠ v → lens[u]? = some k → lens[v]? = some l → codes[u]? = some (some c) →
        codes[v]? = some (some d) → ¬ (codeBits k c <+: codeBits l d))) ∧
    (¬ lengthsBuild lens [] → ∃ codes, exec (.canonicalCodes lens) s = .next { s with ret := .codes codes } ∧
      codes.length = lens.length ∧
      ∀ v l : Nat, lens[v]? = some l → ∃ c, codes[v]? = some c ∧ (c = none ↔ l = 0))

/-- R178 (d), R176: where the stream holds the code of a used symbol of the table, `decode_symbol` returns the symbol and stops
exactly after the code. -/
def Obligations.DecodeSymbolReturnsTheSymbol : Prop :=
  ∀ (id : TableId) (s : State) (sym len code : Nat), builtTable (tableOf id s) →
    (tableOf id s).lens[sym]? = some len → (tableOf id s).code[sym]? = some (some code) →
    len ≤ 8 * (s.rd.len - s.rd.byte) - s.rd.bit →
    streamBits s (8 * s.rd.byte + s.rd.bit) len = codeBits len code →
    exec (.decodeSymbol id) s = .next { s with
      rd := ⟨(8 * s.rd.byte + s.rd.bit + len) / 8, (8 * s.rd.byte + s.rd.bit + len) % 8, s.rd.len⟩, ret := .num sym }

/-- R176: how `decode_symbol` fails. After bits that still begin a longer code, the end of the input raises `UnexpectedEnd` and a
bit with which no code goes on raises `InvalidSymbol` at that bit; a table that is not valid is refused. -/
def Obligations.DecodeSymbolFailures : Prop :=
  ∀ (id : TableId) (s : State) (n : Nat),
    ((tableOf id s).valid = false → exec (.decodeSymbol id) s = .refused .tableInvalid) ∧
    (builtTable (tableOf id s) →
      (n = 0 ∨ ∃ (sym len code : Nat), (tableOf id s).lens[sym]? = some len ∧ (tableOf id s).code[sym]? = some (some code) ∧
        n < len ∧ streamBits s (8 * s.rd.byte + s.rd.bit) n = (codeBits len code).take n) →
      (8 * (s.rd.len - s.rd.byte) - s.rd.bit = n →
        exec (.decodeSymbol id) s = .next (raiseError .unexpectedEnd (advance n s))) ∧
      (n < 8 * (s.rd.len - s.rd.byte) - s.rd.bit →
        (∀ sym len code : Nat, (tableOf id s).lens[sym]? = some len → (tableOf id s).code[sym]? = some (some code) →
          (codeBits len code).take (n + 1) ≠ streamBits s (8 * s.rd.byte + s.rd.bit) (n + 1)) →
        exec (.decodeSymbol id) s = .next (raiseError .invalidSymbol (advance (n + 1) s))))

/-- R104, R105: the codes of the two fixed tables. -/
def Obligations.FixedTableCodes : Prop :=
  tableFLL.valid = true ∧ tableFLL.n = 288 ∧ tableFD.valid = true ∧ tableFD.n = 30 ∧
  (∀ sym, sym < 144 → tableFLL.symBits sym = some (codeBits 8 (0x30 + sym))) ∧
  (∀ sym, 144 ≤ sym → sym < 256 → tableFLL.symBits sym = some (codeBits 9 (0x190 + (sym - 144)))) ∧
  (∀ sym, 256 ≤ sym → sym < 280 → tableFLL.symBits sym = some (codeBits 7 (sym - 256))) ∧
  (∀ sym, 280 ≤ sym → sym < 288 → tableFLL.symBits sym = some (codeBits 8 (0xC0 + (sym - 280)))) ∧
  (∀ sym, sym < 30 → tableFD.symBits sym = some (codeBits 5 sym))

/-- R191 (a) to (d), (f), (g), R193, R194, R195, R197: `build_codes` answers, as a function of its operands alone, lengths that are
0 exactly for unused symbols, at most `max_bits`, within the Kraft inequality, no longer for a more frequent symbol, and 1 for a
symbol that is alone; the codes are the canonical ones. It is refused outside its ranges. The optimality of R191 (e) is not
stated. The function is the reference of R196, the model's choice (DESIGN CHOICE, log 9). -/
def Obligations.BuildCodesLengthsAndCodes : Prop :=
  ∀ (freqs : List Len) (maxBits : Nat),
    (1 ≤ maxBits → maxBits ≤ 15 → (freqs.filter fun f => f != 0).length ≤ 2 ^ maxBits →
      ∃ lens : List Nat,
        (∀ s, exec (.buildCodes freqs maxBits) s = .next { s with
          enc := ⟨freqs, lens, canonicalCodes lens⟩, ret := .codes (canonicalCodes lens) }) ∧
        lens.length = freqs.length ∧
        (∀ (v : Nat) (f : Len) (l : Nat), freqs[v]? = some f → lens[v]? = some l → (l = 0 ↔ f = 0) ∧ l ≤ maxBits) ∧
        kraftSum lens ≤ 2 ^ 15 ∧
        (∀ (u v : Nat) (f g : Len) (k l : Nat), freqs[u]? = some f → freqs[v]? = some g → lens[u]? = some k →
          lens[v]? = some l → 0 < g.toNat → g.toNat < f.toNat → k ≤ l) ∧
        ((freqs.filter fun f => f != 0).length = 1 → ∀ l ∈ lens, l ≤ 1)) ∧
    (maxBits = 0 ∨ 15 < maxBits ∨ 2 ^ maxBits < (freqs.filter fun f => f != 0).length →
      ∀ s, exec (.buildCodes freqs maxBits) s = .refused .outsideContract)

/-! ## Blocks -/

/-- R212, R213, R215, R217, R38: a block header latches its fields and enters the block's state; a stored block skips to the byte
boundary; a fixed block marks the fixed tables as built. Nothing else changes. -/
def Obligations.BlockHeadersEnterBlocks : Prop :=
  ∀ (final : Bool) (s : State),
    exec (.blkStored final) s = .next { s with
      inf := { s.inf with final := final, btype := 0, state := .stored, phase := .storedLen }
      rd := if s.rd.bit ≠ 0 then ⟨s.rd.byte + 1, 0, s.rd.len⟩ else s.rd } ∧
    exec (.blkFixed final) s = .next { s with
      inf := { s.inf with final := final, btype := 1, state := .fixedHuffman, phase := .body }
      status := { s.status with fixedReady := true } } ∧
    exec (.blkDynamic final) s = .next { s with
      inf := { s.inf with final := final, btype := 2, state := .dynamicHuffman, phase := .dynCounts } }

/-- R215, R216: a stored block with matching length fields whose bytes are there and fit is copied byte for byte, and the block
is over; no other byte of `OUT` changes. -/
def Obligations.StoredBlockCopiesItsBytes : Prop :=
  ∀ (len nlen : BitVec 16) (s : State), s.status.state = .busy → len.toNat + nlen.toNat = 65535 →
    len.toNat ≤ s.rd.len - s.rd.byte → roomFor len.toNat s →
    ∃ (m : Memory) (t : State),
      t = blockOver { s with
        inf := { s.inf with LEN := len, NLEN := nlen }, rd := { s.rd with byte := s.rd.byte + len.toNat }
        outBuf := m, outLen := BitVec.ofNat Config.lenw (s.outLen.toNat + len.toNat) } ∧
      exec (.storedLen len nlen) s = .next t ∧
      (∀ k, k < len.toNat → outByte t (s.outLen.toNat + k) = inByte s (s.rd.byte + k)) ∧
      outFrame s.outLen.toNat (s.outLen.toNat + len.toNat) s t

/-- R215, R216, R405, R415: how a stored block ends the call: `InvalidStoredLength` for length fields that do not match, whatever
follows; `UnexpectedEnd` at the first missing byte; `OutputOverflow` at the first byte that is there and does not fit. -/
def Obligations.StoredBlockFailures : Prop :=
  ∀ (len nlen : BitVec 16) (s : State), s.status.state = .busy →
    (len.toNat + nlen.toNat ≠ 65535 →
      ∃ t, exec (.storedLen len nlen) s = .next t ∧ abortedWith .invalidStoredLength s t) ∧
    (len.toNat + nlen.toNat = 65535 → s.rd.len - s.rd.byte < len.toNat → roomFor (s.rd.len - s.rd.byte) s →
      ∃ t, exec (.storedLen len nlen) s = .next t ∧ abortedWith .unexpectedEnd s t) ∧
    (len.toNat + nlen.toNat = 65535 → s.outLen ≤ s.outMax → s.outMax.toNat - s.outLen.toNat < len.toNat →
      s.outMax.toNat - s.outLen.toNat < s.rd.len - s.rd.byte →
      ∃ t, exec (.storedLen len nlen) s = .next t ∧ abortedWith .outputOverflow s t)

/-- R219, R220, R221: the counts of a dynamic header are latched and the 19 code-length lengths cleared; each 3-bit field is the
length of its symbol in the fixed order; after the last field the code-length table is built, or the call ends with
`InvalidHuffmanTable`. -/
def Obligations.DynamicHeaderFields : Prop :=
  (∀ (hlit hdist : BitVec 5) (hclen : BitVec 4) (s : State),
    exec (.dynCounts hlit hdist hclen) s = .next { s with inf := { s.inf with
      hlit := hlit, hdist := hdist, hclen := hclen, cll := Vector.replicate 19 0, k := 0, phase := .dynCll } }) ∧
  (∀ (v : BitVec 3) (s : State), s.inf.k < 19 →
    ∃ cll' : Vector (BitVec 3) 19,
      (∀ (j : Nat) (hj : j < 19), cll'[j] =
        if [16, 17, 18, 0, 8, 7, 9, 6, 10, 5, 11, 4, 12, 3, 13, 2, 14, 1, 15][s.inf.k]? = some j then v else s.inf.cll[j]) ∧
      (s.inf.k + 1 < s.inf.hclen.toNat + 4 →
        exec (.dynCll v) s = .next { s with inf := { s.inf with cll := cll', k := s.inf.k + 1 } }) ∧
      (s.inf.k + 1 = s.inf.hclen.toNat + 4 → ∀ T, buildTable (cll'.toList.map BitVec.toNat) [] = some T →
        exec (.dynCll v) s = .next { s with
          inf := { s.inf with cll := cll', k := s.inf.k + 1, i := 0, phase := .codeLengths }, tCL := T }) ∧
      (s.inf.k + 1 = s.inf.hclen.toNat + 4 → s.status.state = .busy →
        buildTable (cll'.toList.map BitVec.toNat) [] = none →
        ∃ t, exec (.dynCll v) s = .next t ∧ abortedWith .invalidHuffmanTable s t))

/-- R222, R225 to R228: before the end of the sequence, a code-length instruction stores its length that many times from
`INF.i` on and moves `INF.i` past them; nothing else changes. -/
def Obligations.CodeLengthsAreStored : Prop :=
  ∀ (i : Instr) (v : BitVec 4) (rep : Nat) (s : State), clEffect s i = some (v, rep) →
    s.inf.i + rep < s.inf.hlit.toNat + 257 + (s.inf.hdist.toNat + 1) →
    ∃ L' : Vector (BitVec 4) 320, filledWith s.inf.L L' s.inf.i rep v ∧
      exec i s = .next { s with inf := { s.inf with L := L', i := s.inf.i + rep } }

/-- R222, R224: the code-length instruction that completes the sequence builds the literal/length table, with a code for symbol
256, and the distance table, and the elements of the block follow; where either cannot be built the call ends with
`InvalidHuffmanTable`. -/
def Obligations.LastCodeLengthBuildsTables : Prop :=
  ∀ (i : Instr) (v : BitVec 4) (rep : Nat) (s : State), clEffect s i = some (v, rep) →
    s.inf.i + rep = s.inf.hlit.toNat + 257 + (s.inf.hdist.toNat + 1) →
    ∃ L' : Vector (BitVec 4) 320, filledWith s.inf.L L' s.inf.i rep v ∧
      (∀ T D, buildTable ((L'.toList.take (s.inf.hlit.toNat + 257)).map BitVec.toNat) [256] = some T →
        buildTable (((L'.toList.drop (s.inf.hlit.toNat + 257)).take (s.inf.hdist.toNat + 1)).map BitVec.toNat) [] = some D →
        exec i s = .next { s with
          inf := { s.inf with L := L', i := s.inf.i + rep, phase := .body }, tLL := T, tD := D }) ∧
      (s.status.state = .busy →
        buildTable ((L'.toList.take (s.inf.hlit.toNat + 257)).map BitVec.toNat) [256] = none ∨
        buildTable (((L'.toList.drop (s.inf.hlit.toNat + 257)).take (s.inf.hdist.toNat + 1)).map BitVec.toNat) [] = none →
        ∃ t, exec i s = .next t ∧ abortedWith .invalidHuffmanTable s t)

/-- R223, R226, R404: a repeat that would overrun the sequence, and a repeat of a previous length where there is none, end the
call with `InvalidHuffmanTable`. -/
def Obligations.CodeLengthRepeatFailures : Prop :=
  ∀ s : State, s.status.state = .busy →
    (∀ i v rep, (∃ x, i = .clRep16 x) ∨ (∃ x, i = .clZero17 x) ∨ (∃ x, i = .clZero18 x) → clEffect s i = some (v, rep) →
      s.inf.hlit.toNat + 257 + (s.inf.hdist.toNat + 1) < s.inf.i + rep →
      ∃ t, exec i s = .next t ∧ abortedWith .invalidHuffmanTable s t) ∧
    (∀ x, s.inf.i = 0 → ∃ t, exec (.clRep16 x) s = .next t ∧ abortedWith .invalidHuffmanTable s t)

/-! ## Symbols -/

/-- R251: a literal appends its byte, for each of the 256 values; nothing else changes but the symbol register. Without room it
raises `OutputOverflow`. In a fixed block it is the 8-bit code `0x30 + b` below 144 and the 9-bit code `0x190 + (b - 144)` from
144 on. -/
def Obligations.LiteralsAppendTheirByte : Prop :=
  (∀ (i : Instr) (b : Byte) (s : State), i = .lit0To143 b ∨ i = .lit144To255 b →
    (roomFor 1 s → ∃ (m : Memory) (t : State),
      t = { s with inf := { s.inf with sym := b.toNat }, outBuf := m
                   outLen := BitVec.ofNat Config.lenw (s.outLen.toNat + 1) } ∧
      exec i s = .next t ∧ outByte t s.outLen.toNat = b ∧ outFrame s.outLen.toNat (s.outLen.toNat + 1) s t) ∧
    (¬ roomFor 1 s →
      exec i s = .next (raiseError .outputOverflow { s with inf := { s.inf with sym := b.toNat } }))) ∧
  (∀ b : Byte, b.toNat ≤ 143 → encode (.ll tableFLL) (.lit0To143 b) = some (codeBits 8 (0x30 + b.toNat))) ∧
  (∀ b : Byte, 144 ≤ b.toNat → encode (.ll tableFLL) (.lit144To255 b) = some (codeBits 9 (0x190 + (b.toNat - 144))))

/-- R252, R211, R230, R388: the end of a block. In a final block the call completes with DONE; otherwise the next header
follows at the next bit. Nothing is appended and the cursor does not move. In a fixed block it is seven 0 bits. That the block's
tables, dead from here on (R78), keep their contents is the model's choice (log 28). -/
def Obligations.EndOfBlockEndsBlock : Prop :=
  (∀ s : State, s.status.state = .busy →
    (s.inf.final = true → exec .eob s = .next { s with
      inf := { s.inf with sym := 256, state := .finished }, status := { s.status with state := .done } }) ∧
    (s.inf.final = false → exec .eob s = .next { s with
      inf := { s.inf with sym := 256, state := .start, phase := .header } })) ∧
  encode (.ll tableFLL) .eob = some (List.replicate 7 false)

/-- R253, R260 to R288: the length of every length symbol with every extra value. -/
def Obligations.LengthSymbolsSetTheLength : Prop :=
  lengthMeaning .len257 257 3 ∧ lengthMeaning .len258 258 4 ∧ lengthMeaning .len259 259 5 ∧ lengthMeaning .len260 260 6 ∧
  lengthMeaning .len261 261 7 ∧ lengthMeaning .len262 262 8 ∧ lengthMeaning .len263 263 9 ∧ lengthMeaning .len264 264 10 ∧
  (∀ x : BitVec 1, lengthMeaning (.len265 x) 265 (11 + x.toNat) ∧ lengthMeaning (.len266 x) 266 (13 + x.toNat) ∧
    lengthMeaning (.len267 x) 267 (15 + x.toNat) ∧ lengthMeaning (.len268 x) 268 (17 + x.toNat)) ∧
  (∀ x : BitVec 2, lengthMeaning (.len269 x) 269 (19 + x.toNat) ∧ lengthMeaning (.len270 x) 270 (23 + x.toNat) ∧
    lengthMeaning (.len271 x) 271 (27 + x.toNat) ∧ lengthMeaning (.len272 x) 272 (31 + x.toNat)) ∧
  (∀ x : BitVec 3, lengthMeaning (.len273 x) 273 (35 + x.toNat) ∧ lengthMeaning (.len274 x) 274 (43 + x.toNat) ∧
    lengthMeaning (.len275 x) 275 (51 + x.toNat) ∧ lengthMeaning (.len276 x) 276 (59 + x.toNat)) ∧
  (∀ x : BitVec 4, lengthMeaning (.len277 x) 277 (67 + x.toNat) ∧ lengthMeaning (.len278 x) 278 (83 + x.toNat) ∧
    lengthMeaning (.len279 x) 279 (99 + x.toNat) ∧ lengthMeaning (.len280 x) 280 (115 + x.toNat)) ∧
  (∀ x : BitVec 5, lengthMeaning (.len281 x) 281 (131 + x.toNat) ∧ lengthMeaning (.len282 x) 282 (163 + x.toNat) ∧
    lengthMeaning (.len283 x) 283 (195 + x.toNat) ∧ lengthMeaning (.len284 x) 284 (227 + x.toNat)) ∧
  lengthMeaning .len285 285 258

/-- R254 to R256, R259 (a), (b), R290 to R319: the distance of every distance symbol with every extra value, and the copy. -/
def Obligations.DistanceSymbolsCopyTheMatch : Prop :=
  distanceMeaning .dist0 0 1 ∧ distanceMeaning .dist1 1 2 ∧ distanceMeaning .dist2 2 3 ∧ distanceMeaning .dist3 3 4 ∧
  (∀ y : BitVec 1, distanceMeaning (.dist4 y) 4 (5 + y.toNat) ∧ distanceMeaning (.dist5 y) 5 (7 + y.toNat)) ∧
  (∀ y : BitVec 2, distanceMeaning (.dist6 y) 6 (9 + y.toNat) ∧ distanceMeaning (.dist7 y) 7 (13 + y.toNat)) ∧
  (∀ y : BitVec 3, distanceMeaning (.dist8 y) 8 (17 + y.toNat) ∧ distanceMeaning (.dist9 y) 9 (25 + y.toNat)) ∧
  (∀ y : BitVec 4, distanceMeaning (.dist10 y) 10 (33 + y.toNat) ∧ distanceMeaning (.dist11 y) 11 (49 + y.toNat)) ∧
  (∀ y : BitVec 5, distanceMeaning (.dist12 y) 12 (65 + y.toNat) ∧ distanceMeaning (.dist13 y) 13 (97 + y.toNat)) ∧
  (∀ y : BitVec 6, distanceMeaning (.dist14 y) 14 (129 + y.toNat) ∧ distanceMeaning (.dist15 y) 15 (193 + y.toNat)) ∧
  (∀ y : BitVec 7, distanceMeaning (.dist16 y) 16 (257 + y.toNat) ∧ distanceMeaning (.dist17 y) 17 (385 + y.toNat)) ∧
  (∀ y : BitVec 8, distanceMeaning (.dist18 y) 18 (513 + y.toNat) ∧ distanceMeaning (.dist19 y) 19 (769 + y.toNat)) ∧
  (∀ y : BitVec 9, distanceMeaning (.dist20 y) 20 (1025 + y.toNat) ∧ distanceMeaning (.dist21 y) 21 (1537 + y.toNat)) ∧
  (∀ y : BitVec 10, distanceMeaning (.dist22 y) 22 (2049 + y.toNat) ∧ distanceMeaning (.dist23 y) 23 (3073 + y.toNat)) ∧
  (∀ y : BitVec 11, distanceMeaning (.dist24 y) 24 (4097 + y.toNat) ∧ distanceMeaning (.dist25 y) 25 (6145 + y.toNat)) ∧
  (∀ y : BitVec 12, distanceMeaning (.dist26 y) 26 (8193 + y.toNat) ∧ distanceMeaning (.dist27 y) 27 (12289 + y.toNat)) ∧
  (∀ y : BitVec 13, distanceMeaning (.dist28 y) 28 (16385 + y.toNat) ∧ distanceMeaning (.dist29 y) 29 (24577 + y.toNat))

/-- R255, R406, R408, R415: every distance symbol ends the call with `InvalidBackReference` where its distance exceeds the bytes
produced so far, and with `OutputOverflow` where the match does not fit. -/
def Obligations.DistanceSymbolsCheckTheRange : Prop :=
  distanceFailure .dist0 1 ∧ distanceFailure .dist1 2 ∧ distanceFailure .dist2 3 ∧ distanceFailure .dist3 4 ∧
  (∀ y : BitVec 1, distanceFailure (.dist4 y) (5 + y.toNat) ∧ distanceFailure (.dist5 y) (7 + y.toNat)) ∧
  (∀ y : BitVec 2, distanceFailure (.dist6 y) (9 + y.toNat) ∧ distanceFailure (.dist7 y) (13 + y.toNat)) ∧
  (∀ y : BitVec 3, distanceFailure (.dist8 y) (17 + y.toNat) ∧ distanceFailure (.dist9 y) (25 + y.toNat)) ∧
  (∀ y : BitVec 4, distanceFailure (.dist10 y) (33 + y.toNat) ∧ distanceFailure (.dist11 y) (49 + y.toNat)) ∧
  (∀ y : BitVec 5, distanceFailure (.dist12 y) (65 + y.toNat) ∧ distanceFailure (.dist13 y) (97 + y.toNat)) ∧
  (∀ y : BitVec 6, distanceFailure (.dist14 y) (129 + y.toNat) ∧ distanceFailure (.dist15 y) (193 + y.toNat)) ∧
  (∀ y : BitVec 7, distanceFailure (.dist16 y) (257 + y.toNat) ∧ distanceFailure (.dist17 y) (385 + y.toNat)) ∧
  (∀ y : BitVec 8, distanceFailure (.dist18 y) (513 + y.toNat) ∧ distanceFailure (.dist19 y) (769 + y.toNat)) ∧
  (∀ y : BitVec 9, distanceFailure (.dist20 y) (1025 + y.toNat) ∧ distanceFailure (.dist21 y) (1537 + y.toNat)) ∧
  (∀ y : BitVec 10, distanceFailure (.dist22 y) (2049 + y.toNat) ∧ distanceFailure (.dist23 y) (3073 + y.toNat)) ∧
  (∀ y : BitVec 11, distanceFailure (.dist24 y) (4097 + y.toNat) ∧ distanceFailure (.dist25 y) (6145 + y.toNat)) ∧
  (∀ y : BitVec 12, distanceFailure (.dist26 y) (8193 + y.toNat) ∧ distanceFailure (.dist27 y) (12289 + y.toNat)) ∧
  (∀ y : BitVec 13, distanceFailure (.dist28 y) (16385 + y.toNat) ∧ distanceFailure (.dist29 y) (24577 + y.toNat))

/-- R214, R403, R257, R258, R407: the encodings without meaning: the reserved block type with either final bit, literal/length
symbols 286 and 287, distance symbols 30 and 31. Their effect is the error. -/
def Obligations.MeaninglessEncodingsEndTheCall : Prop :=
  (∀ final, endsCallWith (.blkReserved final) .invalidBlockType) ∧
  endsCallWith .ll286 .invalidSymbol ∧ endsCallWith .ll287 .invalidSymbol ∧
  endsCallWith .dist30 .invalidSymbol ∧ endsCallWith .dist31 .invalidSymbol

/-- R256, R259 (a), (b): the copy as a unit operation: in range and with room, the closed form. That the unit operation begins
with the check of R255, and so raises `InvalidBackReference` before any byte is copied where the distance is out of range, is the
model's own deduction (DEDUCED, log 17), and so is the copy with `INF.mdist` = 0, which no distance symbol gives: it appends
`INF.mlen` bytes, each the byte its cell read as before. -/
def Obligations.MatchCopyClosedForm : Prop :=
  ∀ s : State,
    (1 ≤ s.inf.mdist → s.inf.mdist ≤ s.outLen.toNat → roomFor s.inf.mlen s →
      ∃ (m : Memory) (t : State),
        t = { s with outBuf := m, outLen := BitVec.ofNat Config.lenw (s.outLen.toNat + s.inf.mlen), ret := .none } ∧
        exec .matchCopy s = .next t ∧
        (∀ k, k < s.inf.mlen →
          outByte t (s.outLen.toNat + k) = outByte s (s.outLen.toNat - s.inf.mdist + k % s.inf.mdist)) ∧
        outFrame s.outLen.toNat (s.outLen.toNat + s.inf.mlen) s t) ∧
    (s.outLen.toNat < s.inf.mdist → exec .matchCopy s = .next (raiseError .invalidBackReference s)) ∧
    (s.inf.mdist = 0 → roomFor s.inf.mlen s →
      ∃ (m : Memory) (t : State),
        t = { s with outBuf := m, outLen := BitVec.ofNat Config.lenw (s.outLen.toNat + s.inf.mlen), ret := .none } ∧
        exec .matchCopy s = .next t ∧ ∀ a, outByte t a = outByte s a)

/-- R408, R66: where `OUT_LEN` has reached `OUT_MAX`, every instruction that appends a byte ends the call with
`OutputOverflow`: a literal, the append itself, and the copy of a match that does not fit. -/
def Obligations.AppendAtTheBoundOverflows : Prop :=
  ∀ s : State, s.status.state = .busy →
    (s.outLen = s.outMax → ∀ b,
      (∃ t, exec (.lit0To143 b) s = .next t ∧ abortedWith .outputOverflow s t) ∧
      (∃ t, exec (.lit144To255 b) s = .next t ∧ abortedWith .outputOverflow s t) ∧
      (∃ t, exec (.outAppend b) s = .next t ∧ abortedWith .outputOverflow s t)) ∧
    (s.outLen ≤ s.outMax → s.inf.mdist ≤ s.outLen.toNat → ¬ roomFor s.inf.mlen s →
      ∃ t, exec .matchCopy s = .next t ∧ abortedWith .outputOverflow s t)

/-! ## Compressor -/

/-- R350, R349, R343: the search answers 0, 0 or a match that is valid at the position, after at most CHAIN candidates (R7's
default values, the model's choice, log 8), whose number stands in `DEF.examined`; nothing else changes. That the pair stands in
`ret` and the registers `DEF.best_len`, `DEF.best_dist` stay (log 26), and that a level outside 1 to 9 is searched with a free
value for its CHAIN (log 16), are the model's own. -/
def Obligations.LongestMatchIsValid : Prop :=
  ∀ (pos level : Nat) (s : State),
    ∃ len dist examined,
      exec (.longestMatch pos level) s = .next { s with
        dfl := { s.dfl with examined := examined }, ret := .pair len dist } ∧
      examined ≤ 32768 ∧
      (1 ≤ level → level ≤ 9 → examined ≤ [4, 8, 16, 32, 64, 128, 256, 1024, 32768].getD (level - 1) 0) ∧
      ((len = 0 ∧ dist = 0) ∨ validMatch (inBytes s 0 s.inLen.toNat) pos len dist)

/-- R349, R351, R352: at level 9 the match found is the longest there is, and the nearest of that length; a higher level never
finds a shorter one (with R7's default CHAIN, the model's choice, log 8; the pair stands in `ret`, logs 3 and 26). -/
def Obligations.LongestMatchIsLongestAndNearest : Prop :=
  ∀ (pos : Nat) (s : State),
    (∃ best bestDist t, exec (.longestMatch pos 9) s = .next t ∧ t.ret = .pair best bestDist ∧
      ∀ len dist, validMatch (inBytes s 0 s.inLen.toNat) pos len dist →
        len ≤ best ∧ (len = best → bestDist ≤ dist)) ∧
    (∀ level level', 1 ≤ level → level ≤ level' → level' ≤ 9 → ∃ len dist len' dist' t t',
      exec (.longestMatch pos level) s = .next t ∧ t.ret = .pair len dist ∧
      exec (.longestMatch pos level') s = .next t' ∧ t'.ret = .pair len' dist' ∧ len ≤ len')

/-- R353, R354, R355: what emitting a literal, a match and the end of the block writes. A length or a distance outside the
token ranges of R341 is written as an index and an extra value that are free values in their ranges, at most 31 bits in all: the
model's own (DESIGN CHOICE, log 16). -/
def Obligations.EmissionWritesTheCodes : Prop :=
  (∀ (b : Byte) (s : State), b.toNat ≤ 143 → writerReady 8 s → writesBits (.emitLit b) (codeBits 8 (0x30 + b.toNat)) s) ∧
  (∀ (b : Byte) (s : State), 144 ≤ b.toNat → writerReady 9 s →
    writesBits (.emitLit b) (codeBits 9 (0x190 + (b.toNat - 144))) s) ∧
  (∀ (len dist : Nat) (s : State), 3 ≤ len → len ≤ 258 → 1 ≤ dist → dist ≤ 32768 →
    writerReady (tokenBits (.copy len dist)).length s →
    writesBits (.emitMatch len dist) (tokenBits (.copy len dist)) s) ∧
  (∀ len dist : Nat, len < 3 ∨ 258 < len ∨ dist = 0 ∨ 32768 < dist → ∃ i x j y,
    i ≤ 28 ∧ x < 2 ^ lextra i ∧ j ≤ 29 ∧ y < 2 ^ dextra j ∧
    (3 ≤ len → len ≤ 258 → i = lengthIndex len ∧ x = len - lbase i) ∧
    (1 ≤ dist → dist ≤ 32768 → j = distanceIndex dist ∧ y = dist - dbase j) ∧
    ∀ s : State, writerReady 31 s → writesBits (.emitMatch len dist) (matchBits i x j y) s) ∧
  (∀ s : State, writerReady 7 s → writesBits .emitEob (codeBits 7 0) s)

/-- R101, R103, R253, R254: the encoder's inverse tables are inverse: every length and every distance is the value its index
stands for with an extra value that fits; length 258 has index 28, and no other length has. -/
def Obligations.InverseTablesAreInverse : Prop :=
  (∀ len, 3 ≤ len → len ≤ 258 → lengthIndex len ≤ 28 ∧ (lengthIndex len = 28 ↔ len = 258) ∧
    ∃ x, x < 2 ^ lextra (lengthIndex len) ∧ lengthValue (257 + lengthIndex len) x = len) ∧
  (∀ dist, 1 ≤ dist → dist ≤ 32768 → distanceIndex dist ≤ 29 ∧
    ∃ y, y < 2 ^ dextra (distanceIndex dist) ∧ distanceValue (distanceIndex dist) y = dist)

/-- R344, R345, R346, R388: COMPRESS at level 0. From the start of a call, with room, the call completes and the output is the
input in stored blocks of up to 65535 bytes, of exactly the size R346 gives, and is allowed by R356. (The chunks and with them
the size are the reference output's, the model's choice, log 10.) -/
def Obligations.CompressLevelZeroStores : Prop :=
  ∀ s : State, s.status.state = .busy → s.wr = ⟨0, 0, false⟩ → s.outLen = 0 →
    s.inLen.toNat + 5 * max 1 ((s.inLen.toNat + 65534) / 65535) ≤ s.outMax.toNat →
    ∃ (m : Memory) (t : State),
      t = { s with
        status := { s.status with state := .done }, outBuf := m, wr := ⟨0, 0, true⟩
        outLen := BitVec.ofNat Config.lenw (s.inLen.toNat + 5 * max 1 ((s.inLen.toNat + 65534) / 65535)) } ∧
      exec .compress0 s = .next t ∧
      outBytes t = bitsToBytes (blocksBits 0
        ((List.range (max 1 ((s.inLen.toNat + 65534) / 65535))).map fun k => .stored (storedChunk s k))) ∧
      allowedOutput (inBytes s 0 s.inLen.toNat) 0 (outBytes t)

/-- R347, R348, R357, R359, R38: COMPRESS at levels 1 to 9. From the start of a call, with room for the worst case, the call
completes; the output is one final fixed block of the greedy parse, which is a valid parse of the input, and is allowed by R356.
(The bytes themselves are the reference's, the model's choice, log 10. At a level outside 1 to 9, which no call has there, the body
runs with a free value for CHAIN, the model's choice, log 16.) -/
def Obligations.CompressLevelsOneToNine : Prop :=
  ∀ s : State, s.status.state = .busy → s.wr = ⟨0, 0, false⟩ → s.outLen = 0 →
    (3 + 9 * s.inLen.toNat + 7 + 7) / 8 ≤ s.outMax.toNat →
    ∃ (m : Memory) (len : Len) (d : Deflate) (t : State),
      t = { s with
        status := { s.status with state := .done, fixedReady := true }, outBuf := m, outLen := len
        wr := ⟨0, 0, true⟩, dfl := { d with level := s.dfl.level, pos := s.inLen.toNat } } ∧
      exec .compress1To9 s = .next t ∧
      outBytes t = bitsToBytes (blocksBits 0 [.fixed (greedyTokens s s.dfl.level.toNat s.inLen.toNat 0)]) ∧
      validParse (inBytes s 0 s.inLen.toNat) 0 s.inLen.toNat (greedyTokens s s.dfl.level.toNat s.inLen.toNat 0) ∧
      (1 ≤ s.dfl.level.toNat → s.dfl.level.toNat ≤ 9 →
        allowedOutput (inBytes s 0 s.inLen.toNat) s.dfl.level.toNat (outBytes t)) ∧
      len.toNat ≤ (3 + 9 * s.inLen.toNat + 7 + 7) / 8

/-- R361, R384, R385: a running compress call ends in its step, completed or with `OutputOverflow`, and with no other cause. -/
def Obligations.CompressOnlyOverflows : Prop :=
  ∀ s : State, Inv s → s.status.state = .busy → ctrlOp s = true →
    ∃ t, step s = .next t ∧
      ((t.status.state = .done ∧ t.status.errCause = none ∧ t.status.errClass = .none) ∨
       (t.status.state = .error ∧ t.status.errCause = some .outputOverflow ∧
         t.status.errClass = .resourceExhausted ∧ t.outLen = 0))

/-- R358, R13, R387: the round trip. Every output the spec allows the Compressor for an input, at any level, is decompressed to
that input, with an `OUT_MAX` of at least its length. -/
def Obligations.AllowedOutputsRoundTrip : Prop :=
  ∀ (input output : List Byte) (level : Nat) (op : BitVec 4) (s u : State), allowedOutput input level output →
    s.inLen.toNat = output.length → inBytes s 0 output.length = output → input.length ≤ s.outMax.toNat →
    exec (.decompress op) s = .next u →
    ∃ n t, engineRun n u = .next t ∧ t.status.state = .done ∧ t.status.errCause = none ∧
      t.outLen.toNat = input.length ∧ outBytes t = input

/-! ## Commands, errors and reset -/

/-- R381, R382, R442: DECOMPRESS, while no call runs, starts a call with the registers at their start values, whatever the
previous call left; while a call runs it is refused (R384). That it leaves the writer and the Compressor's registers, which R442
calls not used and R37 in part cleared (log 27), and the encoder arrays, which R442 does not list (log 29), is the model's
choice. -/
def Obligations.DecompressStartsFresh : Prop :=
  ∀ (level : BitVec 4) (s : State),
    (s.status.state ≠ .busy → ∃ t, exec (.decompress level) s = .next t ∧
      t.status = ⟨.busy, .none, none, s.status.fixedReady⟩ ∧ t.outLen = 0 ∧ t.rd = ⟨0, 0, s.inLen.toNat⟩ ∧
      t.inf.state = .start ∧ t.inf.final = false ∧ t.inf.btype = 0 ∧ t.inf.phase = .header ∧
      t.tCL.valid = false ∧ t.tLL.valid = false ∧ t.tD.valid = false ∧ ctrlOp t = false ∧
      t.inBuf = s.inBuf ∧ t.inLen = s.inLen ∧ t.outMax = s.outMax ∧ t.wr = s.wr ∧ t.enc = s.enc ∧ t.dfl = s.dfl ∧
      t.ret = s.ret ∧ t.host = s.host) ∧
    (s.status.state = .busy → exec (.decompress level) s = .refused .hostBusy)

/-- R381, R383, R340, R442: COMPRESS of a level up to 9, while no call runs, starts a call with the registers at their start
values; a higher level is refused (R385), and so is the command while a call runs (R384). That it leaves the reader, the
Decompressor's registers and the per-block tables, which R442 calls not used and R37 in part cleared (log 27), and
the encoder arrays, which R442 does not list (log 29), is the model's choice. -/
def Obligations.CompressStartsFresh : Prop :=
  ∀ (level : BitVec 4) (s : State),
    (s.status.state ≠ .busy → level.toNat ≤ 9 → ∃ t, exec (.compress level) s = .next t ∧
      t.status = ⟨.busy, .none, none, s.status.fixedReady⟩ ∧ t.outLen = 0 ∧ t.wr = ⟨0, 0, false⟩ ∧
      t.dfl = ⟨level, 0, 0, 0, 0⟩ ∧ ctrlOp t = true ∧
      t.inBuf = s.inBuf ∧ t.inLen = s.inLen ∧ t.outMax = s.outMax ∧ t.rd = s.rd ∧ t.inf = s.inf ∧ t.tCL = s.tCL ∧
      t.tLL = s.tLL ∧ t.tD = s.tD ∧ t.enc = s.enc ∧ t.ret = s.ret ∧ t.host = s.host) ∧
    (s.status.state ≠ .busy → 9 < level.toNat → exec (.compress level) s = .refused .illegalLevel) ∧
    (s.status.state = .busy → exec (.compress level) s = .refused .hostBusy)

/-- R440: the values after reset that the spec gives; the block does nothing until the host makes a move. The contents of `IN`,
`OUT`, the tables and the encoder arrays are unspecified and not stated. And what the host reads (R21 to R25, R388): `CTRL` as 0;
`STATUS` by the layout of R22 with the codes of R401; `OUT_LEN`; while no call runs `IN_LEN`, `OUT_MAX` and the bytes of the
result; while one runs neither of the two registers and no byte of `OUT` (R453, I19). -/
def Obligations.ResetValues : Prop :=
  State.reset.ctrl = 0 ∧ State.reset.status = ⟨.idle, .none, none, false⟩ ∧ State.reset.inLen = 0 ∧
  State.reset.outLen = 0 ∧ State.reset.outMax = BitVec.allOnes Config.lenw ∧ State.reset.rd = ⟨0, 0, 0⟩ ∧
  State.reset.wr = ⟨0, 0, false⟩ ∧ State.reset.inf.state = .start ∧ State.reset.inf.final = false ∧
  State.reset.inf.btype = 0 ∧ State.reset.inf.LEN = 0 ∧ State.reset.inf.NLEN = 0 ∧ State.reset.inf.hlit = 0 ∧
  State.reset.inf.hdist = 0 ∧ State.reset.inf.hclen = 0 ∧ State.reset.inf.cll = Vector.replicate 19 0 ∧
  State.reset.inf.L = Vector.replicate 320 0 ∧ State.reset.inf.i = 0 ∧ State.reset.inf.sym = 0 ∧
  State.reset.inf.mlen = 0 ∧ State.reset.inf.dsym = 0 ∧ State.reset.inf.mdist = 0 ∧
  State.reset.dfl = ⟨0, 0, 0, 0, 0⟩ ∧ State.reset.tCL.valid = false ∧ State.reset.tLL.valid = false ∧
  State.reset.tD.valid = false ∧ step State.reset = .next State.reset ∧
  ∀ s : State, readReg 0 s = some 0 ∧
    (∃ w : BitVec 16, readReg 1 s = some w.toNat ∧
      w.extractLsb' 0 2 = (match s.status.state with | .idle => 0 | .busy => 1 | .done => 2 | .error => 3) ∧
      w.extractLsb' 2 2 = (match s.status.errClass with
        | .none => 0 | .unexpectedEnd => 1 | .corruptedFile => 2 | .resourceExhausted => 3) ∧
      w.extractLsb' 4 4 = (match s.status.errCause with
        | none => 0 | some .unexpectedEnd => 1 | some .invalidBlockType => 2 | some .invalidHuffmanTable => 3
        | some .invalidStoredLength => 4 | some .invalidBackReference => 5 | some .invalidSymbol => 6
        | some .outputOverflow => 7) ∧
      w.getLsbD 8 = s.status.fixedReady ∧ w.extractLsb' 9 7 = 0) ∧
    readReg 3 s = some s.outLen.toNat ∧
    (s.status.state ≠ .busy → readReg 2 s = some s.inLen.toNat ∧ readReg 4 s = some s.outMax.toNat ∧
      ∀ a, a < s.outLen.toNat → hostReadOut a s = some (outByte s a)) ∧
    (s.status.state = .busy → readReg 2 s = none ∧ readReg 4 s = none ∧ ∀ a, hostReadOut a s = none)

/-- R410, R401, R22: what the abort of a call leaves: the cause and its class, `STATE` = ERROR and `OUT_LEN` = 0, and the `STATUS`
word that the host reads then, with `STATE` = 3 and the codes of the class and the cause; `IN`, `IN_LEN`, `OUT_MAX` and
`FIXED_READY` are unchanged; the other registers are unspecified and not stated. -/
def Obligations.AbortReportsTheCause : Prop :=
  ∀ (c : Cause) (s : State), s.status.state = .busy →
      (raiseError c s).status.state = .error ∧ (raiseError c s).status.errCause = some c ∧
      (raiseError c s).status.errClass = (match c with
        | .unexpectedEnd => .unexpectedEnd
        | .invalidBlockType | .invalidHuffmanTable | .invalidStoredLength | .invalidBackReference | .invalidSymbol =>
          .corruptedFile
        | .outputOverflow => .resourceExhausted) ∧
      (raiseError c s).status.fixedReady = s.status.fixedReady ∧ (raiseError c s).outLen = 0 ∧
      (raiseError c s).inBuf = s.inBuf ∧ (raiseError c s).inLen = s.inLen ∧ (raiseError c s).outMax = s.outMax ∧
      readReg 1 (raiseError c s) = some (3 + (match c with
        | .unexpectedEnd => 4 * 1 + 16 * 1
        | .invalidBlockType => 4 * 2 + 16 * 2
        | .invalidHuffmanTable => 4 * 2 + 16 * 3
        | .invalidStoredLength => 4 * 2 + 16 * 4
        | .invalidBackReference => 4 * 2 + 16 * 5
        | .invalidSymbol => 4 * 2 + 16 * 6
        | .outputOverflow => 4 * 3 + 16 * 7) + 256 * s.status.fixedReady.toNat)

/-- R380, R381, R385, R26: the moves of the host while no call runs: a byte of `IN`, `IN_LEN`, `OUT_MAX`; a `CTRL` write without
START changes nothing; COMPRESS above level 9 is refused. R26 gives the range of the cells of `IN`; that a write beyond it is a
fault is the model's own (DESIGN CHOICE, log 4). -/
def Obligations.HostMovesTakeEffect : Prop :=
  ∀ (s : State) (rest : List HostMove), s.status.state ≠ .busy →
    (∀ a b, s.host = .writeIn a b :: rest → a < 2 ^ Config.lenw - 1 →
      ∃ (m : Memory) (t : State), t = { s with host := rest, inBuf := m } ∧ step s = .next t ∧
        (s.inBuf.wf = true → m.wf = true) ∧ inByte t a = b ∧ ∀ a', a' ≠ a → inByte t a' = inByte s a') ∧
    (∀ a b, s.host = .writeIn a b :: rest → 2 ^ Config.lenw - 1 ≤ a → step s = .fault .noSuchCell) ∧
    (∀ v, s.host = .writeInLen v :: rest → step s = .next { s with host := rest, inLen := v }) ∧
    (∀ v, s.host = .writeOutMax v :: rest → step s = .next { s with host := rest, outMax := v }) ∧
    (∀ v, s.host = .writeCtrl v :: rest → v.getLsbD 0 = false → step s = .next { s with host := rest }) ∧
    (∀ v, s.host = .writeCtrl v :: rest → v.getLsbD 0 = true → v.getLsbD 1 = true → 9 < v.toNat / 16 →
      step s = .refused .illegalLevel)

/-! ## The whole machine -/

/-- The invariant holds after reset. -/
def Obligations.ResetMeetsInvariant : Prop := Inv State.reset

/-- Every step from a state that meets the invariant leads to one that does: memories in canonical form with `OUT` filled
exactly below `OUT_LEN` (R62), the error fields of `STATUS` in agreement with `STATE` (R22), every register within its width
(R458), and while a call runs, the cursor within the input (R28), valid tables canonical (R178), and the engine's place in the
stream in agreement with the registers that part reads (R34). -/
def Obligations.StepKeepsInvariant : Prop :=
  ∀ s t : State, Inv s → step s = .next t → Inv t

/-- R455, R232: while a call runs, a step never faults and is never refused. -/
def Obligations.RunningCallNeverStops : Prop :=
  ∀ s : State, Inv s → s.status.state = .busy → ∃ t, step s = .next t

/-- R231, R455: a decompress call ends, in DONE or ERROR, after at most one step more than it has unread bits. -/
def Obligations.DecompressCallEnds : Prop :=
  ∀ s : State, Inv s → s.status.state = .busy → ctrlOp s = false →
    ∃ t, engineRun (8 * (s.rd.len - s.rd.byte) - s.rd.bit + 1) s = .next t ∧
      (t.status.state = .done ∨ t.status.state = .error)

/-- R386, R232, R38: the result of a decompress call depends on the input bytes, `IN_LEN` and `OUT_MAX` alone: from any two
states at rest that agree on these, whatever earlier calls left in them, the two calls agree step by step on `STATE`, the error
fields, `OUT_LEN` and the bytes of the output. -/
def Obligations.DecompressDependsOnInputAlone : Prop :=
  ∀ (s1 s2 u1 u2 : State) (l1 l2 : BitVec 4) (n : Nat), s1.inLen = s2.inLen → s1.outMax = s2.outMax →
    (∀ a, a < s1.inLen.toNat → inByte s1 a = inByte s2 a) →
    exec (.decompress l1) s1 = .next u1 → exec (.decompress l2) s2 = .next u2 →
    ∃ t1 t2, engineRun n u1 = .next t1 ∧ engineRun n u2 = .next t2 ∧
      t1.status.state = t2.status.state ∧ t1.status.errCause = t2.status.errCause ∧
      t1.status.errClass = t2.status.errClass ∧ t1.outLen = t2.outLen ∧ outBytes t1 = outBytes t2

/-- R28 (iii), R38, R61, R62, R75: what no step of a running call does, over all instructions: `IN`, `IN_LEN`, `OUT_MAX`, `CTRL`,
the encoder arrays and the host's moves stay; `FIXED_READY` is never cleared; unless the call ends in an error, `OUT_LEN` does not
fall and no byte below it changes; while a decompress call goes on, the cursor moves forward. That the encoder arrays stay also in
an abort is the model's choice (log 29). -/
def Obligations.EngineStepFrame : Prop :=
  ∀ s t : State, Inv s → s.status.state = .busy → step s = .next t →
    t.inBuf = s.inBuf ∧ t.inLen = s.inLen ∧ t.outMax = s.outMax ∧ t.ctrl = s.ctrl ∧ t.enc = s.enc ∧ t.host = s.host ∧
    (s.status.fixedReady = true → t.status.fixedReady = true) ∧
    (t.status.state ≠ .error →
      s.outLen.toNat ≤ t.outLen.toNat ∧ ∀ a, a < s.outLen.toNat → outByte t a = outByte s a) ∧
    (ctrlOp s = false → t.status.state = .busy →
      8 * s.rd.byte + s.rd.bit < 8 * t.rd.byte + t.rd.bit ∧ t.rd.len = s.rd.len)
end

