-- ==== Sys2Proof/Laws/State.lean ====
section
/-! SUPPORT. One lemma per field per update of the state: what each shared update leaves, so that no proof unfolds it. -/

namespace Sys2Proof.Machine

/-! ## The cursor -/

@[simp] theorem advance_rd (n : Nat) (s : State) :
    (advance n s).rd = ⟨(streamPos s + n) / 8, (streamPos s + n) % 8, s.rd.len⟩ := rfl
@[simp] theorem advance_status (n : Nat) (s : State) : (advance n s).status = s.status := rfl
@[simp] theorem advance_inf (n : Nat) (s : State) : (advance n s).inf = s.inf := rfl
@[simp] theorem advance_inBuf (n : Nat) (s : State) : (advance n s).inBuf = s.inBuf := rfl
@[simp] theorem advance_outBuf (n : Nat) (s : State) : (advance n s).outBuf = s.outBuf := rfl
@[simp] theorem advance_inLen (n : Nat) (s : State) : (advance n s).inLen = s.inLen := rfl
@[simp] theorem advance_outLen (n : Nat) (s : State) : (advance n s).outLen = s.outLen := rfl
@[simp] theorem advance_outMax (n : Nat) (s : State) : (advance n s).outMax = s.outMax := rfl
@[simp] theorem advance_fresh (n : Nat) (s : State) : (advance n s).fresh = s.fresh := rfl
@[simp] theorem advance_ctrl (n : Nat) (s : State) : (advance n s).ctrl = s.ctrl := rfl
@[simp] theorem advance_wr (n : Nat) (s : State) : (advance n s).wr = s.wr := rfl
@[simp] theorem advance_enc (n : Nat) (s : State) : (advance n s).enc = s.enc := rfl
@[simp] theorem advance_dfl (n : Nat) (s : State) : (advance n s).dfl = s.dfl := rfl
@[simp] theorem advance_host (n : Nat) (s : State) : (advance n s).host = s.host := rfl
@[simp] theorem advance_tCL (n : Nat) (s : State) : (advance n s).tCL = s.tCL := rfl
@[simp] theorem advance_tLL (n : Nat) (s : State) : (advance n s).tLL = s.tLL := rfl
@[simp] theorem advance_tD (n : Nat) (s : State) : (advance n s).tD = s.tD := rfl

@[simp] theorem streamPos_advance (n : Nat) (s : State) : streamPos (advance n s) = streamPos s + n := by
  simp only [streamPos, advance_rd]; omega

@[simp] theorem inByte_advance (n : Nat) (s : State) (a : Nat) : inByte (advance n s) a = inByte s a := rfl
@[simp] theorem outByte_advance (n : Nat) (s : State) (a : Nat) : outByte (advance n s) a = outByte s a := rfl

theorem unreadBits_advance (n : Nat) (s : State) (h : n ≤ unreadBits s) :
    unreadBits (advance n s) = unreadBits s - n := by
  rcases Nat.eq_zero_or_pos n with rfl | hn
  · simp only [unreadBits, advance_rd, streamPos] at *; omega
  · simp only [unreadBits, advance_rd, streamPos] at *; omega

/-! ## The symbol register -/

@[simp] theorem setSym_status (v : Nat) (s : State) : (setSym v s).status = s.status := rfl
@[simp] theorem setSym_rd (v : Nat) (s : State) : (setSym v s).rd = s.rd := rfl
@[simp] theorem setSym_outLen (v : Nat) (s : State) : (setSym v s).outLen = s.outLen := rfl
@[simp] theorem setSym_outMax (v : Nat) (s : State) : (setSym v s).outMax = s.outMax := rfl
@[simp] theorem setSym_outBuf (v : Nat) (s : State) : (setSym v s).outBuf = s.outBuf := rfl
@[simp] theorem setSym_inBuf (v : Nat) (s : State) : (setSym v s).inBuf = s.inBuf := rfl
@[simp] theorem setSym_fresh (v : Nat) (s : State) : (setSym v s).fresh = s.fresh := rfl

/-! ## The tables -/

@[simp] theorem tableOf_setTable (t : BlockTable) (T : HuffTable) (s : State) :
    tableOf (.block t) (setTable t T s) = T := by cases t <;> rfl
@[simp] theorem setTable_status (t : BlockTable) (T : HuffTable) (s : State) : (setTable t T s).status = s.status := by
  cases t <;> rfl
@[simp] theorem setTable_inf (t : BlockTable) (T : HuffTable) (s : State) : (setTable t T s).inf = s.inf := by
  cases t <;> rfl
@[simp] theorem setTable_rd (t : BlockTable) (T : HuffTable) (s : State) : (setTable t T s).rd = s.rd := by
  cases t <;> rfl
@[simp] theorem setTable_outLen (t : BlockTable) (T : HuffTable) (s : State) : (setTable t T s).outLen = s.outLen := by
  cases t <;> rfl
@[simp] theorem setTable_inBuf (t : BlockTable) (T : HuffTable) (s : State) : (setTable t T s).inBuf = s.inBuf := by
  cases t <;> rfl
@[simp] theorem setTable_outBuf (t : BlockTable) (T : HuffTable) (s : State) : (setTable t T s).outBuf = s.outBuf := by
  cases t <;> rfl

/-! ## Status -/

@[simp] theorem setFixedReady_status (s : State) :
    (setFixedReady s).status = { s.status with fixedReady := true } := rfl
@[simp] theorem setFixedReady_inf (s : State) : (setFixedReady s).inf = s.inf := rfl
@[simp] theorem setFixedReady_rd (s : State) : (setFixedReady s).rd = s.rd := rfl
@[simp] theorem setFixedReady_outLen (s : State) : (setFixedReady s).outLen = s.outLen := rfl
@[simp] theorem setFixedReady_outBuf (s : State) : (setFixedReady s).outBuf = s.outBuf := rfl
@[simp] theorem setFixedReady_inBuf (s : State) : (setFixedReady s).inBuf = s.inBuf := rfl
@[simp] theorem setFixedReady_wr (s : State) : (setFixedReady s).wr = s.wr := rfl
@[simp] theorem setFixedReady_fresh (s : State) : (setFixedReady s).fresh = s.fresh := rfl

@[simp] theorem abort_status (c : Cause) (s : State) :
    (abort c s).status = { s.status with state := .error, errClass := causeClass c, errCause := some c } := rfl
@[simp] theorem abort_outLen (c : Cause) (s : State) : (abort c s).outLen = 0 := rfl
@[simp] theorem abort_outBuf (c : Cause) (s : State) : (abort c s).outBuf = [] := rfl
@[simp] theorem abort_inBuf (c : Cause) (s : State) : (abort c s).inBuf = s.inBuf := rfl
@[simp] theorem abort_inLen (c : Cause) (s : State) : (abort c s).inLen = s.inLen := rfl
@[simp] theorem abort_outMax (c : Cause) (s : State) : (abort c s).outMax = s.outMax := rfl
@[simp] theorem abort_ctrl (c : Cause) (s : State) : (abort c s).ctrl = s.ctrl := rfl
@[simp] theorem abort_enc (c : Cause) (s : State) : (abort c s).enc = s.enc := rfl
@[simp] theorem abort_host (c : Cause) (s : State) : (abort c s).host = s.host := rfl

/-- R410: inside a call an error is the abort. -/
theorem raiseError_of_busy (c : Cause) (s : State) (h : s.status.state = .busy) : raiseError c s = abort c s := by
  simp [raiseError, h]

/-- Outside a call an error is only returned. -/
theorem raiseError_of_rest (c : Cause) (s : State) (h : s.status.state ≠ .busy) :
    raiseError c s = { s with ret := .raised c } := by
  simp [raiseError, h]

/-- What the abort leaves for the host, seen from any state that agrees on what it keeps. -/
theorem abortedWith_raiseError (c : Cause) (s u : State) (h : u.status.state = .busy) (hs : u.status = s.status)
    (h1 : u.inBuf = s.inBuf) (h2 : u.inLen = s.inLen) (h3 : u.outMax = s.outMax) (h4 : u.ctrl = s.ctrl)
    (h5 : u.enc = s.enc) (h6 : u.host = s.host) : abortedWith c s (raiseError c u) := by
  rw [raiseError_of_busy c u h]
  exact ⟨by rw [abort_status, hs], rfl, h1, h2, h3, h4, h5, h6⟩

end Sys2Proof.Machine
end

