-- ==== Sys2Proof/Laws/Memory.lean ====
section
/-! SUPPORT. The laws of byte memories: a read after a write, the canonical form, and what `OutAppend` does to `OUT`. -/

namespace Sys2Proof.Machine

/-- A read at the address written gives the byte written. -/
theorem Memory.read?_write_same (m : Memory) (a : Nat) (b : Byte) : (m.write a b).read? a = some b := by
  induction m with
  | nil => simp [Memory.write, Memory.read?]
  | cons c m ih =>
    obtain ⟨k, v⟩ := c
    simp only [Memory.write]
    split
    · simp [Memory.read?]
    · split
      · simp [Memory.read?]
      · rename_i h1 h2
        simp only [Memory.read?]
        rw [if_neg (by omega), ih]

/-- A write leaves every other address alone. -/
theorem Memory.read?_write_other (m : Memory) (a a' : Nat) (b : Byte) (h : a' ≠ a) :
    (m.write a b).read? a' = m.read? a' := by
  induction m with
  | nil => simp [Memory.write, Memory.read?, Ne.symm h]
  | cons c m ih =>
    obtain ⟨k, v⟩ := c
    simp only [Memory.write]
    split
    · simp [Memory.read?, Ne.symm h]
    · split
      · rename_i h1 h2; subst h2; simp [Memory.read?, Ne.symm h]
      · simp only [Memory.read?]; rw [ih]

/-- A write above `lo` keeps the addresses rising from `lo`. -/
theorem Memory.risesFrom_write (m : Memory) (a : Nat) (b : Byte) :
    ∀ lo : Option Nat, (∀ l ∈ lo, l < a) → Memory.risesFrom lo m = true → Memory.risesFrom lo (m.write a b) = true := by
  induction m with
  | nil => intro lo hlo _; simpa [Memory.write, Memory.risesFrom] using hlo
  | cons c m ih =>
    obtain ⟨k, v⟩ := c
    intro lo hlo h
    simp only [Memory.risesFrom, Bool.and_eq_true, decide_eq_true_eq] at h
    simp only [Memory.write]
    split
    · rename_i h1
      simp only [Memory.risesFrom, Bool.and_eq_true, decide_eq_true_eq]
      exact ⟨hlo, by simpa using h1, h.2⟩
    · split
      · rename_i h1 h2; subst h2
        simp only [Memory.risesFrom, Bool.and_eq_true, decide_eq_true_eq]; exact h
      · rename_i h1 h2
        simp only [Memory.risesFrom, Bool.and_eq_true, decide_eq_true_eq]
        exact ⟨h.1, ih _ (by simp; omega) h.2⟩

/-- A write keeps the canonical form. -/
theorem Memory.wf_write (m : Memory) (a : Nat) (b : Byte) (h : m.wf = true) : (m.write a b).wf = true :=
  Memory.risesFrom_write m a b none (by simp) h

/-- So does a write of several bytes. -/
theorem Memory.wf_writeList (bs : List Byte) : ∀ (m : Memory) (a : Nat), m.wf = true → (m.writeList a bs).wf = true := by
  induction bs with
  | nil => intro m a h; exact h
  | cons b bs ih => intro m a h; exact ih _ _ (Memory.wf_write m a b h)

/-- The memories after reset are in canonical form. -/
theorem reset_memories_wf : State.reset.inBuf.wf = true ∧ State.reset.outBuf.wf = true := ⟨rfl, rfl⟩

/-- Where the listed addresses are exactly those below `n`, a write at `n` appends. -/
theorem Memory.map_fst_write_end (m : Memory) (b : Byte) :
    ∀ n : Nat, (∀ c ∈ m, c.1 < n) → (m.write n b).map Prod.fst = m.map Prod.fst ++ [n] := by
  induction m with
  | nil => intro n _; rfl
  | cons c m ih =>
    obtain ⟨k, v⟩ := c
    intro n h
    have hk : k < n := h (k, v) (by simp)
    simp only [Memory.write]
    rw [if_neg (by omega), if_neg (by omega)]
    simp [ih n (fun c hc => h c (by simp [hc]))]

theorem mem_of_map_fst_eq_range {m : Memory} {n : Nat} (h : m.map Prod.fst = List.range n) :
    ∀ c ∈ m, c.1 < n := by
  intro c hc
  have : c.1 ∈ m.map Prod.fst := List.mem_map_of_mem hc
  rw [h] at this
  simpa using this

/-- A cell that is listed is read. -/
theorem Memory.read?_isSome_of_mem {m : Memory} {a : Nat} (h : a ∈ m.map Prod.fst) : (m.read? a).isSome = true := by
  induction m with
  | nil => simp at h
  | cons c m ih =>
    obtain ⟨k, v⟩ := c
    simp only [Memory.read?]
    split
    · rfl
    · rename_i hne
      simp only [List.map_cons, List.mem_cons] at h
      exact ih (h.resolve_left (fun e => hne e.symm))

/-! ## `OUT` -/

/-- What `appendByte` does: it raises `OutputOverflow` and changes nothing, or writes one byte at `OUT_LEN`. -/
theorem appendByte_eq (b : Byte) (s : State) :
    appendByte b s =
      if s.outLen.toNat < s.outMax.toNat then
        .ok () { s with outBuf := s.outBuf.write s.outLen.toNat b, outLen := s.outLen + 1 }
      else .raise .outputOverflow s := by
  unfold appendByte
  by_cases h : s.outLen.toNat < s.outMax.toNat
  · rw [if_neg (by simpa [BitVec.le_def] using h), if_pos h]
  · rw [if_pos (by simpa [BitVec.le_def] using h), if_neg h]

/-- A length below 2^LENW is what its register holds. -/
theorem lenOfNat_toNat {n : Nat} (h : n < 2 ^ 32) : (BitVec.ofNat Config.lenw n).toNat = n :=
  Nat.mod_eq_of_lt h

theorem len_toNat_lt (v : Len) : v.toNat < 2 ^ 32 := v.isLt

/-- `OUT_LEN + 1` does not wrap below `OUT_MAX` (R458). -/
theorem outLen_succ_toNat {s : State} (h : s.outLen.toNat < s.outMax.toNat) :
    (s.outLen + 1).toNat = s.outLen.toNat + 1 := by
  have hm := len_toNat_lt s.outMax
  have h1 : (s.outLen + 1).toNat = (s.outLen.toNat + 1) % 2 ^ 32 := BitVec.toNat_add _ _
  omega

theorem outLen_succ_eq {s : State} (h : s.outLen.toNat < s.outMax.toNat) :
    s.outLen + 1 = BitVec.ofNat Config.lenw (s.outLen.toNat + 1) := by
  have hm := len_toNat_lt s.outMax
  exact BitVec.eq_of_toNat_eq (by rw [outLen_succ_toNat h, lenOfNat_toNat (by omega)])

/-- The byte appended is read back, and every other byte of `OUT` reads as before. -/
theorem outByte_write (s t : State) (b : Byte) (ho : t.outBuf = s.outBuf.write s.outLen.toNat b)
    (hf : t.fresh = s.fresh) (a : Nat) : outByte t a = if a = s.outLen.toNat then b else outByte s a := by
  unfold outByte
  rw [ho, hf]
  split
  · rename_i h; subst h; rw [Memory.read?_write_same]; rfl
  · rename_i h; rw [Memory.read?_write_other _ _ _ _ h]

/-- The output after an append. -/
theorem outBytes_append (s t : State) (b : Byte) (ho : t.outBuf = s.outBuf.write s.outLen.toNat b)
    (hf : t.fresh = s.fresh) (hl : t.outLen.toNat = s.outLen.toNat + 1) : outBytes t = outBytes s ++ [b] := by
  unfold outBytes
  rw [hl, List.range_succ, List.map_append]
  congr 1
  · apply List.map_congr_left
    intro a ha
    rw [outByte_write s t b ho hf, if_neg (by simp at ha; omega)]
  · simp [outByte_write s t b ho hf]

end Sys2Proof.Machine
end

