-- ==== Sys2Proof/Laws/Bits.lean ====
section
/-! SUPPORT. Bit strings: fields, codes and bytes as stream bits (R8, R67, R68). -/

namespace Sys2Proof

/-! ## Fields -/

@[simp] theorem fieldBits_length (n : Nat) : ∀ v, (fieldBits n v).length = n := by
  induction n with
  | zero => intro v; rfl
  | succ n ih => intro v; simp [fieldBits, ih]

@[simp] theorem codeBits_length (n c : Nat) : (codeBits n c).length = n := by
  induction n with
  | zero => rfl
  | succ n ih => simp [codeBits, ih]

theorem bitsToNat_lt (l : List Bool) : bitsToNat l < 2 ^ l.length := by
  induction l with
  | nil => simp [bitsToNat]
  | cons b l ih => cases b <;> simp [bitsToNat, Nat.pow_succ] <;> omega

/-- A field reads back as its value. -/
theorem bitsToNat_fieldBits (n : Nat) : ∀ v, bitsToNat (fieldBits n v) = v % 2 ^ n := by
  induction n with
  | zero => intro v; simp [fieldBits, bitsToNat, Nat.mod_one]
  | succ n ih =>
    intro v
    simp only [fieldBits, bitsToNat, ih]
    rw [Nat.pow_succ, Nat.mul_comm (2 ^ n) 2, Nat.mod_mul]
    rcases Nat.mod_two_eq_zero_or_one v with h | h <;> simp [Nat.testBit_zero, h]

theorem bitsToNat_fieldBits_of_lt {n v : Nat} (h : v < 2 ^ n) : bitsToNat (fieldBits n v) = v := by
  rw [bitsToNat_fieldBits, Nat.mod_eq_of_lt h]

/-- The field of the value of some bits is those bits. -/
theorem fieldBits_bitsToNat (l : List Bool) : fieldBits l.length (bitsToNat l) = l := by
  induction l with
  | nil => rfl
  | cons b l ih =>
    simp only [List.length_cons, fieldBits, bitsToNat]
    congr 1
    · cases b <;> simp [Nat.testBit_zero, Nat.add_mod]
    · rw [show (b.toNat + 2 * bitsToNat l) / 2 = bitsToNat l by cases b <;> simp <;> omega]; exact ih

/-- Bits `0 … n-1` of a value decide its field. -/
theorem fieldBits_mod (n : Nat) (v : Nat) : fieldBits n (v % 2 ^ n) = fieldBits n v := by
  have h := fieldBits_bitsToNat (fieldBits n v)
  rw [fieldBits_length, bitsToNat_fieldBits] at h
  exact h

theorem bitsToNat_append (a b : List Bool) : bitsToNat (a ++ b) = bitsToNat a + 2 ^ a.length * bitsToNat b := by
  induction a with
  | nil => simp [bitsToNat]
  | cons x a ih => simp only [List.cons_append, bitsToNat, ih, List.length_cons, Nat.pow_succ]; ring

theorem testBit_bitsToNat (l : List Bool) : ∀ i, (bitsToNat l).testBit i = l.getD i false := by
  induction l with
  | nil => intro i; simp [bitsToNat]
  | cons b l ih =>
    intro i
    cases i with
    | zero => cases b <;> simp [bitsToNat, Nat.testBit_zero, Nat.add_mod]
    | succ i =>
      rw [Nat.testBit_succ, bitsToNat, show (b.toNat + 2 * bitsToNat l) / 2 = bitsToNat l by cases b <;> simp <;> omega, ih]
      rfl

theorem getElem?_fieldBits (n : Nat) : ∀ v i, (fieldBits n v)[i]? = if i < n then some (v.testBit i) else none := by
  induction n with
  | zero => intro v i; simp [fieldBits]
  | succ n ih =>
    intro v i
    cases i with
    | zero => simp [fieldBits]
    | succ i => simp [fieldBits, ih, Nat.testBit_succ]

theorem fieldBits_add (a : Nat) : ∀ b v, fieldBits (a + b) v = fieldBits a v ++ fieldBits b (v / 2 ^ a) := by
  induction a with
  | zero => intro b v; simp [fieldBits]
  | succ a ih =>
    intro b v
    rw [Nat.add_right_comm]
    simp only [fieldBits, List.cons_append, ih]
    rw [Nat.div_div_eq_div_mul, Nat.pow_succ, Nat.mul_comm 2]

theorem fieldBits_zero_value (n : Nat) : fieldBits n 0 = List.replicate n false := by
  induction n with
  | zero => rfl
  | succ n ih => simp [fieldBits, ih, List.replicate_succ]

/-! ## Bytes -/

@[simp] theorem bytesToBits_nil : bytesToBits [] = [] := rfl

@[simp] theorem bytesToBits_append (a b : List Byte) : bytesToBits (a ++ b) = bytesToBits a ++ bytesToBits b := by
  simp [bytesToBits]

@[simp] theorem bytesToBits_cons (a : Byte) (b : List Byte) :
    bytesToBits (a :: b) = fieldBits 8 a.toNat ++ bytesToBits b := rfl

@[simp] theorem bytesToBits_length (l : List Byte) : (bytesToBits l).length = 8 * l.length := by
  induction l with
  | nil => rfl
  | cons b l ih => simp [ih]; omega

/-- Stream bit `p` of a byte sequence (R8). -/
theorem getElem?_bytesToBits (l : List Byte) : ∀ p, (bytesToBits l)[p]? = l[p / 8]?.map fun b => b.getLsbD (p % 8) := by
  induction l with
  | nil => intro p; simp
  | cons b l ih =>
    intro p
    rw [bytesToBits_cons, List.getElem?_append]
    by_cases h : p < 8
    · rw [if_pos (by simpa using h), getElem?_fieldBits, if_pos h, Nat.div_eq_of_lt h, Nat.mod_eq_of_lt h]
      simp [BitVec.getLsbD]
    · rw [if_neg (by simpa using h), ih, fieldBits_length]
      rw [show p / 8 = (p - 8) / 8 + 1 by omega, show p % 8 = (p - 8) % 8 by omega]
      simp

theorem packBytes_length (n : Nat) : ∀ bits, (packBytes n bits).length = n := by
  induction n with
  | zero => intro bits; rfl
  | succ n ih => intro bits; simp [packBytes, ih]

/-- Packing whole bytes is the inverse of unpacking. -/
theorem packBytes_bytesToBits (l : List Byte) : packBytes l.length (bytesToBits l) = l := by
  induction l with
  | nil => rfl
  | cons b l ih =>
    simp only [List.length_cons, packBytes, bytesToBits_cons]
    rw [List.take_left' (by simp), List.drop_left' (by simp), ih, bitsToNat_fieldBits_of_lt b.isLt]
    simp

/-- The bits of packed bits are the bits, padded with zeros. -/
theorem bytesToBits_packBytes (n : Nat) : ∀ bits : List Bool, bits.length ≤ 8 * n →
    bytesToBits (packBytes n bits) = bits ++ List.replicate (8 * n - bits.length) false := by
  induction n with
  | zero => intro bits h; simp at h; subst h; rfl
  | succ n ih =>
    intro bits h
    simp only [packBytes, bytesToBits_cons]
    rw [ih (bits.drop 8) (by simp; omega), BitVec.toNat_ofNat,
      Nat.mod_eq_of_lt (lt_of_lt_of_le (bitsToNat_lt _) (Nat.pow_le_pow_right (by decide) (by simp)))]
    by_cases h8 : 8 ≤ bits.length
    · have h1 : (bits.take 8).length = 8 := by simp; omega
      conv_lhs => enter [1, 1]; rw [← h1]
      rw [fieldBits_bitsToNat, ← List.append_assoc, List.take_append_drop, List.length_drop]
      congr 2; omega
    · have h2 : bits.take 8 = bits := List.take_of_length_le (by omega)
      have h3 : bits.drop 8 = [] := List.drop_eq_nil_of_le (by omega)
      rw [h2, h3]
      have h4 : 8 = bits.length + (8 - bits.length) := by omega
      conv_lhs => enter [1, 1]; rw [h4]
      rw [fieldBits_add, fieldBits_bitsToNat, Nat.div_eq_of_lt (bitsToNat_lt _), fieldBits_zero_value]
      simp only [List.nil_append, List.length_nil, List.append_assoc, List.replicate_append_replicate]
      congr 2; omega

/-- R71, R90: the bits of a packed stream. -/
theorem bytesToBits_bitsToBytes (bits : List Bool) :
    bytesToBits (bitsToBytes bits) = bits ++ List.replicate ((8 - bits.length % 8) % 8) false := by
  unfold bitsToBytes
  rw [bytesToBits_packBytes _ _ (by omega)]
  congr 2
  omega

/-- Bytes are determined by their bits. -/
theorem bytesToBits_inj {a b : List Byte} (h : bytesToBits a = bytesToBits b) : a = b := by
  have hl : a.length = b.length := by have := congrArg List.length h; simp at this; exact this
  rw [← packBytes_bytesToBits a, h, hl, packBytes_bytesToBits]

/-! ## Codes -/

/-- The value of some bits read as a Huffman code, the first bit the most significant. -/
def codeValue (l : List Bool) : Nat := l.foldl (fun v b => 2 * v + b.toNat) 0

theorem codeValue_append_one (l : List Bool) (b : Bool) : codeValue (l ++ [b]) = 2 * codeValue l + b.toNat := by
  simp [codeValue]

theorem codeValue_lt (l : List Bool) : codeValue l < 2 ^ l.length := by
  induction l using List.reverseRecOn with
  | nil => simp [codeValue]
  | append_singleton l b ih =>
    rw [codeValue_append_one, List.length_append, List.length_singleton, Nat.pow_succ]
    cases b <;> simp <;> omega

/-- A longer code is a shorter one followed by its last bit. -/
theorem codeBits_succ_div (n : Nat) : ∀ c, codeBits (n + 1) c = codeBits n (c / 2) ++ [c.testBit 0] := by
  induction n with
  | zero => intro c; simp [codeBits]
  | succ n ih =>
    intro c
    rw [codeBits, ih]
    conv_rhs => rw [codeBits, List.cons_append]
    rw [Nat.testBit_succ]

theorem codeValue_codeBits (n : Nat) : ∀ c, codeValue (codeBits n c) = c % 2 ^ n := by
  induction n with
  | zero => intro c; simp [codeBits, codeValue, Nat.mod_one]
  | succ n ih =>
    intro c
    rw [codeBits_succ_div, codeValue_append_one, ih, Nat.pow_succ, Nat.mul_comm (2 ^ n) 2, Nat.mod_mul]
    rcases Nat.mod_two_eq_zero_or_one c with h | h <;> simp [Nat.testBit_zero, h] <;> omega

theorem codeBits_codeValue (l : List Bool) : codeBits l.length (codeValue l) = l := by
  induction l using List.reverseRecOn with
  | nil => rfl
  | append_singleton l b ih =>
    rw [List.length_append, List.length_singleton, codeBits_succ_div, codeValue_append_one]
    congr 1
    · rw [show (2 * codeValue l + b.toNat) / 2 = codeValue l by cases b <;> simp <;> omega]; exact ih
    · cases b <;> simp [Nat.testBit_zero, Nat.add_mod]

theorem codeBits_inj {n c d : Nat} (hc : c < 2 ^ n) (hd : d < 2 ^ n) (h : codeBits n c = codeBits n d) : c = d := by
  have := congrArg codeValue h
  rwa [codeValue_codeBits, codeValue_codeBits, Nat.mod_eq_of_lt hc, Nat.mod_eq_of_lt hd] at this

/-- The first `k` bits of a code are the code shifted right. -/
theorem codeBits_take (n : Nat) : ∀ c k, k ≤ n → (codeBits n c).take k = codeBits k (c >>> (n - k)) := by
  induction n with
  | zero => intro c k hk; simp at hk; subst hk; rfl
  | succ n ih =>
    intro c k hk
    rcases Nat.lt_or_ge k (n + 1) with h | h
    · rw [codeBits_succ_div, List.take_append_of_le_length (by simp; omega), ih _ _ (by omega)]
      rw [show n + 1 - k = (n - k) + 1 by omega, Nat.add_comm (n - k) 1, Nat.shiftRight_add]
      rfl
    · rw [List.take_of_length_le (by simp; omega), show k = n + 1 by omega]; simp

end Sys2Proof
end

