-- ==== Sys2Proof/Laws/Huffman.lean ====
section
/-! SUPPORT. The canonical Huffman code: the Kraft sum (R170, R171), the closed form of the codes (R172), prefix-freeness (R178)
and what a walk through the trie finds (R175, R176). -/

namespace Sys2Proof

open Machine

/-! ## Lists as functions of the index -/

theorem getD_zero_of_getElem? {lens : List Nat} {v l : Nat} (h : lens[v]? = some l) : lens.getD v 0 = l := by
  simp [List.getD, h]

theorem lt_length_of_getElem? {α : Type} {l : List α} {v : Nat} {a : α} (h : l[v]? = some a) : v < l.length :=
  (List.getElem?_eq_some_iff.mp h).1

/-! ## The Kraft sum -/

/-- The scaled Kraft sum of the lengths in 1 to `L - 1`. -/
def kraftBelow (lens : List Nat) (L : Nat) : Nat :=
  ((lens.filter fun x => decide (x ≠ 0 ∧ x < L)).map fun x => 2 ^ (15 - x)).sum

theorem kraftBelow_succ (lens : List Nat) (L : Nat) (hL : L ≠ 0) :
    kraftBelow lens (L + 1) = kraftBelow lens L + lens.count L * 2 ^ (15 - L) := by
  unfold kraftBelow
  induction lens with
  | nil => simp
  | cons x xs ih =>
    rw [List.count_cons, List.filter_cons, List.filter_cons]
    rcases Nat.lt_trichotomy x L with h | h | h
    · by_cases h0 : x = 0
      · rw [if_neg (by simp [h0]), if_neg (by simp [h0]), if_neg (by simp; omega), ih]; ring
      · rw [if_pos (by simp; omega), if_pos (by simp; omega), if_neg (by simp; omega)]
        simp only [List.map_cons, List.sum_cons, ih]; ring
    · rw [if_pos (by simp; omega), if_neg (by simp; omega), if_pos (by simpa using h)]
      simp only [List.map_cons, List.sum_cons, ih, h]; ring
    · rw [if_neg (by simp; omega), if_neg (by simp; omega), if_neg (by simp; omega), ih]; ring

theorem kraftBelow_one (lens : List Nat) : kraftBelow lens 1 = 0 := by
  unfold kraftBelow
  have : (lens.filter fun x => decide (x ≠ 0 ∧ x < 1)) = [] := by
    rw [List.filter_eq_nil_iff]; intro a _; simp
  rw [this]; rfl

theorem kraftBelow_sixteen (lens : List Nat) (h : ∀ l ∈ lens, l ≤ 15) : kraftBelow lens 16 = kraftSum lens := by
  unfold kraftBelow kraftSum
  congr 2
  apply List.filter_congr
  intro a ha
  have h15 := h a ha
  by_cases h0 : a = 0
  · simp [h0]
  · simp [h0, show a < 16 by omega]

/-- The left side of the test of R171 against the sum of the counts that are to come. -/
theorem notOverSubscribed_iff : ∀ (cs : List Nat) (left : Nat), notOverSubscribed left cs = true ↔
    (cs.zipIdx.map fun p => p.1 * 2 ^ (cs.length - 1 - p.2)).sum ≤ left * 2 ^ cs.length := by
  intro cs
  induction cs with
  | nil => intro left; simp [notOverSubscribed]
  | cons c cs ih =>
    intro left
    have hs : ((c :: cs).zipIdx.map fun p => p.1 * 2 ^ ((c :: cs).length - 1 - p.2)).sum =
        c * 2 ^ cs.length + (cs.zipIdx.map fun p => p.1 * 2 ^ (cs.length - 1 - p.2)).sum := by
      rw [List.zipIdx_cons]
      simp only [List.map_cons, List.sum_cons, List.length_cons]
      congr 1
      rw [List.zipIdx_succ, List.map_map]
      congr 1
      apply List.map_congr_left
      intro p _
      simp only [Function.comp]
      congr 2; omega
    rw [hs, notOverSubscribed]
    have hpos : 0 < 2 ^ cs.length := Nat.two_pow_pos _
    split
    · rename_i hlt
      simp only [Bool.false_eq_true, false_iff, not_le, List.length_cons, Nat.pow_succ]
      have : (2 * left + 1) * 2 ^ cs.length ≤ c * 2 ^ cs.length := Nat.mul_le_mul_right _ (by omega)
      have h2 : (2 * left + 1) * 2 ^ cs.length = left * (2 ^ cs.length * 2) + 2 ^ cs.length := by ring
      omega
    · rename_i hge
      rw [ih, List.length_cons, Nat.pow_succ]
      have h1 : (2 * left - c) * 2 ^ cs.length + c * 2 ^ cs.length = left * (2 ^ cs.length * 2) := by
        rw [← Nat.add_mul, Nat.sub_add_cancel (by omega)]; ring
      omega

/-- The counts of R171 weigh what the Kraft sum weighs. -/
theorem counts_weight (lens : List Nat) (n : Nat) (hn : n ≤ 15) :
    (((List.range n).map fun L => lens.count (L + 1)).zipIdx.map fun p => p.1 * 2 ^ (n - 1 - p.2)).sum * 2 ^ (15 - n) =
      kraftBelow lens (n + 1) := by
  induction n with
  | zero => simp [kraftBelow_one]
  | succ n ih =>
    rw [kraftBelow_succ lens (n + 1) (by omega), ← ih (by omega), List.range_succ, List.map_append, List.zipIdx_append]
    simp only [List.map_append, List.sum_append, List.map_cons, List.map_nil, List.length_map, List.length_range]
    have : (((List.range n).map fun L => lens.count (L + 1)).zipIdx.map fun p => p.1 * 2 ^ (n + 1 - 1 - p.2)).sum =
        (((List.range n).map fun L => lens.count (L + 1)).zipIdx.map fun p => p.1 * 2 ^ (n - 1 - p.2)).sum * 2 := by
      rw [← List.sum_map_mul_right]
      congr 1
      apply List.map_congr_left
      intro p hp
      have := List.snd_lt_of_mem_zipIdx hp
      simp at this
      rw [show n + 1 - 1 - p.2 = (n - 1 - p.2) + 1 by omega, Nat.pow_succ]
      ring
    rw [this, show 15 - n = (15 - (n + 1)) + 1 by omega, Nat.pow_succ]
    simp
    ring

/-- R170, R171: the loop's test is the Kraft inequality. -/
theorem lensValid_iff (lens : List Nat) : lensValid lens = true ↔ lengthsBuild lens [] := by
  unfold lensValid lengthsBuild
  simp only [Bool.and_eq_true, List.all_eq_true, decide_eq_true_eq, List.not_mem_nil, false_implies, implies_true, and_true]
  constructor
  · rintro ⟨h1, h2⟩
    refine ⟨h1, ?_⟩
    have h3 := (notOverSubscribed_iff _ _).mp h2
    have h4 := counts_weight lens 15 (le_refl _)
    rw [← kraftBelow_sixteen lens h1, ← h4]
    simpa [countLengths] using h3
  · rintro ⟨h1, h2⟩
    refine ⟨h1, ?_⟩
    rw [notOverSubscribed_iff]
    have h4 := counts_weight lens 15 (le_refl _)
    rw [← kraftBelow_sixteen lens h1, ← h4] at h2
    simpa [countLengths] using h2

/-- R171: when a table is built, and which. -/
theorem buildTable_eq (lens required : List Nat) : buildTable lens required =
    if lengthsBuild lens required then
      some ⟨lens.length, lens, countLengths lens, canonicalCodes lens, true⟩ else none := by
  unfold buildTable
  have h : (lensValid lens && requiredUsed lens required) = true ↔ lengthsBuild lens required := by
    rw [Bool.and_eq_true, lensValid_iff]
    unfold requiredUsed lengthsBuild
    simp [and_assoc]
  by_cases hb : lengthsBuild lens required
  · rw [if_pos hb, if_pos (h.mpr hb)]
  · rw [if_neg hb, if_neg (fun e => hb (h.mp e))]

theorem lengthsBuild_nil {lens required : List Nat} (h : lengthsBuild lens required) : lengthsBuild lens [] :=
  ⟨h.1, h.2.1, by simp⟩

/-- A table that was built is built by its own lengths. -/
theorem builtTable_of_buildTable {lens required : List Nat} {T : HuffTable} (h : buildTable lens required = some T) :
    builtTable T ∧ T.lens = lens := by
  rw [buildTable_eq] at h
  split at h
  · rename_i hb
    cases h
    refine ⟨?_, rfl⟩
    show buildTable lens [] = _
    rw [buildTable_eq, if_pos (lengthsBuild_nil hb)]
  · cases h

theorem builtTable_iff (T : HuffTable) : builtTable T ↔
    lengthsBuild T.lens [] ∧ T = ⟨T.lens.length, T.lens, countLengths T.lens, canonicalCodes T.lens, true⟩ := by
  unfold builtTable
  rw [buildTable_eq]
  split
  · rename_i h
    rw [Option.some_inj]
    exact ⟨fun e => ⟨h, e.symm⟩, fun e => e.2.symm⟩
  · rename_i h
    exact ⟨fun e => (nomatch e), fun e => absurd e.1 h⟩

theorem Machine.builtTable.valid {T : HuffTable} (h : builtTable T) : T.valid = true := by
  rw [((builtTable_iff T).mp h).2]

theorem Machine.builtTable.code_eq {T : HuffTable} (h : builtTable T) : T.code = canonicalCodes T.lens := by
  have := congrArg HuffTable.code ((builtTable_iff T).mp h).2
  simpa using this

theorem Machine.builtTable.lens_ok {T : HuffTable} (h : builtTable T) : lengthsBuild T.lens [] := ((builtTable_iff T).mp h).1

/-! ## The codes in closed form -/

/-- R172: the first codes of the lengths, as the loop computes them. -/
theorem firstCodes_getD : ∀ (counts : List Nat) (f L : Nat), L < counts.length →
    (firstCodes f counts).getD L 0 =
      2 * ((match L with | 0 => f | L' + 1 => (firstCodes f counts).getD L' 0) + counts.getD L 0) := by
  intro counts
  induction counts with
  | nil => intro f L h; simp at h
  | cons c cs ih =>
    intro f L h
    cases L with
    | zero => simp [firstCodes, Nat.shiftLeft_eq]; ring
    | succ L =>
      have := ih ((f + c) <<< 1) L (by simpa using h)
      simp only [firstCodes, List.getD_cons_succ]
      rw [this]
      cases L with
      | zero => simp
      | succ L => simp

/-- R172 `first[L]`, scaled, is the Kraft sum of the shorter lengths. -/
theorem first_scaled (lens : List Nat) : ∀ L, L ≤ 14 →
    (firstCodes 0 ((countLengths lens).take 15)).getD L 0 * 2 ^ (14 - L) = kraftBelow lens (L + 1) := by
  intro L
  have hc : ∀ k, k < 15 → ((countLengths lens).take 15).getD k 0 = if k = 0 then 0 else lens.count k := by
    intro k hk
    cases k with
    | zero => simp [countLengths]
    | succ k =>
      rw [List.getD_eq_getElem?_getD, List.getElem?_take, if_pos hk]
      simp [countLengths, show k < 15 by omega]
  induction L with
  | zero =>
    intro _
    rw [firstCodes_getD _ _ _ (by simp [countLengths]), hc 0 (by omega), kraftBelow_one]; simp
  | succ L ih =>
    intro h
    rw [firstCodes_getD _ _ _ (by simp [countLengths]; omega), hc (L + 1) (by omega), kraftBelow_succ _ _ (by omega),
      ← ih (by omega)]
    simp only [Nat.add_eq_zero_iff, one_ne_zero, and_false, if_false]
    rw [show 14 - L = (14 - (L + 1)) + 1 by omega, show 15 - (L + 1) = (14 - (L + 1)) + 1 by omega, Nat.pow_succ]
    ring

@[simp] theorem assignCodes_length : ∀ (lens next : List Nat), (assignCodes next lens).length = lens.length := by
  intro lens
  induction lens with
  | nil => intro next; rfl
  | cons l ls ih => intro next; simp only [assignCodes]; split <;> simp [ih]

/-- R172: a used symbol's code is the first of its length plus the symbols of its length before it. -/
theorem assignCodes_getElem? : ∀ (lens next : List Nat) (v l : Nat), lens[v]? = some l → (∀ x ∈ lens, x < next.length) →
    (assignCodes next lens)[v]? = some (if l = 0 then none else some (next.getD l 0 + (lens.take v).count l)) := by
  intro lens
  induction lens with
  | nil => intro next v l h; simp at h
  | cons x xs ih =>
    intro next v l h hb
    simp only [assignCodes]
    cases v with
    | zero =>
      simp only [List.getElem?_cons_zero, Option.some_inj] at h
      subst h
      split
      · rfl
      · simp
    | succ v =>
      simp only [List.getElem?_cons_succ] at h
      have hx : x < next.length := hb x (by simp)
      split
      · rename_i h0
        rw [List.getElem?_cons_succ, ih next v l h (fun y hy => hb y (by simp [hy]))]
        by_cases hl : l = 0
        · simp [hl]
        · simp [hl, h0, Ne.symm hl]
      · rename_i h0
        rw [List.getElem?_cons_succ, ih _ v l h (fun y hy => by simpa using hb y (by simp [hy]))]
        by_cases hl : l = 0
        · simp [hl]
        · simp only [hl, if_false, List.take_succ_cons, List.count_cons, Option.some_inj]
          by_cases he : x = l
          · subst he
            simp [List.getD_eq_getElem?_getD, hx]; omega
          · simp [List.getD_eq_getElem?_getD, he, List.getElem?_set_ne he]

theorem canonicalCodes_length (lens : List Nat) : (canonicalCodes lens).length = lens.length := by
  simp [canonicalCodes]

theorem firstCodes_length : ∀ (counts : List Nat) (f : Nat), (firstCodes f counts).length = counts.length := by
  intro counts
  induction counts with
  | nil => intro f; rfl
  | cons c cs ih => intro f; simp [firstCodes, ih]

/-- R31: an unused symbol has no code. -/
theorem canonicalCodes_unused {lens : List Nat} (h : ∀ l ∈ lens, l ≤ 15) {v : Nat} (hv : lens[v]? = some 0) :
    (canonicalCodes lens)[v]? = some none := by
  unfold canonicalCodes
  rw [assignCodes_getElem? lens _ v 0 hv]
  · simp
  · intro x hx; have := h x hx; simp [firstCodes_length, countLengths]; omega

/-- The list sum of R172's predecessors as a sum over the indices. -/
theorem kraftBefore_eq_sum (lens : List Nat) (v l : Nat) : kraftBefore lens v l =
    ∑ u ∈ (Finset.range lens.length).filter
      (fun u => lens.getD u 0 ≠ 0 ∧ (lens.getD u 0 < l ∨ (lens.getD u 0 = l ∧ u < v))), 2 ^ (15 - lens.getD u 0) := by
  unfold kraftBefore
  rfl

theorem kraftSum_eq_sum (lens : List Nat) : kraftSum lens =
    ∑ u ∈ (Finset.range lens.length).filter (fun u => lens.getD u 0 ≠ 0), 2 ^ (15 - lens.getD u 0) := by
  unfold kraftSum
  have : lens = (List.range lens.length).map fun u => lens.getD u 0 := by
    apply List.ext_getElem
    · simp
    · intro n h1 h2; simp [List.getD_eq_getElem?_getD, h1]
  conv_lhs => rw [this]
  rw [List.filter_map, List.map_map]
  have hp : (fun l : Nat => l != 0) = fun l => decide (l ≠ 0) := by
    funext l; by_cases h : l = 0 <;> simp [h]
  rw [hp]
  rfl

theorem kraftBelow_eq_sum (lens : List Nat) (L : Nat) : kraftBelow lens L =
    ∑ u ∈ (Finset.range lens.length).filter (fun u => lens.getD u 0 ≠ 0 ∧ lens.getD u 0 < L),
      2 ^ (15 - lens.getD u 0) := by
  unfold kraftBelow
  have : lens = (List.range lens.length).map fun u => lens.getD u 0 := by
    apply List.ext_getElem
    · simp
    · intro n h1 h2; simp [List.getD_eq_getElem?_getD, h1]
  conv_lhs => rw [this]
  rw [List.filter_map, List.map_map]
  rfl

/-- How often `l` stands before index `v`, as a number of indices. -/
theorem count_take_eq_card (lens : List Nat) (v l : Nat) (hv : v ≤ lens.length) :
    (lens.take v).count l = ((Finset.range lens.length).filter fun u => lens.getD u 0 = l ∧ u < v).card := by
  induction v with
  | zero => simp
  | succ v ih =>
    have hlt : v < lens.length := hv
    rw [List.take_succ_eq_append_getElem hlt, List.count_append, ih (by omega)]
    have hg : lens.getD v 0 = lens[v] := by simp [List.getD_eq_getElem?_getD, hlt]
    by_cases he : lens[v] = l
    · have : ((Finset.range lens.length).filter fun u => lens.getD u 0 = l ∧ u < v + 1) =
          insert v ((Finset.range lens.length).filter fun u => lens.getD u 0 = l ∧ u < v) := by
        ext u
        simp only [Finset.mem_filter, Finset.mem_range, Finset.mem_insert]
        constructor
        · rintro ⟨h1, h2, h3⟩
          rcases Nat.lt_or_ge u v with h | h
          · exact Or.inr ⟨h1, h2, h⟩
          · exact Or.inl (by omega)
        · rintro (h | ⟨h1, h2, h3⟩)
          · subst h; exact ⟨hlt, by rw [hg, he], by omega⟩
          · exact ⟨h1, h2, by omega⟩
      rw [this, Finset.card_insert_of_notMem (by simp)]
      simp [he]
    · have : ((Finset.range lens.length).filter fun u => lens.getD u 0 = l ∧ u < v + 1) =
          ((Finset.range lens.length).filter fun u => lens.getD u 0 = l ∧ u < v) := by
        ext u
        simp only [Finset.mem_filter, Finset.mem_range]
        constructor
        · rintro ⟨h1, h2, h3⟩
          refine ⟨h1, h2, ?_⟩
          rcases Nat.lt_or_ge u v with h | h
          · exact h
          · exact absurd (by rw [← h2, ← hg, show u = v by omega]) he
        · rintro ⟨h1, h2, h3⟩
          exact ⟨h1, h2, by omega⟩
      rw [this]
      simp [he]

/-- The predecessors of a symbol are the shorter ones and those of its length before it. -/
theorem kraftBefore_eq (lens : List Nat) (v l : Nat) (hv : v ≤ lens.length) (hl : l ≠ 0) :
    kraftBefore lens v l = kraftBelow lens l + (lens.take v).count l * 2 ^ (15 - l) := by
  rw [kraftBefore_eq_sum, kraftBelow_eq_sum, count_take_eq_card lens v l hv]
  have hd : (Finset.range lens.length).filter
        (fun u => lens.getD u 0 ≠ 0 ∧ (lens.getD u 0 < l ∨ (lens.getD u 0 = l ∧ u < v))) =
      ((Finset.range lens.length).filter (fun u => lens.getD u 0 ≠ 0 ∧ lens.getD u 0 < l)) ∪
      ((Finset.range lens.length).filter fun u => lens.getD u 0 = l ∧ u < v) := by
    ext u
    simp only [Finset.mem_filter, Finset.mem_range, Finset.mem_union]
    constructor
    · rintro ⟨h1, h2, h3 | h3⟩
      · exact Or.inl ⟨h1, h2, h3⟩
      · exact Or.inr ⟨h1, h3⟩
    · rintro (⟨h1, h2, h3⟩ | ⟨h1, h2, h3⟩)
      · exact ⟨h1, h2, Or.inl h3⟩
      · exact ⟨h1, by omega, Or.inr ⟨h2, h3⟩⟩
  rw [hd, Finset.sum_union]
  · congr 1
    rw [Finset.sum_congr rfl (g := fun _ => 2 ^ (15 - l))]
    · simp
    · intro u hu
      simp only [Finset.mem_filter] at hu
      rw [hu.2.1]
  · rw [Finset.disjoint_filter]
    rintro u _ ⟨_, h1⟩ ⟨h2, _⟩
    omega

/-- R172: the code of a used symbol in closed form. -/
theorem canonicalCodes_used {lens : List Nat} (h : ∀ l ∈ lens, l ≤ 15) {v l : Nat} (hv : lens[v]? = some l)
    (hl : l ≠ 0) :
    ∃ code, (canonicalCodes lens)[v]? = some (some code) ∧ code * 2 ^ (15 - l) = kraftBefore lens v l := by
  have hlt := lt_length_of_getElem? hv
  have hl15 : l ≤ 15 := h l (List.mem_of_getElem? hv)
  refine ⟨(0 :: firstCodes 0 ((countLengths lens).take 15)).getD l 0 + (lens.take v).count l, ?_, ?_⟩
  · unfold canonicalCodes
    rw [assignCodes_getElem? lens _ v l hv, if_neg hl]
    intro x hx; have := h x hx; simp [firstCodes_length, countLengths]; omega
  · obtain ⟨l', rfl⟩ : ∃ l', l = l' + 1 := ⟨l - 1, by omega⟩
    rw [kraftBefore_eq lens v _ hlt.le hl, Nat.add_mul, ← first_scaled lens l' (by omega), List.getD_cons_succ,
      show 15 - (l' + 1) = 14 - l' by omega]

/-- Symbol `u` comes before symbol `v` in the canonical order. -/
def comesBefore (u k v l : Nat) : Prop := k < l ∨ (k = l ∧ u < v)

/-- A predecessor and its own weight fit below what comes before a symbol. -/
theorem kraftBefore_step {lens : List Nat} {u k v l : Nat} (hu : lens[u]? = some k) (hk : k ≠ 0)
    (h : comesBefore u k v l) : kraftBefore lens u k + 2 ^ (15 - k) ≤ kraftBefore lens v l := by
  have hlt := lt_length_of_getElem? hu
  have hg := getD_zero_of_getElem? hu
  rw [kraftBefore_eq_sum, kraftBefore_eq_sum]
  have hn : u ∉ (Finset.range lens.length).filter
      (fun w => lens.getD w 0 ≠ 0 ∧ (lens.getD w 0 < k ∨ (lens.getD w 0 = k ∧ w < u))) := by
    simp only [Finset.mem_filter, hg]; omega
  have := Finset.sum_insert (f := fun w => 2 ^ (15 - lens.getD w 0)) hn
  rw [hg] at this
  rw [Nat.add_comm, ← this]
  apply Finset.sum_le_sum_of_subset
  intro w hw
  simp only [Finset.mem_insert, Finset.mem_filter, Finset.mem_range] at hw ⊢
  unfold comesBefore at h
  rcases hw with rfl | ⟨h1, h2, h3⟩
  · exact ⟨hlt, by omega, by omega⟩
  · exact ⟨h1, h2, by omega⟩

/-- A symbol and what comes before it fit into the Kraft sum. -/
theorem kraftBefore_le_kraftSum {lens : List Nat} {v l : Nat} (hv : lens[v]? = some l) (hl : l ≠ 0) :
    kraftBefore lens v l + 2 ^ (15 - l) ≤ kraftSum lens := by
  have hlt := lt_length_of_getElem? hv
  have hg := getD_zero_of_getElem? hv
  rw [kraftBefore_eq_sum, kraftSum_eq_sum]
  have hn : v ∉ (Finset.range lens.length).filter
      (fun w => lens.getD w 0 ≠ 0 ∧ (lens.getD w 0 < l ∨ (lens.getD w 0 = l ∧ w < v))) := by
    simp only [Finset.mem_filter, hg]; omega
  have := Finset.sum_insert (f := fun w => 2 ^ (15 - lens.getD w 0)) hn
  rw [hg] at this
  rw [Nat.add_comm, ← this]
  apply Finset.sum_le_sum_of_subset
  intro w hw
  simp only [Finset.mem_insert, Finset.mem_filter, Finset.mem_range] at hw ⊢
  rcases hw with rfl | ⟨h1, h2, h3⟩
  · exact ⟨hlt, by omega⟩
  · exact ⟨h1, h2⟩

/-! ## What a table's codes satisfy -/

/-- Symbol `v` is used in `T`, with a code of `l` bits and value `c`. -/
def HuffTable.Uses (T : HuffTable) (v l c : Nat) : Prop := T.lens[v]? = some l ∧ T.code[v]? = some (some c)

theorem Machine.builtTable.uses_iff {T : HuffTable} (h : builtTable T) (v l : Nat) (hv : T.lens[v]? = some l) (hl : l ≠ 0) :
    ∃ c, T.Uses v l c := by
  obtain ⟨c, hc, _⟩ := canonicalCodes_used h.lens_ok.1 hv hl
  exact ⟨c, hv, by rw [h.code_eq]; exact hc⟩

theorem Machine.builtTable.uses_spec {T : HuffTable} (h : builtTable T) {v l c : Nat} (hu : T.Uses v l c) :
    1 ≤ l ∧ l ≤ 15 ∧ c < 2 ^ l ∧ c * 2 ^ (15 - l) = kraftBefore T.lens v l := by
  obtain ⟨hv, hc⟩ := hu
  rw [h.code_eq] at hc
  have hl : l ≠ 0 := by
    rintro rfl
    rw [canonicalCodes_unused h.lens_ok.1 hv] at hc
    simp at hc
  have hl15 : l ≤ 15 := h.lens_ok.1 l (List.mem_of_getElem? hv)
  obtain ⟨c', hc', hk⟩ := canonicalCodes_used h.lens_ok.1 hv hl
  rw [hc'] at hc
  simp only [Option.some_inj] at hc
  subst hc
  refine ⟨by omega, hl15, ?_, hk⟩
  have h1 := kraftBefore_le_kraftSum hv hl
  have h2 := h.lens_ok.2.1
  rw [← hk] at h1
  have h3 : (c' + 1) * 2 ^ (15 - l) ≤ 2 ^ l * 2 ^ (15 - l) := by
    rw [← Nat.pow_add, show l + (15 - l) = 15 by omega, Nat.add_mul]; omega
  have := Nat.le_of_mul_le_mul_right h3 (Nat.two_pow_pos _)
  omega

/-- R178 (b), (c): of two used symbols, the code of the earlier one, extended to the longer length, lies below. -/
theorem Machine.builtTable.code_lt {T : HuffTable} (h : builtTable T) {u k c v l d : Nat} (hu : T.Uses u k c)
    (hv : T.Uses v l d) (hb : comesBefore u k v l) : (c + 1) * 2 ^ (l - k) ≤ d := by
  obtain ⟨hk1, hk15, _, hkc⟩ := h.uses_spec hu
  obtain ⟨hl1, hl15, _, hld⟩ := h.uses_spec hv
  have hkl : k ≤ l := by unfold comesBefore at hb; omega
  have h1 := kraftBefore_step hu.1 (by omega) hb
  rw [← hkc, ← hld, show 15 - k = (l - k) + (15 - l) by omega, Nat.pow_add, ← Nat.mul_assoc, ← Nat.add_mul] at h1
  have h2 := Nat.le_of_mul_le_mul_right h1 (Nat.two_pow_pos _)
  rw [Nat.add_mul]; omega

/-- R178 (b): the first `k` bits of a used code are no other used code. -/
theorem Machine.builtTable.prefix_free {T : HuffTable} (h : builtTable T) {u k c v l d : Nat} (hu : T.Uses u k c)
    (hv : T.Uses v l d) (hkl : k ≤ l) (hc : d >>> (l - k) = c) : u = v := by
  rcases Nat.lt_trichotomy u v with hlt | heq | hgt
  · have h1 := h.code_lt hu hv (by unfold comesBefore; omega)
    rw [Nat.shiftRight_eq_div_pow] at hc
    have h2 : d < (c + 1) * 2 ^ (l - k) := by
      have := Nat.lt_mul_div_succ d (Nat.two_pow_pos (l - k))
      rw [hc] at this; rw [Nat.mul_comm]; exact this
    omega
  · exact heq
  · rcases Nat.lt_or_ge k l with hk | hk
    · have h1 := h.code_lt hu hv (by unfold comesBefore; omega)
      rw [Nat.shiftRight_eq_div_pow] at hc
      have h2 : d < (c + 1) * 2 ^ (l - k) := by
        have := Nat.lt_mul_div_succ d (Nat.two_pow_pos (l - k))
        rw [hc] at this; rw [Nat.mul_comm]; exact this
      omega
    · have hkl' : k = l := by omega
      subst hkl'
      have h1 := h.code_lt hv hu (by unfold comesBefore; omega)
      simp at h1 hc
      omega

/-! ## The walk through the trie -/

/-- A leaf found is a used symbol with that code. -/
theorem findLeaf_some (k v : Nat) : ∀ (lens : List Nat) (codes : List (Option Nat)) (s0 s : Nat),
    findLeaf k v s0 lens codes = some s → ∃ n, s = s0 + n ∧ lens[n]? = some k ∧ codes[n]? = some (some v) := by
  intro lens
  induction lens with
  | nil => intro codes s0 s h; simp [findLeaf] at h
  | cons l ls ih =>
    intro codes s0 s h
    cases codes with
    | nil => simp [findLeaf] at h
    | cons c cs =>
      simp only [findLeaf] at h
      split at h
      · rename_i hc
        simp only [Option.some_inj] at h
        exact ⟨0, by omega, by simp [hc.1], by simp [hc.2]⟩
      · obtain ⟨n, h1, h2, h3⟩ := ih cs (s0 + 1) s h
        exact ⟨n + 1, by omega, by simpa using h2, by simpa using h3⟩

theorem findLeaf_none (k v : Nat) : ∀ (lens : List Nat) (codes : List (Option Nat)) (s0 : Nat),
    findLeaf k v s0 lens codes = none → ∀ n : Nat, ¬ (lens[n]? = some k ∧ codes[n]? = some (some v)) := by
  intro lens
  induction lens with
  | nil => intro codes s0 h n; simp
  | cons l ls ih =>
    intro codes s0 h n
    cases codes with
    | nil => simp
    | cons c cs =>
      simp only [findLeaf] at h
      split at h
      · simp at h
      · rename_i hc
        cases n with
        | zero => simpa using hc
        | succ n => simpa using ih cs (s0 + 1) h n

theorem HuffTable.leafAt_some {T : HuffTable} {k v s : Nat} (h : T.leafAt k v = some s) : T.Uses s k v := by
  obtain ⟨n, h1, h2, h3⟩ := findLeaf_some k v _ _ _ _ h
  rw [Nat.zero_add] at h1; subst h1
  exact ⟨h2, h3⟩

theorem Machine.builtTable.leafAt_of_uses {T : HuffTable} (h : builtTable T) {k v s : Nat} (hu : T.Uses s k v) :
    T.leafAt k v = some s := by
  cases hl : T.leafAt k v with
  | none => exact absurd hu (findLeaf_none k v _ _ _ hl s)
  | some s' =>
    rw [Option.some_inj]
    exact h.prefix_free (HuffTable.leafAt_some hl) hu (le_refl _) (by simp)

theorem HuffTable.innerNode_iff (T : HuffTable) (k v : Nat) : T.innerNode k v = true ↔
    ∃ s l c, T.Uses s l c ∧ k < l ∧ c >>> (l - k) = v := by
  unfold HuffTable.innerNode
  simp only [List.any_eq_true, Bool.and_eq_true, decide_eq_true_eq, beq_iff_eq]
  constructor
  · rintro ⟨⟨l, c⟩, hm, hk, hc⟩
    obtain ⟨i, hi⟩ := List.mem_iff_getElem?.mp hm
    rw [List.getElem?_zip_eq_some] at hi
    cases c with
    | none => simp at hc
    | some c => exact ⟨i, l, c, hi, hk, by simpa using hc⟩
  · rintro ⟨s, l, c, hu, hk, hc⟩
    refine ⟨(l, some c), ?_, hk, by simp [hc]⟩
    exact List.mem_iff_getElem?.mpr ⟨s, (List.getElem?_zip_eq_some).mpr hu⟩

/-- Bits that begin a longer code lead to an inner node, which is no leaf. -/
theorem Machine.builtTable.inner_of_uses {T : HuffTable} (h : builtTable T) {s l c k : Nat} (hu : T.Uses s l c) (hk : k < l) :
    T.leafAt k (c >>> (l - k)) = none ∧ T.innerNode k (c >>> (l - k)) = true := by
  constructor
  · cases hl : T.leafAt k (c >>> (l - k)) with
    | none => rfl
    | some s' =>
      have h1 := HuffTable.leafAt_some hl
      have h2 := h.prefix_free h1 hu hk.le rfl
      subst h2
      have := h1.1.symm.trans hu.1
      simp at this; omega
  · exact (T.innerNode_iff _ _).mpr ⟨s, l, c, hu, hk, rfl⟩

theorem shift_step (c m : Nat) : 2 * (c >>> (m + 1)) + (c.testBit m).toNat = c >>> m := by
  rw [Nat.shiftRight_add, Nat.shiftRight_eq_div_pow _ 1, Nat.testBit_eq_decide_div_mod_eq, Nat.shiftRight_eq_div_pow]
  have := Nat.div_add_mod (c / 2 ^ m) 2
  rcases Nat.mod_two_eq_zero_or_one (c / 2 ^ m) with h | h <;> simp [h] at * <;> omega

/-- The walk along the first `k` bits of a code, `k` below its length, goes on from its inner node. -/
theorem Machine.builtTable.walk_inner {T : HuffTable} (h : builtTable T) {s l c : Nat} (hu : T.Uses s l c) :
    ∀ k, k < l → ∀ rest, T.walk 0 0 ((codeBits l c).take k ++ rest) = T.walk k (c >>> (l - k)) rest := by
  obtain ⟨_, _, hc, _⟩ := h.uses_spec hu
  intro k
  induction k with
  | zero =>
    intro _ rest
    have : c >>> l = 0 := by rw [Nat.shiftRight_eq_div_pow]; exact Nat.div_eq_of_lt hc
    simp [this]
  | succ k ih =>
    intro hk rest
    have hlen : k < (codeBits l c).length := by simpa using (by omega : k < l)
    rw [List.take_succ_eq_append_getElem hlen, List.append_assoc, ih (by omega)]
    have hb : (codeBits l c)[k] = c.testBit (l - (k + 1)) := by
      have h1 := codeBits_take l c (k + 1) (by omega)
      rw [codeBits_succ_div, List.take_succ_eq_append_getElem hlen] at h1
      have h2 := List.append_inj_right' h1 rfl
      simp only [List.cons.injEq, and_true] at h2
      rw [h2]
      simp [Nat.testBit_shiftRight]
    rw [hb, List.singleton_append, HuffTable.walk, show l - k = (l - (k + 1)) + 1 by omega, shift_step]
    obtain ⟨h1, h2⟩ := h.inner_of_uses hu hk
    rw [h1, h2]; rfl

/-- R178 (d): the walk along a code ends at its symbol, exactly after the code. -/
theorem Machine.builtTable.walk_code {T : HuffTable} (h : builtTable T) {s l c : Nat} (hu : T.Uses s l c) (rest : List Bool) :
    T.walk 0 0 (codeBits l c ++ rest) = .sym s l := by
  obtain ⟨hl1, _, hc, _⟩ := h.uses_spec hu
  have hlen : l - 1 < (codeBits l c).length := by simp; omega
  have hsplit : codeBits l c = (codeBits l c).take (l - 1) ++ [c.testBit 0] := by
    obtain ⟨l', rfl⟩ : ∃ l', l = l' + 1 := ⟨l - 1, by omega⟩
    rw [Nat.add_sub_cancel]
    conv_lhs => rw [codeBits_succ_div]
    congr 1
    rw [codeBits_succ_div, List.take_left' (by simp)]
  rw [hsplit, List.append_assoc, h.walk_inner hu (l - 1) (by omega), List.singleton_append, HuffTable.walk]
  have := shift_step c 0
  rw [show l - (l - 1) = 0 + 1 by omega, this, show l - 1 + 1 = l by omega]
  simp only [Nat.shiftRight_zero]
  rw [h.leafAt_of_uses hu]

/-- A walk that ends at a symbol has read exactly the symbol's code. -/
theorem HuffTable.walk_sym {T : HuffTable} : ∀ (bits : List Bool) (k v s used : Nat), T.walk k v bits = .sym s used →
    ∃ n, 0 < n ∧ n ≤ bits.length ∧ used = k + n ∧ ∃ c, T.Uses s used c ∧
      c = v * 2 ^ n + codeValue (bits.take n) := by
  intro bits
  induction bits with
  | nil => intro k v s used h; simp [HuffTable.walk] at h
  | cons b bits ih =>
    intro k v s used h
    rw [HuffTable.walk] at h
    split at h
    · rename_i s' hl
      simp only [SymResult.sym.injEq] at h
      obtain ⟨rfl, rfl⟩ := h
      exact ⟨1, by omega, by simp, rfl, _, HuffTable.leafAt_some hl, by simp [codeValue]; ring⟩
    · split at h
      · obtain ⟨n, h1, h2, h3, c, hc, hcv⟩ := ih _ _ _ _ h
        refine ⟨n + 1, by omega, by simpa using h2, by omega, c, hc, ?_⟩
        rw [hcv, List.take_succ_cons]
        have : ∀ (l : List Bool) (w : Nat), l.foldl (fun v b => 2 * v + b.toNat) w = w * 2 ^ l.length + codeValue l := by
          intro l
          induction l using List.reverseRecOn with
          | nil => intro w; simp [codeValue]
          | append_singleton l x ih => intro w; simp [ih, codeValue_append_one, Nat.pow_succ]; ring
        have h4 : codeValue (b :: bits.take n) = b.toNat * 2 ^ n + codeValue (bits.take n) := by
          have := this (bits.take n) b.toNat
          simpa [codeValue, List.length_take, h2] using this
        rw [h4, Nat.pow_succ]; ring
      · cases h

/-- From the root: the bits read are the code of the symbol found. -/
theorem Machine.builtTable.walk_root_sym {T : HuffTable} (h : builtTable T) {bits : List Bool} {s used : Nat}
    (hw : T.walk 0 0 bits = .sym s used) : used ≤ bits.length ∧ ∃ c, T.Uses s used c ∧ codeBits used c = bits.take used := by
  obtain ⟨n, h1, h2, h3, c, hu, hc⟩ := HuffTable.walk_sym _ _ _ _ _ hw
  rw [Nat.zero_add] at h3; subst h3
  refine ⟨h2, c, hu, ?_⟩
  have h4 := codeBits_codeValue (bits.take used)
  rw [List.length_take, Nat.min_eq_left h2] at h4
  rw [hc, Nat.zero_mul, Nat.zero_add, h4]

end Sys2Proof
end

