-- ==== Sys2Proof/Laws/Codec.lean ====
section
/-! SUPPORT. The decoder and the encoder against each other, symbol by symbol: what is written is read back, what is read is
what would be written, and what is cut short is reported as short. -/

namespace Sys2Proof

open Machine

/-- The bits of a symbol in a built table are the code of a used symbol. -/
theorem symBits_some {T : HuffTable} (h : builtTable T) {s : Nat} {bits : List Bool} (hb : T.symBits s = some bits) :
    ∃ l c, T.Uses s l c ∧ bits = codeBits l c := by
  unfold HuffTable.symBits at hb
  rw [h.valid] at hb
  simp only [if_true, Option.map_eq_some_iff] at hb
  obtain ⟨c, hc, rfl⟩ := hb
  have hc' : T.code[s]? = some (some c) := by
    rw [List.getD_eq_getElem?_getD] at hc
    cases hx : T.code[s]? with
    | none => rw [hx] at hc; simp at hc
    | some x => rw [hx] at hc; simp at hc; rw [hc]
  have hlen : s < T.lens.length := by
    have := lt_length_of_getElem? hc'
    rw [h.code_eq, canonicalCodes_length] at this; exact this
  refine ⟨T.lens.getD s 0, c, ⟨?_, hc'⟩, rfl⟩
  simp [List.getD_eq_getElem?_getD, hlen]

/-- A used symbol has its code's bits. -/
theorem symBits_of_uses {T : HuffTable} (h : builtTable T) {s l c : Nat} (hu : T.Uses s l c) :
    T.symBits s = some (codeBits l c) := by
  unfold HuffTable.symBits
  rw [h.valid, getD_zero_of_getElem? hu.1]
  simp [List.getD_eq_getElem?_getD, hu.2]

/-- R178 (d): after a symbol's code, the decoder goes on with the symbol and exactly the code's bits used. -/
theorem withSymbol_code {T : HuffTable} (h : builtTable T) {s : Nat} {code : List Bool} (hb : T.symBits s = some code)
    (rest : List Bool) (next) : withSymbol T (code ++ rest) next = next s (code ++ rest) code.length := by
  obtain ⟨l, c, hu, rfl⟩ := symBits_some h hb
  unfold withSymbol
  rw [h.valid, h.walk_code hu]
  simp

/-- An extra-bits field written after a code is read back. -/
theorem withField_ok (w : Nat) (code : List Bool) (x : BitVec w) (rest : List Bool) (mk : BitVec w → Instr) :
    withField w (code ++ (fieldBits w x.toNat ++ rest)) code.length mk = .ok (mk x) (code.length + w) := by
  unfold withField
  rw [List.drop_left, if_neg (by simp), List.take_left' (by simp), bitsToNat_fieldBits_of_lt x.isLt]
  simp

/-- The instruction of a literal/length symbol is read back from its parts. -/
theorem llInstr_ok (i : Instr) (hw : i.wellFormed = true) (s : Nat) (ext code rest : List Bool)
    (h : llParts i = some (s, ext)) : llInstr s (code ++ (ext ++ rest)) code.length = .ok i (code ++ ext).length := by
  cases i <;> cases h
  case lit0To143 b =>
    have : b.toNat ≤ 143 := by simpa [Instr.wellFormed] using hw
    simp [llInstr, show b.toNat < 144 by omega]
  case lit144To255 b =>
    have : 144 ≤ b.toNat := by simpa [Instr.wellFormed] using hw
    have := b.isLt
    simp [llInstr, show ¬ b.toNat < 144 by omega, show b.toNat < 256 by omega]
  all_goals rw [llInstr, if_neg (by decide), if_neg (by decide)]
  all_goals first
    | rw [List.append_nil]
    | (refine Eq.trans (withField_ok _ code _ rest _) ?_; rw [List.length_append, fieldBits_length])

/-- The instruction of a distance symbol is read back from its parts. -/
theorem distInstr_ok (i : Instr) (s : Nat) (ext code rest : List Bool)
    (h : distParts i = some (s, ext)) : distInstr s (code ++ (ext ++ rest)) code.length = .ok i (code ++ ext).length := by
  cases i <;> cases h
  case dist0 | dist1 | dist2 | dist3 | dist30 | dist31 => rw [List.append_nil]; rfl
  all_goals (refine Eq.trans (withField_ok _ code _ rest _) ?_; rw [List.length_append, fieldBits_length])

/-- The instruction of a code-length symbol is read back from its parts. -/
theorem clInstr_ok (i : Instr) (s : Nat) (first : Bool) (ext code rest : List Bool)
    (h : clParts i = some (s, ext)) (hf : ∀ x, ¬ (first = true ∧ i = .clRep16 x)) :
    clInstr first s (code ++ (ext ++ rest)) code.length = .ok i (code ++ ext).length := by
  cases i <;> cases h
  case clLen v =>
    have := v.isLt
    simp [clInstr, show v.toNat < 16 by omega]
  case clRep16 x =>
    have hff : first = false := by
      cases first
      · rfl
      · exact absurd ⟨rfl, rfl⟩ (hf x)
    simp only [clInstr, hff]; norm_num; rw [withField_ok]
  all_goals (simp only [clInstr]; norm_num; rw [withField_ok])

/-- An encoding of parts is a code followed by the extra bits. -/
theorem encodeParts_some {T : HuffTable} {p bits} (h : encodeParts T p = some bits) :
    ∃ s ext code, p = some (s, ext) ∧ T.symBits s = some code ∧ bits = code ++ ext := by
  unfold encodeParts at h
  cases p with
  | none => simp at h
  | some q =>
    simp only [Option.bind_some, Option.map_eq_some_iff] at h
    obtain ⟨code, hc, rfl⟩ := h
    exact ⟨q.1, q.2, code, rfl, hc, rfl⟩

/-- What decodes after a symbol has read exactly the symbol's code first. -/
theorem withSymbol_ok {T : HuffTable} (h : builtTable T) {bits next i used} (hd : withSymbol T bits next = .ok i used) :
    ∃ s n code, T.symBits s = some code ∧ code = bits.take n ∧ n ≤ bits.length ∧ next s bits n = .ok i used := by
  unfold withSymbol at hd
  rw [h.valid] at hd
  simp only [if_true] at hd
  split at hd
  · rename_i s n hw
    obtain ⟨h1, c, hu, hc⟩ := h.walk_root_sym hw
    exact ⟨s, n, _, symBits_of_uses h hu, hc, h1, hd⟩
  · cases hd
  · cases hd

/-- The bits of a field, written again from its value. -/
theorem field_take (w : Nat) (bits : List Bool) (n : Nat) (h : n + w ≤ bits.length) :
    bits.take n ++ fieldBits w (BitVec.ofNat w (bitsToNat ((bits.drop n).take w))).toNat = bits.take (n + w) := by
  have hl : ((bits.drop n).take w).length = w := by simp; omega
  have h1 := bitsToNat_lt ((bits.drop n).take w)
  rw [hl] at h1
  rw [BitVec.toNat_ofNat, Nat.mod_eq_of_lt h1]
  have h2 := fieldBits_bitsToNat ((bits.drop n).take w)
  rw [hl] at h2
  rw [h2, List.take_add]

/-- What decodes with an extra-bits field is the field's instruction, written from the same bits. -/
theorem withField_parts {w bits n mk i used} (hn : n ≤ bits.length) (h : withField w bits n mk = .ok i used) (P : Instr → Option (Nat × List Bool)) (s : Nat) (hP : ∀ x : BitVec w, P (mk x) = some (s, fieldBits w x.toNat)) (hwf : ∀ x, (mk x).wellFormed = true) :
    i.wellFormed = true ∧ used ≤ bits.length ∧ ∃ ext, P i = some (s, ext) ∧ bits.take n ++ ext = bits.take used := by
  unfold withField at h
  split at h
  · cases h
  · rename_i hl
    cases h
    simp only [List.length_drop] at hl
    exact ⟨hwf _, by omega, _, hP _, field_take w bits n (by omega)⟩

/-- What decodes from a literal/length symbol is well-formed and has exactly the bits read as its parts. -/
theorem llInstr_inv {s bits n i used} (hn : n ≤ bits.length) (h : llInstr s bits n = .ok i used) :
    i.wellFormed = true ∧ used ≤ bits.length ∧ ∃ ext, llParts i = some (s, ext) ∧ bits.take n ++ ext = bits.take used := by
  unfold llInstr at h
  split at h
  · cases h
    refine ⟨by simp [Instr.wellFormed]; omega, hn, [], ?_, by simp⟩
    simp [llParts]; omega
  · split at h
    · cases h
      refine ⟨by simp [Instr.wellFormed]; omega, hn, [], ?_, by simp⟩
      simp [llParts]; omega
    · split at h
      all_goals first
        | (cases h; exact ⟨rfl, hn, [], rfl, by simp⟩)
        | exact withField_parts hn h llParts _ (fun _ => rfl) (fun _ => rfl)
        | cases h

/-- What decodes from a distance symbol is well-formed and has exactly the bits read as its parts. -/
theorem distInstr_inv {s bits n i used} (hn : n ≤ bits.length) (h : distInstr s bits n = .ok i used) :
    i.wellFormed = true ∧ used ≤ bits.length ∧ ∃ ext, distParts i = some (s, ext) ∧ bits.take n ++ ext = bits.take used := by
  unfold distInstr at h
  split at h
  all_goals first
    | (cases h; exact ⟨rfl, hn, [], rfl, by simp⟩)
    | exact withField_parts hn h distParts _ (fun _ => rfl) (fun _ => rfl)
    | cases h

/-- What decodes from a code-length symbol is well-formed and has exactly the bits read as its parts. -/
theorem clInstr_inv {f s bits n i used} (hn : n ≤ bits.length) (h : clInstr f s bits n = .ok i used) :
    i.wellFormed = true ∧ used ≤ bits.length ∧ ∃ ext, clParts i = some (s, ext) ∧ bits.take n ++ ext = bits.take used := by
  unfold clInstr at h
  split at h
  · cases h
    refine ⟨rfl, hn, [], ?_, by simp⟩
    simp [clParts]; omega
  · split at h
    · split at h
      · cases h
      · exact withField_parts hn h clParts _ (fun _ => rfl) (fun _ => rfl)
    all_goals first
      | exact withField_parts hn h clParts _ (fun _ => rfl) (fun _ => rfl)
      | cases h

/-- A field cut short is reported as short. -/
theorem withField_short (w : Nat) (code ext : List Bool) (m : Nat) (hm : m < ext.length) (he : ext.length = w)
    (mk : BitVec w → Instr) : withField w (code ++ ext.take m) code.length mk = .short := by
  unfold withField
  rw [List.drop_left, if_pos (by simp; omega)]

/-- A literal/length instruction cut inside its extra bits is short. -/
theorem ll_short (i : Instr) (s : Nat) (ext code : List Bool) (m : Nat) (hm : m < ext.length)
    (h : llParts i = some (s, ext)) : llInstr s (code ++ ext.take m) code.length = .short := by
  cases i <;> cases h
  all_goals first
    | (simp at hm; done)
    | exact withField_short _ code _ m hm (by simp) _

/-- A distance instruction cut inside its extra bits is short. -/
theorem dist_short (i : Instr) (s : Nat) (ext code : List Bool) (m : Nat) (hm : m < ext.length)
    (h : distParts i = some (s, ext)) : distInstr s (code ++ ext.take m) code.length = .short := by
  cases i <;> cases h
  all_goals first
    | (simp at hm; done)
    | exact withField_short _ code _ m hm (by simp) _

/-- A code-length instruction cut inside its extra bits is short. -/
theorem cl_short (i : Instr) (s : Nat) (first : Bool) (ext code : List Bool) (m : Nat) (hm : m < ext.length)
    (h : clParts i = some (s, ext)) (hf : ∀ x, ¬ (first = true ∧ i = .clRep16 x)) :
    clInstr first s (code ++ ext.take m) code.length = .short := by
  cases i <;> cases h
  case clLen v => simp at hm
  case clRep16 x =>
    have hff : first = false := by
      cases first
      · rfl
      · exact absurd ⟨rfl, rfl⟩ (hf x)
    subst hff
    exact withField_short _ code _ m hm (by simp) _
  all_goals exact withField_short _ code _ m hm (by simp) _

/-- A code cut short is reported as short. -/
theorem withSymbol_short {T : HuffTable} (h : builtTable T) {s : Nat} {code : List Bool} (hb : T.symBits s = some code)
    (n : Nat) (hn : n < code.length) (next) : withSymbol T (code.take n) next = .short := by
  obtain ⟨l, c, hu, rfl⟩ := symBits_some h hb
  have := h.walk_inner hu n (by simpa using hn) []
  rw [List.append_nil] at this
  unfold withSymbol
  rw [h.valid, this]
  rfl

/-- A symbol with its extra bits, cut anywhere, is short. -/
theorem parts_short {T : HuffTable} (hT : builtTable T) {p bits n} (he : encodeParts T p = some bits) (hn : n < bits.length)
    (next : Nat → List Bool → Nat → DecodeResult)
    (hs : ∀ s ext code m, p = some (s, ext) → m < ext.length → next s (code ++ ext.take m) code.length = .short) :
    withSymbol T (bits.take n) next = .short := by
  obtain ⟨s, ext, code, h1, h2, rfl⟩ := encodeParts_some he
  rcases Nat.lt_or_ge n code.length with h | h
  · rw [List.take_append_of_le_length h.le]
    exact withSymbol_short hT h2 n h next
  · rw [List.take_append, List.take_of_length_le h, withSymbol_code hT h2]
    exact hs s ext code _ h1 (by simp at hn; omega)

end Sys2Proof
end

