-- ==== Sys2Proof/Laws/Writer.lean ====
section
/-! SUPPORT. The Bit Writer: what an operation that writes bits can do, said once, and how such operations compose (R151 to
R156). The bits may depend on the position, so that alignment is one of them. -/

namespace Sys2Proof.Machine

@[simp] theorem Res.bind_ok {α β : Type} (a : α) (s : State) (f : α → State → Res β) : (Res.ok a s).bind f = f a s := rfl
@[simp] theorem Res.bind_raise {α β : Type} (c : Cause) (s : State) (f : α → State → Res β) :
    (Res.raise c s).bind f = .raise c s := rfl
@[simp] theorem Res.bind_refuse {α β : Type} (r : Refusal) (f : α → State → Res β) :
    (Res.refuse r : Res α).bind f = .refuse r := rfl

/-- The number of bits written so far (R150). -/
def writtenCount (s : State) : Nat := 8 * s.outLen.toNat + s.wr.cnt

/-- `t` is `s` with `bits` written: the bits come after those before, the partial byte keeps its form, the bytes below the old
`OUT_LEN` and those at and above the new one keep their values. -/
structure Wrote (bits : List Bool) (s t : State) : Prop where
  form : writerOk t
  written : writtenBits t = writtenBits s ++ bits
  count : writtenCount t = writtenCount s + bits.length
  frame : outFrame s.outLen.toNat t.outLen.toNat s t
  room : s.outLen ≤ s.outMax → t.outLen ≤ t.outMax
  cells : s.outBuf.map Prod.fst = List.range s.outLen.toNat → t.outBuf.map Prod.fst = List.range t.outLen.toNat
  finished : t.wr.finished = s.wr.finished

/-- `t` differs from `s` at most in `OUT`, `OUT_LEN` and the partial byte. -/
def Touches (s t : State) : Prop := t = { s with outBuf := t.outBuf, outLen := t.outLen, wr := t.wr }

theorem Touches.refl (s : State) : Touches s s := rfl

theorem Touches.trans {s t u : State} (h : Touches s t) (h' : Touches t u) : Touches s u := by
  unfold Touches at *; rw [h'] ; rw [h]

theorem Touches.outMax {s t : State} (h : Touches s t) : t.outMax = s.outMax := by rw [h]
theorem Touches.fresh {s t : State} (h : Touches s t) : t.fresh = s.fresh := by rw [h]
theorem Touches.status {s t : State} (h : Touches s t) : t.status = s.status := by rw [h]
theorem Touches.inBuf {s t : State} (h : Touches s t) : t.inBuf = s.inBuf := by rw [h]
theorem Touches.inLen {s t : State} (h : Touches s t) : t.inLen = s.inLen := by rw [h]
theorem Touches.dfl {s t : State} (h : Touches s t) : t.dfl = s.dfl := by rw [h]

/-- Bytes of `IN` do not change. -/
theorem Touches.inByte {s t : State} (h : Touches s t) (a : Nat) : inByte t a = inByte s a := by
  unfold Machine.inByte; rw [h.inBuf]

/-- What is left of `s` after an abort of `t`. -/
theorem Touches.aborted {s t : State} (h : Touches s t) (hb : s.status.state = .busy) (c : Cause) :
    abortedWith c s (raiseError c t) := by
  refine abortedWith_raiseError c s t ?_ h.status h.inBuf h.inLen h.outMax ?_ ?_ ?_
  · rw [h.status, hb]
  all_goals rw [h]

theorem Wrote.refl {s : State} (h : writerOk s) : Wrote [] s s :=
  ⟨h, by simp, by simp, fun _ _ => rfl, id, id, rfl⟩

theorem Wrote.outLen_le {bits : List Bool} {s t : State} (h : Wrote bits s t) (hs : writerOk s) :
    s.outLen.toNat ≤ t.outLen.toNat := by
  have h1 := h.count
  have h2 := h.form.1
  have h3 := hs.1
  unfold writtenCount at h1
  omega

theorem Wrote.trans {b b' : List Bool} {s t u : State} (hs : writerOk s) (h : Wrote b s t) (h' : Wrote b' t u) :
    Wrote (b ++ b') s u := by
  have h1 := h.outLen_le hs
  have h2 := h'.outLen_le h.form
  refine ⟨h'.form, ?_, ?_, ?_, fun hr => h'.room (h.room hr), fun hc => h'.cells (h.cells hc), ?_⟩
  · rw [h'.written, h.written, List.append_assoc]
  · rw [h'.count, h.count, List.length_append]; omega
  · intro a ha
    rw [h'.frame a (by omega), h.frame a (by omega)]
  · rw [h'.finished, h.finished]

/-- A value with one more bit on top. -/
theorem fieldBits_snoc (n v : Nat) (b : Bool) (hv : v < 2 ^ n) :
    fieldBits (n + 1) (v + b.toNat * 2 ^ n) = fieldBits n v ++ [b] := by
  rw [fieldBits_add]
  congr 1
  · rw [← fieldBits_mod n (v + b.toNat * 2 ^ n), Nat.add_mul_mod_self_right, fieldBits_mod]
  · rw [Nat.add_mul_div_right _ _ (Nat.two_pow_pos n), Nat.div_eq_of_lt hv, Nat.zero_add]
    cases b <;> rfl

/-- The partial byte after one more bit. -/
theorem acc_succ {s : State} (h : writerOk s) (b : Bool) :
    (s.wr.acc + BitVec.ofNat 8 (b.toNat <<< s.wr.cnt)).toNat = s.wr.acc.toNat + b.toNat * 2 ^ s.wr.cnt := by
  have h1 : 2 ^ s.wr.cnt ≤ 2 ^ 7 := Nat.pow_le_pow_right (by decide) h.1
  have h2 := h.2
  rw [BitVec.toNat_add, BitVec.toNat_ofNat, Nat.shiftLeft_eq]
  cases b <;> simp <;> omega

/-- A byte completed by `bits` and appended. -/
theorem wrote_full (bits : List Bool) (v : Byte) (s t : State)
    (hv : fieldBits 8 v.toNat = fieldBits s.wr.cnt s.wr.acc.toNat ++ bits) (hr : s.outLen.toNat < s.outMax.toNat)
    (ho : t.outBuf = s.outBuf.write s.outLen.toNat v) (hl : t.outLen = s.outLen + 1)
    (hw : t.wr = ⟨0, 0, s.wr.finished⟩) (hf : t.fresh = s.fresh) (hm : t.outMax = s.outMax) : Wrote bits s t := by
  have hlen : t.outLen.toNat = s.outLen.toNat + 1 := by rw [hl, outLen_succ_toNat hr]
  have hbl := congrArg List.length hv
  rw [fieldBits_length, List.length_append, fieldBits_length] at hbl
  refine ⟨by rw [writerOk, hw]; exact ⟨by simp, by simp⟩, ?_, ?_, ?_, ?_, ?_, by rw [hw]⟩
  · unfold writtenBits
    rw [outBytes_append s t v ho hf hlen, hw, bytesToBits_append, bytesToBits_cons, bytesToBits_nil, hv]
    simp [fieldBits]
  · unfold writtenCount; rw [hlen, hw]; simp; omega
  · intro a ha
    rw [outByte_write s t v ho hf, if_neg (by omega)]
  · intro _
    rw [BitVec.le_def, hlen, hm]; omega
  · intro hc
    rw [ho, hlen, Memory.map_fst_write_end _ _ _ (mem_of_map_fst_eq_range hc), hc, List.range_succ]

/-- A bit added to the partial byte. -/
theorem wrote_partial (b : Bool) (s t : State) (h : writerOk s) (h7 : s.wr.cnt ≠ 7)
    (hv : fieldBits (s.wr.cnt + 1) t.wr.acc.toNat = fieldBits s.wr.cnt s.wr.acc.toNat ++ [b])
    (ha : t.wr.acc.toNat < 2 ^ (s.wr.cnt + 1)) (ho : t.outBuf = s.outBuf) (hl : t.outLen = s.outLen)
    (hw : t.wr.cnt = s.wr.cnt + 1) (hfin : t.wr.finished = s.wr.finished) (hf : t.fresh = s.fresh)
    (hm : t.outMax = s.outMax) : Wrote [b] s t := by
  have hb : ∀ a, outByte t a = outByte s a := fun a => by unfold outByte; rw [ho, hf]
  have h1 := h.1
  refine ⟨by rw [writerOk, hw]; exact ⟨by omega, ha⟩, ?_, ?_, fun a _ => hb a, ?_, ?_, hfin⟩
  · unfold writtenBits outBytes
    rw [hl, hw, hv, List.append_assoc, List.map_congr_left (fun a _ => hb a)]
  · unfold writtenCount; rw [hl, hw]; rfl
  · rw [hl, hm]; exact id
  · rw [ho, hl]; exact id

/-- R151: what writing one bit does. -/
theorem writeBit_spec (b : Bool) (s : State) (h : writerOk s) :
    (roomFor ((s.wr.cnt + 1) / 8) s → ∃ t, writeBit b s = .ok () t ∧ Wrote [b] s t ∧ Touches s t) ∧
    (¬ roomFor ((s.wr.cnt + 1) / 8) s → s.outLen ≤ s.outMax → ∃ t, writeBit b s = .raise .outputOverflow t ∧ Touches s t) := by
  have hacc := acc_succ h b
  have hfield := fieldBits_snoc s.wr.cnt s.wr.acc.toNat b h.2
  have h1 := h.1
  have h2 := h.2
  rw [← hacc] at hfield
  unfold writeBit roomFor
  by_cases h7 : s.wr.cnt = 7
  · rw [h7] at hfield
    simp only [h7, if_true]
    rw [appendByte_eq]
    constructor
    · intro hr
      rw [if_pos (by simpa using hr)]
      exact ⟨_, rfl, wrote_full [b] _ s _ (by rw [h7]; exact hfield) (by omega) rfl rfl rfl rfl rfl, rfl⟩
    · intro hr hle
      rw [if_neg (by simpa using hr)]
      exact ⟨_, rfl, rfl⟩
  · simp only [h7, if_false]
    constructor
    · intro _
      refine ⟨_, rfl, wrote_partial b s _ h h7 hfield ?_ rfl rfl rfl rfl rfl rfl, rfl⟩
      show (s.wr.acc + BitVec.ofNat 8 (b.toNat <<< s.wr.cnt)).toNat < _
      rw [hacc, Nat.pow_succ]
      cases b <;> simp <;> omega
    · intro hr hle
      rw [BitVec.le_def] at hle
      omega

/-- `f` is an operation that writes the bits `bits p` when `p` bits have been written before: with room for the bytes it
completes it does so; without, it raises `OutputOverflow`, having touched nothing but the output and the partial byte. -/
def Writes (bits : Nat → List Bool) (f : State → Res Unit) : Prop :=
  ∀ s, s.wr.finished = false → writerOk s →
    (roomFor ((s.wr.cnt + (bits (writtenCount s)).length) / 8) s →
      ∃ t, f s = .ok () t ∧ Wrote (bits (writtenCount s)) s t ∧ Touches s t) ∧
    (¬ roomFor ((s.wr.cnt + (bits (writtenCount s)).length) / 8) s → s.outLen ≤ s.outMax →
      ∃ t, f s = .raise .outputOverflow t ∧ Touches s t)

theorem writes_bit (b : Bool) : Writes (fun _ => [b]) (writeBit b) := fun s _ h => writeBit_spec b s h

theorem writes_nothing : Writes (fun _ => []) (fun s => .ok () s) := by
  intro s _ h
  refine ⟨fun _ => ⟨s, rfl, Wrote.refl h, Touches.refl s⟩, fun hr hle => ?_⟩
  have h1 := h.1
  unfold roomFor at hr
  rw [BitVec.le_def] at hle
  simp at hr
  omega

/-- Room for two runs of bits is room for both together. -/
theorem room_split {b1 : List Bool} {s t : State} (hw : Wrote b1 s t) (hm : t.outMax = s.outMax) (n : Nat) :
    roomFor ((t.wr.cnt + n) / 8) t ↔ roomFor ((s.wr.cnt + (b1.length + n)) / 8) s := by
  have hc := hw.count
  unfold writtenCount at hc
  unfold roomFor
  rw [hm]
  omega

/-- Operations that write compose. -/
theorem Writes.bind {b1 b2 : Nat → List Bool} {f g : State → Res Unit} (hf : Writes b1 f) (hg : Writes b2 g) :
    Writes (fun p => b1 p ++ b2 (p + (b1 p).length)) (fun s => (f s).bind fun _ => g) := by
  intro s hfin h
  obtain ⟨hf1, hf2⟩ := hf s hfin h
  simp only [List.length_append]
  by_cases hr : roomFor ((s.wr.cnt + (b1 (writtenCount s)).length) / 8) s
  · obtain ⟨t, ht, hw, hto⟩ := hf1 hr
    obtain ⟨hg1, hg2⟩ := hg t (hw.finished.trans hfin) hw.form
    rw [hw.count, room_split hw hto.outMax] at hg1 hg2
    rw [ht]
    refine ⟨fun hr2 => ?_, fun hr2 hle => ?_⟩
    · obtain ⟨u, hu, hwu, htu⟩ := hg1 hr2
      exact ⟨u, hu, hw.trans h hwu, hto.trans htu⟩
    · obtain ⟨u, hu, htu⟩ := hg2 hr2 (hw.room hle)
      exact ⟨u, hu, hto.trans htu⟩
  · refine ⟨fun hr2 => ?_, fun _ hle => ?_⟩
    · exact absurd (by unfold roomFor at *; omega) hr
    · obtain ⟨t, ht, hto⟩ := hf2 hr hle
      exact ⟨t, by rw [ht]; rfl, hto⟩

theorem Writes.congr {b b' : Nat → List Bool} {f : State → Res Unit} (h : Writes b f) (hb : ∀ p, b p = b' p) :
    Writes b' f := by
  have : b = b' := funext hb
  rwa [← this]

/-- The loop over a list writes what its passes write, one after the other. -/
theorem Writes.each {α : Type} {bits : α → List Bool} {f : α → State → Res Unit} (hf : ∀ a, Writes (fun _ => bits a) (f a)) :
    ∀ l : List α, Writes (fun _ => l.flatMap bits) (Res.each f l) := by
  intro l
  induction l with
  | nil => exact writes_nothing
  | cons a l ih => exact (hf a).bind ih

theorem writes_refused_not {b : Nat → List Bool} {f g : State → Res Unit}
    (h : Writes b f) (hg : ∀ s, s.wr.finished = false → g s = f s) : Writes b g := by
  intro s hfin hs
  rw [hg s hfin]
  exact h s hfin hs

/-- R151 `write_bits`. -/
theorem writes_bits (value n : Nat) (h1 : 1 ≤ n) (h2 : n ≤ 16) : Writes (fun _ => fieldBits n value) (writeBits value n) := by
  have h := Writes.each (fun b => writes_bit b) (fieldBits n value)
  refine writes_refused_not (h.congr fun _ => by simp) ?_
  intro s hfin
  unfold writeBits
  rw [if_neg (by simp [Config.rdMax]; omega), if_neg (by simp [hfin])]

/-- R152: within its ranges WRITE_CODE writes its operand. -/
theorem writtenCode_of_ranges (code len : Nat) (h2 : len ≤ 15) (h3 : code < 2 ^ len) : writtenCode code len = code :=
  if_pos ⟨h2, h3⟩

/-- R152: what WRITE_CODE writes has `len` bits, whatever its operands. -/
theorem writtenCode_lt (code len : Nat) : writtenCode code len < 2 ^ len := by
  unfold writtenCode
  split
  · rename_i h; exact h.2
  · exact Nat.mod_lt _ (Nat.two_pow_pos len)

/-- R152 `write_code`, on any operands. -/
theorem writes_writtenCode (code len : Nat) :
    Writes (fun _ => codeBits len (writtenCode code len)) (writeCode code len) := by
  have h := Writes.each (fun b : Bool => writes_bits b.toNat 1 (by decide) (by decide)) (codeBits len (writtenCode code len))
  have hb : ∀ l : List Bool, l.flatMap (fun b => fieldBits 1 b.toNat) = l := by
    intro l
    induction l with
    | nil => rfl
    | cons b l ih => rw [List.flatMap_cons, ih]; cases b <;> rfl
  refine writes_refused_not (h.congr fun _ => hb _) ?_
  intro s hfin
  unfold writeCode
  rw [if_neg (by simp [hfin])]

/-- R152 `write_code`, within its ranges. -/
theorem writes_code (code len : Nat) (h2 : len ≤ 15) (h3 : code < 2 ^ len) :
    Writes (fun _ => codeBits len code) (writeCode code len) := by
  have h := writes_writtenCode code len
  rwa [writtenCode_of_ranges code len h2 h3] at h

/-- R154 `write_byte`. -/
theorem writes_byte (b : Byte) : Writes (fun _ => fieldBits 8 b.toNat) (writeByte b) :=
  writes_bits b.toNat 8 (by decide) (by decide)

/-- The zero bits up to the next byte boundary (R71). -/
def padBits (p : Nat) : List Bool := List.replicate ((8 - p % 8) % 8) false

theorem padBits_length (p : Nat) : (padBits p).length = (8 - p % 8) % 8 := by simp [padBits]

/-- R153 `wr_align`. -/
theorem writes_align : Writes padBits wrAlign := by
  intro s hfin h
  have h1 := h.1
  have h2 := h.2
  have hp : (padBits (writtenCount s)) = List.replicate ((8 - s.wr.cnt) % 8) false := by
    unfold padBits writtenCount; congr 1; omega
  unfold wrAlign
  rw [hp]
  simp only [hfin, Bool.false_eq_true, if_false]
  by_cases h0 : s.wr.cnt = 0
  · have hn := writes_nothing s hfin h
    simpa [h0] using hn
  · simp only [h0, ne_eq, not_false_eq_true, if_true, List.length_replicate]
    rw [appendByte_eq, show (s.wr.cnt + (8 - s.wr.cnt) % 8) / 8 = 1 by omega]
    unfold roomFor
    constructor
    · intro hr
      rw [if_pos (by omega)]
      refine ⟨_, rfl, wrote_full _ s.wr.acc s _ ?_ (by omega) rfl rfl rfl rfl rfl, rfl⟩
      rw [show (8 - s.wr.cnt) % 8 = 8 - s.wr.cnt by omega]
      have hadd := fieldBits_add s.wr.cnt (8 - s.wr.cnt) s.wr.acc.toNat
      rwa [Nat.div_eq_of_lt h2, fieldBits_zero_value, show s.wr.cnt + (8 - s.wr.cnt) = 8 by omega] at hadd
    · intro hr _
      rw [if_neg (by omega)]
      exact ⟨_, rfl, rfl⟩

/-- R452: a finished writer refuses every code. -/
theorem writeCode_finished {s : State} (h : s.wr.finished = true) (code len : Nat) :
    writeCode code len s = .refuse .writerFinished := if_pos h

/-- An index found in a table is within the entries looked at. -/
theorem lastIndexLe_le (table : List Nat) (v : Nat) : ∀ n, lastIndexLe table v n ≤ n
  | 0 => Nat.le_refl _
  | n + 1 => by
    have := lastIndexLe_le table v n
    unfold lastIndexLe
    split <;> omega

/-- R101: length indices are 0 to 28. -/
theorem lengthIndex_le (len : Nat) : lengthIndex len ≤ 28 := by
  unfold lengthIndex
  split
  · exact Nat.le_refl _
  · exact lastIndexLe_le _ _ _

/-- R101: the fields written for any length are in their ranges, apart from the extra value of a token's length. -/
theorem lengthFields_le (len : Nat) : (lengthFields len).1 ≤ 28 := by
  unfold lengthFields
  split
  · exact lengthIndex_le len
  · exact Nat.le_of_lt_succ (Nat.mod_lt _ (by decide))

end Sys2Proof.Machine
end

