-- ==== Sys2Proof/Laws/Copy.lean ====
section
/-! SUPPORT. The two copy loops of the Decompressor: the stored copy (R216) and the back-reference copy (R256, R259), and the
single append (R66), each with everything it can do. -/

namespace Sys2Proof.Machine

/-- `t` is `s` with the bytes `b 0, …, b (n-1)` appended to `OUT`; the cursor may differ too, nothing else does. -/
structure Appended (b : Nat → Byte) (n : Nat) (s t : State) : Prop where
  touches : t = { s with outBuf := t.outBuf, outLen := t.outLen, rd := t.rd }
  outLen : t.outLen.toNat = s.outLen.toNat + n
  bytes : ∀ k, k < n → outByte t (s.outLen.toNat + k) = b k
  frame : outFrame s.outLen.toNat (s.outLen.toNat + n) s t
  cells : s.outBuf.map Prod.fst = List.range s.outLen.toNat → t.outBuf.map Prod.fst = List.range t.outLen.toNat

theorem Appended.refl (b : Nat → Byte) (s : State) : Appended b 0 s s :=
  ⟨rfl, rfl, fun _ h => absurd h (by omega), fun _ _ => rfl, id⟩

/-- One more byte. -/
theorem Appended.succ {b : Nat → Byte} {n : Nat} {s t u : State} (h : Appended b n s t)
    (hr : t.outLen.toNat < t.outMax.toNat)
    (hu : u = { t with outBuf := t.outBuf.write t.outLen.toNat (b n), outLen := t.outLen + 1, rd := u.rd }) :
    Appended b (n + 1) s u := by
  have ho : u.outBuf = t.outBuf.write t.outLen.toNat (b n) := by rw [hu]
  have hf : u.fresh = t.fresh := by rw [hu]
  have hl : u.outLen.toNat = t.outLen.toNat + 1 := by rw [hu]; exact outLen_succ_toNat hr
  have hb := fun a => outByte_write t u (b n) ho hf a
  have htl := h.outLen
  refine ⟨?_, by omega, ?_, ?_, ?_⟩
  · have h1 := h.touches
    rw [hu]
    conv_lhs => rw [h1]
  · intro k hk
    rw [hb]
    split
    · rename_i he; congr 1; omega
    · exact h.bytes k (by omega)
  · intro a ha
    rw [hb, if_neg (by omega)]
    exact h.frame a (by omega)
  · intro hc
    have hc' := h.cells hc
    rw [ho, hl, Memory.map_fst_write_end _ _ _ (mem_of_map_fst_eq_range hc'), hc', List.range_succ]

/-- The state after an append differs from the state before only in `OUT`, `OUT_LEN` and the cursor. -/
theorem Appended.status {b : Nat → Byte} {n : Nat} {s t : State} (h : Appended b n s t) : t.status = s.status := by
  rw [h.touches]
theorem Appended.inf {b : Nat → Byte} {n : Nat} {s t : State} (h : Appended b n s t) : t.inf = s.inf := by
  rw [h.touches]
theorem Appended.outMax {b : Nat → Byte} {n : Nat} {s t : State} (h : Appended b n s t) : t.outMax = s.outMax := by
  rw [h.touches]
theorem Appended.inByte {b : Nat → Byte} {n : Nat} {s t : State} (h : Appended b n s t) (a : Nat) :
    inByte t a = inByte s a := by
  unfold Machine.inByte; rw [h.touches]

/-- R410: an abort after some bytes were appended. -/
theorem Appended.aborted {b : Nat → Byte} {n : Nat} {s t : State} (h : Appended b n s t) (hb : s.status.state = .busy)
    (c : Cause) : abortedWith c s (raiseError c t) := by
  have h1 := h.touches
  refine abortedWith_raiseError c s t (by rw [h.status, hb]) h.status ?_ ?_ ?_ ?_ ?_ ?_
  all_goals rw [h1]

/-- The loop over the first `n + 1` numbers is the loop over the first `n`, then one more pass. -/
theorem Res.each_range_succ {f : Nat → State → Res Unit} (n : Nat) (s : State) :
    Res.each f (List.range (n + 1)) s = (Res.each f (List.range n) s).bind fun _ t => f n t := by
  have happ : ∀ (l l' : List Nat) (s : State),
      Res.each f (l ++ l') s = (Res.each f l s).bind fun _ t => Res.each f l' t := by
    intro l
    induction l with
    | nil => intro l' s; rfl
    | cons a l ih =>
      intro l' s
      simp only [List.cons_append, Res.each]
      cases f a s with
      | ok _ u => simp [ih]
      | raise c u => rfl
      | refuse r => rfl
  rw [List.range_succ, happ]
  congr 1
  funext _ t
  simp only [Res.each]
  cases f n t <;> rfl

/-- R216: the stored copy of `n` bytes that are there and fit. -/
theorem storedCopy_ok (s : State) : ∀ n, n ≤ s.rd.len - s.rd.byte → roomFor n s →
    ∃ t, Res.each (fun _ u => copyStoredByte u) (List.range n) s = .ok () t ∧
      Appended (fun k => inByte s (s.rd.byte + k)) n s t ∧ t.rd = { s.rd with byte := s.rd.byte + n } := by
  intro n
  induction n with
  | zero => intro _ _; exact ⟨s, rfl, Appended.refl _ s, rfl⟩
  | succ n ih =>
    intro hl hr
    obtain ⟨t, ht, ha, hrd⟩ := ih (by omega) (by unfold roomFor at *; omega)
    have hroom : t.outLen.toNat < t.outMax.toNat := by
      have := ha.outLen; rw [ha.outMax]; unfold roomFor at hr; omega
    rw [Res.each_range_succ, ht, Res.bind_ok]
    unfold copyStoredByte readByte
    rw [if_neg (by rw [hrd]; simp; omega), Res.bind_ok, appendByte_eq, if_pos hroom]
    refine ⟨_, rfl, ha.succ hroom ?_, by rw [hrd]; rfl⟩
    rw [ha.inByte, hrd]

/-- R215, R216, R415: the stored copy that meets its first missing byte, or its first byte that does not fit. -/
theorem storedCopy_fail (s : State) (len : Nat) (k : Nat) (hk : k < len) (hl : k ≤ s.rd.len - s.rd.byte) (hr : roomFor k s) :
    (s.rd.len - s.rd.byte = k →
      ∃ t, Res.each (fun _ u => copyStoredByte u) (List.range len) s = .raise .unexpectedEnd t ∧
        Appended (fun k => inByte s (s.rd.byte + k)) k s t) ∧
    (k < s.rd.len - s.rd.byte → ¬ roomFor (k + 1) s →
      ∃ t, Res.each (fun _ u => copyStoredByte u) (List.range len) s = .raise .outputOverflow t ∧
        Appended (fun k => inByte s (s.rd.byte + k)) k s t) := by
  obtain ⟨t, ht, ha, hrd⟩ := storedCopy_ok s k hl hr
  have hstop : ∀ (c : Cause) (u : State), copyStoredByte t = .raise c u → ∀ m,
      Res.each (fun _ u => copyStoredByte u) (List.range (k + 1 + m)) s = .raise c u := by
    intro c u hc m
    induction m with
    | zero => rw [Nat.add_zero, Res.each_range_succ, ht, Res.bind_ok, hc]
    | succ m ih => rw [← Nat.add_assoc, Res.each_range_succ, ih]; rfl
  obtain ⟨m, rfl⟩ : ∃ m, len = k + 1 + m := ⟨len - (k + 1), by omega⟩
  constructor
  · intro he
    refine ⟨t, hstop _ _ ?_ m, ha⟩
    unfold copyStoredByte readByte
    rw [if_pos (by rw [hrd]; simp; omega)]; rfl
  · intro hlt hn
    refine ⟨{ t with rd := { t.rd with byte := t.rd.byte + 1 } }, hstop _ _ ?_ m, ?_⟩
    · unfold copyStoredByte readByte
      have := ha.outLen
      rw [if_neg (by rw [hrd]; simp; omega), Res.bind_ok, appendByte_eq, if_neg]
      show ¬ t.outLen.toNat < t.outMax.toNat
      rw [ha.outMax]; unfold roomFor at hn; omega
    · exact ⟨by conv_lhs => rw [ha.touches], ha.outLen, ha.bytes, ha.frame, ha.cells⟩

/-- R256, R259: the back-reference copy of `n` bytes that fit, in closed form. -/
theorem matchCopy_ok (s : State) (hd : 1 ≤ s.inf.mdist) (hp : s.inf.mdist ≤ s.outLen.toNat) : ∀ n, roomFor n s →
    ∃ t, Res.each (fun _ u => copyMatchByte u) (List.range n) s = .ok () t ∧
      Appended (fun k => outByte s (s.outLen.toNat - s.inf.mdist + k % s.inf.mdist)) n s t ∧ t.rd = s.rd := by
  intro n
  induction n with
  | zero => intro _; exact ⟨s, rfl, Appended.refl _ s, rfl⟩
  | succ n ih =>
    intro hr
    obtain ⟨t, ht, ha, hrd⟩ := ih (by unfold roomFor at *; omega)
    have htl := ha.outLen
    have hroom : t.outLen.toNat < t.outMax.toNat := by
      rw [ha.outMax]; unfold roomFor at hr; omega
    rw [Res.each_range_succ, ht, Res.bind_ok]
    unfold copyMatchByte
    rw [appendByte_eq, if_pos hroom]
    refine ⟨_, rfl, ha.succ hroom ?_, hrd⟩
    have hbyte : outByte t (t.outLen.toNat - t.inf.mdist) =
        outByte s (s.outLen.toNat - s.inf.mdist + n % s.inf.mdist) := by
      rw [ha.inf, htl]
      rcases Nat.lt_or_ge n s.inf.mdist with h | h
      · rw [Nat.mod_eq_of_lt h, ha.frame _ (by omega)]
        congr 1; omega
      · rw [show s.outLen.toNat + n - s.inf.mdist = s.outLen.toNat + (n - s.inf.mdist) by omega, ha.bytes _ (by omega),
          Nat.mod_eq_sub_mod h]
    rw [hbyte]

/-- R256, R408: the back-reference copy that does not fit. -/
theorem matchCopy_overflow (s : State) (hle : s.outLen ≤ s.outMax) :
    ∀ n, ¬ roomFor n s → ∃ t b k, Res.each (fun _ u => copyMatchByte u) (List.range n) s = .raise .outputOverflow t ∧
      Appended b k s t := by
  have hcopy : ∀ n, (∃ t b, Res.each (fun _ u => copyMatchByte u) (List.range n) s = .ok () t ∧ Appended b n s t) ∨
      (∃ t b k, Res.each (fun _ u => copyMatchByte u) (List.range n) s = .raise .outputOverflow t ∧ Appended b k s t) := by
    intro n
    induction n with
    | zero => exact Or.inl ⟨s, fun _ => 0, rfl, Appended.refl _ s⟩
    | succ n ih =>
      rcases ih with ⟨t, b, ht, ha⟩ | ⟨t, b, k, ht, ha⟩
      · rw [Res.each_range_succ, ht, Res.bind_ok]
        unfold copyMatchByte
        rw [appendByte_eq]
        split
        · rename_i hroom
          refine Or.inl ⟨_, fun k => if k < n then b k else outByte t (t.outLen.toNat - t.inf.mdist), rfl, ?_⟩
          have hb : Appended (fun k => if k < n then b k else outByte t (t.outLen.toNat - t.inf.mdist)) n s t :=
            ⟨ha.touches, ha.outLen, fun k hk => by simp [hk, ha.bytes k hk], ha.frame, ha.cells⟩
          exact hb.succ hroom (by simp)
        · exact Or.inr ⟨t, b, n, rfl, ha⟩
      · exact Or.inr ⟨t, b, k, by rw [Res.each_range_succ, ht]; rfl, ha⟩
  intro n hn
  rcases hcopy n with ⟨t, b, ht, ha⟩ | h
  · exfalso
    have h1 := ha.outLen
    rw [BitVec.le_def] at hle
    unfold roomFor at hn
    have : ∀ m (t : State), Res.each (fun _ u => copyMatchByte u) (List.range m) s = .ok () t →
        m = 0 ∨ t.outLen.toNat ≤ s.outMax.toNat := by
      intro m
      cases m with
      | zero => intro t _; exact Or.inl rfl
      | succ m =>
        intro t ht
        rw [Res.each_range_succ] at ht
        cases hm : Res.each (fun _ u => copyMatchByte u) (List.range m) s with
        | raise c u => rw [hm] at ht; cases ht
        | refuse r => rw [hm] at ht; cases ht
        | ok x u =>
          rw [hm, Res.bind_ok] at ht
          unfold copyMatchByte at ht
          rw [appendByte_eq] at ht
          split at ht
          · rename_i hroom
            cases ht
            right
            rcases hcopy m with ⟨t', b', ht', ha'⟩ | ⟨t', b', k', ht', ha'⟩
            · rw [hm] at ht'; cases ht'
              show (u.outLen + 1).toNat ≤ _
              rw [outLen_succ_toNat hroom, ← ha'.outMax]; omega
            · rw [hm] at ht'; cases ht'
          · cases ht
    rcases this n t ht with h0 | h0 <;> omega
  · exact h

end Sys2Proof.Machine
end

