-- ==== Sys2Proof/Laws/Fetch.lean ====
section
/-! SUPPORT. What the decoder can answer in each context of the inflate engine: how many bits an instruction takes, which
instructions a symbol stands for, and which rejections can occur (R250 to R258, R225 to R229). -/

namespace Sys2Proof.Machine

/-- A field that is there gives its instruction and takes `w` bits. -/
theorem withField_ok {w bits n} {mk : BitVec w → Instr} {i used} (h : withField w bits n mk = .ok i used) :
    used = n + w ∧ n + w ≤ max n bits.length ∧ ∃ x, i = mk x := by
  unfold withField at h
  split at h
  · cases h
  · rename_i hl
    cases h
    simp only [List.length_drop] at hl
    exact ⟨rfl, by omega, _, rfl⟩

/-- What a literal/length symbol decodes to (R250 to R253, R257). -/
theorem llInstr_cases {s bits n i used} (hn : n ≤ bits.length) (h : llInstr s bits n = .ok i used) : n ≤ used ∧ used ≤ bits.length ∧
    ((∃ b, ∀ s, exec i s = (literal b s).toNext) ∨ i = .eob ∨
     (∃ sym x, 257 ≤ sym ∧ sym ≤ 285 ∧ 3 ≤ lengthValue sym x ∧ lengthValue sym x ≤ 258 ∧ ∀ s, exec i s = .next (lengthSymbol sym x s)) ∨ i = .ll286 ∨ i = .ll287) := by
  unfold llInstr at h
  split at h
  · cases h; exact ⟨le_refl _, hn, Or.inl ⟨_, fun _ => rfl⟩⟩
  · split at h
    · cases h; exact ⟨le_refl _, hn, Or.inl ⟨_, fun _ => rfl⟩⟩
    · split at h
      all_goals first
        | (obtain ⟨h1, h2, x, rfl⟩ := withField_ok h
           have hx := x.isLt
           refine ⟨by omega, by omega, Or.inr (Or.inr (Or.inl ⟨_, x.toNat, ?_, ?_, ?_, ?_, fun _ => rfl⟩))⟩
           · decide
           · decide
           · simp [lengthValue, lbase, lbaseTable] <;> omega
           · simp [lengthValue, lbase, lbaseTable] at *; omega)
        | (cases h; exact ⟨le_refl _, hn, Or.inr (Or.inl rfl)⟩)
        | (cases h; exact ⟨le_refl _, hn, Or.inr (Or.inr (Or.inl ⟨_, 0, by decide, by decide, by decide, by decide, fun _ => rfl⟩))⟩)
        | (cases h; exact ⟨le_refl _, hn, Or.inr (Or.inr (Or.inr (Or.inl rfl)))⟩)
        | (cases h; exact ⟨le_refl _, hn, Or.inr (Or.inr (Or.inr (Or.inr rfl)))⟩)
        | cases h

/-- What a distance symbol decodes to (R254, R258). -/
theorem distInstr_cases {j bits n i used} (hn : n ≤ bits.length) (h : distInstr j bits n = .ok i used) : n ≤ used ∧ used ≤ bits.length ∧
    ((∃ j y, j < 30 ∧ y < 2 ^ dextra j ∧ ∀ s, exec i s = (distanceSymbol j y s).toNext) ∨ i = .dist30 ∨ i = .dist31) := by
  unfold distInstr at h
  split at h
  all_goals first
    | (obtain ⟨h1, h2, x, rfl⟩ := withField_ok h
       refine ⟨by omega, by omega, Or.inl ⟨_, x.toNat, ?_, ?_, fun _ => rfl⟩⟩
       · decide
       · exact x.isLt)
    | (cases h; exact ⟨le_refl _, hn, Or.inl ⟨_, 0, by decide, by decide, fun _ => rfl⟩⟩)
    | (cases h; exact ⟨le_refl _, hn, Or.inr (Or.inl rfl)⟩)
    | (cases h; exact ⟨le_refl _, hn, Or.inr (Or.inr rfl)⟩)
    | cases h

/-- What a code-length symbol decodes to (R225 to R228). -/
theorem clInstr_cases {f c bits n i used} (hn : n ≤ bits.length) (h : clInstr f c bits n = .ok i used) : n ≤ used ∧ used ≤ bits.length ∧
    ((∃ v, i = .clLen v) ∨ (∃ x, i = .clRep16 x) ∨ (∃ x, i = .clZero17 x) ∨ (∃ x, i = .clZero18 x)) := by
  unfold clInstr at h
  split at h
  · cases h; exact ⟨le_refl _, hn, Or.inl ⟨_, rfl⟩⟩
  · split at h
    · split at h
      · cases h
      · obtain ⟨h1, h2, x, rfl⟩ := withField_ok h
        exact ⟨by omega, by omega, Or.inr (Or.inl ⟨x, rfl⟩)⟩
    · obtain ⟨h1, h2, x, rfl⟩ := withField_ok h
      exact ⟨by omega, by omega, Or.inr (Or.inr (Or.inl ⟨x, rfl⟩))⟩
    · obtain ⟨h1, h2, x, rfl⟩ := withField_ok h
      exact ⟨by omega, by omega, Or.inr (Or.inr (Or.inr ⟨x, rfl⟩))⟩
    · cases h

/-- A decoded symbol took at least one of the bits that were there (R173). -/
theorem withSymbol_cases {T : HuffTable} {bits next i used} (hd : withSymbol T bits next = .ok i used) :
    ∃ s n, 1 ≤ n ∧ n ≤ bits.length ∧ next s bits n = .ok i used := by
  unfold withSymbol at hd
  split at hd
  · split at hd
    · rename_i s n hw
      obtain ⟨m, h1, h2, h3, -⟩ := HuffTable.walk_sym _ _ _ _ _ hw
      exact ⟨s, n, by omega, by omega, hd⟩
    · cases hd
    · cases hd
  · cases hd

/-- Outside the command register only an invalid table makes the decoder give up without a cause of its own. -/
theorem decode_rejections {c : Ctx} (hc : c ≠ .ctrl) {bits} : decode c bits ≠ .illegalLevel ∧ decode c bits ≠ .noStart ∧
    (decode c bits = .tableInvalid → (∃ T f, c = .cl T f ∧ T.valid = false) ∨ (∃ T, c = .ll T ∧ T.valid = false) ∨ (∃ T, c = .dist T ∧ T.valid = false)) := by
  have hf : ∀ {w bits n} {mk : BitVec w → Instr}, withField w bits n mk ≠ .illegalLevel ∧ withField w bits n mk ≠ .noStart ∧ withField w bits n mk ≠ .tableInvalid := by
    intro w bits n mk; unfold withField; split <;> simp
  have hll : ∀ {s bits n}, llInstr s bits n ≠ .illegalLevel ∧ llInstr s bits n ≠ .noStart ∧ llInstr s bits n ≠ .tableInvalid := by
    intro s bits n; unfold llInstr; split; simp; split; simp; split <;> first | exact hf | simp
  have hdi : ∀ {s bits n}, distInstr s bits n ≠ .illegalLevel ∧ distInstr s bits n ≠ .noStart ∧ distInstr s bits n ≠ .tableInvalid := by
    intro s bits n; unfold distInstr; split <;> first | exact hf | simp
  have hcl : ∀ {f s bits n}, clInstr f s bits n ≠ .illegalLevel ∧ clInstr f s bits n ≠ .noStart ∧ clInstr f s bits n ≠ .tableInvalid := by
    intro f s bits n; unfold clInstr; split; simp; split; split; simp; exact hf; exact hf; exact hf; simp
  have hw : ∀ {T : HuffTable} {bits next}, (∀ {s b n}, next s b n ≠ .illegalLevel ∧ next s b n ≠ .noStart ∧ next s b n ≠ .tableInvalid) →
      withSymbol T bits next ≠ .illegalLevel ∧ withSymbol T bits next ≠ .noStart ∧ (withSymbol T bits next = .tableInvalid → T.valid = false) := by
    intro T bits next h
    unfold withSymbol
    split
    · split
      · exact ⟨h.1, h.2.1, fun e => absurd e h.2.2⟩
      · simp
      · simp
    · rename_i hv; exact ⟨by simp, by simp, fun _ => by simpa using hv⟩
  cases c with
  | ctrl => exact absurd rfl hc
  | header => unfold decode; simp only []; split <;> simp
  | storedLen => unfold decode; simp only []; split <;> simp
  | dynCounts => unfold decode; simp only []; split <;> simp
  | dynCll => exact ⟨hf.1, hf.2.1, fun e => absurd e hf.2.2⟩
  | cl T f => obtain ⟨h1, h2, h3⟩ := hw (T := T) (bits := bits) (next := clInstr f) hcl; exact ⟨h1, h2, fun e => Or.inl ⟨T, f, rfl, h3 e⟩⟩
  | ll T => obtain ⟨h1, h2, h3⟩ := hw (T := T) (bits := bits) (next := llInstr) hll; exact ⟨h1, h2, fun e => Or.inr (Or.inl ⟨T, rfl, h3 e⟩)⟩
  | dist T => obtain ⟨h1, h2, h3⟩ := hw (T := T) (bits := bits) (next := distInstr) hdi; exact ⟨h1, h2, fun e => Or.inr (Or.inr ⟨T, rfl, h3 e⟩)⟩

/-- Every instruction of the stream has at least one bit, and the decoder takes only bits that are there (R231). -/
theorem decode_used {c : Ctx} (hc : c ≠ .ctrl) {bits i used} (h : decode c bits = .ok i used) : 1 ≤ used ∧ used ≤ bits.length := by
  cases c with
  | ctrl => exact absurd rfl hc
  | header =>
    unfold decode at h; simp only at h; split at h
    · cases h; simp
    · cases h
  | storedLen => unfold decode at h; simp only at h; split at h; cases h; cases h; omega
  | dynCounts => unfold decode at h; simp only at h; split at h; cases h; cases h; omega
  | dynCll => obtain ⟨h1, h2, _⟩ := withField_ok (show withField 3 bits 0 _ = _ from h); omega
  | cl T f => obtain ⟨s, n, h1, h2, h3⟩ := withSymbol_cases (show withSymbol T bits _ = _ from h); have := clInstr_cases h2 h3; omega
  | ll T => obtain ⟨s, n, h1, h2, h3⟩ := withSymbol_cases (show withSymbol T bits _ = _ from h); have := llInstr_cases h2 h3; omega
  | dist T => obtain ⟨s, n, h1, h2, h3⟩ := withSymbol_cases (show withSymbol T bits _ = _ from h); have := distInstr_cases h2 h3; omega

theorem nextBits_length (n : Nat) (s : State) : (nextBits n s).length = min n (unreadBits s) := by simp [nextBits, streamBits]

theorem fetchCtx_ne_ctrl (s : State) : fetchCtx s ≠ .ctrl := by unfold fetchCtx; split <;> simp

end Sys2Proof.Machine
end

