-- ==== Sys2Proof/Laws/Search.lean ====
section
/-! SUPPORT. Bounds of the reference search (R349, R350): what `longest_match` can answer. -/

namespace Sys2Proof.Machine

/-- R350: a match grows by at most the positions left. -/
theorem extendMatch_bounds (s : State) (p pos : Nat) : ∀ left m, m ≤ extendMatch s p pos left m ∧ extendMatch s p pos left m ≤ m + left
  | 0, m => by unfold extendMatch; omega
  | left + 1, m => by
    unfold extendMatch
    split
    · have := extendMatch_bounds s p pos left (m + 1); omega
    · omega

/-- R350: what the loop over distances answers: the best length stays within `maxl`, the best distance and the number of candidates
within the distances tried, and the number of candidates within the limit `cm`. -/
theorem searchFrom_bounds (s : State) (pos maxl cm : Nat) (h3 : 3 ≤ maxl) : ∀ left d bl bd ex, bl ≤ maxl → (3 ≤ bl → 1 ≤ bd) →
    1 ≤ d → ex ≤ cm → bd < d → ex < d →
    (searchFrom s pos maxl cm left d bl bd ex).1 ≤ maxl ∧ (searchFrom s pos maxl cm left d bl bd ex).2.1 < d + left ∧
    (searchFrom s pos maxl cm left d bl bd ex).2.2 ≤ cm ∧ (searchFrom s pos maxl cm left d bl bd ex).2.2 < d + left ∧
    (3 ≤ (searchFrom s pos maxl cm left d bl bd ex).1 → 1 ≤ (searchFrom s pos maxl cm left d bl bd ex).2.1)
  | 0, d, bl, bd, ex, h1, h2, h4, h5, h6, h7 => by unfold searchFrom; simp only; omega
  | left + 1, d, bl, bd, ex, h1, h2, h4, h5, h6, h7 => by
    unfold searchFrom
    simp only
    split
    · simp only; omega
    · split
      · have hm := extendMatch_bounds s (pos - d) pos (maxl - 3) 3
        generalize extendMatch s (pos - d) pos (maxl - 3) 3 = m at hm
        by_cases hb : bl < m
        · simp only [if_pos hb]
          split
          · simp only; omega
          · have := searchFrom_bounds s pos maxl cm h3 left (d + 1) m d (ex + 1) (by omega) (by omega) (by omega) (by omega)
              (by omega) (by omega)
            omega
        · simp only [if_neg hb]
          split
          · simp only; omega
          · have := searchFrom_bounds s pos maxl cm h3 left (d + 1) bl bd (ex + 1) (by omega) (by omega) (by omega) (by omega)
              (by omega) (by omega)
            omega
      · have := searchFrom_bounds s pos maxl cm h3 left (d + 1) bl bd ex (by omega) (by omega) (by omega) (by omega) (by omega)
          (by omega)
        omega

/-- R341, R349, R350: the length, the distance and the number of candidates of a search, at any level. -/
theorem longestMatch_bounds (pos l : Nat) (s : State) :
    (longestMatch pos l s).1 ≤ min 258 (inputLength s - pos) ∧ (longestMatch pos l s).2.1 ≤ 32768 ∧
    (longestMatch pos l s).2.2 ≤ 32768 ∧ (longestMatch pos l s).2.2 ≤ chain l ∧
    (3 ≤ (longestMatch pos l s).1 → 1 ≤ (longestMatch pos l s).2.1) := by
  unfold longestMatch
  split
  · simp
  · rename_i hn
    have hmm : Config.maxMatch = 258 := rfl
    have hws : Config.wsize = 32768 := rfl
    have := searchFrom_bounds s pos (min Config.maxMatch (inputLength s - pos)) (chain l) (by omega) (min pos Config.wsize)
      1 0 0 0 (by omega) (by omega) (by omega) (by omega) (by omega) (by omega)
    omega

end Sys2Proof.Machine
end

