-- ==== Sys2Proof/Tests/Slice0.lean ====
section
/-! SUPPORT. Tests of single steps, decodings and the operand checks, and for every statement of `Obligations.lean` that has
hypotheses a witness that meets them. Expected values come from spec/95_test_vectors.md (Vn, Pn, Sn) and from the examples of
the rules (Rn); a test's docstring names its source. -/

namespace Sys2Proof.Tests
open Sys2Proof.Machine

set_option maxRecDepth 20000

/-! ## Small states and observers -/

/-- The decoder reads exactly the bits as the instruction. -/
def decodesTo (c : Ctx) (bits : List Nat) (i : Instr) : Bool := decode c (streamOf bits) == .ok i bits.length

/-- `s` with the bytes as its input, the cursor at the start. -/
def withIn (bytes : List Byte) (s : State) : State :=
  { s with inBuf := Memory.writeList [] 0 bytes, inLen := BitVec.ofNat 32 bytes.length, rd := ⟨0, 0, bytes.length⟩ }

/-- `s` with the bytes as its output so far. -/
def withOut (bytes : List Byte) (s : State) : State :=
  { s with outBuf := Memory.writeList [] 0 bytes, outLen := BitVec.ofNat 32 bytes.length }

/-- `s` with a call running. -/
def busy (s : State) : State := { s with status := { s.status with state := .busy } }

/-- A running decompress call over the bytes, at its start. -/
def inflating (bytes : List Byte) : State := busy (withIn bytes State.reset)

/-- A running compress call of the level over the bytes, at its start. -/
def deflating (level : BitVec 4) (bytes : List Byte) : State :=
  { busy (withIn bytes State.reset) with ctrl := 2, dfl := ⟨level, 0, 0, 0, 0⟩ }

/-- `s` with the registers of the Decompressor changed. -/
def withInf (f : Inflate → Inflate) (s : State) : State := { s with inf := f s.inf }

/-- What `f` sees in the next state, if there is one. -/
def onNext {α : Type} (o : Host.Outcome State Fault Refusal) (f : State → α) : Option α :=
  match o with
  | .next t => some (f t)
  | .fault _ => none
  | .refused _ => none

/-- The refusal, if there is one. -/
def refusalOf (o : Host.Outcome State Fault Refusal) : Option Refusal :=
  match o with
  | .refused r => some r
  | .next _ => none
  | .fault _ => none

/-- The output as the cells of `OUT`. -/
def outCells (s : State) : List Byte := s.outBuf.map Prod.snd

/-- `STATE` and `ERR_CAUSE`. -/
def ending (s : State) : CallState × Option Cause := (s.status.state, s.status.errCause)

/-! ## Operand checks -/

/-- One ill-formed term for each check of `wellFormed`. -/
theorem test_ill_formed_refused :
    (Instr.lit0To143 144).wellFormed = false ∧ (Instr.lit144To255 143).wellFormed = false ∧
    (Instr.compress 10).wellFormed = false ∧ (Instr.readBits 0).wellFormed = false ∧
    (Instr.readBits 17).wellFormed = false ∧ (Instr.writeBits 1 17).wellFormed = false ∧
    (Instr.writeCode 8 3).wellFormed = false ∧ (Instr.writeCode 0 16).wellFormed = false ∧
    (Instr.canonicalCodes [16]).wellFormed = false ∧ (Instr.buildCodes [1, 1, 1] 1).wellFormed = false ∧
    (Instr.buildCodes [] 16).wellFormed = false ∧ (Instr.longestMatch 0 10).wellFormed = false ∧
    (Instr.emitMatch 2 1).wellFormed = false ∧ (Instr.emitMatch 259 1).wellFormed = false ∧
    (Instr.emitMatch 3 0).wellFormed = false ∧ (Instr.emitMatch 3 32769).wellFormed = false := by decide

/-- Terms at the edges of the checks. -/
theorem test_well_formed_accepted :
    (Instr.lit0To143 143).wellFormed = true ∧ (Instr.lit144To255 144).wellFormed = true ∧
    (Instr.compress 9).wellFormed = true ∧ (Instr.readBits 16).wellFormed = true ∧
    (Instr.writeCode 7 3).wellFormed = true ∧ (Instr.buildCodes [1, 1] 1).wellFormed = true ∧
    (Instr.emitMatch 258 32768).wellFormed = true := by decide

/-! ## Decoding -/

/-- R92, R212: `BFINAL` then `BTYPE`, least-significant bit first. -/
theorem test_decode_headers :
    decodesTo .header [1, 0, 0] (.blkStored true) ∧ decodesTo .header [0, 0, 0] (.blkStored false) ∧
    decodesTo .header [1, 1, 0] (.blkFixed true) ∧ decodesTo .header [0, 1, 0] (.blkFixed false) ∧
    decodesTo .header [1, 0, 1] (.blkDynamic true) ∧ decodesTo .header [0, 0, 1] (.blkDynamic false) ∧
    decodesTo .header [1, 1, 1] (.blkReserved true) ∧ decodesTo .header [0, 1, 1] (.blkReserved false) := by decide

/-- V10, V21: the length fields, low byte first. -/
theorem test_decode_stored_len :
    decodeBytes .storedLen [0x02, 0x00, 0xFD, 0xFF] = .ok (.storedLen 0x0002 0xFFFD) 32 ∧
    decodeBytes .storedLen [0x34, 0x12, 0xCB, 0xED] = .ok (.storedLen 0x1234 0xEDCB) 32 ∧
    decodeBytes .storedLen [0x02, 0x00, 0xFD] = .short := by decide

/-- V45: HLIT = 4, HDIST = 1, HCLEN = 14, then `cll[17]` = 3. -/
theorem test_decode_dynamic_header :
    decodesTo .dynCounts [0, 0, 1, 0, 0, 1, 0, 0, 0, 0, 0, 1, 1, 1] (.dynCounts 4 1 14) ∧
    decodesTo .dynCll [1, 1, 0] (.dynCll 3) ∧ decodesTo .dynCll [0, 0, 1] (.dynCll 4) := by decide

/-- V46: the code-length table of the vector: 2 = 00, 18 = 01, 1 = 100, 3 = 101, 16 = 110, 17 = 111. -/
def clTable : HuffTable :=
  (buildTable [0, 3, 2, 3, 0, 0, 0, 0, 0, 0, 0, 0, 0, 0, 0, 0, 3, 3, 2] []).getD HuffTable.empty

/-- V46: the code-length instructions of the vector; V48: symbol 16 before any length. -/
theorem test_decode_code_lengths :
    decodesTo (.cl clTable true) [1, 0, 1] (.clLen 3) ∧
    decodesTo (.cl clTable false) [1, 1, 0, 0, 0] (.clRep16 0) ∧
    decodesTo (.cl clTable true) [1, 1, 1, 1, 0, 0] (.clZero17 1) ∧
    decodesTo (.cl clTable true) [0, 1, 0, 1, 1, 0, 1, 0, 1] (.clZero18 86) ∧
    decode (.cl clTable true) (streamOf [1, 1, 0]) = .noPrevious := by decide

/-- V100, V3, V4, V5, V2: literals at the edges of the code's ranges and the end of a block. -/
theorem test_decode_literals :
    decodesTo (.ll tableFLL) [0, 0, 1, 1, 0, 0, 0, 0] (.lit0To143 0) ∧
    decodesTo (.ll tableFLL) [1, 0, 1, 1, 1, 1, 1, 1] (.lit0To143 143) ∧
    decodesTo (.ll tableFLL) [1, 1, 0, 0, 1, 0, 0, 0, 0] (.lit144To255 144) ∧
    decodesTo (.ll tableFLL) [1, 1, 1, 1, 1, 1, 1, 1, 1] (.lit144To255 255) ∧
    decodesTo (.ll tableFLL) [0, 0, 0, 0, 0, 0, 0] .eob ∧
    decode (.ll tableFLL) (streamOf [0, 0, 0, 0, 0]) = .short := by decide

/-- V26, V27, V100, V101: symbols without meaning; 30 and 31 have no code in a fixed block and have one in a table of 32. -/
theorem test_decode_meaningless :
    decodesTo (.ll tableFLL) [1, 1, 0, 0, 0, 1, 1, 0] .ll286 ∧ decodesTo (.ll tableFLL) [1, 1, 0, 0, 0, 1, 1, 1] .ll287 ∧
    decode (.dist tableFD) (streamOf [1, 1, 1, 1, 0]) = .noLeaf ∧
    decodesTo (.dist ((buildTable (List.replicate 32 5) []).getD HuffTable.empty)) [1, 1, 1, 1, 0] .dist30 ∧
    decodesTo (.dist ((buildTable (List.replicate 32 5) []).getD HuffTable.empty)) [1, 1, 1, 1, 1] .dist31 := by decide

/-- V43: `MATCH 258,32768`, `MATCH 257,32767`. -/
theorem test_decode_longest_match :
    decodesTo (.dist tableFD) [1, 1, 1, 0, 1, 1, 1, 1, 1, 1, 1, 1, 1, 1, 1, 1, 1, 1] (.dist29 8191) ∧
    decodesTo (.dist tableFD) [1, 1, 1, 0, 1, 0, 1, 1, 1, 1, 1, 1, 1, 1, 1, 1, 1, 1] (.dist29 8190) ∧
    decodesTo (.ll tableFLL) [1, 1, 0, 0, 0, 1, 0, 0, 0, 1, 1, 1, 1] (.len284 30) := by decide

/-- V111 to V116: `CTRL` writes. -/
theorem test_decode_commands :
    decode .ctrl (fieldBits 8 0x13) = .ok (.compress 1) 8 ∧ decode .ctrl (fieldBits 8 0x03) = .ok (.compress 0) 8 ∧
    decode .ctrl (fieldBits 8 0x01) = .ok (.decompress 0) 8 ∧ decode .ctrl (fieldBits 8 0xA3) = .illegalLevel ∧
    decode .ctrl (fieldBits 8 0x12) = .noStart := by decide

/-- R260 to R274: the words of these rules, extra value 1. -/
theorem test_decode_lengths_low :
    decodesTo (.ll tableFLL) [0, 0, 0, 0, 0, 0, 1] (.len257) ∧
    decodesTo (.ll tableFLL) [0, 0, 0, 0, 0, 1, 0] (.len258) ∧
    decodesTo (.ll tableFLL) [0, 0, 0, 0, 0, 1, 1] (.len259) ∧
    decodesTo (.ll tableFLL) [0, 0, 0, 0, 1, 0, 0] (.len260) ∧
    decodesTo (.ll tableFLL) [0, 0, 0, 0, 1, 0, 1] (.len261) ∧
    decodesTo (.ll tableFLL) [0, 0, 0, 0, 1, 1, 0] (.len262) ∧
    decodesTo (.ll tableFLL) [0, 0, 0, 0, 1, 1, 1] (.len263) ∧
    decodesTo (.ll tableFLL) [0, 0, 0, 1, 0, 0, 0] (.len264) ∧
    decodesTo (.ll tableFLL) [0, 0, 0, 1, 0, 0, 1, 1] (.len265 1) ∧
    decodesTo (.ll tableFLL) [0, 0, 0, 1, 0, 1, 0, 1] (.len266 1) ∧
    decodesTo (.ll tableFLL) [0, 0, 0, 1, 0, 1, 1, 1] (.len267 1) ∧
    decodesTo (.ll tableFLL) [0, 0, 0, 1, 1, 0, 0, 1] (.len268 1) ∧
    decodesTo (.ll tableFLL) [0, 0, 0, 1, 1, 0, 1, 1, 0] (.len269 1) ∧
    decodesTo (.ll tableFLL) [0, 0, 0, 1, 1, 1, 0, 1, 0] (.len270 1) ∧
    decodesTo (.ll tableFLL) [0, 0, 0, 1, 1, 1, 1, 1, 0] (.len271 1) := by decide

/-- R275 to R288: the words of these rules, extra value 1. -/
theorem test_decode_lengths_high :
    decodesTo (.ll tableFLL) [0, 0, 1, 0, 0, 0, 0, 1, 0] (.len272 1) ∧
    decodesTo (.ll tableFLL) [0, 0, 1, 0, 0, 0, 1, 1, 0, 0] (.len273 1) ∧
    decodesTo (.ll tableFLL) [0, 0, 1, 0, 0, 1, 0, 1, 0, 0] (.len274 1) ∧
    decodesTo (.ll tableFLL) [0, 0, 1, 0, 0, 1, 1, 1, 0, 0] (.len275 1) ∧
    decodesTo (.ll tableFLL) [0, 0, 1, 0, 1, 0, 0, 1, 0, 0] (.len276 1) ∧
    decodesTo (.ll tableFLL) [0, 0, 1, 0, 1, 0, 1, 1, 0, 0, 0] (.len277 1) ∧
    decodesTo (.ll tableFLL) [0, 0, 1, 0, 1, 1, 0, 1, 0, 0, 0] (.len278 1) ∧
    decodesTo (.ll tableFLL) [0, 0, 1, 0, 1, 1, 1, 1, 0, 0, 0] (.len279 1) ∧
    decodesTo (.ll tableFLL) [1, 1, 0, 0, 0, 0, 0, 0, 1, 0, 0, 0] (.len280 1) ∧
    decodesTo (.ll tableFLL) [1, 1, 0, 0, 0, 0, 0, 1, 1, 0, 0, 0, 0] (.len281 1) ∧
    decodesTo (.ll tableFLL) [1, 1, 0, 0, 0, 0, 1, 0, 1, 0, 0, 0, 0] (.len282 1) ∧
    decodesTo (.ll tableFLL) [1, 1, 0, 0, 0, 0, 1, 1, 1, 0, 0, 0, 0] (.len283 1) ∧
    decodesTo (.ll tableFLL) [1, 1, 0, 0, 0, 1, 0, 0, 1, 0, 0, 0, 0] (.len284 1) ∧
    decodesTo (.ll tableFLL) [1, 1, 0, 0, 0, 1, 0, 1] (.len285) := by decide

/-- R290 to R304: the words of these rules, extra value 1. -/
theorem test_decode_distances_low :
    decodesTo (.dist tableFD) [0, 0, 0, 0, 0] (.dist0) ∧
    decodesTo (.dist tableFD) [0, 0, 0, 0, 1] (.dist1) ∧
    decodesTo (.dist tableFD) [0, 0, 0, 1, 0] (.dist2) ∧
    decodesTo (.dist tableFD) [0, 0, 0, 1, 1] (.dist3) ∧
    decodesTo (.dist tableFD) [0, 0, 1, 0, 0, 1] (.dist4 1) ∧
    decodesTo (.dist tableFD) [0, 0, 1, 0, 1, 1] (.dist5 1) ∧
    decodesTo (.dist tableFD) [0, 0, 1, 1, 0, 1, 0] (.dist6 1) ∧
    decodesTo (.dist tableFD) [0, 0, 1, 1, 1, 1, 0] (.dist7 1) ∧
    decodesTo (.dist tableFD) [0, 1, 0, 0, 0, 1, 0, 0] (.dist8 1) ∧
    decodesTo (.dist tableFD) [0, 1, 0, 0, 1, 1, 0, 0] (.dist9 1) ∧
    decodesTo (.dist tableFD) [0, 1, 0, 1, 0, 1, 0, 0, 0] (.dist10 1) ∧
    decodesTo (.dist tableFD) [0, 1, 0, 1, 1, 1, 0, 0, 0] (.dist11 1) ∧
    decodesTo (.dist tableFD) [0, 1, 1, 0, 0, 1, 0, 0, 0, 0] (.dist12 1) ∧
    decodesTo (.dist tableFD) [0, 1, 1, 0, 1, 1, 0, 0, 0, 0] (.dist13 1) ∧
    decodesTo (.dist tableFD) [0, 1, 1, 1, 0, 1, 0, 0, 0, 0, 0] (.dist14 1) := by decide

/-- R305 to R319: the words of these rules, extra value 1. -/
theorem test_decode_distances_high :
    decodesTo (.dist tableFD) [0, 1, 1, 1, 1, 1, 0, 0, 0, 0, 0] (.dist15 1) ∧
    decodesTo (.dist tableFD) [1, 0, 0, 0, 0, 1, 0, 0, 0, 0, 0, 0] (.dist16 1) ∧
    decodesTo (.dist tableFD) [1, 0, 0, 0, 1, 1, 0, 0, 0, 0, 0, 0] (.dist17 1) ∧
    decodesTo (.dist tableFD) [1, 0, 0, 1, 0, 1, 0, 0, 0, 0, 0, 0, 0] (.dist18 1) ∧
    decodesTo (.dist tableFD) [1, 0, 0, 1, 1, 1, 0, 0, 0, 0, 0, 0, 0] (.dist19 1) ∧
    decodesTo (.dist tableFD) [1, 0, 1, 0, 0, 1, 0, 0, 0, 0, 0, 0, 0, 0] (.dist20 1) ∧
    decodesTo (.dist tableFD) [1, 0, 1, 0, 1, 1, 0, 0, 0, 0, 0, 0, 0, 0] (.dist21 1) ∧
    decodesTo (.dist tableFD) [1, 0, 1, 1, 0, 1, 0, 0, 0, 0, 0, 0, 0, 0, 0] (.dist22 1) ∧
    decodesTo (.dist tableFD) [1, 0, 1, 1, 1, 1, 0, 0, 0, 0, 0, 0, 0, 0, 0] (.dist23 1) ∧
    decodesTo (.dist tableFD) [1, 1, 0, 0, 0, 1, 0, 0, 0, 0, 0, 0, 0, 0, 0, 0] (.dist24 1) ∧
    decodesTo (.dist tableFD) [1, 1, 0, 0, 1, 1, 0, 0, 0, 0, 0, 0, 0, 0, 0, 0] (.dist25 1) ∧
    decodesTo (.dist tableFD) [1, 1, 0, 1, 0, 1, 0, 0, 0, 0, 0, 0, 0, 0, 0, 0, 0] (.dist26 1) ∧
    decodesTo (.dist tableFD) [1, 1, 0, 1, 1, 1, 0, 0, 0, 0, 0, 0, 0, 0, 0, 0, 0] (.dist27 1) ∧
    decodesTo (.dist tableFD) [1, 1, 1, 0, 0, 1, 0, 0, 0, 0, 0, 0, 0, 0, 0, 0, 0, 0] (.dist28 1) ∧
    decodesTo (.dist tableFD) [1, 1, 1, 0, 1, 1, 0, 0, 0, 0, 0, 0, 0, 0, 0, 0, 0, 0] (.dist29 1) := by decide

/-- Words of opcode_table.json as its rows number them: BLK rows, `CTRL_WRITE` rows, symbol rows, STORED_LEN, DYN_COUNTS. -/
theorem test_table_words :
    decodeTableWord 3 0 = some (.blkStored false) ∧ decodeTableWord 8 2 = some (.blkFixed false) ∧
    decodeTableWord 8 4 = some (.blkDynamic false) ∧ decodeTableWord 8 6 = some (.blkReserved false) ∧
    decodeTableWord 8 1 = some (.decompress 0) ∧ decodeTableWord 8 3 = some (.compress 0) ∧
    decodeTableWord 8 0x12 = some (.len265 0) ∧ decodeTableWord 8 0x19 = some (.len268 1) ∧
    decodeTableWord 8 0xC5 = some .len285 ∧ decodeTableWord 8 0xC6 = some .ll286 ∧
    decodeTableWord 8 0xC7 = some .ll287 ∧ decodeTableWord 8 0x40 = some (.dist8 0) ∧
    decodeTableWord 8 0x4F = some (.dist9 7) ∧ decodeTableWord 16 0xC000 = some (.dist24 0) ∧
    decodeTableWord 16 0xC800 = some (.dist25 0) ∧ decodeTableWord 32 0xFFF4000A = some (.storedLen 0x000A 0xFFF4) := by
  decide

/-- A placed word is what the next step runs: a header from `IN`, and a command from the host's move. -/
theorem test_placed_words_run :
    onNext (step (State.reset.withFetchWord 8 2)) (fun t => (t.inf.state, t.rd)) = some (.fixedHuffman, ⟨0, 3, 4⟩) ∧
    onNext (step (State.reset.withFetchWord 8 1)) (fun t => t.status.state) = some .busy ∧
    onNext (step (State.reset.withFetchWord 8 0xC5)) (fun t => t.inf.mlen) = some 258 := by decide

/-! ## Bit Reader -/

/-- V71: 16 bits from (0,4) touch three bytes. -/
theorem test_read_bits_three_bytes :
    onNext (exec (.readBits 16) { withIn [0xFF, 0x00, 0xAA] State.reset with rd := ⟨0, 4, 3⟩ }) (fun t => (t.ret, t.rd)) =
      some (.num 0xA00F, ⟨2, 4, 3⟩) := by decide

/-- V71: a failing read leaves the cursor. -/
theorem test_read_bits_short :
    onNext (exec (.readBits 5) { withIn [0xFF, 0x00, 0xAA] State.reset with rd := ⟨2, 4, 3⟩ }) (fun t => (t.ret, t.rd)) =
      some (.raised .unexpectedEnd, ⟨2, 4, 3⟩) := by decide

/-- V73. -/
theorem test_rd_align :
    onNext (exec .rdAlign { State.reset with rd := ⟨4, 3, 9⟩ }) State.rd = some ⟨5, 0, 9⟩ ∧
    onNext (exec .rdAlign { State.reset with rd := ⟨5, 0, 9⟩ }) State.rd = some ⟨5, 0, 9⟩ := by decide

/-- V74. -/
theorem test_has_data :
    onNext (exec .hasData { State.reset with rd := ⟨1, 7, 2⟩ }) State.ret = some (.flag true) ∧
    onNext (exec .hasData { State.reset with rd := ⟨2, 0, 2⟩ }) State.ret = some (.flag false) := by decide

/-- R135: the byte at the cursor. -/
theorem test_read_byte :
    onNext (exec .readByte { withIn [0x12, 0x34] State.reset with rd := ⟨1, 0, 2⟩ }) (fun t => (t.ret, t.rd)) =
      some (.num 0x34, ⟨2, 0, 2⟩) := by decide

/-- R66: at the bound the append raises and writes nothing. -/
theorem test_out_append :
    onNext (exec (.outAppend 0x41) (withOut [0x40] State.reset)) (fun t => (outCells t, t.outLen)) =
      some ([0x40, 0x41], 2) ∧
    onNext (exec (.outAppend 0x41) { withOut [0x40] State.reset with outMax := 1 }) (fun t => (t.ret, t.outLen)) =
      some (.raised .outputOverflow, 1) := by decide

/-! ## Bit Writer -/

/-- V82. -/
theorem test_write_bits_three_bytes :
    onNext (exec (.writeBits 0xABCD 16) { State.reset with wr := ⟨1, 1, false⟩ }) (fun t => (outCells t, t.wr)) =
      some ([0x9B, 0x57], ⟨1, 1, false⟩) := by decide

/-- V86: only the low bit is used. -/
theorem test_write_bits_high_bits_ignored :
    onNext (exec (.writeBits 0x1FF 1) State.reset) (fun t => (outCells t, t.wr)) = some ([], ⟨1, 1, false⟩) := by decide

/-- R152: the code of 0x61 after the header bits 1 1 0. -/
theorem test_write_code :
    onNext (exec (.writeCode 0x91 8) { State.reset with wr := ⟨3, 3, false⟩ }) (fun t => (outCells t, t.wr)) =
      some ([0x4B], ⟨4, 3, false⟩) := by decide

/-- R153. -/
theorem test_wr_align :
    onNext (exec .wrAlign { State.reset with wr := ⟨1, 3, false⟩ }) (fun t => (outCells t, t.wr)) =
      some ([0x01], ⟨0, 0, false⟩) := by decide

/-- R154. -/
theorem test_write_byte :
    onNext (exec (.writeByte 0x48) (withOut [0x01] State.reset)) outCells = some [0x01, 0x48] := by decide

/-- R155: `03 00`. -/
theorem test_finish :
    onNext (exec .finish { withOut [0x03] State.reset with wr := ⟨0, 2, false⟩ }) (fun t => (outCells t, t.ret, t.wr)) =
      some ([0x03, 0x00], .num 2, ⟨0, 0, true⟩) := by decide

/-! ## Huffman tables -/

/-- V90, V97. -/
theorem test_build_from_lengths :
    onNext (exec (.buildFromLengths .ll [2, 1, 3, 3] []) State.reset) (fun t => t.tLL.code) =
      some [some 2, some 0, some 6, some 7] ∧
    onNext (exec (.buildFromLengths .d (List.replicate 257 0) [256]) State.reset) (fun t => (t.ret, t.tD.valid)) =
      some (.raised .invalidHuffmanTable, false) := by decide

/-- V93: over-subscribed at length 2. -/
theorem test_build_over_subscribed :
    onNext (exec (.buildFromLengths .cl [2, 2, 2, 2, 1] []) (busy State.reset)) ending =
      some (.error, some .invalidHuffmanTable) := by decide

/-- V91. -/
theorem test_canonical_codes :
    onNext (exec (.canonicalCodes [3, 3, 3, 3, 3, 2, 4, 4]) State.reset) State.ret =
      some (.codes [some 2, some 3, some 4, some 5, some 6, some 0, some 14, some 15]) := by decide

/-- The table of V90. -/
def tableV90 : HuffTable := (buildTable [2, 1, 3, 3] []).getD HuffTable.empty

/-- The table of V96. -/
def tableV96 : HuffTable := (buildTable [2, 2, 2, 0] []).getD HuffTable.empty

/-- V90: bits 110 decode to 2. -/
theorem test_decode_symbol :
    onNext (exec (.decodeSymbol (.block .cl)) { withIn [0x03] State.reset with tCL := tableV90 })
      (fun t => (t.ret, t.rd)) = some (.num 2, ⟨0, 3, 1⟩) := by decide

/-- V96: bits 11 raise after 2 bits. -/
theorem test_decode_symbol_dead :
    onNext (exec (.decodeSymbol (.block .d)) { withIn [0x03] State.reset with tD := tableV96 })
      (fun t => (t.ret, t.rd)) = some (.raised .invalidSymbol, ⟨0, 2, 1⟩) := by decide

/-- V32: limiting to 4 bits. -/
theorem test_build_codes_limited :
    onNext (exec (.buildCodes [1, 1, 2, 3, 5, 8, 13, 21] 4) State.reset) (fun t => t.enc.elen) =
      some [4, 4, 4, 4, 4, 4, 3, 1] := by decide

/-- V34. -/
theorem test_build_codes :
    onNext (exec (.buildCodes [10, 0, 10, 10] 15) State.reset) (fun t => (t.enc.elen, t.ret)) =
      some ([1, 0, 2, 2], .codes [some 0, none, some 2, some 3]) := by decide

/-! ## Blocks -/

/-- R213, R215: a stored header at (0,0) is fetched and skips the padding; V12: the reserved type. -/
theorem test_block_headers :
    onNext (step (inflating [0xE1, 0x02])) (fun t => (t.inf.state, t.inf.final, t.rd)) = some (.stored, true, ⟨1, 0, 2⟩) ∧
    onNext (step (inflating [0x07])) ending = some (.error, some .invalidBlockType) := by decide

/-- V3, V45: fixed and dynamic headers. -/
theorem test_block_headers_huffman :
    onNext (exec (.blkFixed true) (inflating [])) (fun t => (t.inf.state, t.inf.btype, t.status.fixedReady)) =
      some (.fixedHuffman, 1, true) ∧
    onNext (exec (.blkDynamic true) (inflating [])) (fun t => (t.inf.state, t.inf.btype, t.status.fixedReady)) =
      some (.dynamicHuffman, 2, false) := by decide

/-- V10: two bytes and DONE. -/
theorem test_stored_len :
    onNext (exec (.storedLen 2 0xFFFD)
        (withInf (fun f => { f with final := true }) { inflating [0x48, 0x69] with outMax := 2 }))
      (fun t => (outCells t, t.status.state, t.rd)) = some ([0x48, 0x69], .done, ⟨2, 0, 2⟩) := by decide

/-- V21, V17, V24. -/
theorem test_stored_len_failures :
    onNext (exec (.storedLen 10 0xFFF4) (inflating [])) ending = some (.error, some .invalidStoredLength) ∧
    onNext (exec (.storedLen 2 0xFFFD) (inflating [0x48])) ending = some (.error, some .unexpectedEnd) ∧
    onNext (exec (.storedLen 2 0xFFFD) { inflating [0x48, 0x69] with outMax := 1 }) ending =
      some (.error, some .outputOverflow) := by decide

/-- V45. -/
theorem test_dyn_counts :
    onNext (exec (.dynCounts 4 1 14) (inflating [])) (fun t => (t.inf.nlen, t.inf.ndist, t.inf.ncode)) =
      some (261, 2, 18) := by decide

/-- V47: the second field belongs to symbol 17; four lengths of 1 are over-subscribed. -/
theorem test_dyn_cll :
    onNext (exec (.dynCll 1) (withInf (fun f => { f with k := 1 }) (inflating []))) (fun t => (t.inf.clLens, t.inf.k)) =
      some ([0, 0, 0, 0, 0, 0, 0, 0, 0, 0, 0, 0, 0, 0, 0, 0, 0, 1, 0], 2) ∧
    onNext (exec (.dynCll 1) (withInf (fun f => { f with
        k := 3, cll := ((f.cll.set 16 1).set 17 1).set 18 1 }) (inflating []))) ending =
      some (.error, some .invalidHuffmanTable) := by decide

/-- V46: `L[97]` = 3, then three times the same. -/
theorem test_code_lengths :
    onNext (exec (.clLen 3) (withInf (fun f => { f with i := 97 }) (inflating [])))
      (fun t => (t.inf.i, t.inf.L[97])) = some (98, 3) ∧
    onNext (exec (.clRep16 0) (withInf (fun f => { f with i := 98, L := f.L.set 97 3 }) (inflating [])))
      (fun t => (t.inf.i, t.inf.L[98], t.inf.L[100], t.inf.L[101])) = some (101, 3, 3, 0) := by decide

/-- V46, V49: zero runs, and a run that would overrun 258 lengths. -/
theorem test_zero_runs :
    onNext (exec (.clZero17 1) (withInf (fun f => { f with hlit := 2, hdist := 3, i := 258 }) (inflating [])))
      (fun t => t.inf.i) = some 262 ∧
    onNext (exec (.clZero18 127) (withInf (fun f => { f with i := 0 }) (inflating []))) (fun t => t.inf.i) = some 138 ∧
    onNext (exec (.clZero18 127) (withInf (fun f => { f with i := 138 }) (inflating []))) ending =
      some (.error, some .invalidHuffmanTable) := by decide

/-- V48: symbol 16 first; V49b: no code for symbol 256. -/
theorem test_code_length_failures :
    onNext (exec (.clRep16 0) (inflating [])) ending = some (.error, some .invalidHuffmanTable) ∧
    onNext (exec (.clZero18 109) (withInf (fun f => { f with i := 138 }) (inflating []))) ending =
      some (.error, some .invalidHuffmanTable) := by decide

/-! ## Symbols -/

/-- V3, V8, V4. -/
theorem test_literals :
    onNext (exec (.lit0To143 0x61) (inflating [])) outCells = some [0x61] ∧
    onNext (exec (.lit0To143 0x61) { inflating [] with outMax := 0 }) ending = some (.error, some .outputOverflow) ∧
    onNext (exec (.lit144To255 0x90) (inflating [])) outCells = some [0x90] := by decide

/-- V2, V37: the end of a final block and of another. -/
theorem test_eob :
    onNext (exec .eob (withInf (fun f => { f with final := true }) (inflating []))) (fun t => (t.status.state, t.inf.state)) =
      some (.done, .finished) ∧
    onNext (exec .eob (inflating [])) (fun t => (t.status.state, t.inf.state, t.inf.phase)) =
      some (.busy, .start, .header) := by decide

/-- The length after a length symbol. -/
def lengthAfter (i : Instr) : Option Nat := onNext (exec i (inflating [])) fun t => t.inf.mlen

/-- 95_test_vectors.md 2.9: the end points of the rows of the length table. -/
theorem test_length_symbols :
    lengthAfter .len257 = some 3 ∧ lengthAfter .len258 = some 4 ∧ lengthAfter .len259 = some 5 ∧
    lengthAfter .len260 = some 6 ∧ lengthAfter .len261 = some 7 ∧ lengthAfter .len262 = some 8 ∧
    lengthAfter .len263 = some 9 ∧ lengthAfter .len264 = some 10 ∧ lengthAfter (.len265 0) = some 11 ∧
    lengthAfter (.len265 1) = some 12 ∧ lengthAfter (.len268 1) = some 18 ∧ lengthAfter (.len269 0) = some 19 ∧
    lengthAfter (.len272 3) = some 34 ∧ lengthAfter (.len273 0) = some 35 ∧ lengthAfter (.len276 7) = some 66 ∧
    lengthAfter (.len277 0) = some 67 ∧ lengthAfter (.len280 15) = some 130 ∧ lengthAfter (.len281 0) = some 131 ∧
    lengthAfter (.len284 30) = some 257 ∧ lengthAfter .len285 = some 258 := by decide

/-- The distance after a distance symbol, with 32768 bytes produced and no byte to copy. -/
def distanceAfter (i : Instr) : Option Nat :=
  onNext (exec i { inflating [] with outLen := 32768 }) fun t => t.inf.mdist

/-- 95_test_vectors.md 2.9: the end points of the rows of the distance table. -/
theorem test_distance_symbols :
    distanceAfter .dist0 = some 1 ∧ distanceAfter .dist3 = some 4 ∧ distanceAfter (.dist4 0) = some 5 ∧
    distanceAfter (.dist4 1) = some 6 ∧ distanceAfter (.dist5 1) = some 8 ∧ distanceAfter (.dist6 0) = some 9 ∧
    distanceAfter (.dist8 7) = some 24 ∧ distanceAfter (.dist9 0) = some 25 ∧ distanceAfter (.dist15 63) = some 256 ∧
    distanceAfter (.dist16 0) = some 257 ∧ distanceAfter (.dist23 1023) = some 4096 ∧
    distanceAfter (.dist24 0) = some 4097 ∧ distanceAfter (.dist28 8191) = some 24576 ∧
    distanceAfter (.dist29 0) = some 24577 ∧ distanceAfter (.dist29 8191) = some 32768 := by decide

/-- V44: `MATCH 3,2` after "ab"; V41: the same after one byte. -/
theorem test_match :
    onNext (exec .dist1 (withInf (fun f => { f with mlen := 3 }) (withOut [0x61, 0x62] (inflating [])))) outCells =
      some [0x61, 0x62, 0x61, 0x62, 0x61] ∧
    onNext (exec .dist1 (withInf (fun f => { f with mlen := 3 }) (withOut [0x61] (inflating [])))) ending =
      some (.error, some .invalidBackReference) := by decide

/-- V26, V27, R258. -/
theorem test_no_meaning :
    onNext (exec .ll286 (inflating [])) ending = some (.error, some .invalidSymbol) ∧
    onNext (exec .dist30 (inflating [])) ending = some (.error, some .invalidSymbol) := by decide

/-- V39: the copy reads two bytes back; the copied bytes are read again. -/
theorem test_match_copy :
    onNext (exec .matchCopy (withInf (fun f => { f with mlen := 4, mdist := 2 }) (withOut [0x48, 0x69] State.reset)))
      outCells = some [0x48, 0x69, 0x48, 0x69, 0x48, 0x69] := by decide

/-! ## Compressor -/

/-- P6: the search at position 3 of "abcabcabc". -/
theorem test_longest_match :
    onNext (exec (.longestMatch 3 1) (withIn [0x61, 0x62, 0x63, 0x61, 0x62, 0x63, 0x61, 0x62, 0x63] State.reset))
      (fun t => (t.ret, t.dfl.examined)) = some (.pair 6 3, 1) ∧
    onNext (exec (.longestMatch 2 1) (withIn [0x61, 0x62, 0x63, 0x61, 0x62, 0x63, 0x61, 0x62, 0x63] State.reset))
      (fun t => (t.ret, t.dfl.examined)) = some (.pair 0 0, 0) := by decide

/-- V3, V4: the codes of 0x61 and 0x90 after the header bits. -/
theorem test_emit_lit :
    onNext (exec (.emitLit 0x61) { State.reset with wr := ⟨3, 3, false⟩ }) (fun t => (outCells t, t.wr)) =
      some ([0x4B], ⟨4, 3, false⟩) ∧
    onNext (exec (.emitLit 0x90) { State.reset with wr := ⟨3, 3, false⟩ }) (fun t => (outCells t, t.wr)) =
      some ([0x9B], ⟨0, 4, false⟩) := by decide

/-- V43: the 26 bits of `MATCH 258,32768`; P1: the 12 bits of `MATCH 6,3`. -/
theorem test_emit_match :
    onNext (exec (.emitMatch 258 32768) State.reset) (fun t => (outCells t, t.wr)) =
      some ([0xA3, 0xF7, 0xFF], ⟨3, 2, false⟩) ∧
    onNext (exec (.emitMatch 6 3) State.reset) (fun t => (outCells t, t.wr)) = some ([0x10], ⟨4, 4, false⟩) := by decide

/-- V2. -/
theorem test_emit_eob :
    onNext (exec .emitEob { State.reset with wr := ⟨3, 3, false⟩ }) (fun t => (outCells t, t.wr)) =
      some ([0x03], ⟨0, 2, false⟩) := by decide

/-- V51, V1. -/
theorem test_compress_0 :
    onNext (exec .compress0 (deflating 0 [0x48, 0x69])) outCells = some [0x01, 0x02, 0x00, 0xFD, 0xFF, 0x48, 0x69] ∧
    onNext (exec .compress0 (deflating 0 [])) outCells = some [0x01, 0x00, 0x00, 0xFF, 0xFF] := by decide

/-- V57, V62. -/
theorem test_compress_1_9 :
    onNext (exec .compress1To9 (deflating 1 [0x61, 0x61, 0x61, 0x61])) (fun t => (outCells t, t.status.state)) =
      some ([0x4B, 0x04, 0x02, 0x00], .done) ∧
    onNext (exec .compress1To9 { deflating 1 [0x61] with outMax := 2 }) ending =
      some (.error, some .outputOverflow) := by decide

/-! ## Commands and errors -/

/-- V111, V114, V115, V116: what the host's `CTRL` writes start. -/
theorem test_commands :
    onNext (step { State.reset with host := [.writeCtrl 0x13] }) (fun t => (t.status.state, ctrlOp t, t.dfl.level)) =
      some (.busy, true, 1) ∧
    onNext (step { State.reset with host := [.writeCtrl 0x01] }) (fun t => (t.status.state, ctrlOp t)) =
      some (.busy, false) ∧
    refusalOf (step { State.reset with host := [.writeCtrl 0xA3] }) = some .illegalLevel ∧
    onNext (step { State.reset with host := [.writeCtrl 0x12] }) (fun t => t.status.state) = some .idle := by decide

/-- V110, V113, V114, V118: `STATUS` after reset and after errors. -/
theorem test_status_words :
    readReg 1 State.reset = some 0 ∧ readReg 3 State.reset = some 0 ∧ readReg 4 State.reset = some 0xFFFFFFFF ∧
    onNext (step (inflating [0x07])) (readReg 1) = some (some 0x2B) ∧
    onNext (step (inflating [])) (readReg 1) = some (some 0x17) ∧
    onNext (exec (.lit0To143 0x61) { inflating [] with outMax := 0 }) (readReg 1) = some (some 0x7F) := by decide

/-- R453, R22, R24: which registers the host reads while a call runs. -/
theorem test_register_reads_while_busy :
    [0, 1, 2, 3, 4, 5].map (fun n => readReg n (inflating [0x07])) = [some 0, some 1, none, some 0, none, none] := by decide

/-- R152, R353: operands outside the ranges write as many bits as they name, here none and three. -/
theorem test_write_code_outside_ranges :
    onNext (exec (.writeCode 1 0) State.reset) (fun t => (t.outLen, t.wr.cnt)) = some (0, 0) ∧
    onNext (exec (.writeCode 8 3) State.reset) (fun t => (t.outLen, t.wr.cnt)) = some (0, 3) := by decide

/-- R172: an array that fails R170 has codes for its used symbols only. -/
theorem test_canonical_codes_of_invalid_array :
    onNext (exec (.canonicalCodes [1, 1, 1, 0]) State.reset)
      (fun t => match t.ret with | .codes cs => cs.map Option.isSome | _ => []) = some [true, true, true, false] := by decide

/-- R26: the first cell of `IN` that does not exist. -/
theorem test_no_such_cell :
    onNext (step { State.reset with host := [.writeIn 0xFFFFFFFF 0] }) State.inLen = none ∧
    onNext (step { State.reset with host := [.writeIn 0xFFFFFFFE 7] }) State.inBuf = some [(0xFFFFFFFE, 7)] := by decide

/-! ## Witnesses: concrete states and operands that meet the hypotheses of the statements -/

theorem tableV90_built : builtTable tableV90 := by show buildTable _ _ = some _; decide
theorem tableV96_built : builtTable tableV96 := by show buildTable _ _ = some _; decide
theorem clTable_built : builtTable clTable := by show buildTable _ _ = some _; decide
theorem tableFLL_built : builtTable tableFLL := by show buildTable _ _ = some _; decide
theorem tableFD_built : builtTable tableFD := by show buildTable _ _ = some _; decide

/-- A running decompress call with the cursor at `(byte, bit)`. -/
def inflatingAt (byte bit : Nat) (bytes : List Byte) : State :=
  { inflating bytes with rd := ⟨byte, bit, bytes.length⟩ }

/-- `s` with `cnt` bits waiting in the writer. -/
def withWr (acc : Byte) (cnt : Nat) (s : State) : State := { s with wr := ⟨acc, cnt, false⟩ }

/-- `s` with the bound `n` on the output. -/
def withMax (n : Nat) (s : State) : State := { s with outMax := BitVec.ofNat 32 n }

theorem witness_EncodeThenDecode :
    ctxOk (.ll tableFLL) ∧ (Instr.len284 30).wellFormed = true ∧
    encode (.ll tableFLL) (.len284 30) = some (streamOf [1, 1, 0, 0, 0, 1, 0, 0, 0, 1, 1, 1, 1]) ∧
    ∀ T x, ¬ ((Ctx.ll tableFLL) = .cl T true ∧ Instr.len284 30 = .clRep16 x) :=
  ⟨tableFLL_built, by decide, by decide, fun _ _ h => by cases h.1⟩

theorem witness_DecodeThenEncode :
    ctxOk (.cl clTable false) ∧ (Ctx.cl clTable false) ≠ .ctrl ∧
    decode (.cl clTable false) (streamOf [1, 1, 0, 0, 0, 1]) = .ok (.clRep16 0) 5 :=
  ⟨clTable_built, by decide, by decide⟩

theorem witness_TruncatedElementIsShort :
    ctxOk (.dist tableFD) ∧ encode (.dist tableFD) (.dist4 1) = some (streamOf [0, 0, 1, 0, 0, 1]) ∧
    5 < (streamOf [0, 0, 1, 0, 0, 1]).length ∧ ∀ T x, ¬ ((Ctx.dist tableFD) = .cl T true ∧ Instr.dist4 1 = .clRep16 x) :=
  ⟨tableFD_built, by decide, by decide, fun _ _ h => by cases h.1⟩

theorem witness_UsedSymbolsHaveEncodings :
    (builtTable tableFLL ∧ tableFLL.lens.getD 284 0 ≠ 0 ∧ llParts (.len284 30) = some (284, fieldBits 5 30)) ∧
    (builtTable tableFD ∧ tableFD.lens.getD 29 0 ≠ 0 ∧ distParts (.dist29 8191) = some (29, fieldBits 13 8191)) ∧
    (builtTable clTable ∧ clTable.lens.getD 18 0 ≠ 0 ∧ clParts (.clZero18 127) = some (18, fieldBits 7 127)) :=
  ⟨⟨tableFLL_built, by decide, by decide⟩, ⟨tableFD_built, by decide, by decide⟩, clTable_built, by decide, by decide⟩

theorem witness_StepRunsDecodedInstruction :
    ((inflating [0x07]).status.state = .busy ∧ ctrlOp (inflating [0x07]) = false ∧
      decode (fetchCtx (inflating [0x07])) (nextBits 32 (inflating [0x07])) = .ok (.blkReserved true) 3) ∧
    ((deflating 9 [0x61]).status.state = .busy ∧ ctrlOp (deflating 9 [0x61]) = true) ∧
    (State.reset.status.state ≠ .busy ∧
      ({ State.reset with host := [.writeCtrl 0x93] } : State).host = .writeCtrl 0x93 :: [] ∧
      decode .ctrl (fieldBits 8 (0x93 : BitVec 8).toNat) = .ok (.compress 9) 8) ∧
    (State.reset.status.state ≠ .busy ∧ State.reset.host = []) := by decide

theorem witness_FetchErrorsEndTheCall :
    ((inflating []).status.state = .busy ∧ ctrlOp (inflating []) = false ∧
      decode (fetchCtx (inflating [])) (nextBits 32 (inflating [])) = .short) ∧
    (let s := withInf (fun f => { f with state := .fixedHuffman, phase := .distance }) (inflating [0xFF])
     s.status.state = .busy ∧ ctrlOp s = false ∧ decode (fetchCtx s) (nextBits 32 s) = .noLeaf) ∧
    (let s := withInf (fun f => { f with state := .dynamicHuffman, phase := .codeLengths })
        { inflating [0x03] with tCL := clTable }
     s.status.state = .busy ∧ ctrlOp s = false ∧ decode (fetchCtx s) (nextBits 32 s) = .noPrevious) := by decide

theorem witness_ReadBitsReturnsNextBits :
    16 ≤ 8 * ((inflating [1, 2]).rd.len - (inflating [1, 2]).rd.byte) - (inflating [1, 2]).rd.bit ∧
    8 * ((inflatingAt 0 1 [1, 2]).rd.len - (inflatingAt 0 1 [1, 2]).rd.byte) - (inflatingAt 0 1 [1, 2]).rd.bit < 16 := by
  decide

theorem witness_ReadBitsSplits :
    let s := inflating [1, 2]
    1 ≤ 15 ∧ 1 ≤ 1 ∧ 15 + 1 ≤ 16 ∧ 15 + 1 ≤ 8 * (s.rd.len - s.rd.byte) - s.rd.bit := by decide

theorem witness_ReaderAlignAndHasData :
    readerOk (inflatingAt 0 7 [1]) ∧ (inflatingAt 0 7 [1]).rd.byte < (inflatingAt 0 7 [1]).rd.len ∧
    readerOk (inflatingAt 1 0 [1]) ∧ ¬ (inflatingAt 1 0 [1]).rd.byte < (inflatingAt 1 0 [1]).rd.len := by decide

theorem witness_ReadByteIsReadBitsEight :
    ((inflating [1]).rd.bit = 0 ∧ (inflating [1]).rd.byte < (inflating [1]).rd.len) ∧
    ((inflatingAt 1 0 [1]).rd.bit = 0 ∧ (inflatingAt 1 0 [1]).rd.len ≤ (inflatingAt 1 0 [1]).rd.byte) := by decide

theorem witness_OutAppendWritesOneByte :
    (let s := withMax 2 (withOut [1] State.reset); s.outLen.toNat < s.outMax.toNat ∧ s.outBuf.wf = true) ∧
    (let s := withMax 1 (withOut [1] State.reset); s.outMax.toNat ≤ s.outLen.toNat) := by decide

theorem witness_WriteBitsAppendsField : writerReady 16 (withMax 3 (withOut [1] (withWr 127 7 State.reset))) := by decide

theorem witness_WriteCodeAndByteAppend :
    writerReady 15 (withMax 2 (withWr 127 7 State.reset)) ∧ (0x7FFF : Nat) < 2 ^ 15 ∧
    ((2 : Nat) ^ 3 ≤ 8 ∧ writerReady 3 (withMax 0 State.reset)) ∧ ((15 : Nat) < 16 ∧ writerReady 16 (withMax 2 State.reset)) ∧
    writerReady 0 (withMax 0 State.reset) ∧
    writerReady 8 (withMax 1 State.reset) ∧ (withMax 1 State.reset).wr.cnt = 0 := by decide

theorem witness_WriterOverflowEndsCall :
    let s := withMax 1 (withWr 1 1 (withOut [1] (deflating 1 [])))
    s.status.state = .busy ∧ s.wr.finished = false ∧ writerOk s ∧ s.outLen ≤ s.outMax ∧
    ¬ roomFor ((s.wr.cnt + 7) / 8) s ∧ s.wr.cnt ≠ 0 ∧ ¬ roomFor 1 s := by decide

theorem witness_WriterAlignAndFinish :
    (let s := withMax 0 State.reset; s.wr.finished = false ∧ writerOk s ∧ s.wr.cnt = 0) ∧
    (let s := withMax 1 (withWr 127 7 State.reset); s.wr.finished = false ∧ writerOk s ∧ s.wr.cnt ≠ 0 ∧ roomFor 1 s) := by
  decide

theorem witness_WriterDeadAfterFinish :
    ({ State.reset with wr := ⟨0, 0, true⟩ } : State).wr.finished = true := by decide

theorem witness_ReaderMirrorsWriter :
    (∀ i ∈ [BitItem.field 5 3, .align, .field 0xFFFF 16, .field 0 1], i.ok) ∧ (withMax 4 State.reset).wr = ⟨0, 0, false⟩ ∧
    (withMax 4 State.reset).outLen = 0 ∧
    (itemsEnd 0 [.field 5 3, .align, .field 0xFFFF 16, .field 0 1] + 7) / 8 ≤ (withMax 4 State.reset).outMax.toNat := by
  refine ⟨?_, by decide, by decide, by decide⟩
  simp [BitItem.ok]

theorem witness_BuildFromLengthsChecksKraft :
    lengthsBuild [2, 1, 3, 3] [0, 3] ∧ ¬ lengthsBuild [1, 1, 1] [] ∧ ¬ lengthsBuild [0, 1] [0] ∧
    lengthsBuild (List.replicate 16 15) [] ∧ ¬ lengthsBuild [16] [] := by decide

theorem witness_CanonicalCodesFollowTheOrder :
    lengthsBuild [2, 1, 3, 3, 0] [] ∧ [2, 1, 3, 3, 0][4]? = some 0 ∧ [2, 1, 3, 3, 0][3]? = some 3 ∧
    (canonicalCodes [2, 1, 3, 3, 0])[3]? = some (some 7) ∧ (canonicalCodes [2, 1, 3, 3, 0])[2]? = some (some 6) ∧
    ¬ lengthsBuild [1, 1, 1] [] ∧ ¬ lengthsBuild [16] [] := by decide

/-- Bits 111 with the table of V90, and nothing more. -/
def decodingV90 : State := { withIn [0xFF] State.reset with rd := ⟨0, 5, 1⟩, tCL := tableV90 }

theorem witness_DecodeSymbolReturnsTheSymbol :
    builtTable (tableOf (.block .cl) decodingV90) ∧ (tableOf (.block .cl) decodingV90).lens[3]? = some 3 ∧
    (tableOf (.block .cl) decodingV90).code[3]? = some (some 7) ∧
    3 ≤ 8 * (decodingV90.rd.len - decodingV90.rd.byte) - decodingV90.rd.bit ∧
    streamBits decodingV90 (8 * decodingV90.rd.byte + decodingV90.rd.bit) 3 = codeBits 3 7 :=
  ⟨tableV90_built, by decide, by decide, by decide, by decide⟩

/-- Bits 11 with the table of V90 (cut short), and with the table of V96 (dead at the second bit). -/
def cutV90 : State := { withIn [0xFF] State.reset with rd := ⟨0, 6, 1⟩, tCL := tableV90, tD := tableV96 }

theorem witness_DecodeSymbolFailures :
    (tableOf (.block .ll) cutV90).valid = false ∧
    (builtTable (tableOf (.block .cl) cutV90) ∧ (tableOf (.block .cl) cutV90).lens[3]? = some 3 ∧
      (tableOf (.block .cl) cutV90).code[3]? = some (some 7) ∧ 2 < 3 ∧
      streamBits cutV90 (8 * cutV90.rd.byte + cutV90.rd.bit) 2 = (codeBits 3 7).take 2 ∧
      8 * (cutV90.rd.len - cutV90.rd.byte) - cutV90.rd.bit = 2) ∧
    (builtTable (tableOf (.block .d) cutV90) ∧ (tableOf (.block .d) cutV90).lens[2]? = some 2 ∧
      (tableOf (.block .d) cutV90).code[2]? = some (some 2) ∧ 1 < 2 ∧
      streamBits cutV90 (8 * cutV90.rd.byte + cutV90.rd.bit) 1 = (codeBits 2 2).take 1 ∧
      1 < 8 * (cutV90.rd.len - cutV90.rd.byte) - cutV90.rd.bit ∧
      ∀ p ∈ (tableOf (.block .d) cutV90).lens.zip (tableOf (.block .d) cutV90).code, ∀ c ∈ p.2,
        (codeBits p.1 c).take 2 ≠ streamBits cutV90 (8 * cutV90.rd.byte + cutV90.rd.bit) 2) :=
  ⟨by decide, ⟨tableV90_built, by decide, by decide, by decide, by decide, by decide⟩, tableV96_built, by decide, by decide,
    by decide, by decide, by decide, by decide⟩

theorem witness_BuildCodesLengthsAndCodes :
    (1 ≤ 2 ∧ 2 ≤ 15 ∧ (([1, 2, 3, 4] : List Len).filter fun f => f != 0).length ≤ 2 ^ 2) ∧
    ((([0, 7, 0] : List Len).filter fun f => f != 0).length = 1) ∧
    2 ^ 1 < (([1, 2, 3] : List Len).filter fun f => f != 0).length := by decide

theorem witness_StoredBlockCopiesItsBytes :
    let s := withMax 2 (inflating [0x48, 0x69])
    s.status.state = .busy ∧ (2 : BitVec 16).toNat + (0xFFFD : BitVec 16).toNat = 65535 ∧
    (2 : BitVec 16).toNat ≤ s.rd.len - s.rd.byte ∧ roomFor (2 : BitVec 16).toNat s := by decide

theorem witness_StoredBlockFailures :
    ((inflating []).status.state = .busy ∧ (10 : BitVec 16).toNat + (0xFFF4 : BitVec 16).toNat ≠ 65535) ∧
    (let s := withMax 1 (inflating [0x48])
     (2 : BitVec 16).toNat + (0xFFFD : BitVec 16).toNat = 65535 ∧ s.rd.len - s.rd.byte < (2 : BitVec 16).toNat ∧
     roomFor (s.rd.len - s.rd.byte) s) ∧
    (let s := withMax 1 (inflating [0x48, 0x69])
     s.outLen ≤ s.outMax ∧ s.outMax.toNat - s.outLen.toNat < (2 : BitVec 16).toNat ∧
     s.outMax.toNat - s.outLen.toNat < s.rd.len - s.rd.byte) := by decide

/-- A dynamic header with one code-length field to come; the fields so far give symbols 16, 17 and 18 the length `v`. -/
def lastField (v : BitVec 3) : State :=
  withInf (fun f => { f with k := 3, hclen := 0, cll := ((f.cll.set 16 v).set 17 v).set 18 v }) (inflating [])

theorem witness_DynamicHeaderFields :
    (let s := withInf (fun f => { f with hclen := 15, k := 17 }) (inflating [])
     s.inf.k < 19 ∧ s.inf.k + 1 < s.inf.hclen.toNat + 4) ∧
    ((lastField 2).inf.k < 19 ∧ (lastField 2).inf.k + 1 = (lastField 2).inf.hclen.toNat + 4 ∧
      (buildTable (((lastField 2).inf.cll.set 0 2).toList.map BitVec.toNat) []).isSome) ∧
    ((lastField 1).inf.k + 1 = (lastField 1).inf.hclen.toNat + 4 ∧ (lastField 1).status.state = .busy ∧
      buildTable (((lastField 1).inf.cll.set 0 1).toList.map BitVec.toNat) [] = none) := by decide

theorem witness_CodeLengthsAreStored :
    (let s := withInf (fun f => { f with i := 0 }) (inflating [])
     clEffect s (.clZero18 127) = some (0, 138) ∧ s.inf.i + 138 < s.inf.hlit.toNat + 257 + (s.inf.hdist.toNat + 1)) ∧
    (let s := withInf (fun f => { f with i := 254, L := f.L.set 253 3 }) (inflating [])
     clEffect s (.clRep16 0) = some (3, 3) ∧ s.inf.i + 3 < s.inf.hlit.toNat + 257 + (s.inf.hdist.toNat + 1)) := by decide

/-- The last of 258 lengths is to come; symbol 256 has length 1. -/
def lastLength : State := withInf (fun f => { f with i := 257, L := f.L.set 256 1 }) (inflating [])

theorem witness_LastCodeLengthBuildsTables :
    (clEffect lastLength (.clLen 0) = some (0, 1) ∧
      lastLength.inf.i + 1 = lastLength.inf.hlit.toNat + 257 + (lastLength.inf.hdist.toNat + 1) ∧
      (buildTable ((lastLength.inf.L.toList.take (lastLength.inf.hlit.toNat + 257)).map BitVec.toNat) [256]).isSome ∧
      (buildTable (((lastLength.inf.L.toList.drop (lastLength.inf.hlit.toNat + 257)).take
        (lastLength.inf.hdist.toNat + 1)).map BitVec.toNat) []).isSome) ∧
    (let s := withInf (fun f => { f with i := 257 }) (inflating [])
     s.status.state = .busy ∧ clEffect s (.clLen 0) = some (0, 1) ∧
     s.inf.i + 1 = s.inf.hlit.toNat + 257 + (s.inf.hdist.toNat + 1) ∧
     buildTable ((s.inf.L.toList.take (s.inf.hlit.toNat + 257)).map BitVec.toNat) [256] = none) := by decide

theorem witness_CodeLengthRepeatFailures :
    (let s := withInf (fun f => { f with i := 248 }) (inflating [])
     s.status.state = .busy ∧ clEffect s (.clZero18 0) = some (0, 11) ∧
     s.inf.hlit.toNat + 257 + (s.inf.hdist.toNat + 1) < s.inf.i + 11) ∧
    ((inflating []).status.state = .busy ∧ (inflating []).inf.i = 0) := by decide

theorem witness_LiteralsAppendTheirByte :
    roomFor 1 (withMax 1 (inflating [])) ∧ ¬ roomFor 1 (withMax 0 (inflating [])) ∧ (143 : Byte).toNat ≤ 143 ∧
    144 ≤ (144 : Byte).toNat := by decide

theorem witness_EndOfBlockEndsBlock :
    (let s := withInf (fun f => { f with final := true }) (inflating []); s.status.state = .busy ∧ s.inf.final = true) ∧
    ((inflating []).status.state = .busy ∧ (inflating []).inf.final = false) := by decide

/-- For `distanceMeaning` (the farthest distance and the longest match) and `distanceFailure` (one byte short of either). -/
theorem witness_DistanceSymbols :
    (let s := withInf (fun f => { f with mlen := 258 }) (withMax 33026 { inflating [] with outLen := 32768 })
     32768 ≤ s.outLen.toNat ∧ roomFor s.inf.mlen s) ∧
    (let s := { inflating [] with outLen := 32767 }; s.status.state = .busy ∧ s.outLen.toNat < 32768) ∧
    (let s := withInf (fun f => { f with mlen := 258 }) (withMax 33025 { inflating [] with outLen := 32768 })
     s.status.state = .busy ∧ 32768 ≤ s.outLen.toNat ∧ s.outLen ≤ s.outMax ∧ ¬ roomFor s.inf.mlen s) := by decide

theorem witness_MeaninglessEncodingsEndTheCall : (inflating []).status.state = .busy := by decide

theorem witness_MatchCopyClosedForm :
    (let s := withInf (fun f => { f with mlen := 4, mdist := 2 }) (withMax 6 (withOut [0x48, 0x69] State.reset))
     1 ≤ s.inf.mdist ∧ s.inf.mdist ≤ s.outLen.toNat ∧ roomFor s.inf.mlen s) ∧
    (let s := withInf (fun f => { f with mlen := 4, mdist := 3 }) (withOut [0x48, 0x69] State.reset)
     s.outLen.toNat < s.inf.mdist) ∧
    (let s := withInf (fun f => { f with mlen := 4, mdist := 0 }) (withMax 6 (withOut [0x48, 0x69] State.reset))
     s.inf.mdist = 0 ∧ roomFor s.inf.mlen s) := by decide

theorem witness_AppendAtTheBoundOverflows :
    (let s := withMax 1 (withOut [1] (inflating [])); s.status.state = .busy ∧ s.outLen = s.outMax) ∧
    (let s := withInf (fun f => { f with mlen := 3, mdist := 1 }) (withMax 3 (withOut [1] (inflating [])))
     s.status.state = .busy ∧ s.outLen ≤ s.outMax ∧ s.inf.mdist ≤ s.outLen.toNat ∧ ¬ roomFor s.inf.mlen s) := by decide

/-- Levels 1 and 9 have a CHAIN. -/
theorem witness_LongestMatchIsValid : (1 ≤ 1 ∧ 1 ≤ 9) ∧ (1 ≤ 9 ∧ 9 ≤ 9) := by decide

/-- "aaaa": the match of length 3 and distance 1 at position 1. -/
theorem witness_LongestMatchIsLongestAndNearest :
    (onNext (exec (.longestMatch 1 9) (withIn [0x61, 0x61, 0x61, 0x61] State.reset)) fun t => t.ret) = some (.pair 3 1) ∧
    (1 ≤ 1 ∧ 1 ≤ 9 ∧ 9 ≤ 9) ∧
    validMatch (inBytes (withIn [0x61, 0x61, 0x61, 0x61] State.reset) 0 4) 1 3 1 := by
  refine ⟨by decide, by decide, by decide, by decide, by decide, by decide, fun k hk => ?_⟩
  have : k = 0 ∨ k = 1 ∨ k = 2 := by omega
  rcases this with rfl | rfl | rfl <;> decide

theorem witness_EmissionWritesTheCodes :
    ((143 : Byte).toNat ≤ 143 ∧ writerReady 8 (withMax 1 State.reset)) ∧
    (144 ≤ (144 : Byte).toNat ∧ writerReady 9 (withMax 2 (withWr 127 7 State.reset))) ∧
    (3 ≤ 258 ∧ 258 ≤ 258 ∧ 1 ≤ 32768 ∧ 32768 ≤ 32768 ∧
      writerReady (tokenBits (.copy 258 32768)).length (withMax 3 State.reset)) ∧
    (2 < 3 ∧ 258 < 259 ∧ 32768 < 32769 ∧ writerReady 31 (withMax 4 State.reset)) ∧
    writerReady 7 (withMax 1 (withWr 1 1 State.reset)) := by decide

theorem witness_InverseTablesAreInverse : (3 ≤ 258 ∧ 258 ≤ 258) ∧ (1 ≤ 32768 ∧ 32768 ≤ 32768) := by decide

theorem witness_CompressLevelZeroStores :
    (let s := withMax 5 (deflating 0 [])
     s.status.state = .busy ∧ s.wr = ⟨0, 0, false⟩ ∧ s.outLen = 0 ∧
     s.inLen.toNat + 5 * max 1 ((s.inLen.toNat + 65534) / 65535) ≤ s.outMax.toNat) ∧
    (let s := withMax 65546 { deflating 0 [] with inLen := 65536 }
     s.inLen.toNat + 5 * max 1 ((s.inLen.toNat + 65534) / 65535) ≤ s.outMax.toNat) := by decide

theorem witness_CompressLevelsOneToNine :
    let s := withMax 4 (deflating 9 [0x61])
    s.status.state = .busy ∧ s.wr = ⟨0, 0, false⟩ ∧ s.outLen = 0 ∧ 1 ≤ s.dfl.level.toNat ∧ s.dfl.level.toNat ≤ 9 ∧
    (3 + 9 * s.inLen.toNat + 7 + 7) / 8 ≤ s.outMax.toNat := by decide

/-- Tables that are not valid meet the invariant. -/
theorem tableOk_of_invalid {T : HuffTable} (h : T.valid = false) : tableOk T := by
  intro h'
  rw [h] at h'
  cases h'

/-- The invariant at the start of a call. -/
theorem inv_of_start {s : State} (hm : memoryOk s) (hs : statusOk s) (hw : widthsOk s) (hle : s.outLen ≤ s.outMax)
    (hr : readerOk s ∧ s.rd.len = s.inLen.toNat) (hp : phaseOk s) (hc : s.tCL.valid = false) (hl : s.tLL.valid = false)
    (ht : s.tD.valid = false) (hd : ctrlOp s = true → deflateOk s) : Inv s :=
  ⟨hm, hs, hw, fun _ => ⟨hle, fun _ => ⟨hr.1, hr.2, hp, tableOk_of_invalid hc, tableOk_of_invalid hl,
    tableOk_of_invalid ht⟩, hd⟩⟩

theorem witness_CompressOnlyOverflows :
    Inv (deflating 9 [0x61]) ∧ (deflating 9 [0x61]).status.state = .busy ∧ ctrlOp (deflating 9 [0x61]) = true :=
  ⟨inv_of_start (by decide) ⟨by decide, rfl⟩ (by decide) (by decide) (by decide) rfl rfl rfl rfl (by decide), by decide, by decide⟩

/-- Also for `RunningCallNeverStops`, `DecompressCallEnds` and `EngineStepFrame`: a running decompress call. -/
theorem witness_StepKeepsInvariant :
    Inv (inflating [0x03, 0x00]) ∧ (inflating [0x03, 0x00]).status.state = .busy ∧ ctrlOp (inflating [0x03, 0x00]) = false ∧
    step (inflating [0x03, 0x00]) = .next { inflating [0x03, 0x00] with
      rd := ⟨0, 3, 2⟩, status := ⟨.busy, .none, none, true⟩
      inf := { Inflate.reset with final := true, btype := 1, state := .fixedHuffman, phase := .body } } :=
  ⟨inv_of_start (by decide) ⟨by decide, rfl⟩ (by decide) (by decide) (by decide) rfl rfl rfl rfl (by decide), by decide, by decide, rfl⟩

theorem witness_AllowedOutputsRoundTrip :
    allowedOutput [0x61] 1 [0x4B, 0x04, 0x00] ∧ (withMax 1 (withIn [0x4B, 0x04, 0x00] State.reset)).inLen.toNat = 3 ∧
    inBytes (withMax 1 (withIn [0x4B, 0x04, 0x00] State.reset)) 0 3 = [0x4B, 0x04, 0x00] ∧
    1 ≤ (withMax 1 (withIn [0x4B, 0x04, 0x00] State.reset)).outMax.toNat ∧
    exec (.decompress 0) (withMax 1 (withIn [0x4B, 0x04, 0x00] State.reset)) =
      .next (startDecompress 0 (withMax 1 (withIn [0x4B, 0x04, 0x00] State.reset))) := by
  refine ⟨⟨[.fixed [.lit 0x61]], by decide, fun h => absurd h (by decide), ⟨1, by decide, by decide, rfl, rfl⟩, by decide⟩, by decide, by decide,
    by decide, rfl⟩

theorem witness_CommandsStartFresh :
    State.reset.status.state ≠ .busy ∧ (9 : BitVec 4).toNat ≤ 9 ∧ 9 < (10 : BitVec 4).toNat ∧
    (inflating []).status.state = .busy := by decide

/-- At rest with a result of two bytes, and while a call runs. -/
theorem witness_ResetValues :
    (let s := withOut [0x48, 0x69] State.reset; s.status.state ≠ .busy ∧ 1 < s.outLen.toNat) ∧
    (inflating []).status.state = .busy := by decide

theorem witness_AbortReportsTheCause : (inflating []).status.state = .busy := by decide

theorem witness_HostMovesTakeEffect :
    State.reset.status.state ≠ .busy ∧ 0xFFFFFFFE < 2 ^ Config.lenw - 1 ∧ 2 ^ Config.lenw - 1 ≤ 0xFFFFFFFF ∧
    (0xF2 : BitVec 8).getLsbD 0 = false ∧ (0xA3 : BitVec 8).getLsbD 0 = true ∧ (0xA3 : BitVec 8).getLsbD 1 = true ∧
    9 < (0xA3 : BitVec 8).toNat / 16 := by decide

/-- Two blocks at rest with the same input and bound, one of them after a call that left other registers. -/
theorem witness_DecompressDependsOnInputAlone :
    let s1 := withIn [0x03, 0x00] State.reset
    let s2 := { withOut [1, 2] (withInf (fun f => { f with mlen := 7 }) s1) with tLL := tableV90 }
    s1.inLen = s2.inLen ∧ s1.outMax = s2.outMax ∧ (∀ a, a < s1.inLen.toNat → inByte s1 a = inByte s2 a) ∧
    exec (.decompress 0) s1 = .next (startDecompress 0 s1) ∧ exec (.decompress 5) s2 = .next (startDecompress 5 s2) :=
  ⟨rfl, rfl, fun _ _ => rfl, rfl, rfl⟩

end Sys2Proof.Tests
end

section
/-! The fetched bits one by one, and the obligation on what a fetch sees (O8). -/

namespace Sys2Proof.Machine

/-- R8, R29: bit `k` of a run of `n` stream bits from position `p` on is stream bit `p + k`; a run has no bit from `n` on. -/
theorem getElem?_streamBits (s : State) (p n k : Nat) :
    (streamBits s p n)[k]? = if k < n then some (streamBit s (p + k)) else none := by
  rw [streamBits, List.getElem?_map]
  split
  · next hk => rw [List.getElem?_range hk, Option.map_some]
  · next hk => rw [List.getElem?_eq_none (by simpa using hk), Option.map_none]

/-- R130: bit `k` of what a fetch of `n` bits sees is there while `k` is below `n` and below the number of unread bits. -/
theorem getElem?_nextBits (n k : Nat) (s : State) :
    (nextBits n s)[k]? = if k < n ∧ k < unreadBits s then some (streamBit s (streamPos s + k)) else none := by
  simp only [nextBits, getElem?_streamBits, Nat.lt_min]

/-- Settles O8: the fetched bits one by one, with the cursor's stream position and the number of unread bits written out. -/
theorem fetchReadsStreamBits : Obligations.FetchReadsStreamBits :=
  fun n k s => getElem?_nextBits n k s

end Sys2Proof.Machine
end

section
/-! Every value of a `CTRL` write decoded (R21, R119, R385): the obligation O2. -/

namespace Sys2Proof.Machine

/-- R21 `LEVEL`: bits 7 to 4 of the value written. -/
theorem ctrl_level (v : BitVec 8) :
    BitVec.ofNat 4 (bitsToNat (fieldBits 4 (v.toNat / 2 / 2 / 2 / 2))) = v.extractLsb' 4 4 := by
  have h : v.toNat / 2 / 2 / 2 / 2 = v.toNat / 2 ^ 4 := by omega
  rw [h, bitsToNat_fieldBits_of_lt (by have := v.isLt; omega), BitVec.extractLsb', Nat.shiftRight_eq_div_pow]

/-- Settles O2: the eight bits of the value are START, OP, two that are ignored, and LEVEL. -/
theorem controlWritesDecode : Obligations.ControlWritesDecode := by
  intro v
  have hlevel : (v.extractLsb' 4 4).toNat = v.toNat / 16 := by
    have := v.isLt
    rw [BitVec.extractLsb'_toNat, Nat.shiftRight_eq_div_pow]; omega
  have hop : (v.toNat / 2).testBit 0 = v.getLsbD 1 := (Nat.testBit_succ v.toNat 0).symm
  calc decode .ctrl (fieldBits 8 v.toNat)
      = ctrlInstr (v.toNat.testBit 0) ((v.toNat / 2).testBit 0)
          (BitVec.ofNat 4 (bitsToNat (fieldBits 4 (v.toNat / 2 / 2 / 2 / 2)))) := rfl
    _ = ctrlInstr (v.getLsbD 0) (v.getLsbD 1) (v.extractLsb' 4 4) := by rw [ctrl_level, hop]; rfl
    _ = _ := by
      rw [ctrlInstr, hlevel]
      cases v.getLsbD 0 <;> cases v.getLsbD 1 <;> rfl

end Sys2Proof.Machine
end
section
/-! What a step of a running call may have done to the block at any moment (`Ran`), and the rules by which an operation of an
engine leads from one such moment to another. An operation that raises has at least left alone what no engine writes (`Kept`); the
abort of R410 ends it. -/

namespace Sys2Proof.Machine

/-- From `s` to `t` the block kept what no engine writes, and `STATUS` but for `FIXED_READY`, which was not cleared. -/
structure Kept (s t : State) : Prop where
  inBuf : t.inBuf = s.inBuf
  inLen : t.inLen = s.inLen
  outMax : t.outMax = s.outMax
  ctrl : t.ctrl = s.ctrl
  enc : t.enc = s.enc
  host : t.host = s.host
  status : t.status = { s.status with fixedReady := t.status.fixedReady }
  fixedReady : s.status.fixedReady = true → t.status.fixedReady = true

/-- What holds at every moment `t` of a step that began at `s`, while a call runs: `OUT` has at most grown, and memory and widths are
in form. -/
structure Ran (s t : State) : Prop extends Kept s t where
  outLen_le : s.outLen.toNat ≤ t.outLen.toNat
  bytes : ∀ a, a < s.outLen.toNat → outByte t a = outByte s a
  cells : t.outBuf.map Prod.fst = List.range t.outLen.toNat
  room : t.outLen ≤ t.outMax
  widths : widthsOk t

theorem Ran.start {s : State} (hi : Inv s) (hb : s.status.state = .busy) : Ran s s := by
  obtain ⟨⟨-, -, hcells⟩, -, hwidths, hbusy⟩ := hi
  exact ⟨⟨rfl, rfl, rfl, rfl, rfl, rfl, rfl, id⟩, le_refl _, fun _ _ => rfl, hcells, (hbusy hb).1, hwidths⟩

/-- The invariant while a decompress call runs. -/
theorem Inv.inflateOk {s : State} (hi : Inv s) (hb : s.status.state = .busy) (hc : ctrlOp s = false) : inflateOk s :=
  (hi.2.2.2 hb).2.1 hc

/-- The invariant while a compress call runs. -/
theorem Inv.deflateOk {s : State} (hi : Inv s) (hb : s.status.state = .busy) (hc : ctrlOp s = true) : deflateOk s :=
  (hi.2.2.2 hb).2.2 hc

theorem Kept.state {s t : State} (h : Kept s t) : t.status.state = s.status.state := by rw [h.status]

theorem Kept.inputLength {s t : State} (h : Kept s t) : inputLength t = inputLength s := congrArg BitVec.toNat h.inLen

/-- A writer operation keeps what no engine writes. -/
theorem Kept.touches {s t u : State} (h : Kept s t) (hu : Touches t u) : Kept s u := by
  rw [hu]; exact { h with }

/-- R66: an append with room. -/
theorem Ran.append {s t : State} (h : Ran s t) (b : Byte) (hr : t.outLen.toNat < t.outMax.toNat) :
    Ran s { t with outBuf := t.outBuf.write t.outLen.toNat b, outLen := t.outLen + 1 } := by
  have hlen := outLen_succ_toNat hr
  have hle := h.outLen_le
  refine { h with outLen_le := ?_, bytes := fun a ha => ?_, cells := ?_, room := ?_ }
  · show _ ≤ (t.outLen + 1).toNat
    omega
  · rw [outByte_write t { t with outBuf := _, outLen := _ } b rfl rfl, if_neg (by omega)]
    exact h.bytes a ha
  · show (t.outBuf.write t.outLen.toNat b).map Prod.fst = List.range (t.outLen + 1).toNat
    rw [hlen, Memory.map_fst_write_end _ _ _ (mem_of_map_fst_eq_range h.cells), h.cells, List.range_succ]
  · show t.outLen + 1 ≤ t.outMax
    rw [BitVec.le_def]; omega

/-- R38: the latch of the static tables. -/
theorem Ran.setFixedReady {s t : State} (h : Ran s t) : Ran s (setFixedReady t) :=
  { h with status := by rw [setFixedReady_status, h.status], fixedReady := fun _ => rfl }

/-- Bits written. -/
theorem Ran.wrote {s t u : State} {bits : List Bool} (h : Ran s t) (ht : writerOk t) (hw : Wrote bits t u)
    (hu : Touches t u) : Ran s u where
  toKept := h.toKept.touches hu
  outLen_le := h.outLen_le.trans (hw.outLen_le ht)
  bytes a ha := (hw.frame a (Or.inl (ha.trans_le h.outLen_le))).trans (h.bytes a ha)
  cells := hw.cells h.cells
  room := hw.room h.room
  widths := by
    obtain ⟨h1, h2, h3, -, hrest⟩ := h.widths
    have hcnt := hw.form.1
    rw [hu]
    exact ⟨h1, h2, h3, by show u.wr.cnt < _; omega, hrest⟩

/-! ## Where an operation leads -/

/-- An operation that a step from `s` runs leads to `Q`: it completes with `Q`, or it raises, or it is refused. -/
def Res.Leads (s : State) (Q : State → Prop) : Res Unit → Prop
  | .ok _ t => Q t
  | .raise _ t => Kept s t
  | .refuse _ => True

theorem Res.Leads.bind {s : State} {Q Q' : State → Prop} {r : Res Unit} {f : Unit → State → Res Unit} (h : r.Leads s Q)
    (hf : ∀ t, Q t → (f () t).Leads s Q') : (r.bind f).Leads s Q' := by
  cases r with
  | ok _ t => exact hf t h
  | raise c t => exact h
  | refuse w => trivial

theorem Res.Leads.mono {s : State} {Q Q' : State → Prop} {r : Res Unit} (h : r.Leads s Q) (hQ : ∀ t, Q t → Q' t) :
    r.Leads s Q' := by
  cases r with
  | ok _ t => exact hQ t h
  | raise c t => exact h
  | refuse w => trivial

/-- A loop keeps what each of its passes keeps. -/
theorem Res.Leads.each {α : Type} {s : State} {P : State → Prop} {f : α → State → Res Unit}
    (hf : ∀ a t, P t → (f a t).Leads s P) : ∀ (l : List α) (t : State), P t → (Res.each f l t).Leads s P
  | [], _, h => h
  | a :: l, t, h => (hf a t h).bind fun u hu => Res.Leads.each hf l u hu

/-- The next state of an instruction: the one its operation completes with, or the abort of one in which it raised. -/
theorem Res.Leads.toNext {s t : State} {Q : State → Prop} {r : Res Unit} (h : r.Leads s Q) (hb : s.status.state = .busy)
    (ht : r.toNext = .next t) : Q t ∨ ∃ c u, Kept s u ∧ t = abort c u := by
  cases r with
  | ok _ u => cases ht; exact Or.inl h
  | raise c u => cases ht; exact Or.inr ⟨c, u, h, raiseError_of_busy c u (h.state.trans hb)⟩
  | refuse w => cases ht

/-- R66: an append leads where the append with room does. -/
theorem appendByte_leads {s t : State} {Q : State → Prop} (h : Kept s t) (b : Byte)
    (hQ : t.outLen.toNat < t.outMax.toNat →
      Q { t with outBuf := t.outBuf.write t.outLen.toNat b, outLen := t.outLen + 1 }) :
    (appendByte b t).Leads s Q := by
  rw [appendByte_eq]
  split
  · next hr => exact hQ hr
  · exact h

/-! ## The end of a call -/

/-- R388: a step from `s` that ended the call with success. -/
def Ended (s t : State) : Prop := ∃ u, Ran s u ∧ t = { u with status := { u.status with state := .done } }

theorem completeCall_ended {s t : State} (h : Ran s t) (hb : s.status.state = .busy) : Ended s (completeCall t) :=
  ⟨t, h, by rw [completeCall, if_pos (h.state.trans hb)]⟩

end Sys2Proof.Machine
end

section
/-! The Compressor's step: every writer operation, emission and loop leads on, and the parse loop keeps its registers within their
widths (R344 to R355). -/

namespace Sys2Proof.Machine

/-- A moment of the Compressor's step at which the writer takes bits. -/
structure Writing (s t : State) : Prop extends Ran s t where
  form : writerOk t
  unfinished : t.wr.finished = false

/-- `f` writes, and leaves the Compressor's registers alone. -/
def Emits (s : State) (f : State → Res Unit) : Prop :=
  ∀ t, Writing s t → (f t).Leads s fun u => Writing s u ∧ u.dfl = t.dfl

/-- R156: an operation that writes, with room or without. -/
theorem Writes.emits {bits : Nat → List Bool} {f : State → Res Unit} (hf : Writes bits f) (s : State) : Emits s f := by
  intro t h
  obtain ⟨hroom, hnone⟩ := hf t h.unfinished h.form
  by_cases hr : roomFor ((t.wr.cnt + (bits (writtenCount t)).length) / 8) t
  · obtain ⟨u, hu, hw, ht⟩ := hroom hr
    rw [hu]
    exact ⟨⟨h.toRan.wrote h.form hw ht, hw.form, hw.finished.trans h.unfinished⟩, ht.dfl⟩
  · obtain ⟨u, hu, ht⟩ := hnone hr h.room
    rw [hu]
    exact h.toKept.touches ht

theorem emits_nothing (s : State) : Emits s fun t => .ok () t := fun _ h => ⟨h, rfl⟩

theorem Emits.bind {s : State} {f g : State → Res Unit} (hf : Emits s f) (hg : Emits s g) :
    Emits s fun t => (f t).bind fun _ u => g u :=
  fun t h => (hf t h).bind fun _ hu => (hg _ hu.1).mono fun _ hv => ⟨hv.1, hv.2.trans hu.2⟩

theorem Emits.each {α : Type} {s : State} {f : α → State → Res Unit} (hf : ∀ a, Emits s (f a)) (l : List α) :
    Emits s (Res.each f l) :=
  fun t h => Res.Leads.each (P := fun u => Writing s u ∧ u.dfl = t.dfl)
    (fun a _ hu => (hf a _ hu.1).mono fun _ hv => ⟨hv.1, hv.2.trans hu.2⟩) l t ⟨h, rfl⟩

/-- R151: also a width that is refused. -/
theorem emits_writeBits (s : State) (value n : Nat) : Emits s (writeBits value n) := by
  by_cases hn : n = 0 ∨ Config.rdMax < n
  · intro t _
    rw [writeBits, if_pos hn]
    trivial
  · have hmax : Config.rdMax = 16 := rfl
    exact (writes_bits value n (by omega) (by omega)).emits s

theorem emits_writeCode (s : State) (code len : Nat) : Emits s (writeCode code len) := (writes_writtenCode code len).emits s

theorem emits_wrAlign (s : State) : Emits s wrAlign := writes_align.emits s

theorem emits_emitLit (s : State) (b : Byte) : Emits s (emitLit b) := by
  intro t h
  unfold emitLit
  split <;> exact emits_writeCode s _ _ t h

theorem emits_emitLengthCode (s : State) (sym : Nat) : Emits s (emitLengthCode sym) := by
  intro t h
  unfold emitLengthCode
  split <;> exact emits_writeCode s _ _ t h

theorem emits_emitExtra (s : State) (v w : Nat) : Emits s (emitExtra v w) := by
  intro t h
  unfold emitExtra
  split
  · exact emits_writeBits s v w t h
  · exact emits_nothing s t h

/-- R354. -/
theorem emits_emitMatch (s : State) (len dist : Nat) : Emits s (emitMatch len dist) :=
  (emits_emitLengthCode s _).bind ((emits_emitExtra s _ _).bind ((emits_writeCode s _ _).bind (emits_emitExtra s _ _)))

/-- R345: the bytes written are read from `IN` as the loop goes on. -/
theorem emits_emitStoredBlock (s : State) (nb k : Nat) : Emits s (emitStoredBlock nb k) := by
  intro t h
  have hbytes : Emits s (Res.each (fun j u => writeByte (inByte u (Config.storedMax * k + j)) u)
      (List.range (min Config.storedMax (inputLength t - Config.storedMax * k)))) :=
    Emits.each (fun j u hu => emits_writeBits s _ 8 u hu) _
  exact ((emits_writeBits s _ 1).bind ((emits_writeBits s 0 2).bind ((emits_wrAlign s).bind
    ((emits_writeBits s _ 16).bind ((emits_writeBits s _ 16).bind hbytes))))) t h

/-- R155, R388: the last alignment, and the end of the call. -/
theorem finish_ended {s t : State} (h : Writing s t) (hb : s.status.state = .busy) :
    ((finish t).bind fun _ u => .ok () (completeCall u)).Leads s (Ended s) := by
  refine Res.Leads.bind (Q := Ran s) ?_ fun u hu => completeCall_ended hu hb
  exact (emits_wrAlign s t h).bind fun u hu => { hu.1.toRan with }

/-- R344, R345. -/
theorem compressStored_leads {s t : State} (h : Writing s t) (hb : s.status.state = .busy) :
    (compressStored t).Leads s (Ended s) :=
  ((Emits.each (emits_emitStoredBlock s _) _) t h).bind fun _ hu => finish_ended hu.1 hb

/-! ## The parse loop -/

/-- New values of the Compressor's registers. -/
theorem Writing.withDfl {s t : State} (h : Writing s t) (d : Deflate) (hp : d.pos < 2 ^ Config.lenw) (hl : d.bestLen < 2 ^ 9)
    (hd : d.bestDist < 2 ^ 16) (he : d.examined < 2 ^ 16) : Writing s { t with dfl := d } :=
  { h with
    widths := by
      obtain ⟨h1, h2, h3, h4, h5, h6, h7, h8, h9, -⟩ := h.widths
      exact ⟨h1, h2, h3, h4, h5, h6, h7, h8, h9, hp, hl, hd, he⟩ }

/-- A new position, within the input. -/
theorem Writing.withPos {s t : State} (h : Writing s t) (p : Nat) (hp : p ≤ inputLength s) :
    Writing s { t with dfl := { t.dfl with pos := p } } := by
  obtain ⟨-, -, -, -, -, -, -, -, -, -, hl, hd, he⟩ := h.widths
  exact h.withDfl _ (hp.trans_lt s.inLen.isLt) hl hd he

/-- R348: one pass of the loop stays within the input. -/
theorem parseStep_leads {s t : State} (h : Writing s t) (hp : t.dfl.pos < inputLength s) :
    (parseStep t).Leads s fun u => Writing s u ∧ u.dfl.pos ≤ inputLength s := by
  obtain ⟨hlen, hdist, hex, -, -⟩ := longestMatch_bounds t.dfl.pos t.dfl.level.toNat t
  rw [h.inputLength] at hlen
  have hsearch : Writing s (searchAt t.dfl.pos t.dfl.level.toNat t) :=
    h.withDfl _ (hp.trans s.inLen.isLt) (by show Prod.fst _ < _; omega) (by show Prod.fst _ < _; omega)
      (by show Prod.snd _ < _; omega)
  have hnext : ∀ u, Writing s u ∧ u.dfl = (searchAt t.dfl.pos t.dfl.level.toNat t).dfl →
      u.dfl.pos = t.dfl.pos ∧ u.dfl.bestLen ≤ inputLength s - t.dfl.pos := by
    rintro u ⟨-, hu⟩
    rw [hu]
    exact ⟨rfl, by show Prod.fst _ ≤ _; omega⟩
  unfold parseStep
  simp only
  split
  · refine (emits_emitMatch s _ _ _ hsearch).bind fun u hu => ?_
    have := hnext u hu
    exact ⟨hu.1.withPos _ (by omega), by show u.dfl.pos + u.dfl.bestLen ≤ _; omega⟩
  · refine (emits_emitLit s _ _ hsearch).bind fun u hu => ?_
    have := hnext u hu
    exact ⟨hu.1.withPos _ (by omega), by show u.dfl.pos + 1 ≤ _; omega⟩

theorem parseLoop_leads {s : State} : ∀ (fuel : Nat) {t : State}, Writing s t → (parseLoop fuel t).Leads s (Writing s)
  | 0, _, h => h
  | fuel + 1, t, h => by
    unfold parseLoop
    split
    · next hp =>
      rw [h.inputLength] at hp
      exact (parseStep_leads h hp).bind fun u hu => parseLoop_leads fuel hu.1
    · exact h

/-- R348, R38. -/
theorem compressFixed_leads {s t : State} (h : Writing s t) (hb : s.status.state = .busy) :
    (compressFixed t).Leads s (Ended s) := by
  have hfixed : Writing s (setFixedReady t) := ⟨h.toRan.setFixedReady, h.form, h.unfinished⟩
  refine (emits_writeBits s 1 1 _ hfixed).bind fun u hu => (emits_writeBits s 1 2 u hu.1).bind fun v hv => ?_
  refine (parseLoop_leads _ (hv.1.withPos 0 (Nat.zero_le _))).bind fun w hw => ?_
  exact (emits_writeCode s 0 7 w hw).bind fun x hx => finish_ended hx.1 hb

end Sys2Proof.Machine
end

section
/-! The Decompressor's step: the moments between two elements of the stream (`Inflating`), and for each place in a block what its
instructions lead to (R211 to R229, R250 to R258). -/

namespace Sys2Proof.Machine

/-- A moment of the Decompressor's step after its element was fetched: the cursor has moved forward within the input, and a valid
table is canonical. -/
structure Inflating (s t : State) : Prop extends Ran s t where
  reader : readerOk t
  len : t.rd.len = s.rd.len
  moved : streamPos s < streamPos t
  tCL : tableOk t.tCL
  tLL : tableOk t.tLL
  tD : tableOk t.tD

/-- R34, R35: the widths of the Decompressor's registers. -/
abbrev infFits (f : Inflate) : Prop := f.i < 2 ^ 9 ∧ f.sym < 2 ^ 9 ∧ f.mlen < 2 ^ 9 ∧ f.dsym < 2 ^ 5 ∧ f.mdist < 2 ^ 16

theorem infFits_of_widthsOk {t : State} (h : widthsOk t) : infFits t.inf := by
  obtain ⟨-, -, -, -, hi, hs, hm, hj, hd, -⟩ := h
  exact ⟨hi, hs, hm, hj, hd⟩

/-- R28: the cursor is in the input where its stream position is. -/
theorem readerOk_iff (s : State) : readerOk s ↔ s.rd.bit ≤ 7 ∧ streamPos s ≤ 8 * s.rd.len := by
  unfold streamPos readerOk; omega

/-- A cursor in the input fits its width. -/
theorem Ran.widths_withRd {s t : State} (h : Ran s t) (r : Reader) (hr : readerOk { t with rd := r })
    (hl : r.len = t.rd.len) : widthsOk { t with rd := r } := by
  obtain ⟨-, -, hlen, hrest⟩ := h.widths
  obtain ⟨hbit, hbyte, -⟩ := hr
  rw [← hl] at hlen
  exact ⟨hbyte.trans_lt hlen, Nat.lt_succ_of_le hbit, hlen, hrest⟩

/-- The cursor moved past the element fetched. -/
theorem Inflating.fetched {s : State} (hi : Inv s) (hb : s.status.state = .busy) (hc : ctrlOp s = false) {used : Nat}
    (h1 : 1 ≤ used) (h2 : used ≤ unreadBits s) : Inflating s (advance used s) := by
  obtain ⟨hreader, -, -, hcl, hll, hd⟩ := hi.inflateOk hb hc
  have hran := Ran.start hi hb
  have hok : readerOk (advance used s) := by
    rw [readerOk_iff] at hreader ⊢
    rw [streamPos_advance, advance_rd]
    unfold unreadBits at h2
    unfold streamPos at *
    simp only
    omega
  exact { hran with
    widths := hran.widths_withRd _ hok rfl
    reader := hok
    len := rfl
    moved := by rw [streamPos_advance]; omega
    tCL := hcl
    tLL := hll
    tD := hd }

theorem Inflating.withInf {s t : State} (h : Inflating s t) (f : Inflate) (hf : infFits f) : Inflating s { t with inf := f } :=
  { h with
    widths := by
      obtain ⟨h1, h2, h3, h4, -, -, -, -, -, hrest⟩ := h.widths
      obtain ⟨hi, hs, hm, hj, hd⟩ := hf
      exact ⟨h1, h2, h3, h4, hi, hs, hm, hj, hd, hrest⟩ }

/-- A further move of the cursor. -/
theorem Inflating.withRd {s t : State} (h : Inflating s t) (r : Reader) (hr : readerOk { t with rd := r })
    (hl : r.len = t.rd.len) (hm : streamPos t ≤ streamPos { t with rd := r }) : Inflating s { t with rd := r } :=
  { h with
    widths := h.widths_withRd r hr hl
    reader := hr
    len := hl.trans h.len
    moved := h.moved.trans_le hm }

theorem Inflating.withTable {s t : State} (h : Inflating s t) (k : BlockTable) {T : HuffTable} (hT : tableOk T) :
    Inflating s (setTable k T t) := by
  cases k with
  | cl => exact { h with tCL := hT }
  | ll => exact { h with tLL := hT }
  | d => exact { h with tD := hT }

/-- R133. -/
theorem Inflating.aligned {s t : State} (h : Inflating s t) : Inflating s (rdAlign t) := by
  obtain ⟨hbit, hbyte, hend⟩ := h.reader
  unfold rdAlign
  split
  · next hne =>
    refine h.withRd _ ⟨Nat.zero_le _, ?_, fun _ => rfl⟩ rfl (by unfold streamPos; simp only; omega)
    show t.rd.byte + 1 ≤ t.rd.len
    have : t.rd.byte ≠ t.rd.len := fun he => hne (hend he)
    omega
  · exact h

@[simp] theorem rdAlign_bit (t : State) : (rdAlign t).rd.bit = 0 := by
  unfold rdAlign
  split
  · rfl
  · next h => exact not_not.mp h

@[simp] theorem rdAlign_inf (t : State) : (rdAlign t).inf = t.inf := by
  unfold rdAlign
  split <;> rfl

/-- R66: an append leads where the append with room does. -/
theorem Inflating.appendByte_leads {s t : State} {Q : State → Prop} (h : Inflating s t) (b : Byte)
    (hQ : ∀ m len, Inflating s { t with outBuf := m, outLen := len } → Q { t with outBuf := m, outLen := len }) :
    (appendByte b t).Leads s Q :=
  Machine.appendByte_leads h.toKept b fun hr => hQ _ _ { h.toRan.append b hr, h with }

/-- R171: a build leads where a built table does. -/
theorem Inflating.buildInto_leads {s t : State} {Q : State → Prop} (h : Inflating s t) (k : BlockTable)
    (lens required : List Nat) (hQ : ∀ T, builtTable T → Inflating s (setTable k T t) → Q (setTable k T t)) :
    (buildInto k lens required t).Leads s Q := by
  unfold buildInto
  split
  · next T hT =>
    have hbuilt := (builtTable_of_buildTable hT).1
    exact hQ T hbuilt (h.withTable k fun _ => hbuilt)
  · exact (h.withTable k (T := { tableOf (.block k) t with valid := false }) fun hv => Bool.noConfusion hv).toKept

/-! ## What an instruction leads to -/

/-- After the Decompressor's step the engine stands at the next element, or the call has ended. -/
def Resumes (s t : State) : Prop := (Inflating s t ∧ phaseOk t) ∨ Ended s t

/-- Instruction `i`, run at `t`, leads to the next element or to the end of the call. -/
def Runs (s : State) (i : Instr) (t : State) : Prop := ∃ r : Res Unit, exec i t = r.toNext ∧ r.Leads s (Resumes s)

/-- The block's own tables are there for its body (R217, R224). -/
abbrev bodyOk (t : State) : Prop :=
  t.inf.state = .fixedHuffman ∨ (t.inf.state = .dynamicHuffman ∧ t.tLL.valid = true ∧ t.tD.valid = true)

/-- R211, R230, R388. -/
theorem endBlock_resumes {s t : State} (hb : s.status.state = .busy) (h : Inflating s t) : Resumes s (endBlock t) := by
  have hf := infFits_of_widthsOk h.widths
  have hfinished : Inflating s { t with inf := { t.inf with state := .finished } } := h.withInf _ hf
  unfold endBlock
  split
  · exact Or.inr (completeCall_ended hfinished.toRan hb)
  · exact Or.inl ⟨h.withInf _ hf, rfl⟩

/-- R212 to R218. -/
theorem header_runs {s t : State} (h : Inflating s t) (f b0 b1 : Bool) : Runs s (headerInstr f b0 b1) t := by
  have hf := infFits_of_widthsOk h.widths
  have henter := fun btype state phase => h.withInf { t.inf with final := f, btype := btype, state := state, phase := phase } hf
  cases b1 <;> cases b0
  case false.false =>
    refine ⟨.ok () _, rfl, Or.inl ⟨(henter 0 .stored .storedLen).aligned, ?_⟩⟩
    simp only [phaseOk, rdAlign_inf, enterBlock, rdAlign_bit, and_self]
  case false.true =>
    have hu := henter 1 .fixedHuffman .body
    exact ⟨.ok () _, rfl, Or.inl ⟨{ hu.toRan.setFixedReady, hu with }, Or.inl rfl⟩⟩
  case true.false => exact ⟨.ok () _, rfl, Or.inl ⟨henter 2 .dynamicHuffman .dynCounts, rfl⟩⟩
  case true.true => exact ⟨.raise _ _, rfl, { h.toKept with }⟩

/-- R215, R216: the copy reads whole bytes, so it keeps the cursor at a byte boundary. -/
theorem copyStoredByte_leads {s t : State} (h : Inflating s t ∧ t.rd.bit = 0) :
    (copyStoredByte t).Leads s fun u => Inflating s u ∧ u.rd.bit = 0 := by
  obtain ⟨h, hbit⟩ := h
  unfold copyStoredByte readByte
  split
  · exact h.toKept
  · rw [Res.bind_ok]
    have hread : Inflating s { t with rd := { t.rd with byte := t.rd.byte + 1 } } :=
      h.withRd _ ⟨by show t.rd.bit ≤ 7; omega, by show t.rd.byte + 1 ≤ t.rd.len; omega, fun _ => hbit⟩ rfl
        (by unfold streamPos; simp only; omega)
    exact hread.appendByte_leads _ fun _ _ hu => ⟨hu, hbit⟩

theorem storedLen_runs {s t : State} (hb : s.status.state = .busy) (h : Inflating s t) (hbit : t.rd.bit = 0)
    (len nlen : BitVec 16) : Runs s (.storedLen len nlen) t := by
  have hu := h.withInf { t.inf with LEN := len, NLEN := nlen } (infFits_of_widthsOk h.widths)
  refine ⟨storedBlock len nlen t, rfl, ?_⟩
  unfold storedBlock
  simp only
  split
  · exact hu.toKept
  · exact (Res.Leads.each (fun _ _ => copyStoredByte_leads) _ _ ⟨hu, hbit⟩).bind fun _ hv => endBlock_resumes hb hv.1

/-- R219. -/
theorem dynCounts_runs {s t : State} (h : Inflating s t) (hs : t.inf.state = .dynamicHuffman) (hlit hdist : BitVec 5)
    (hclen : BitVec 4) : Runs s (.dynCounts hlit hdist hclen) t :=
  ⟨.ok () _, rfl, Or.inl ⟨h.withInf _ (infFits_of_widthsOk h.widths), hs, by simp [Inflate.ncode]⟩⟩

/-- R222: a dynamic header announces 258 to 320 code lengths. -/
theorem total_bounds (f : Inflate) : 258 ≤ f.total ∧ f.total ≤ 320 := by
  have h1 := f.hlit.isLt
  have h2 := f.hdist.isLt
  unfold Inflate.total Inflate.nlen Inflate.ndist
  omega

/-- R220, R221. -/
theorem dynCll_runs {s t : State} (h : Inflating s t) (hp : t.inf.phase = .dynCll) (hs : t.inf.state = .dynamicHuffman)
    (v : BitVec 3) : Runs s (.dynCll v) t := by
  have hf := infFits_of_widthsOk h.widths
  have hu : Inflating s (storeCll v t) := h.withInf _ hf
  unfold Runs exec execDynCll
  simp only
  split
  · next hk =>
    refine ⟨.ok () _, rfl, Or.inl ⟨hu, ?_⟩⟩
    unfold phaseOk
    rw [show (storeCll v t).inf.phase = .dynCll from hp]
    exact ⟨hs, hk⟩
  · refine ⟨_, rfl, (hu.buildInto_leads (Q := fun w => ∃ T, builtTable T ∧ w = setTable .cl T (storeCll v t) ∧ Inflating s w)
      .cl _ _ fun T hT hw => ⟨T, hT, rfl, hw⟩).bind ?_⟩
    rintro _ ⟨T, hT, rfl, hw⟩
    refine Or.inl ⟨hw.withInf _ ⟨Nat.two_pow_pos 9, hf.2⟩, hs, ?_, hT.valid⟩
    have := (total_bounds t.inf).1
    show 0 < t.inf.total
    omega

/-! ## The code length sequence -/

/-- Within the code length sequence of a dynamic block (R222). -/
abbrev lengthsOk (t : State) : Prop :=
  t.inf.phase = .codeLengths ∧ t.inf.state = .dynamicHuffman ∧ t.tCL.valid = true

/-- R222, R224: the exit test of the sequence. -/
theorem afterLengths_leads {s t : State} (h : Inflating s t) (hp : lengthsOk t) : (afterLengths t).Leads s (Resumes s) := by
  obtain ⟨hphase, hs, hv⟩ := hp
  unfold afterLengths
  split
  · next hi =>
    refine Or.inl ⟨h, ?_⟩
    unfold phaseOk
    rw [hphase]
    exact ⟨hs, hi, hv⟩
  · refine (h.buildInto_leads (Q := fun w => Inflating s w ∧ w.inf.state = .dynamicHuffman ∧ w.tLL.valid = true) .ll _ _
      fun T hT hw => ⟨hw, hs, hT.valid⟩).bind fun w ⟨hw, hs, hll⟩ => ?_
    refine (hw.buildInto_leads (Q := fun x => Inflating s x ∧ bodyOk x) .d _ _
      fun T hT hx => ⟨hx, Or.inr ⟨hs, hll, hT.valid⟩⟩).bind fun x ⟨hx, hbody⟩ => ?_
    exact Or.inl ⟨hx.withInf _ (infFits_of_widthsOk hx.widths), hbody⟩

/-- R225 to R228: what a repeat leaves. -/
theorem pushLengths_eq (v : BitVec 4) : ∀ (rep : Nat) (t : State),
    ∃ L, pushLengths v rep t = { t with inf := { t.inf with L := L, i := t.inf.i + rep } }
  | 0, _ => ⟨_, rfl⟩
  | rep + 1, t => by
    obtain ⟨L, hL⟩ := pushLengths_eq v rep (pushLength v t)
    refine ⟨L, hL.trans ?_⟩
    simp only [pushLength, Nat.add_assoc, Nat.add_comm 1]

/-- R225 to R228: a repeat that stays within the sequence. -/
theorem afterPush_leads {s t : State} (h : Inflating s t) (hp : lengthsOk t) (v : BitVec 4) (rep : Nat)
    (hrep : t.inf.i + rep ≤ t.inf.total) : (afterLengths (pushLengths v rep t)).Leads s (Resumes s) := by
  obtain ⟨L, hL⟩ := pushLengths_eq v rep t
  have htotal := (total_bounds t.inf).2
  rw [hL]
  exact afterLengths_leads (h.withInf _ ⟨by show _ + _ < _; omega, (infFits_of_widthsOk h.widths).2⟩) hp

/-- R223. -/
theorem repeatLength_leads {s t : State} (h : Inflating s t) (hp : lengthsOk t) (v : BitVec 4) (rep : Nat) :
    (repeatLength v rep t).Leads s (Resumes s) := by
  unfold repeatLength
  split
  · exact h.toKept
  · next hrep => exact afterPush_leads h hp v rep (Nat.le_of_not_lt hrep)

/-- R226. -/
theorem clRep16_runs {s t : State} (h : Inflating s t) (hp : lengthsOk t) (x : BitVec 2) : Runs s (.clRep16 x) t := by
  refine ⟨_, rfl, ?_⟩
  split
  · exact h.toKept
  · exact repeatLength_leads h hp _ _

/-- R225 to R228: any code-length symbol. -/
theorem clInstr_runs {s t : State} (h : Inflating s t) (hp : lengthsOk t) (hi : t.inf.i < t.inf.total) {first : Bool}
    {sym n used : Nat} {bits : List Bool} {i : Instr} (hn : n ≤ bits.length) (hd : clInstr first sym bits n = .ok i used) :
    Runs s i t := by
  obtain ⟨-, -, ⟨v, rfl⟩ | ⟨x, rfl⟩ | ⟨x, rfl⟩ | ⟨x, rfl⟩⟩ := clInstr_cases hn hd
  · exact ⟨afterLengths (pushLengths v 1 t), rfl, afterPush_leads h hp v 1 hi⟩
  · exact clRep16_runs h hp x
  · exact ⟨_, rfl, repeatLength_leads h hp 0 _⟩
  · exact ⟨_, rfl, repeatLength_leads h hp 0 _⟩

/-! ## Symbols -/

/-- R251. -/
theorem literal_leads {s t : State} (h : Inflating s t) (hp : t.inf.phase = .body) (hbody : bodyOk t) (b : Byte) :
    (literal b t).Leads s (Resumes s) := by
  obtain ⟨hi, -, hrest⟩ := infFits_of_widthsOk h.widths
  have hu : Inflating s (setSym b.toNat t) := h.withInf _ ⟨hi, by have := b.isLt; show b.toNat < _; omega, hrest⟩
  refine hu.appendByte_leads b fun m len hv => Or.inl ⟨hv, ?_⟩
  unfold phaseOk
  rw [show (setSym b.toNat t).inf.phase = .body from hp]
  exact hbody

/-- R253. -/
theorem lengthSymbol_resumes {s t : State} (h : Inflating s t) (hbody : bodyOk t) (sym x : Nat) (hsym : sym < 2 ^ 9)
    (h3 : 3 ≤ lengthValue sym x) (h258 : lengthValue sym x ≤ 258) : Resumes s (lengthSymbol sym x t) := by
  obtain ⟨hi, -, -, hrest⟩ := infFits_of_widthsOk h.widths
  exact Or.inl ⟨h.withInf _ ⟨hi, hsym, h258.trans_lt (by decide), hrest⟩, hbody, h3, h258⟩

/-- R102, R254: no distance is above 32768. -/
theorem distanceValue_le {j y : Nat} (hj : j < 30) (hy : y < 2 ^ dextra j) : distanceValue j y ≤ 32768 := by
  have hmax : ∀ j < 30, dbase j + 2 ^ dextra j ≤ 32769 := by decide
  have := hmax j hj
  unfold distanceValue
  omega

/-- R254 to R256. -/
theorem distanceSymbol_leads {s t : State} (h : Inflating s t) (hbody : bodyOk t) {j y : Nat} (hj : j < 30)
    (hy : y < 2 ^ dextra j) : (distanceSymbol j y t).Leads s (Resumes s) := by
  obtain ⟨hi, hs, hm, -, -⟩ := infFits_of_widthsOk h.widths
  have hd := distanceValue_le hj hy
  have hu := h.withInf { t.inf with dsym := j, mdist := distanceValue j y }
    ⟨hi, hs, hm, hj.trans (by decide), hd.trans_lt (by decide)⟩
  refine Res.Leads.bind (Q := fun u => Inflating s u ∧ bodyOk u) ?_
    fun u ⟨hu, hbody⟩ => Or.inl ⟨hu.withInf _ (infFits_of_widthsOk hu.widths), hbody⟩
  unfold matchCopy
  split
  · exact hu.toKept
  · exact Res.Leads.each (fun _ v ⟨hv, hbody⟩ => hv.appendByte_leads _ fun _ _ hw => ⟨hw, hbody⟩) _ _ ⟨hu, hbody⟩

/-- R251 to R253, R257: any literal/length symbol. -/
theorem llInstr_runs {s t : State} (hb : s.status.state = .busy) (h : Inflating s t) (hp : t.inf.phase = .body) (hbody : bodyOk t)
    {sym n used : Nat} {bits : List Bool} {i : Instr} (hn : n ≤ bits.length) (hd : llInstr sym bits n = .ok i used) :
    Runs s i t := by
  obtain ⟨-, -, ⟨b, hlit⟩ | rfl | ⟨sym, x, -, hsym, h3, h258, hlen⟩ | rfl | rfl⟩ := llInstr_cases hn hd
  · exact ⟨_, hlit t, literal_leads h hp hbody b⟩
  · obtain ⟨hi, -, hrest⟩ := infFits_of_widthsOk h.widths
    exact ⟨.ok () _, rfl, endBlock_resumes hb (h.withInf _ ⟨hi, (by decide : 256 < 2 ^ 9), hrest⟩)⟩
  · exact ⟨.ok () _, hlen t, lengthSymbol_resumes h hbody sym x (by omega) h3 h258⟩
  · exact ⟨.raise _ _, rfl, { h.toKept with }⟩
  · exact ⟨.raise _ _, rfl, { h.toKept with }⟩

/-- R254, R258: any distance symbol. -/
theorem distInstr_runs {s t : State} (h : Inflating s t) (hbody : bodyOk t) {sym n used : Nat} {bits : List Bool} {i : Instr}
    (hn : n ≤ bits.length) (hd : distInstr sym bits n = .ok i used) : Runs s i t := by
  obtain ⟨-, -, ⟨j, y, hj, hy, hdist⟩ | rfl | rfl⟩ := distInstr_cases hn hd
  · exact ⟨_, hdist t, distanceSymbol_leads h hbody hj hy⟩
  · exact ⟨.raise _ _, rfl, { h.toKept with }⟩
  · exact ⟨.raise _ _, rfl, { h.toKept with }⟩

/-! ## The step -/

/-- Whatever is fetched at the place where the engine stands runs on from there. -/
theorem fetched_runs {s : State} {bits : List Bool} {i : Instr} {used : Nat} (hb : s.status.state = .busy) (hp : phaseOk s)
    (hd : decode (fetchCtx s) bits = .ok i used) (h : Inflating s (advance used s)) : Runs s i (advance used s) := by
  unfold phaseOk at hp
  unfold fetchCtx at hd
  cases hphase : s.inf.phase <;> rw [hphase] at hd hp
  case header =>
    simp only [decode] at hd
    split at hd
    · cases hd; exact header_runs h _ _ _
    · cases hd
  case storedLen =>
    simp only [decode] at hd
    split at hd
    · cases hd
    · cases hd
      refine storedLen_runs hb h ?_ _ _
      rw [advance_rd, streamPos, hp.2]
      simp only
      omega
  case dynCounts =>
    simp only [decode] at hd
    split at hd
    · cases hd
    · cases hd; exact dynCounts_runs h hp _ _ _
  case dynCll =>
    obtain ⟨-, -, v, rfl⟩ := withField_ok hd
    exact dynCll_runs h hphase hp.1 v
  case codeLengths =>
    obtain ⟨hs, hi, hv⟩ := hp
    obtain ⟨_, _, -, hn, hsym⟩ := withSymbol_cases hd
    exact clInstr_runs h ⟨hphase, hs, hv⟩ hi hn hsym
  case body =>
    obtain ⟨_, _, -, hn, hsym⟩ := withSymbol_cases hd
    exact llInstr_runs hb h hphase hp hn hsym
  case distance =>
    obtain ⟨_, _, -, hn, hsym⟩ := withSymbol_cases hd
    exact distInstr_runs h hp.1 hn hsym

end Sys2Proof.Machine
end

section
/-! Every step of a running call, and what it keeps: the obligations O56 and O60. -/

namespace Sys2Proof.Machine

/-- R455: how a step of a running call ends: with the abort of R410, with success, or, in a decompress call, at the next element. -/
inductive Stepped (s t : State) : Prop where
  | aborted (c : Cause) (u : State) (h : Kept s u) (ht : t = abort c u)
  | ended (h : Ended s t)
  | running (hc : ctrlOp s = false) (h : Inflating s t) (hp : phaseOk t)

theorem Stepped.of_resumes {s t : State} (hc : ctrlOp s = false) (h : Resumes s t ∨ ∃ c u, Kept s u ∧ t = abort c u) :
    Stepped s t := by
  obtain (⟨h, hp⟩ | h) | ⟨c, u, h, rfl⟩ := h
  · exact .running hc h hp
  · exact .ended h
  · exact .aborted c u h rfl

/-- The Decompressor's step: an error of the fetch, or the instruction fetched. -/
theorem inflateStep_stepped {s t : State} (hi : Inv s) (hb : s.status.state = .busy) (hc : ctrlOp s = false)
    (ht : step s = .next t) : Stepped s t := by
  have hkept := (Ran.start hi hb).toKept
  have herror : ∀ c, Host.Outcome.next (raiseError c s) = (Host.Outcome.next t : Host.Outcome State Fault Refusal) →
      Stepped s t := by
    intro c h
    cases h
    exact .aborted c s hkept (raiseError_of_busy c s hb)
  obtain ⟨-, -, hphase, -⟩ := hi.inflateOk hb hc
  obtain ⟨-, hno, -⟩ := decode_rejections (fetchCtx_ne_ctrl s) (bits := nextBits fetchWidth s)
  unfold step nextAction at ht
  rw [if_pos hb, hc, if_neg Bool.false_ne_true, fetchStream] at ht
  cases hd : decode (fetchCtx s) (nextBits fetchWidth s) with
  | ok i used =>
    rw [hd] at ht
    obtain ⟨h1, h2⟩ := decode_used (fetchCtx_ne_ctrl s) hd
    rw [nextBits_length] at h2
    have hfetched := Inflating.fetched hi hb hc h1 (h2.trans (Nat.min_le_right _ _))
    obtain ⟨r, hr, hleads⟩ := fetched_runs hb hphase hd hfetched
    exact .of_resumes hc (hleads.toNext hb (hr.symm.trans ht))
  | short => rw [hd] at ht; exact herror _ ht
  | noLeaf => rw [hd] at ht; exact herror _ ht
  | noPrevious => rw [hd] at ht; exact herror _ ht
  | noStart => exact absurd hd hno
  | illegalLevel => rw [hd] at ht; cases ht
  | tableInvalid => rw [hd] at ht; cases ht

/-- The Compressor's step: the body of the level, which ends the call. -/
theorem deflateStep_stepped {s t : State} (hi : Inv s) (hb : s.status.state = .busy) (hc : ctrlOp s = true)
    (ht : step s = .next t) : Stepped s t := by
  obtain ⟨hwr, -, -⟩ := hi.deflateOk hb hc
  have hs : Writing s s := ⟨Ran.start hi hb, by rw [writerOk, hwr]; decide, by rw [hwr]; rfl⟩
  have hended : ∀ r : Res Unit, r.Leads s (Ended s) → r.toNext = .next t → Stepped s t := by
    intro r hr h
    obtain h | ⟨c, u, hu, rfl⟩ := hr.toNext hb h
    · exact .ended h
    · exact .aborted c u hu rfl
  unfold step nextAction at ht
  rw [if_pos hb, if_pos hc, deflateInstr] at ht
  by_cases hl : s.dfl.level = 0
  · rw [if_pos hl] at ht
    exact hended _ (compressStored_leads hs hb) ht
  · rw [if_neg hl] at ht
    exact hended _ (compressFixed_leads hs hb) ht

theorem step_stepped {s t : State} (hi : Inv s) (hb : s.status.state = .busy) (ht : step s = .next t) : Stepped s t := by
  cases hc : ctrlOp s with
  | false => exact inflateStep_stepped hi hb hc ht
  | true => exact deflateStep_stepped hi hb hc ht

/-! ## The invariant -/

/-- At rest the invariant asks nothing of the engines. -/
theorem inv_of_rest {s : State} (hm : memoryOk s) (hs : statusOk s) (hw : widthsOk s) (hb : s.status.state ≠ .busy) : Inv s :=
  ⟨hm, hs, hw, fun h => absurd h hb⟩

/-- R22: while a call runs there is no error. -/
theorem statusOk_of_busy {s : State} (hs : statusOk s) (hb : s.status.state = .busy) :
    s.status.errCause = none ∧ s.status.errClass = .none := by
  unfold statusOk at hs
  split at hs
  · next h => exact ⟨h, hs.2⟩
  · rw [hb] at hs; cases hs.1

theorem statusOk_of_no_error {s : State} (hc : s.status.errCause = none ∧ s.status.errClass = .none)
    (hs : s.status.state ≠ .error) : statusOk s := by
  unfold statusOk
  rw [hc.1]
  exact ⟨hs, hc.2⟩

theorem Kept.no_error {s t : State} (h : Kept s t) (hc : s.status.errCause = none ∧ s.status.errClass = .none) :
    t.status.errCause = none ∧ t.status.errClass = .none := by
  rw [h.status]; exact hc

theorem Ran.memoryOk {s t : State} (h : Ran s t) (hm : memoryOk s) : memoryOk t := by
  obtain ⟨hwf, hcells, -⟩ := hm
  rw [← h.inBuf] at hwf hcells
  exact ⟨hwf, hcells, h.cells⟩

/-- R410: the registers that are unspecified after an abort are free values within their widths. -/
theorem widthsOk_abort (c : Cause) (s : State) : widthsOk (abort c s) := by
  refine ⟨?_, ?_, ?_, ?_, ?_, ?_, ?_, ?_, ?_, ?_, ?_, ?_, ?_⟩ <;> exact Nat.mod_lt _ (by decide)

theorem inv_abort {s u : State} (hm : memoryOk s) (h : Kept s u) (c : Cause) : Inv (abort c u) := by
  obtain ⟨hwf, hcells, -⟩ := hm
  rw [← h.inBuf] at hwf hcells
  exact inv_of_rest ⟨hwf, hcells, rfl⟩ ⟨rfl, rfl⟩ (widthsOk_abort c u) fun h => CallState.noConfusion h

/-- A step of a running call keeps the invariant. -/
theorem Stepped.inv {s t : State} (hi : Inv s) (hb : s.status.state = .busy) (h : Stepped s t) : Inv t := by
  have ⟨hmem, hstat, _, _⟩ := hi
  have hnone := statusOk_of_busy hstat hb
  cases h with
  | aborted c u h ht => rw [ht]; exact inv_abort hmem h c
  | ended h =>
    obtain ⟨u, hu, rfl⟩ := h
    have hno := hu.no_error hnone
    exact inv_of_rest (hu.memoryOk hmem) (statusOk_of_no_error hno fun h => CallState.noConfusion h) hu.widths
      fun h => CallState.noConfusion h
  | running hc h hp =>
    obtain ⟨-, hlen, -⟩ := hi.inflateOk hb hc
    refine ⟨h.memoryOk hmem, statusOk_of_no_error (h.no_error hnone) (by rw [h.state, hb]; decide), h.widths, fun _ =>
      ⟨h.room, fun _ => ⟨h.reader, ?_, hp, h.tCL, h.tLL, h.tD⟩, fun hc' => ?_⟩⟩
    · rw [h.len, hlen, h.inLen]
    · rw [ctrlOp, h.ctrl] at hc'
      rw [ctrlOp, hc'] at hc
      cases hc

/-! ## The host's moves -/

/-- A cell of a memory after a write is the one written or was there before. -/
theorem Memory.mem_write {m : Memory} {a : Nat} {b : Byte} {c : Host.Cell} (h : c ∈ m.write a b) : c.1 = a ∨ c ∈ m := by
  induction m with
  | nil => left; rw [List.mem_singleton.mp h]
  | cons d m ih =>
    simp only [Memory.write] at h
    split at h
    · exact (List.mem_cons.mp h).imp (fun h => by rw [h]) id
    · split at h
      · exact (List.mem_cons.mp h).imp (fun h => by rw [h]) (List.mem_cons_of_mem d)
      · obtain rfl | h := List.mem_cons.mp h
        · exact Or.inr List.mem_cons_self
        · exact (ih h).imp id (List.mem_cons_of_mem d)

/-- R26: a write to a cell of `IN` that exists. -/
theorem memoryOk_writeIn {s : State} (h : memoryOk s) {a : Nat} (ha : a < 2 ^ Config.lenw - 1) (b : Byte) :
    memoryOk { s with inBuf := s.inBuf.write a b } := by
  obtain ⟨hwf, hcells, hout⟩ := h
  refine ⟨Memory.wf_write _ a b hwf, fun c hc => ?_, hout⟩
  obtain hc | hc := Memory.mem_write hc
  · rwa [hc]
  · exact hcells c hc

/-- R21: `CTRL` holds OP from the start of a call on. -/
theorem ctrlOp_startCall (op : Bool) (level : BitVec 4) (s : State) : ctrlOp (startCall op level s) = op := by
  show (BitVec.ofNat 8 (2 * op.toNat + 16 * level.toNat)).getLsbD 1 = op
  have hbit : (2 * op.toNat + 16 * level.toNat) / 2 % 2 = op.toNat := by have := op.toNat_lt; omega
  rw [BitVec.getLsbD_ofNat, Nat.testBit_succ, Nat.testBit_zero, hbit]
  cases op <;> rfl

/-- R442: the working registers that are unspecified at the start of a decompress call are free values within their widths. -/
theorem infFits_free (t : Nat) : infFits (freeInflate t) := by
  refine ⟨?_, ?_, ?_, ?_, ?_⟩ <;> exact Nat.mod_lt _ (by decide)

theorem zero_le_len (v : Len) : (0 : Len) ≤ v := by
  rw [BitVec.le_def]
  exact Nat.zero_le _

/-- R381, R442. -/
theorem inv_startDecompress {s : State} (hm : memoryOk s) (hw : widthsOk s) (level : BitVec 4) : Inv (startDecompress level s) := by
  obtain ⟨hwf, hcells, -⟩ := hm
  obtain ⟨-, -, -, hcnt, -, -, -, -, -, hdfl⟩ := hw
  obtain ⟨hi, hs, hlen, hj, hdist⟩ := infFits_free s.fresh
  have hinvalid : ∀ T : HuffTable, tableOk { T with valid := false } := fun _ h => Bool.noConfusion h
  refine ⟨⟨hwf, hcells, rfl⟩, ⟨fun h => CallState.noConfusion h, rfl⟩,
    ⟨Nat.two_pow_pos _, Nat.two_pow_pos _, s.inLen.isLt, hcnt, hi, hs, hlen, hj, hdist, hdfl⟩,
    fun _ => ⟨zero_le_len _, fun _ => ?_, fun hc => ?_⟩⟩
  · exact ⟨⟨Nat.zero_le _, Nat.zero_le _, fun _ => rfl⟩, rfl, rfl, hinvalid _, hinvalid _, hinvalid _⟩
  · exact Bool.noConfusion ((ctrlOp_startCall false level s).symm.trans hc)

/-- R381, R442. -/
theorem inv_startCompress {s : State} (hm : memoryOk s) (hw : widthsOk s) {level : BitVec 4} (hl : level.toNat ≤ 9) :
    Inv (startCompress level s) := by
  obtain ⟨hwf, hcells, -⟩ := hm
  obtain ⟨hbyte, hbit, hlen, -, hi, hs, hmlen, hj, hdist, -⟩ := hw
  refine ⟨⟨hwf, hcells, rfl⟩, ⟨fun h => CallState.noConfusion h, rfl⟩,
    ⟨hbyte, hbit, hlen, Nat.two_pow_pos _, hi, hs, hmlen, hj, hdist, Nat.two_pow_pos _, Nat.two_pow_pos _, Nat.two_pow_pos _,
      Nat.two_pow_pos _⟩, fun _ => ⟨zero_le_len _, fun hc => ?_, fun _ => ⟨rfl, hl, rfl⟩⟩⟩
  exact Bool.noConfusion ((ctrlOp_startCall true level s).symm.trans hc)

/-- R381, R385: a command write, run at rest. -/
theorem inv_command {s t : State} (hi : Inv s) (hb : s.status.state ≠ .busy) {v : BitVec 8} {i : Instr} {used : Nat}
    (hd : decode .ctrl (fieldBits 8 v.toNat) = .ok i used) (ht : exec i s = .next t) : Inv t := by
  obtain ⟨hm, -, hw, -⟩ := hi
  rw [controlWritesDecode v] at hd
  split at hd
  · cases hd
  · split at hd
    · cases hd
      rw [exec, execDecompress, if_neg hb] at ht
      cases ht
      exact inv_startDecompress hm hw _
    · split at hd
      · cases hd
        rw [exec, execCompress, if_neg hb] at ht
        split at ht
        · cases ht
        · next hl =>
          cases ht
          exact inv_startCompress hm hw (Nat.le_of_not_lt hl)
      · cases hd

/-- R381: the instruction that a move of the host runs is a command it wrote. -/
theorem hostMove_run {m : HostMove} {s u : State} {i : Instr} (h : hostMove m s = .run i u) :
    u = s ∧ ∃ (v : BitVec 8) (used : Nat), decode .ctrl (fieldBits 8 v.toNat) = .ok i used := by
  unfold hostMove at h
  split at h
  · cases h
  · cases m with
    | writeIn a b => simp only at h; split at h <;> cases h
    | writeInLen v => cases h
    | writeOutMax v => cases h
    | writeCtrl v =>
      simp only at h
      split at h
      · next hd => cases h; exact ⟨rfl, v, _, hd⟩
      · cases h
      · cases h

/-- R380: a move of the host that runs no instruction. -/
theorem hostMove_settle_inv {m : HostMove} {s t : State} (hi : Inv s) (h : hostMove m s = .settle (.next t)) : Inv t := by
  have ⟨hm, hs, hw, _⟩ := hi
  unfold hostMove at h
  split at h
  · cases h
  · next hb =>
    cases m with
    | writeIn a b =>
      simp only at h
      split at h
      · next ha => cases h; exact inv_of_rest (memoryOk_writeIn hm ha b) hs hw hb
      · cases h
    | writeInLen v => cases h; exact inv_of_rest hm hs hw hb
    | writeOutMax v => cases h; exact inv_of_rest hm hs hw hb
    | writeCtrl v =>
      simp only at h
      split at h
      · cases h
      · cases h
      · cases h; exact hi

/-- R380, R440: a step at rest takes the host's next move, if there is one. -/
theorem restStep_inv {s t : State} (hi : Inv s) (hb : s.status.state ≠ .busy) (ht : step s = .next t) : Inv t := by
  unfold step nextAction at ht
  rw [if_neg hb] at ht
  cases hhost : s.host with
  | nil => rw [hhost] at ht; cases ht; exact hi
  | cons m rest =>
    rw [hhost] at ht
    simp only at ht
    have htaken : Inv { s with host := rest } := hi
    cases hmove : hostMove m { s with host := rest } with
    | run i u =>
      rw [hmove] at ht
      obtain ⟨rfl, v, used, hd⟩ := hostMove_run hmove
      exact inv_command htaken hb hd ht
    | settle o =>
      rw [hmove] at ht
      exact hostMove_settle_inv htaken (hmove.trans (congrArg Action.settle ht))

/-- Settles O56: a step of a running call by how it ended, a step at rest by the host's move. -/
theorem stepKeepsInvariant : Obligations.StepKeepsInvariant := by
  intro s t hi ht
  by_cases hb : s.status.state = .busy
  · exact (step_stepped hi hb ht).inv hi hb
  · exact restStep_inv hi hb ht

/-! ## The frame -/

/-- Settles O60, by how the step ended. That an abort, too, keeps `CTRL` (log 19), the host's moves (log 4) and the encoder arrays
(log 29) is the model's own. -/
theorem engineStepFrame : Obligations.EngineStepFrame := by
  intro s t hi hb ht
  cases step_stepped hi hb ht with
  | aborted c u h ht =>
    subst ht
    exact ⟨h.inBuf, h.inLen, h.outMax, h.ctrl, h.enc, h.host, h.fixedReady, fun he => absurd rfl he,
      fun _ he => CallState.noConfusion he⟩
  | ended h =>
    obtain ⟨u, h, rfl⟩ := h
    exact ⟨h.inBuf, h.inLen, h.outMax, h.ctrl, h.enc, h.host, h.fixedReady, fun _ => ⟨h.outLen_le, h.bytes⟩,
      fun _ he => CallState.noConfusion he⟩
  | running _ h _ =>
    exact ⟨h.inBuf, h.inLen, h.outMax, h.ctrl, h.enc, h.host, h.fixedReady, fun _ => ⟨h.outLen_le, h.bytes⟩,
      fun _ _ => ⟨h.moved, h.len⟩⟩

end Sys2Proof.Machine
end

section
/-! `OUT_APPEND` (R66): the obligation O14. -/

namespace Sys2Proof.Machine

/-- R66: below `OUT_MAX`. -/
theorem exec_outAppend_of_room (b : Byte) {s : State} (h : s.outLen.toNat < s.outMax.toNat) :
    exec (.outAppend b) s = .next { s with
      outBuf := s.outBuf.write s.outLen.toNat b, outLen := BitVec.ofNat Config.lenw (s.outLen.toNat + 1), ret := .none } := by
  rw [exec, execOutAppend, appendByte_eq, if_pos h, outLen_succ_eq h]
  rfl

/-- R66: at `OUT_MAX`. -/
theorem exec_outAppend_of_full (b : Byte) {s : State} (h : s.outMax.toNat ≤ s.outLen.toNat) :
    exec (.outAppend b) s = .next (raiseError .outputOverflow s) := by
  rw [exec, execOutAppend, appendByte_eq, if_neg (Nat.not_lt.mpr h)]
  rfl

/-- Settles O14: below `OUT_MAX` by what a write to a memory makes of each read, at `OUT_MAX` by the raise. -/
theorem outAppendWritesOneByte : Obligations.OutAppendWritesOneByte := by
  intro b s
  refine ⟨fun hroom => ?_, exec_outAppend_of_full b⟩
  obtain ⟨t, ht⟩ : ∃ t, t = { s with
      outBuf := s.outBuf.write s.outLen.toNat b, outLen := BitVec.ofNat Config.lenw (s.outLen.toNat + 1), ret := .none } :=
    ⟨_, rfl⟩
  have hread : ∀ a, outByte t a = if a = s.outLen.toNat then b else outByte s a :=
    outByte_write s t b (by rw [ht]) (by rw [ht])
  refine ⟨_, t, ht, by rw [exec_outAppend_of_room b hroom, ht], Memory.wf_write _ _ b, ?_, fun a ha => ?_⟩
  · rw [hread, if_pos rfl]
  · have hne : a ≠ s.outLen.toNat := by omega
    rw [hread, if_neg hne]

end Sys2Proof.Machine
end


section
/-! What is written is read back, and what is read is what would be written, in every context (R90 to R99, R113, R178): the
obligations O3, O4 and O6. -/

namespace Sys2Proof.Machine

/-! ## Fields at the head of a stream -/

/-- R67: a field written at the head of a stream is read back. -/
theorem read_fieldBits {w : Nat} (x : BitVec w) (rest : List Bool) :
    BitVec.ofNat w (bitsToNat ((fieldBits w x.toNat ++ rest).take w)) = x := by
  rw [List.take_left' (fieldBits_length w _), bitsToNat_fieldBits_of_lt x.isLt, BitVec.ofNat_toNat, BitVec.setWidth_eq]

/-- R67: after a field the stream goes on. -/
theorem drop_fieldBits (w v : Nat) (rest : List Bool) : (fieldBits w v ++ rest).drop w = rest :=
  List.drop_left' (fieldBits_length w v)

/-! ## Decoding an encoding (O3) -/

/-- R178 (d): a symbol written with its extra bits is read back, if its symbol's meaning reads the extra bits back. -/
theorem withSymbol_encodeParts {T : HuffTable} (hT : builtTable T) {p : Option (Nat × List Bool)} {bits rest : List Bool}
    {next : Nat → List Bool → Nat → DecodeResult} {i : Instr} (he : encodeParts T p = some bits)
    (hnext : ∀ s ext code, p = some (s, ext) → next s (code ++ (ext ++ rest)) code.length = .ok i (code ++ ext).length) :
    withSymbol T (bits ++ rest) next = .ok i bits.length := by
  obtain ⟨s, ext, code, hp, hcode, rfl⟩ := encodeParts_some he
  rw [List.append_assoc, withSymbol_code hT hcode]
  exact hnext s ext code hp

/-- R119: a `CTRL` write. -/
theorem decode_encode_ctrl {i : Instr} {bits : List Bool} (rest : List Bool) (hw : i.wellFormed = true)
    (he : encode .ctrl i = some bits) : decode .ctrl (bits ++ rest) = .ok i bits.length := by
  simp only [encode] at he
  split at he <;> cases he
  · next level =>
    show ctrlInstr true false (BitVec.ofNat 4 (bitsToNat ((fieldBits 4 level.toNat ++ []).take 4))) = _
    rw [read_fieldBits]
    rfl
  · next level =>
    have hlevel : level.toNat ≤ 9 := of_decide_eq_true hw
    show ctrlInstr true true (BitVec.ofNat 4 (bitsToNat ((fieldBits 4 level.toNat ++ []).take 4))) = _
    rw [read_fieldBits, ctrlInstr, if_pos rfl, if_pos rfl, if_pos hlevel]
    rfl

/-- R91, R92: a block header. -/
theorem decode_encode_header {i : Instr} {bits : List Bool} (rest : List Bool) (he : encode .header i = some bits) :
    decode .header (bits ++ rest) = .ok i bits.length := by
  simp only [encode] at he
  split at he <;> cases he <;> rfl

/-- R215: the length fields of a stored block. -/
theorem decode_encode_storedLen {i : Instr} {bits : List Bool} (rest : List Bool) (he : encode .storedLen i = some bits) :
    decode .storedLen (bits ++ rest) = .ok i bits.length := by
  simp only [encode] at he
  split at he <;> cases he
  simp only [decode, List.append_assoc, drop_fieldBits, read_fieldBits]
  rw [if_neg (by simp only [List.length_append, fieldBits_length]; omega), List.length_append, fieldBits_length, fieldBits_length]

/-- R110: the counts of a dynamic block. -/
theorem decode_encode_dynCounts {i : Instr} {bits : List Bool} (rest : List Bool) (he : encode .dynCounts i = some bits) :
    decode .dynCounts (bits ++ rest) = .ok i bits.length := by
  simp only [encode] at he
  split at he <;> cases he
  next hlit hdist hclen =>
    have hdrop : (fieldBits 5 hlit.toNat ++ (fieldBits 5 hdist.toNat ++ (fieldBits 4 hclen.toNat ++ rest))).drop (5 + 5) =
        fieldBits 4 hclen.toNat ++ rest := by
      rw [← List.drop_drop, drop_fieldBits, drop_fieldBits]
    simp only [decode, List.append_assoc, hdrop, drop_fieldBits, read_fieldBits]
    rw [if_neg (by simp only [List.length_append, fieldBits_length]; omega)]
    simp only [List.length_append, fieldBits_length]

/-- R110, R220: one length of the code-length alphabet. -/
theorem decode_encode_dynCll {i : Instr} {bits : List Bool} (rest : List Bool) (he : encode .dynCll i = some bits) :
    decode .dynCll (bits ++ rest) = .ok i bits.length := by
  simp only [encode] at he
  split at he <;> cases he
  exact Sys2Proof.withField_ok 3 [] _ rest .dynCll

/-- Settles O3, one context at a time; in a Huffman context by the walk along the symbol's code. -/
theorem encodeThenDecode : Obligations.EncodeThenDecode := by
  intro c i bits rest hc hw he hrep
  cases c with
  | ctrl => exact decode_encode_ctrl rest hw he
  | header => exact decode_encode_header rest he
  | storedLen => exact decode_encode_storedLen rest he
  | dynCounts => exact decode_encode_dynCounts rest he
  | dynCll => exact decode_encode_dynCll rest he
  | cl T first =>
    refine withSymbol_encodeParts hc he fun s ext code hp => clInstr_ok i s first ext code rest hp ?_
    rintro x ⟨rfl, hx⟩
    exact hrep T x ⟨rfl, hx⟩
  | ll T => exact withSymbol_encodeParts hc he fun s ext code hp => llInstr_ok i hw s ext code rest hp
  | dist T => exact withSymbol_encodeParts hc he fun s ext code hp => distInstr_ok i s ext code rest hp

/-! ## Encoding what was decoded (O4) -/

/-- `i` is well-formed and its encoding in context `c` is the first `used` of `bits`. -/
def ReadAs (c : Ctx) (bits : List Bool) (i : Instr) (used : Nat) : Prop :=
  i.wellFormed = true ∧ used ≤ bits.length ∧ encode c i = some (bits.take used)

/-- R91, R92. -/
theorem decode_header_readAs {bits : List Bool} {i : Instr} {used : Nat} (hd : decode .header bits = .ok i used) :
    ReadAs .header bits i used := by
  simp only [decode] at hd
  split at hd <;> cases hd
  next f b0 b1 rest =>
    refine ⟨?_, by simp, ?_⟩ <;> cases b1 <;> cases b0 <;> rfl

/-- R215. -/
theorem decode_storedLen_readAs {bits : List Bool} {i : Instr} {used : Nat} (hd : decode .storedLen bits = .ok i used) :
    ReadAs .storedLen bits i used := by
  simp only [decode] at hd
  split at hd <;> cases hd
  next hlen =>
    have hlen : 32 ≤ bits.length := Nat.le_of_not_lt hlen
    refine ⟨rfl, hlen, congrArg some ?_⟩
    calc _ = bits.take 16 ++ fieldBits 16 _ := congrArg (· ++ _) (field_take 16 bits 0 (by omega))
      _ = bits.take (16 + 16) := field_take 16 bits 16 hlen

/-- R110. -/
theorem decode_dynCounts_readAs {bits : List Bool} {i : Instr} {used : Nat} (hd : decode .dynCounts bits = .ok i used) :
    ReadAs .dynCounts bits i used := by
  simp only [decode] at hd
  split at hd <;> cases hd
  next hlen =>
    have hlen : 14 ≤ bits.length := Nat.le_of_not_lt hlen
    refine ⟨rfl, hlen, congrArg some ?_⟩
    calc _ = bits.take 5 ++ fieldBits 5 _ ++ fieldBits 4 _ := congrArg (· ++ _ ++ _) (field_take 5 bits 0 (by omega))
      _ = bits.take (5 + 5) ++ fieldBits 4 _ := congrArg (· ++ _) (field_take 5 bits 5 (by omega))
      _ = bits.take (10 + 4) := field_take 4 bits 10 hlen

/-- R110, R220. -/
theorem decode_dynCll_readAs {bits : List Bool} {i : Instr} {used : Nat} (hd : decode .dynCll bits = .ok i used) :
    ReadAs .dynCll bits i used := by
  simp only [decode, withField] at hd
  split at hd <;> cases hd
  next hlen =>
    have hlen : 3 ≤ bits.length := Nat.le_of_not_lt hlen
    exact ⟨rfl, hlen, congrArg some (field_take 3 bits 0 hlen)⟩

/-- R176: what decodes from a symbol is written with the bits read, if its symbol's meaning has the extra bits read as its
parts. -/
theorem withSymbol_inv {T : HuffTable} (hT : builtTable T) {P : Instr → Option (Nat × List Bool)} {bits : List Bool}
    {next : Nat → List Bool → Nat → DecodeResult} {i : Instr} {used : Nat} (hd : withSymbol T bits next = .ok i used)
    (hnext : ∀ s n, n ≤ bits.length → next s bits n = .ok i used →
      i.wellFormed = true ∧ used ≤ bits.length ∧ ∃ ext, P i = some (s, ext) ∧ bits.take n ++ ext = bits.take used) :
    i.wellFormed = true ∧ used ≤ bits.length ∧ encodeParts T (P i) = some (bits.take used) := by
  obtain ⟨s, n, code, hcode, rfl, hn, hd⟩ := withSymbol_ok hT hd
  obtain ⟨hw, hused, ext, hP, htake⟩ := hnext s n hn hd
  refine ⟨hw, hused, ?_⟩
  rw [hP, encodeParts, Option.bind_some, hcode, Option.map_some, htake]

/-- Settles O4, one context at a time; in a Huffman context by the code of the symbol the walk ended at. -/
theorem decodeThenEncode : Obligations.DecodeThenEncode := by
  intro c bits i used hc hctrl hd
  cases c with
  | ctrl => exact absurd rfl hctrl
  | header => exact decode_header_readAs hd
  | storedLen => exact decode_storedLen_readAs hd
  | dynCounts => exact decode_dynCounts_readAs hd
  | dynCll => exact decode_dynCll_readAs hd
  | cl T first => exact withSymbol_inv hc hd fun _ _ => clInstr_inv
  | ll T => exact withSymbol_inv hc hd fun _ _ => llInstr_inv
  | dist T => exact withSymbol_inv hc hd fun _ _ => distInstr_inv

/-! ## Used symbols (O6) -/

/-- R172: a used symbol, with any extra bits, is written with its code length and the extra bits. -/
theorem encodeParts_of_used {T : HuffTable} (hT : builtTable T) {sym : Nat} (hsym : T.lens.getD sym 0 ≠ 0) (extra : List Bool) :
    ∃ bits, encodeParts T (some (sym, extra)) = some bits ∧ bits.length = T.lens.getD sym 0 + extra.length := by
  have hlens : T.lens[sym]? = some (T.lens.getD sym 0) := by
    rw [List.getD_eq_getElem?_getD] at hsym ⊢
    cases h : T.lens[sym]? with
    | none => rw [h] at hsym; exact absurd rfl hsym
    | some l => rfl
  obtain ⟨code, huses⟩ := hT.uses_iff sym _ hlens hsym
  refine ⟨codeBits (T.lens.getD sym 0) code ++ extra, ?_, ?_⟩
  · rw [encodeParts, Option.bind_some, symBits_of_uses hT huses, Option.map_some]
  · rw [List.length_append, codeBits_length]

/-- Settles O6: in each alphabet the instruction's encoding is its symbol's code and its extra bits. -/
theorem usedSymbolsHaveEncodings : Obligations.UsedSymbolsHaveEncodings := by
  intro T i sym extra hT hsym
  obtain ⟨bits, henc, hlen⟩ := encodeParts_of_used hT hsym extra
  refine ⟨fun hp => ⟨bits, ?_, hlen⟩, fun hp => ⟨bits, ?_, hlen⟩, fun hp first => ⟨bits, ?_, hlen⟩⟩
  · rw [encode, hp, henc]
  · rw [encode, hp, henc]
  · rw [encode, hp, henc]

end Sys2Proof.Machine
end

section
/-! The inverse tables of the encoder against the tables of the format (R100 to R103, R253, R254): the obligation O45. -/

namespace Sys2Proof.Machine

/-- The index found below `n` holds an entry at most `v`, and no later entry below `n` is at most `v`. -/
theorem lastIndexLe_spec {table : List Nat} {v : Nat} (h0 : table.getD 0 0 ≤ v) :
    ∀ n, table.getD (lastIndexLe table v n) 0 ≤ v ∧ ∀ k, lastIndexLe table v n < k → k < n → v < table.getD k 0
  | 0 => ⟨h0, fun _ _ hk => absurd hk (Nat.not_lt_zero _)⟩
  | n + 1 => by
    unfold lastIndexLe
    split
    · next hle => exact ⟨hle, fun k hlt hk => absurd hk (by omega)⟩
    · next hnot =>
      obtain ⟨hle, hlast⟩ := lastIndexLe_spec h0 n
      refine ⟨hle, fun k hlt hk => ?_⟩
      rcases Nat.lt_succ_iff_lt_or_eq.mp hk with hk | rfl
      · exact hlast k hlt hk
      · exact Nat.lt_of_not_le hnot

theorem lastIndexLe_lt {table : List Nat} {v n : Nat} (hn : 0 < n) : lastIndexLe table v n < n := by
  induction n with
  | zero => exact absurd hn (Nat.lt_irrefl 0)
  | succ n ih =>
    unfold lastIndexLe
    split
    · exact Nat.lt_succ_self n
    · exact Nat.lt_succ_of_le (lastIndexLe_le table v n)

/-- In a table whose entries follow each other without a gap, each `2 ^ width` above the one before, every value up to the end of
the last entry's range is the entry found for it plus an extra value that fits. -/
theorem lastIndexLe_extra {table : List Nat} {width : Nat → Nat} {n v : Nat} (hn : 0 < n)
    (hstep : ∀ k < n, k + 1 < n → table.getD (k + 1) 0 = table.getD k 0 + 2 ^ width k) (hlo : table.getD 0 0 ≤ v)
    (hhi : v < table.getD (n - 1) 0 + 2 ^ width (n - 1)) :
    ∃ x < 2 ^ width (lastIndexLe table v n), table.getD (lastIndexLe table v n) 0 + x = v := by
  obtain ⟨hle, hlast⟩ := lastIndexLe_spec hlo n
  have hlt : lastIndexLe table v n < n := lastIndexLe_lt hn
  generalize lastIndexLe table v n = k at hle hlast hlt ⊢
  have hnext : v < table.getD k 0 + 2 ^ width k := by
    rcases Nat.lt_or_ge (k + 1) n with hk | hk
    · rw [← hstep k hlt hk]
      exact hlast (k + 1) (Nat.lt_succ_self k) hk
    · rwa [show k = n - 1 by omega]
  exact ⟨v - table.getD k 0, by omega, by omega⟩

/-- R101, R253: lengths. The last index stands for length 258 alone; the others follow each other without a gap. -/
theorem lengthIndex_inverse {len : Nat} (h3 : 3 ≤ len) (h258 : len ≤ 258) :
    (lengthIndex len = 28 ↔ len = 258) ∧
    ∃ x, x < 2 ^ lextra (lengthIndex len) ∧ lengthValue (257 + lengthIndex len) x = len := by
  unfold lengthIndex lengthValue
  rw [Nat.add_sub_cancel_left]
  split
  · next h => exact ⟨iff_of_true rfl h, 0, by decide, h.symm⟩
  · next h =>
    have hlt : lastIndexLe lbaseTable len 28 < 28 := lastIndexLe_lt (by decide)
    exact ⟨iff_of_false hlt.ne h, lastIndexLe_extra (by decide) (by decide) h3 (by show len < 227 + 2 ^ 5; omega)⟩

/-- R103, R254: distances. The indices follow each other without a gap. -/
theorem distanceIndex_inverse {dist : Nat} (h1 : 1 ≤ dist) (hmax : dist ≤ 32768) :
    ∃ y, y < 2 ^ dextra (distanceIndex dist) ∧ distanceValue (distanceIndex dist) y = dist :=
  lastIndexLe_extra (by decide) (by decide) h1 (by show dist < 24577 + 2 ^ 13; omega)

/-- Settles O45: in both tables the entry found for a value is the base of its range. -/
theorem inverseTablesAreInverse : Obligations.InverseTablesAreInverse :=
  ⟨fun len h3 h258 => ⟨lengthIndex_le len, lengthIndex_inverse h3 h258⟩,
    fun _ h1 hmax => ⟨Nat.le_of_lt_succ (lastIndexLe_lt (by decide)), distanceIndex_inverse h1 hmax⟩⟩

end Sys2Proof.Machine
end

section
/-! The two fixed tables (R104, R105) and words of the spec decoded: the obligations O25 and O1. -/

namespace Sys2Proof.Machine

/-- R172: a symbol of length `l` has the first code of its length plus the number of symbols of length `l` before it. -/
theorem canonicalCodes_getElem? {lens : List Nat} (h : ∀ l ∈ lens, l ≤ 15) {v l : Nat} (hv : lens[v]? = some l)
    (hl : l ≠ 0) : (canonicalCodes lens)[v]? =
      some (some ((0 :: firstCodes 0 ((countLengths lens).take 15)).getD l 0 + (lens.take v).count l)) := by
  rw [canonicalCodes, assignCodes_getElem? lens _ v l hv, if_neg hl]
  intro x hx
  have := h x hx
  simp only [List.length_cons, firstCodes_length, List.length_take, countLengths, List.length_map, List.length_range]
  omega

/-- R172, R178 (d): the code bits of a used symbol of a built table, by the first code of its length. -/
theorem builtTable.symBits_eq {T : HuffTable} (hT : builtTable T) {v l first : Nat} (hv : T.lens[v]? = some l) (hl : l ≠ 0)
    (hfirst : (0 :: firstCodes 0 ((countLengths T.lens).take 15)).getD l 0 = first) :
    T.symBits v = some (codeBits l (first + (T.lens.take v).count l)) := by
  have hcode := canonicalCodes_getElem? hT.lens_ok.1 hv hl
  rw [hfirst, ← hT.code_eq] at hcode
  exact symBits_of_uses hT ⟨hv, hcode⟩

theorem builtTable.n_eq {T : HuffTable} (hT : builtTable T) : T.n = T.lens.length :=
  congrArg HuffTable.n ((builtTable_iff T).mp hT).2

set_option maxRecDepth 4000 in
theorem buildTable_fixedLL : buildTable fixedLL [256] = some tableFLL := by decide

theorem buildTable_fixedD : buildTable fixedD [] = some tableFD := by decide

theorem builtTable_fll : builtTable tableFLL := (builtTable_of_buildTable buildTable_fixedLL).1

theorem builtTable_fd : builtTable tableFD := (builtTable_of_buildTable buildTable_fixedD).1

theorem lens_fll : tableFLL.lens = fixedLL := (builtTable_of_buildTable buildTable_fixedLL).2

theorem lens_fd : tableFD.lens = fixedD := (builtTable_of_buildTable buildTable_fixedD).2

theorem length_fixedLL : fixedLL.length = 288 := by
  simp only [fixedLL, List.length_append, List.length_replicate]

set_option maxRecDepth 4000 in
/-- R104: 24 lengths of 7, 152 of 8 and 112 of 9. -/
theorem countLengths_fixedLL : countLengths fixedLL = [0, 0, 0, 0, 0, 0, 0, 24, 152, 112, 0, 0, 0, 0, 0, 0] := by decide

theorem countLengths_fixedD : countLengths fixedD = [0, 0, 0, 0, 0, 30, 0, 0, 0, 0, 0, 0, 0, 0, 0, 0] := by decide

/-- R104: the lengths of the fixed literal/length code, by symbol. -/
theorem getElem?_fixedLL {sym : Nat} (h : sym < 288) :
    fixedLL[sym]? = some (if sym < 144 then 8 else if sym < 256 then 9 else if sym < 280 then 7 else 8) := by
  simp only [fixedLL, List.getElem?_append, List.getElem?_replicate, List.length_append, List.length_replicate]
  split_ifs <;> grind

theorem count_take_fixedLL (sym l : Nat) : (fixedLL.take sym).count l =
    (if 8 = l then min sym 144 + min (sym - 280) 8 else 0) + (if 9 = l then min (sym - 144) 112 else 0) +
      (if 7 = l then min (sym - 256) 24 else 0) := by
  simp only [fixedLL, List.take_append, List.take_replicate, List.count_append, List.count_replicate, List.length_append,
    List.length_replicate, beq_iff_eq]
  split_ifs <;> omega

/-- R172: the code of a symbol of length `l` is `first + before`, by the first code of its length and the number of symbols of its
length before it. -/
theorem symBits_fll {sym l first before : Nat} (hv : fixedLL[sym]? = some l) (hl : l ≠ 0)
    (hfirst : (0 :: firstCodes 0 [0, 0, 0, 0, 0, 0, 0, 24, 152, 112, 0, 0, 0, 0, 0]).getD l 0 = first)
    (hbefore : (fixedLL.take sym).count l = before) : tableFLL.symBits sym = some (codeBits l (first + before)) := by
  rw [← hbefore, ← lens_fll]
  exact builtTable_fll.symBits_eq (by rw [lens_fll, hv]) hl (by rw [lens_fll, countLengths_fixedLL]; exact hfirst)

/-- R104: symbols 0 to 143. -/
theorem symBits_fll_lit0 {sym : Nat} (h : sym < 144) : tableFLL.symBits sym = some (codeBits 8 (0x30 + sym)) := by
  refine symBits_fll ?_ (by decide) rfl ?_
  · rw [getElem?_fixedLL (by omega), if_pos h]
  · rw [count_take_fixedLL]; simp only [Nat.reduceEqDiff, if_true, if_false]; omega

/-- R104: symbols 144 to 255. -/
theorem symBits_fll_lit144 {sym : Nat} (h144 : 144 ≤ sym) (h : sym < 256) :
    tableFLL.symBits sym = some (codeBits 9 (0x190 + (sym - 144))) := by
  refine symBits_fll ?_ (by decide) rfl ?_
  · rw [getElem?_fixedLL (by omega), if_neg (by omega), if_pos h]
  · rw [count_take_fixedLL]; simp only [Nat.reduceEqDiff, if_true, if_false]; omega

/-- R104: symbols 256 to 279. -/
theorem symBits_fll_short {sym : Nat} (h256 : 256 ≤ sym) (h : sym < 280) :
    tableFLL.symBits sym = some (codeBits 7 (sym - 256)) := by
  rw [show sym - 256 = 0 + (sym - 256) by omega]
  refine symBits_fll ?_ (by decide) rfl ?_
  · rw [getElem?_fixedLL (by omega), if_neg (by omega), if_neg (by omega), if_pos h]
  · rw [count_take_fixedLL]; simp only [Nat.reduceEqDiff, if_true, if_false]; omega

/-- R104: symbols 280 to 287. -/
theorem symBits_fll_long {sym : Nat} (h280 : 280 ≤ sym) (h : sym < 288) :
    tableFLL.symBits sym = some (codeBits 8 (0xC0 + (sym - 280))) := by
  rw [show 0xC0 + (sym - 280) = 0x30 + (144 + (sym - 280)) by omega]
  refine symBits_fll ?_ (by decide) rfl ?_
  · rw [getElem?_fixedLL h, if_neg (by omega), if_neg (by omega), if_neg (by omega)]
  · rw [count_take_fixedLL]; simp only [Nat.reduceEqDiff, if_true, if_false]; omega

/-- R105: all thirty distance symbols. -/
theorem symBits_fd {sym : Nat} (h : sym < 30) : tableFD.symBits sym = some (codeBits 5 sym) := by
  have hlens : tableFD.lens[sym]? = some 5 := by rw [lens_fd, fixedD, List.getElem?_replicate, if_pos h]
  have hcount : (tableFD.lens.take sym).count 5 = sym := by
    rw [lens_fd, fixedD, List.take_replicate, List.count_replicate_self, Nat.min_eq_left h.le]
  have hbits := builtTable_fd.symBits_eq (first := 0) hlens (by decide) (by rw [lens_fd, countLengths_fixedD]; rfl)
  rwa [hcount, Nat.zero_add] at hbits

/-- Settles O25, one range of R104 at a time. -/
theorem fixedTableCodes : Obligations.FixedTableCodes :=
  ⟨builtTable_fll.valid, by rw [builtTable_fll.n_eq, lens_fll, length_fixedLL], builtTable_fd.valid,
    by rw [builtTable_fd.n_eq, lens_fd, fixedD, List.length_replicate], fun _ => symBits_fll_lit0, fun _ => symBits_fll_lit144,
    fun _ => symBits_fll_short, fun _ => symBits_fll_long, fun _ => symBits_fd⟩

/-- A literal/length word of a fixed block, its code and its extra bits, is read back. -/
theorem decode_fll_word {bits code ext : List Bool} {sym : Nat} {i : Instr} (hw : i.wellFormed = true)
    (hp : llParts i = some (sym, ext)) (hcode : tableFLL.symBits sym = some code) (hbits : bits = code ++ ext) :
    decode (.ll tableFLL) bits = .ok i bits.length := by
  have he : encode (.ll tableFLL) i = some bits := by
    rw [encode, hp, encodeParts, Option.bind_some, hcode, Option.map_some, hbits]
  have hd := encodeThenDecode (.ll tableFLL) i bits [] builtTable_fll hw he fun _ _ h => nomatch h.1
  rwa [List.append_nil] at hd

/-- Settles O1: the words of the fixed literal/length code by their symbols' codes, all others by evaluation. -/
theorem sampleWordsDecode : Obligations.SampleWordsDecode := by
  refine ⟨rfl, rfl, rfl, rfl, rfl, rfl, rfl, ?_, ?_, ?_, ?_, ?_, by decide, by decide, rfl, rfl⟩
  · exact decode_fll_word (sym := 0x61) rfl rfl (symBits_fll_lit0 (by decide)) rfl
  · exact decode_fll_word (sym := 0xFF) rfl rfl (symBits_fll_lit144 (by decide) (by decide)) rfl
  · exact decode_fll_word (sym := 256) rfl rfl (symBits_fll_short (by decide) (by decide)) rfl
  · exact decode_fll_word (sym := 269) rfl rfl (symBits_fll_short (by decide) (by decide)) rfl
  · exact decode_fll_word (sym := 286) rfl rfl (symBits_fll_long (by decide) (by decide)) rfl

end Sys2Proof.Machine
end

section
/-! The Bit Reader's operations (R131 to R136): the obligations O10, O11, O13 and O12. -/

namespace Sys2Proof.Machine

/-! ## Runs of stream bits as values -/

@[simp] theorem streamBits_length (s : State) (p n : Nat) : (streamBits s p n).length = n := by
  rw [streamBits, List.length_map, List.length_range]

/-- R132: a run of `a + b` stream bits is a run of `a` bits and the run of `b` bits that follows it. -/
theorem streamBits_add (s : State) (p a b : Nat) : streamBits s p (a + b) = streamBits s p a ++ streamBits s (p + a) b := by
  simp only [streamBits, List.range_add, List.map_append, List.map_map, Function.comp_def, Nat.add_assoc]

/-- R131: bit `i` of the value of a run is the run's stream bit `i`. -/
theorem testBit_streamBits (s : State) (p : Nat) {n i : Nat} (h : i < n) :
    (bitsToNat (streamBits s p n)).testBit i = streamBit s (p + i) := by
  rw [testBit_bitsToNat, List.getD_eq_getElem?_getD, getElem?_streamBits, if_pos h, Option.getD_some]

/-- The value of a run of `n` stream bits is below `2 ^ n`. -/
theorem bitsToNat_streamBits_lt (s : State) (p n : Nat) : bitsToNat (streamBits s p n) < 2 ^ n := by
  simpa only [streamBits_length] using bitsToNat_lt (streamBits s p n)

/-- R70: the value of a run of `a + b` bits has the value of the first `a` bits below that of the last `b`. -/
theorem bitsToNat_streamBits_add (s : State) (p a b : Nat) :
    bitsToNat (streamBits s p (a + b)) = bitsToNat (streamBits s p a) + bitsToNat (streamBits s (p + a) b) <<< a := by
  rw [streamBits_add, bitsToNat_append, streamBits_length, Nat.shiftLeft_eq, Nat.mul_comm]

/-- R8: the eight stream bits of byte `a` of `IN` have that byte as their value. -/
theorem bitsToNat_streamBits_byte (s : State) (a : Nat) : bitsToNat (streamBits s (8 * a) 8) = (inByte s a).toNat := by
  have hbits : ∀ i < 8, streamBit s (8 * a + i) = (inByte s a).toNat.testBit i := by
    intro i hi
    rw [streamBit, show (8 * a + i) / 8 = a by omega, show (8 * a + i) % 8 = i by omega, BitVec.testBit_toNat]
  refine Nat.eq_of_testBit_eq fun i => ?_
  rcases Nat.lt_or_ge i 8 with hi | hi
  · rw [testBit_streamBits s _ hi, hbits i hi]
  · have hpow : 2 ^ 8 ≤ 2 ^ i := Nat.pow_le_pow_right (by decide) hi
    rw [Nat.testBit_lt_two_pow ((bitsToNat_streamBits_lt s _ 8).trans_le hpow),
      Nat.testBit_lt_two_pow ((inByte s a).isLt.trans_le hpow)]

/-! ## `read_bits` (R131, R136) -/

/-- R131: a width that a read has leaves the question whether there are enough unread bits. -/
theorem readBits_of_width {n : Nat} (s : State) (h1 : 1 ≤ n) (h16 : n ≤ 16) :
    readBits n s = if unreadBits s < n then .raise .unexpectedEnd s
      else .ok (bitsToNat (streamBits s (streamPos s) n)) (advance n s) := by
  have hwidth : ¬ (n = 0 ∨ Config.rdMax < n) := by rw [Config.rdMax]; omega
  rw [readBits, if_neg hwidth]

/-- R131: with `n` bits unread, their value, and the cursor `n` bits on. -/
theorem exec_readBits_of_unread {n : Nat} {s : State} (h1 : 1 ≤ n) (h16 : n ≤ 16) (h : n ≤ unreadBits s) :
    exec (.readBits n) s = .next { advance n s with ret := .num (bitsToNat (streamBits s (streamPos s) n)) } := by
  rw [exec, execReadBits, readBits_of_width s h1 h16, if_neg (Nat.not_lt.mpr h)]
  rfl

/-- R131: with fewer bits unread. -/
theorem exec_readBits_of_short {n : Nat} {s : State} (h1 : 1 ≤ n) (h16 : n ≤ 16) (h : unreadBits s < n) :
    exec (.readBits n) s = .next (raiseError .unexpectedEnd s) := by
  rw [exec, execReadBits, readBits_of_width s h1 h16, if_pos h]
  rfl

/-- R136: the widths that no read has. -/
theorem exec_readBits_of_no_width {n : Nat} (s : State) (h : n = 0 ∨ 16 < n) :
    exec (.readBits n) s = .refused .outsideContract := by
  have hwidth : n = 0 ∨ Config.rdMax < n := h
  rw [exec, execReadBits, readBits, if_pos hwidth]
  rfl

/-- Settles O10: the three outcomes of a read; the value's bits are the stream bits of the run at the cursor. -/
theorem readBitsReturnsNextBits : Obligations.ReadBitsReturnsNextBits := by
  refine fun n s => ⟨fun h1 h16 hunread => ?_, exec_readBits_of_short, exec_readBits_of_no_width s⟩
  exact ⟨_, bitsToNat_streamBits_lt s (streamPos s) n, fun _ => testBit_streamBits s (streamPos s),
    exec_readBits_of_unread h1 h16 hunread⟩

/-- R132: a read from a cursor `a` bits on, whatever was returned on the way there. -/
theorem exec_readBits_of_advanced {a b : Nat} {s : State} (v : Ret) (hb : 1 ≤ b) (h16 : b ≤ 16) (h : a + b ≤ unreadBits s) :
    exec (.readBits b) { advance a s with ret := v } =
      .next { advance (a + b) s with ret := .num (bitsToNat (streamBits s (streamPos s + a) b)) } := by
  have hpos : streamPos { advance a s with ret := v } = streamPos s + a := streamPos_advance a s
  have hrest : b ≤ unreadBits { advance a s with ret := v } := by
    have : unreadBits { advance a s with ret := v } = unreadBits s - a := unreadBits_advance a s (by omega)
    omega
  rw [exec_readBits_of_unread hb h16 hrest, advance, hpos, Nat.add_assoc]
  rfl

/-- Settles O11: the second read returns the run that follows the first one's, and leaves the cursor at the end of both. -/
theorem readBitsSplits : Obligations.ReadBitsSplits := by
  intro a b s ha hb h16 (hunread : a + b ≤ unreadBits s)
  refine ⟨_, _, _, _, exec_readBits_of_unread ha (by omega) (by omega), rfl,
    exec_readBits_of_advanced _ hb (by omega) hunread, rfl, ?_⟩
  rw [exec_readBits_of_unread (by omega) h16 hunread, bitsToNat_streamBits_add]

/-! ## `read_byte` (R135) -/

/-- R135: before the end of the input. -/
theorem exec_readByte_of_lt {s : State} (h : s.rd.byte < s.rd.len) :
    exec .readByte s = .next { s with
      rd := { s.rd with byte := s.rd.byte + 1 }, ret := .num (inByte s s.rd.byte).toNat } := by
  rw [exec, execReadByte, readByte, if_neg (Nat.not_le.mpr h)]
  rfl

/-- R135: at the end of the input. -/
theorem exec_readByte_of_end {s : State} (h : s.rd.len ≤ s.rd.byte) :
    exec .readByte s = .next (raiseError .unexpectedEnd s) := by
  rw [exec, execReadByte, readByte, if_pos h]
  rfl

/-- From a byte boundary, eight bits on is one byte on. -/
theorem advance_eight {s : State} (h : s.rd.bit = 0) :
    advance 8 s = { s with rd := { s.rd with byte := s.rd.byte + 1 } } := by
  have hbyte : (streamPos s + 8) / 8 = s.rd.byte + 1 := by rw [streamPos]; omega
  have hbit : (streamPos s + 8) % 8 = s.rd.bit := by rw [streamPos]; omega
  rw [advance, hbyte, hbit]

/-- Settles O13: at a byte boundary the eight bits read are those of the byte at the cursor. -/
theorem readByteIsReadBitsEight : Obligations.ReadByteIsReadBitsEight := by
  refine fun s hbit => ⟨fun hlt => ⟨exec_readByte_of_lt hlt, ?_⟩, exec_readByte_of_end⟩
  have hunread : 8 ≤ unreadBits s := by rw [unreadBits]; omega
  have hpos : streamPos s = 8 * s.rd.byte := by rw [streamPos, hbit, Nat.add_zero]
  rw [exec_readBits_of_unread (by decide) (by decide) hunread, exec_readByte_of_lt hlt, advance_eight hbit, hpos,
    bitsToNat_streamBits_byte]

/-! ## `rd_align` and `has_data` (R133, R134) -/

/-- R133: the cursor alone moves. -/
theorem rdAlign_eq (s : State) :
    rdAlign s = { s with rd := if s.rd.bit ≠ 0 then ⟨s.rd.byte + 1, 0, s.rd.len⟩ else s.rd } := by
  rw [rdAlign]
  split <;> rfl

/-- R28, R130: with a cursor in the input, a byte is left exactly if a bit is unread. -/
theorem byte_lt_len_iff_unreadBits_pos {s : State} (h : readerOk s) : s.rd.byte < s.rd.len ↔ 0 < unreadBits s := by
  obtain ⟨hbit, -, -⟩ := h
  rw [unreadBits]
  omega

/-- Settles O12: what each operation leaves, and what `has_data` says of a cursor in the input. -/
theorem readerAlignAndHasData : Obligations.ReaderAlignAndHasData := by
  refine fun s => ⟨?_, rfl, byte_lt_len_iff_unreadBits_pos⟩
  rw [exec, execRdAlign, rdAlign_eq]
  rfl

end Sys2Proof.Machine
end

section
/-! The Bit Writer's operations (R151 to R156): the obligations O15, O16, O17 and O18. -/

namespace Sys2Proof.Machine

/-! ## An instruction that is a writing operation -/

/-- The bits written so far are as many as their count (R150). -/
theorem writtenBits_length (s : State) : (writtenBits s).length = writtenCount s := by
  rw [writtenBits, List.length_append, bytesToBits_length, fieldBits_length, outBytes, List.length_map, List.length_range,
    writtenCount]

/-- R151: an instruction whose meaning is an operation that writes bits completes where the writer is ready for them. -/
theorem Writes.completes {bits : Nat → List Bool} {f : State → Res Unit} {i : Instr} {s : State} (hf : Writes bits f)
    (hi : exec i s = ((f s).bind fun _ t => Res.ok Ret.none t).toReturn)
    (hs : writerReady (bits (writtenCount s)).length s) : writesBits i (bits (writtenCount s)) s := by
  obtain ⟨hfin, hok, hroom⟩ := hs
  obtain ⟨t, ht, hwrote, htouch⟩ := (hf s hfin hok).1 hroom
  refine ⟨t.outBuf, t.outLen, t.wr.acc, t.wr.cnt, { t with ret := .none }, ?_, by rw [hi, ht]; rfl, hwrote.form,
    hwrote.written, hwrote.frame⟩
  rw [← hwrote.finished]
  conv_lhs => rw [htouch]

/-- R151, R408: an instruction that begins with an operation that writes more than fits ends the call, whatever was to follow. -/
theorem Writes.overflows {bits : Nat → List Bool} {f : State → Res Unit} {g : Unit → State → Res Ret} {i : Instr} {s : State}
    (hf : Writes bits f) (hi : exec i s = ((f s).bind g).toReturn) (hb : s.status.state = .busy)
    (hfin : s.wr.finished = false) (hok : writerOk s) (hle : s.outLen ≤ s.outMax)
    (hroom : ¬ roomFor ((s.wr.cnt + (bits (writtenCount s)).length) / 8) s) :
    ∃ t, exec i s = .next t ∧ abortedWith .outputOverflow s t := by
  obtain ⟨t, ht, htouch⟩ := (hf s hfin hok).2 hroom hle
  exact ⟨raiseError .outputOverflow t, by rw [hi, ht]; rfl, htouch.aborted hb _⟩

/-! ## `write_bits`, `write_code` and `write_byte` (R151, R152, R154) -/

/-- R151: the widths that no field has. -/
theorem exec_writeBits_of_no_width (value : Nat) {n : Nat} (s : State) (h : n = 0 ∨ 16 < n) :
    exec (.writeBits value n) s = .refused .outsideContract := by
  have hwidth : n = 0 ∨ Config.rdMax < n := h
  rw [exec, execWriteBits, writeBits, if_pos hwidth]
  rfl

/-- R151: a field written where the writer is ready for it. -/
theorem writesBits_writeBits {value n : Nat} {s : State} (h1 : 1 ≤ n) (h16 : n ≤ 16) (hs : writerReady n s) :
    writesBits (.writeBits value n) (fieldBits n value) s :=
  (writes_bits value n h1 h16).completes rfl (by rwa [fieldBits_length])

/-- R152: the bits of the code that WRITE_CODE writes, on any operands. -/
theorem writesBits_writeCode {code len : Nat} {s : State} (hs : writerReady len s) :
    writesBits (.writeCode code len) (codeBits len (writtenCode code len)) s :=
  (writes_writtenCode code len).completes rfl (by rwa [codeBits_length])

/-- R154: a byte written where the writer is ready for it. -/
theorem writesBits_writeByte {b : Byte} {s : State} (hs : writerReady 8 s) :
    writesBits (.writeByte b) (fieldBits 8 b.toNat) s :=
  (writes_byte b).completes rfl (by rwa [fieldBits_length])

/-- Settles O15: within the widths by what every writing operation does, outside them by the refusal. -/
theorem writeBitsAppendsField : Obligations.WriteBitsAppendsField :=
  fun value _ s => ⟨writesBits_writeBits, exec_writeBits_of_no_width value s⟩

/-- R151: bits that just fill the partial byte are appended with it as one byte. -/
theorem each_writeBit_of_fill : ∀ (bits : List Bool) (s : State), s.wr.cnt ≤ 7 → s.wr.cnt + bits.length = 8 →
    s.outLen.toNat < s.outMax.toNat →
    Res.each writeBit bits s = .ok () { s with
      outBuf := s.outBuf.write s.outLen.toNat (s.wr.acc + BitVec.ofNat 8 (bitsToNat bits <<< s.wr.cnt))
      outLen := s.outLen + 1, wr := ⟨0, 0, s.wr.finished⟩ } := by
  intro bits
  induction bits with
  | nil => intro s hcnt hlen _; rw [List.length_nil] at hlen; omega
  | cons b bits ih =>
    intro s hcnt hlen hroom
    rw [List.length_cons] at hlen
    by_cases h7 : s.wr.cnt = 7
    · obtain rfl : bits = [] := List.eq_nil_of_length_eq_zero (by omega)
      simp [Res.each, writeBit, h7, appendByte_eq, hroom, bitsToNat]
    · have hacc : s.wr.acc + BitVec.ofNat 8 (b.toNat <<< s.wr.cnt) + BitVec.ofNat 8 (bitsToNat bits <<< (s.wr.cnt + 1)) =
          s.wr.acc + BitVec.ofNat 8 (bitsToNat (b :: bits) <<< s.wr.cnt) := by
        rw [BitVec.add_assoc, ← BitVec.ofNat_add, bitsToNat]
        simp only [Nat.shiftLeft_eq, Nat.pow_succ]
        congr 2
        ring
      rw [Res.each, writeBit, if_neg h7, Res.bind_ok, ← hacc]
      exact ih _ (by show s.wr.cnt + 1 ≤ 7; omega) (by show s.wr.cnt + 1 + bits.length = 8; omega) hroom

/-- R150: at a byte boundary the partial byte is empty. -/
theorem wr_of_boundary {s : State} (hok : writerOk s) (hcnt : s.wr.cnt = 0) : s.wr = ⟨0, 0, s.wr.finished⟩ := by
  have hacc : s.wr.acc = 0 := by
    have hlt := hok.2
    rw [hcnt, Nat.pow_zero, Nat.lt_one_iff] at hlt
    exact BitVec.eq_of_toNat_eq hlt
  rw [← hcnt, ← hacc]

/-- R154: at a byte boundary the eight bits of a byte are the whole of one append. -/
theorem exec_writeByte_of_boundary {b : Byte} {s : State} (hs : writerReady 8 s) (hcnt : s.wr.cnt = 0) :
    exec (.writeByte b) s = exec (.outAppend b) s := by
  obtain ⟨hfin, hok, hroom⟩ := hs
  have hlt : s.outLen.toNat < s.outMax.toNat := by
    have hbytes : (s.wr.cnt + 8) / 8 = 1 := by omega
    rw [roomFor, hbytes] at hroom
    exact hroom
  have hwr := wr_of_boundary hok hcnt
  have hbyte : s.wr.acc + BitVec.ofNat 8 (bitsToNat (fieldBits 8 b.toNat) <<< s.wr.cnt) = b := by
    rw [hwr, bitsToNat_fieldBits_of_lt b.isLt]
    simp
  have hwrite : writeByte b s = .ok () { s with outBuf := s.outBuf.write s.outLen.toNat b, outLen := s.outLen + 1 } := by
    rw [writeByte, writeBits, if_neg (by decide), if_neg (by simp [hfin]),
      each_writeBit_of_fill _ s (by omega) (by rw [hcnt, fieldBits_length]) hlt, hbyte, ← hwr]
  rw [exec_outAppend_of_room b hlt, exec, execWriteByte, hwrite, outLen_succ_eq hlt]
  rfl

/-- Settles O16: outside its ranges the code that WRITE_CODE writes is the free value (log 16). -/
theorem writeCodeAndByteAppend : Obligations.WriteCodeAndByteAppend := by
  refine ⟨fun code len s _ h15 hcode hs => ?_, fun code len _ => ?_, fun _ _ => writesBits_writeByte,
    fun _ _ => exec_writeByte_of_boundary⟩
  · have h := writesBits_writeCode (code := code) hs
    rwa [writtenCode_of_ranges code len h15 hcode] at h
  · exact ⟨writtenCode code len, writtenCode_lt code len, fun _ => writesBits_writeCode⟩

/-! ## `wr_align` and `finish` (R153, R155) -/

/-- R153: in a partial byte the next byte boundary is `8 - WR.cnt` bits on. -/
theorem padBits_writtenCount {s : State} (hok : writerOk s) :
    padBits (writtenCount s) = List.replicate ((8 - s.wr.cnt) % 8) false := by
  have hcnt := hok.1
  rw [padBits, writtenCount]
  congr 1
  omega

/-- R153: the padding completes one byte exactly if a byte is partial. -/
theorem padBits_completes {s : State} (hok : writerOk s) :
    (s.wr.cnt + (padBits (writtenCount s)).length) / 8 = if s.wr.cnt = 0 then 0 else 1 := by
  have hcnt := hok.1
  rw [padBits_writtenCount hok, List.length_replicate]
  split <;> omega

/-- R153: an alignment with room for the byte that it completes, if any. -/
theorem wrAlign_of_room {s : State} (hfin : s.wr.finished = false) (hok : writerOk s) (hroom : s.wr.cnt ≠ 0 → roomFor 1 s) :
    ∃ t, wrAlign s = .ok () t ∧ Wrote (padBits (writtenCount s)) s t ∧ Touches s t := by
  by_cases hcnt : s.wr.cnt = 0
  · have hpad : padBits (writtenCount s) = [] := by rw [padBits_writtenCount hok, hcnt]; rfl
    refine ⟨s, by simp [wrAlign, hfin, hcnt], ?_, Touches.refl s⟩
    rw [hpad]
    exact Wrote.refl hok
  · refine (writes_align s hfin hok).1 ?_
    rw [padBits_completes hok, if_neg hcnt]
    exact hroom hcnt

/-- R153: after an alignment no byte is partial. -/
theorem Wrote.aligned {s t : State} (h : Wrote (padBits (writtenCount s)) s t) : t.wr = ⟨0, 0, s.wr.finished⟩ := by
  have hcount := h.count
  have hform := h.form.1
  rw [padBits_length, writtenCount, writtenCount] at hcount
  rw [← h.finished]
  exact wr_of_boundary h.form (by omega)

/-- R155: `finish()` is an alignment, after which the writer is retired and the length answered. -/
theorem exec_finish (s : State) : exec .finish s = ((wrAlign s).bind fun _ t =>
    Res.ok (Ret.num t.outLen.toNat) { t with wr := { t.wr with finished := true } }).toReturn := by
  rw [exec, execFinish, finish]
  cases wrAlign s <;> rfl

/-- R155: `finish()` leaves the padded bits in `OUT`, retires the writer and answers the length. -/
theorem exec_finish_of_room {s : State} (hfin : s.wr.finished = false) (hok : writerOk s)
    (hroom : s.wr.cnt ≠ 0 → roomFor 1 s) :
    ∃ (m : Memory) (len : Len) (t : State),
      t = { s with outBuf := m, outLen := len, wr := ⟨0, 0, true⟩, ret := .num len.toNat } ∧ exec .finish s = .next t ∧
      bytesToBits (outBytes t) = writtenBits s ++ padBits (writtenCount s) ∧ outFrame s.outLen.toNat len.toNat s t := by
  obtain ⟨t, ht, hwrote, htouch⟩ := wrAlign_of_room hfin hok hroom
  have hwr := hwrote.aligned
  have hbits : bytesToBits (outBytes t) = writtenBits t := by rw [writtenBits, hwr]; exact (List.append_nil _).symm
  refine ⟨t.outBuf, t.outLen, { t with wr := { t.wr with finished := true }, ret := .num t.outLen.toNat }, ?_,
    by rw [exec_finish, ht]; rfl, hbits.trans hwrote.written, hwrote.frame⟩
  rw [hwr]
  conv_lhs => rw [htouch]

/-- Settles O18: the padding is the bits up to the next byte boundary, none from one. -/
theorem writerAlignAndFinish : Obligations.WriterAlignAndFinish := by
  intro s hfin hok
  have hpad := padBits_writtenCount hok
  refine ⟨fun hcnt => ?_, fun hcnt hroom => ?_, fun hroom => ?_⟩
  · simp [exec, execWrAlign, wrAlign, hfin, hcnt, Res.toReturn]
  · have hmod : (8 - s.wr.cnt) % 8 = 8 - s.wr.cnt := Nat.mod_eq_of_lt (by omega)
    rw [← hmod, ← hpad]
    refine writes_align.completes rfl ⟨hfin, hok, ?_⟩
    rwa [padBits_completes hok, if_neg hcnt]
  · rw [← hpad]
    exact exec_finish_of_room hfin hok hroom

/-! ## Writing more than fits (R408) -/

/-- Settles O17: each operation raises, having touched the output alone, and a raise in a call is the abort of R410. -/
theorem writerOverflowEndsCall : Obligations.WriterOverflowEndsCall := by
  intro s hb hfin hok hle
  refine ⟨fun value n h1 h16 hroom => ?_, fun code len hroom => ?_, fun b hroom => ?_, fun hcnt hroom => ?_⟩
  · exact (writes_bits value n h1 h16).overflows rfl hb hfin hok hle (by rwa [fieldBits_length])
  · exact (writes_writtenCode code len).overflows rfl hb hfin hok hle (by rwa [codeBits_length])
  · have hbytes : (s.wr.cnt + 8) / 8 = 1 := by have hcnt := hok.1; omega
    exact (writes_byte b).overflows rfl hb hfin hok hle (by rwa [fieldBits_length, hbytes])
  · have hpad : ¬ roomFor ((s.wr.cnt + (padBits (writtenCount s)).length) / 8) s := by
      rwa [padBits_completes hok, if_neg hcnt]
    exact ⟨writes_align.overflows rfl hb hfin hok hle hpad, writes_align.overflows (exec_finish s) hb hfin hok hle hpad⟩

end Sys2Proof.Machine
end

section
/-! The mirror law (R157): the obligation O20. -/

namespace Sys2Proof.Machine

/-! ## The bits of the items -/

/-- The bits that an item takes from stream position `p` on: the field's, or the zeros up to the next byte boundary. -/
def BitItem.bits (p : Nat) : BitItem → List Bool
  | .field value n => fieldBits n value
  | .align => padBits p

/-- The bits that the items take, the first of them from stream position `p` on. -/
def itemsBits : (p : Nat) → List BitItem → List Bool
  | _, [] => []
  | p, i :: items => i.bits p ++ itemsBits (p + (i.bits p).length) items

/-- The bits of the items reach to the stream position after them. -/
theorem itemsEnd_eq : ∀ (items : List BitItem) (p : Nat), itemsEnd p items = p + (itemsBits p items).length := by
  intro items
  induction items with
  | nil => intro p; rfl
  | cons i items ih =>
    intro p
    rw [itemsBits, List.length_append, ← Nat.add_assoc, ← ih]
    cases i with
    | field value n => rw [itemsEnd, BitItem.bits, fieldBits_length]
    | align => rw [itemsEnd, BitItem.bits, padBits_length]; congr 1; omega

/-! ## The writer -/

/-- R151, R153: an item's operation writes the item's bits where the writer is ready for them. -/
theorem BitItem.writesBits_write {i : BitItem} {s : State} (hi : i.ok)
    (hs : writerReady (i.bits (writtenCount s)).length s) : writesBits i.write (i.bits (writtenCount s)) s := by
  cases i with
  | field value n => exact (writes_bits value n hi.1 hi.2).completes rfl hs
  | align => exact writes_align.completes rfl hs

/-- R157: where the items fit, the writer performs them and finishes, and their bits follow those written before, padded with
zeros to a byte boundary. -/
theorem execAll_items : ∀ (items : List BitItem) (s : State), (∀ i ∈ items, i.ok) → s.wr.finished = false → writerOk s →
    (itemsEnd (writtenCount s) items + 7) / 8 ≤ s.outMax.toNat →
    ∃ t, execAll (items.map BitItem.write ++ [.finish]) s = .next t ∧
      bytesToBits (outBytes t) =
        writtenBits s ++ (itemsBits (writtenCount s) items ++ padBits (itemsEnd (writtenCount s) items)) := by
  intro items
  induction items with
  | nil =>
    intro s _ hfin hok hfit
    rw [itemsEnd, writtenCount] at hfit
    obtain ⟨_, _, t, -, ht, hbits, -⟩ := exec_finish_of_room hfin hok fun hcnt => by rw [roomFor]; omega
    exact ⟨t, by simp only [List.map_nil, List.nil_append, execAll, ht], hbits⟩
  | cons i items ih =>
    intro s hitems hfin hok hfit
    have hend := itemsEnd_eq (i :: items) (writtenCount s)
    rw [itemsBits, List.length_append, ← Nat.add_assoc] at hend
    have hroom : roomFor ((s.wr.cnt + (i.bits (writtenCount s)).length) / 8) s := by
      rw [roomFor]
      have hcount : writtenCount s = 8 * s.outLen.toNat + s.wr.cnt := rfl
      omega
    obtain ⟨m, len, acc, cnt, u, hu, hexec, huok, hwritten, -⟩ :=
      BitItem.writesBits_write (hitems i List.mem_cons_self) ⟨hfin, hok, hroom⟩
    have hcount : writtenCount u = writtenCount s + (i.bits (writtenCount s)).length := by
      rw [← writtenBits_length, ← writtenBits_length, hwritten, List.length_append, writtenBits_length]
    have hrest : itemsEnd (writtenCount u) items = itemsEnd (writtenCount s) (i :: items) := by
      rw [hend, itemsEnd_eq, hcount]
    obtain ⟨t, ht, hbits⟩ := ih u (fun j hj => hitems j (List.mem_cons_of_mem i hj)) (by rw [hu]; exact hfin) huok
      (by rw [hrest, hu]; exact hfit)
    refine ⟨t, ?_, ?_⟩
    · simp only [List.map_cons, List.cons_append, execAll, hexec]
      exact ht
    · rw [hbits, hwritten, hrest, hcount, itemsBits]
      simp only [List.append_assoc]

/-! ## The reader -/

/-- R130: the unread bits. -/
def unread (s : State) : List Bool := streamBits s (streamPos s) (unreadBits s)

@[simp] theorem unread_length (s : State) : (unread s).length = unreadBits s := streamBits_length _ _ _

/-- R8: the stream bits of whole bytes of `IN`. -/
theorem streamBits_inBytes (s : State) (n : Nat) : streamBits s 0 (8 * n) = bytesToBits (inBytes s 0 n) := by
  refine List.ext_getElem? fun p => ?_
  rw [getElem?_streamBits, getElem?_bytesToBits, inBytes, List.getElem?_map]
  by_cases hp : p < 8 * n
  · rw [if_pos hp, List.getElem?_range (by omega)]
    simp [streamBit]
  · rw [if_neg hp, List.getElem?_eq_none (by rw [List.length_range]; omega)]
    rfl

/-- R131: where the unread bits begin with `a`, those are the next bits, and the others are unread behind them. -/
theorem unread_split {s : State} {a b : List Bool} (h : unread s = a ++ b) :
    a.length ≤ unreadBits s ∧ streamBits s (streamPos s) a.length = a ∧ unread (advance a.length s) = b := by
  have hlen := congrArg List.length h
  rw [unread_length, List.length_append] at hlen
  have hle : a.length ≤ unreadBits s := by omega
  rw [unread, show unreadBits s = a.length + b.length from hlen, streamBits_add] at h
  obtain ⟨ha, hb⟩ := List.append_inj h (by rw [streamBits_length])
  refine ⟨hle, ha, ?_⟩
  rw [unread, streamPos_advance, unreadBits_advance _ s hle, hlen, Nat.add_sub_cancel_left]
  exact hb

/-- R133: the reader aligns by moving past as many bits as the writer pads. -/
theorem rdAlign_eq_advance {s : State} (h : s.rd.bit ≤ 7) : rdAlign s = advance (padBits (streamPos s)).length s := by
  rw [rdAlign_eq, advance, padBits_length, streamPos]
  by_cases hbit : s.rd.bit = 0
  · have hn : (8 - (8 * s.rd.byte + s.rd.bit) % 8) % 8 = 0 := by omega
    have hbyte : (8 * s.rd.byte + s.rd.bit + 0) / 8 = s.rd.byte := by omega
    have hrest : (8 * s.rd.byte + s.rd.bit + 0) % 8 = s.rd.bit := by omega
    rw [if_neg (not_not.mpr hbit), hn, hbyte, hrest]
  · have hn : 8 * s.rd.byte + s.rd.bit + (8 - (8 * s.rd.byte + s.rd.bit) % 8) % 8 = 8 * (s.rd.byte + 1) := by omega
    rw [if_pos hbit, hn, Nat.mul_div_cancel_left _ (by decide), Nat.mul_mod_right]

/-- R157: a reader whose unread bits begin with the items' bits reads the items back, and then the others are unread. -/
theorem readsBack_items (rest : List Bool) : ∀ (items : List BitItem) (r : State), (∀ i ∈ items, i.ok) → r.rd.bit ≤ 7 →
    unread r = itemsBits (streamPos r) items ++ rest → ∃ u, readsBack items r u ∧ unread u = rest := by
  intro items
  induction items with
  | nil => intro r _ _ h; exact ⟨r, rfl, h⟩
  | cons i items ih =>
    intro r hitems hbit h
    rw [itemsBits, List.append_assoc] at h
    obtain ⟨hle, hbits, hunread⟩ := unread_split h
    have hnext : ∀ v, ∃ u, readsBack items { advance (i.bits (streamPos r)).length r with ret := v } u ∧ unread u = rest := by
      intro v
      refine ih _ (fun j hj => hitems j (List.mem_cons_of_mem i hj)) ?_ ?_
      · exact Nat.le_of_lt_succ (Nat.mod_lt _ (by decide))
      · rw [← streamPos_advance] at hunread
        exact hunread
    cases i with
    | field value n =>
      obtain ⟨h1, h16⟩ : 1 ≤ n ∧ n ≤ 16 := hitems _ List.mem_cons_self
      simp only [BitItem.bits, fieldBits_length] at hle hbits hnext
      obtain ⟨u, hu, hrest⟩ := hnext (.num (value % 2 ^ n))
      refine ⟨u, ⟨_, ?_, rfl, hu⟩, hrest⟩
      rw [exec_readBits_of_unread h1 h16 hle, hbits, bitsToNat_fieldBits]
    | align =>
      obtain ⟨u, hu, hrest⟩ := hnext .none
      refine ⟨u, ⟨_, ?_, hu⟩, hrest⟩
      rw [exec, execRdAlign, rdAlign_eq_advance hbit]
      rfl

/-- Settles O20: the bytes of the finished writer are the items' bits and the padding, which the reader meets in that order. -/
theorem readerMirrorsWriter : Obligations.ReaderMirrorsWriter := by
  intro items w hitems hwr hlen hfit
  have hcount : writtenCount w = 0 := by rw [writtenCount, hwr, hlen]; rfl
  have hnone : writtenBits w = [] := List.eq_nil_of_length_eq_zero (by rw [writtenBits_length, hcount])
  obtain ⟨t, ht, hbits⟩ := execAll_items items w hitems (by rw [hwr]) (by rw [writerOk, hwr]; decide) (by rwa [hcount])
  rw [hnone, List.nil_append, hcount] at hbits
  refine ⟨t, ht, fun r hr hin => ?_⟩
  have hbytes : inBytes r 0 t.outLen.toNat = outBytes t := by
    refine List.map_congr_left fun a ha => ?_
    rw [Nat.zero_add, hin a (List.mem_range.mp ha)]
  have hpos : streamPos r = 0 := by rw [streamPos, hr]; rfl
  have hunread : unread r = itemsBits (streamPos r) items ++ padBits (itemsEnd 0 items) := by
    have hn : unreadBits r = 8 * t.outLen.toNat := by rw [unreadBits, hr]; rfl
    rw [unread, hpos, hn, streamBits_inBytes, hbytes, hbits]
  obtain ⟨u, hu, hrest⟩ := readsBack_items _ items r hitems (by rw [hr]; exact Nat.zero_le 7) hunread
  have hpad := congrArg List.length hrest
  rw [unread_length, padBits_length] at hpad
  refine ⟨u, hu, ?_, fun k hk => ?_⟩
  · rw [show 8 * (u.rd.len - u.rd.byte) - u.rd.bit = _ from hpad]
    exact Nat.mod_lt _ (by decide)
  · have hk : k < unreadBits u := hk
    have hbit := congrArg (·[k]?) hrest
    simp only [unread, getElem?_streamBits, padBits, List.getElem?_replicate] at hbit
    rw [if_pos hk, if_pos (hpad ▸ hk)] at hbit
    exact Option.some.inj hbit

end Sys2Proof.Machine
end

section
/-! The length arrays that a table is built from, the canonical codes (R170 to R172, R178), and a symbol decoded with a table
(R176): the obligations O21, O22, O23 and O24. -/

namespace Sys2Proof.Machine

/-! ## `build_from_lengths` (R170, R171) -/

/-- R171: the table of a length array that passes R170. -/
def canonicalTable (lens : List Nat) : HuffTable := ⟨lens.length, lens, countLengths lens, canonicalCodes lens, true⟩

theorem builtTable_canonicalTable {lens : List Nat} (h : lengthsBuild lens []) : builtTable (canonicalTable lens) :=
  (builtTable_iff _).mpr ⟨h, rfl⟩

/-- R171: an array that passes. -/
theorem exec_buildFromLengths_of_build (t : BlockTable) {lens required : List Nat} (s : State)
    (h : lengthsBuild lens required) :
    exec (.buildFromLengths t lens required) s = .next { setTable t (canonicalTable lens) s with ret := .none } := by
  rw [exec, execBuildFromLengths, buildInto, buildTable_eq, if_pos h]
  rfl

/-- R171, R37: an array that fails. -/
theorem exec_buildFromLengths_of_not_build (t : BlockTable) {lens required : List Nat} (s : State)
    (h : ¬ lengthsBuild lens required) :
    exec (.buildFromLengths t lens required) s =
      .next (raiseError .invalidHuffmanTable (setTable t { tableOf (.block t) s with valid := false } s)) := by
  rw [exec, execBuildFromLengths, buildInto, buildTable_eq, if_neg h]
  rfl

/-- Settles O21: the loop's test is the Kraft inequality (`buildTable_eq`), and each of its answers gives one outcome. -/
theorem buildFromLengthsChecksKraft : Obligations.BuildFromLengthsChecksKraft :=
  fun t _ _ s => ⟨exec_buildFromLengths_of_build t s, exec_buildFromLengths_of_not_build t s⟩

/-! ## `canonical_codes` (R172, R178) -/

/-- R68: the first `k` bits of a code, read as a code, are the code shifted right. -/
theorem codeValue_take_codeBits {k l c : Nat} (hc : c < 2 ^ l) (hk : k ≤ l) :
    codeValue ((codeBits l c).take k) = c >>> (l - k) := by
  have hlt : c >>> (l - k) < 2 ^ k := by
    rw [Nat.shiftRight_eq_div_pow, Nat.div_lt_iff_lt_mul (Nat.two_pow_pos _), ← Nat.pow_add, Nat.add_sub_cancel' hk]
    exact hc
  rw [codeBits_take l c k hk, codeValue_codeBits, Nat.mod_eq_of_lt hlt]

/-- R178 (b): no used code begins another. -/
theorem builtTable.eq_of_codeBits_prefix {T : HuffTable} (hT : builtTable T) {u k c v l d : Nat} (hu : T.Uses u k c)
    (hv : T.Uses v l d) (hpre : codeBits k c <+: codeBits l d) : u = v := by
  obtain ⟨-, -, hc, -⟩ := hT.uses_spec hu
  obtain ⟨-, -, hd, -⟩ := hT.uses_spec hv
  have hkl : k ≤ l := by simpa only [codeBits_length] using hpre.length_le
  have htake : codeBits k c = (codeBits l d).take k := by
    simpa only [codeBits_length] using List.prefix_iff_eq_take.mp hpre
  refine hT.prefix_free hu hv hkl ?_
  rw [← codeValue_take_codeBits hd hkl, ← htake, codeValue_codeBits, Nat.mod_eq_of_lt hc]

/-- R172: the codes answered for an array that passes R170. -/
theorem answeredCodes_of_build {lens : List Nat} (h : lengthsBuild lens []) : answeredCodes lens = canonicalCodes lens := by
  rw [answeredCodes, if_pos ((lensValid_iff lens).mpr h)]

/-- R172, log 16: the code answered for a symbol of an array that fails R170. -/
theorem getElem?_answeredCodes_of_not_build {lens : List Nat} (h : ¬ lengthsBuild lens []) {v l : Nat} (hv : lens[v]? = some l) :
    (answeredCodes lens)[v]? = some (if l = 0 then none else some (Config.freeCanonicalCode lens v)) := by
  rw [answeredCodes, if_neg (mt (lensValid_iff lens).mp h), List.getElem?_map, List.getElem?_range (lt_length_of_getElem? hv),
    Option.map_some, getD_zero_of_getElem? hv]

/-- R172: a code, or none, is answered for each symbol of any array. -/
theorem answeredCodes_length (lens : List Nat) : (answeredCodes lens).length = lens.length := by
  rw [answeredCodes]
  split
  · exact canonicalCodes_length lens
  · rw [List.length_map, List.length_range]

/-- Settles O22: the codes of a valid array are those of the table built from it; of the others, symbol by symbol. -/
theorem canonicalCodesFollowTheOrder : Obligations.CanonicalCodesFollowTheOrder := by
  refine fun lens s => ⟨fun hlens => ⟨_, rfl, answeredCodes_length lens, ?_⟩,
    fun hlens => ⟨_, rfl, answeredCodes_length lens, fun v l hv => ?_⟩⟩
  · have hT := builtTable_canonicalTable hlens
    rw [answeredCodes_of_build hlens]
    refine ⟨fun _ => canonicalCodes_unused hlens.1, fun v l hv hl => ?_,
      fun u v k l c d hne hu hv hc hd hpre => hne (hT.eq_of_codeBits_prefix ⟨hu, hc⟩ ⟨hv, hd⟩ hpre)⟩
    obtain ⟨code, huses⟩ := hT.uses_iff v l hv hl
    obtain ⟨-, -, hfits, horder⟩ := hT.uses_spec huses
    exact ⟨code, huses.2, hfits, horder⟩
  · refine ⟨_, getElem?_answeredCodes_of_not_build hlens hv, ?_⟩
    split
    · next hl => exact iff_of_true rfl hl
    · next hl => exact iff_of_false (Option.some_ne_none _) hl

/-! ## The outcomes of `decode_symbol` (R176) -/

theorem exec_decodeSymbol_of_invalid {id : TableId} {s : State} (h : (tableOf id s).valid = false) :
    exec (.decodeSymbol id) s = .refused .tableInvalid := by
  rw [exec, execDecodeSymbol, decodeSymbol, h]
  rfl

theorem exec_decodeSymbol_of_sym {id : TableId} {s : State} {v used : Nat} (h : (tableOf id s).valid = true)
    (hwalk : (tableOf id s).walk 0 0 (nextBits 16 s) = .sym v used) :
    exec (.decodeSymbol id) s = .next { advance used s with ret := .num v } := by
  rw [exec, execDecodeSymbol, decodeSymbol, if_pos h, hwalk]
  rfl

theorem exec_decodeSymbol_of_short {id : TableId} {s : State} {used : Nat} (h : (tableOf id s).valid = true)
    (hwalk : (tableOf id s).walk 0 0 (nextBits 16 s) = .short used) :
    exec (.decodeSymbol id) s = .next (raiseError .unexpectedEnd (advance used s)) := by
  rw [exec, execDecodeSymbol, decodeSymbol, if_pos h, hwalk]
  rfl

theorem exec_decodeSymbol_of_dead {id : TableId} {s : State} {used : Nat} (h : (tableOf id s).valid = true)
    (hwalk : (tableOf id s).walk 0 0 (nextBits 16 s) = .dead used) :
    exec (.decodeSymbol id) s = .next (raiseError .invalidSymbol (advance used s)) := by
  rw [exec, execDecodeSymbol, decodeSymbol, if_pos h, hwalk]
  rfl

/-- R130: what a fetch of `n` bits sees begins with any run at the cursor that is unread and no longer than `n`. -/
theorem nextBits_split {n k : Nat} {s : State} (hkn : k ≤ n) (hk : k ≤ unreadBits s) :
    ∃ rest, nextBits n s = streamBits s (streamPos s) k ++ rest := by
  refine ⟨streamBits s (streamPos s + k) (min n (unreadBits s) - k), ?_⟩
  rw [nextBits, ← streamBits_add, Nat.add_sub_cancel' (Nat.le_min.mpr ⟨hkn, hk⟩)]

/-- Settles O23: a code has at most 15 bits, so the fetched bits begin with it, and the walk along it ends at its symbol. -/
theorem decodeSymbolReturnsTheSymbol : Obligations.DecodeSymbolReturnsTheSymbol := by
  intro id s sym len code hT hlen hcode (hunread : len ≤ unreadBits s)
    (hbits : streamBits s (streamPos s) len = codeBits len code)
  have huses : (tableOf id s).Uses sym len code := ⟨hlen, hcode⟩
  obtain ⟨-, hlen15, -, -⟩ := hT.uses_spec huses
  obtain ⟨rest, hnext⟩ := nextBits_split (n := 16) (by omega) hunread
  rw [hbits] at hnext
  exact exec_decodeSymbol_of_sym hT.valid (by rw [hnext, hT.walk_code huses])

/-! ## Walks that find no symbol (R176) -/

/-- `word` still begins a longer used code of `T`; no bits at all stand at the root. -/
def BeginsLonger (T : HuffTable) (word : List Bool) : Prop :=
  word = [] ∨ ∃ v l c, T.Uses v l c ∧ word.length < l ∧ word = (codeBits l c).take word.length

theorem BeginsLonger.length_lt {T : HuffTable} (hT : builtTable T) {word : List Bool} (h : BeginsLonger T word) :
    word.length < 16 := by
  obtain rfl | ⟨v, l, c, huses, hlt, -⟩ := h
  · decide
  · obtain ⟨-, hl15, -, -⟩ := hT.uses_spec huses
    omega

/-- R176: the walk along bits that still begin a longer code goes on from their node. -/
theorem BeginsLonger.walk_append {T : HuffTable} (hT : builtTable T) {word : List Bool} (h : BeginsLonger T word)
    (rest : List Bool) : T.walk 0 0 (word ++ rest) = T.walk word.length (codeValue word) rest := by
  obtain rfl | ⟨v, l, c, huses, hlt, hword⟩ := h
  · rfl
  · obtain ⟨-, -, hc, -⟩ := hT.uses_spec huses
    have hvalue : codeValue word = c >>> (l - word.length) :=
      (congrArg codeValue hword).trans (codeValue_take_codeBits hc hlt.le)
    rw [hvalue, ← hT.walk_inner huses word.length hlt rest, ← hword]

/-- R175: a used code that leads through the node of `word` begins with `word`. -/
theorem take_codeBits_of_shiftRight {word : List Bool} {l c : Nat} (hle : word.length ≤ l)
    (hc : c >>> (l - word.length) = codeValue word) : (codeBits l c).take word.length = word := by
  rw [codeBits_take l c _ hle, hc, codeBits_codeValue]

/-- R176: a bit with which no used code goes on ends the walk. -/
theorem walk_eq_dead {T : HuffTable} {word : List Bool} {b : Bool}
    (hno : ∀ v l c, T.Uses v l c → (codeBits l c).take (word.length + 1) ≠ word ++ [b]) (rest : List Bool) :
    T.walk word.length (codeValue word) (b :: rest) = .dead (word.length + 1) := by
  have hlength : (word ++ [b]).length = word.length + 1 := by rw [List.length_append, List.length_singleton]
  have hnone : ∀ v l c, word.length + 1 ≤ l → T.Uses v l c →
      c >>> (l - (word.length + 1)) ≠ codeValue (word ++ [b]) := by
    intro v l c hle huses hc
    rw [← hlength] at hle hc
    exact hno v l c huses (hlength ▸ take_codeBits_of_shiftRight hle hc)
  rw [HuffTable.walk, ← codeValue_append_one]
  have hleaf : T.leafAt (word.length + 1) (codeValue (word ++ [b])) = none := by
    refine Option.eq_none_iff_forall_ne_some.mpr fun v hv => ?_
    exact hnone v _ _ (le_refl _) (HuffTable.leafAt_some hv) (by rw [Nat.sub_self, Nat.shiftRight_zero])
  have hinner : ¬ T.innerNode (word.length + 1) (codeValue (word ++ [b])) = true := by
    rw [HuffTable.innerNode_iff]
    rintro ⟨v, l, c, huses, hlt, hc⟩
    exact hnone v l c hlt.le huses hc
  rw [hleaf]
  exact if_neg hinner

/-- R176: the input ends after bits that still begin a longer code. -/
theorem exec_decodeSymbol_of_cut {id : TableId} {s : State} (hT : builtTable (tableOf id s))
    (hword : BeginsLonger (tableOf id s) (streamBits s (streamPos s) (unreadBits s))) :
    exec (.decodeSymbol id) s = .next (raiseError .unexpectedEnd (advance (unreadBits s) s)) := by
  have hlt := hword.length_lt hT
  rw [streamBits_length] at hlt
  refine exec_decodeSymbol_of_short hT.valid ?_
  have hwalk := hword.walk_append hT []
  rw [List.append_nil, streamBits_length] at hwalk
  rw [nextBits, Nat.min_eq_right hlt.le, hwalk, HuffTable.walk]

/-- R176: after bits that still begin a longer code comes a bit with which no code goes on. -/
theorem exec_decodeSymbol_of_dead_bit {id : TableId} {s : State} {n : Nat} (hT : builtTable (tableOf id s))
    (hword : BeginsLonger (tableOf id s) (streamBits s (streamPos s) n)) (hn : n < unreadBits s)
    (hno : ∀ v l c, (tableOf id s).Uses v l c → (codeBits l c).take (n + 1) ≠ streamBits s (streamPos s) (n + 1)) :
    exec (.decodeSymbol id) s = .next (raiseError .invalidSymbol (advance (n + 1) s)) := by
  have hlt := hword.length_lt hT
  rw [streamBits_length] at hlt
  obtain ⟨rest, hnext⟩ := nextBits_split (n := 16) (k := n + 1) (by omega) hn
  have hlast : streamBits s (streamPos s) (n + 1) = streamBits s (streamPos s) n ++ [streamBit s (streamPos s + n)] :=
    streamBits_add s (streamPos s) n 1
  refine exec_decodeSymbol_of_dead hT.valid ?_
  have hdead := walk_eq_dead (T := tableOf id s) (word := streamBits s (streamPos s) n) (b := streamBit s (streamPos s + n))
    (by rwa [streamBits_length, ← hlast]) rest
  rw [hnext, hlast, List.append_assoc, hword.walk_append hT, List.singleton_append, hdead, streamBits_length]

/-- Settles O24: the walk stands at the node of the bits that still begin a longer code; there the input ends, or the next bit
leads to no node. -/
theorem decodeSymbolFailures : Obligations.DecodeSymbolFailures := by
  refine fun id s n => ⟨exec_decodeSymbol_of_invalid, fun hT hbegins => ?_⟩
  have hword : BeginsLonger (tableOf id s) (streamBits s (streamPos s) n) := by
    obtain rfl | ⟨v, l, c, hlen, hcode, hlt, hbits⟩ := hbegins
    · exact Or.inl rfl
    · exact Or.inr ⟨v, l, c, ⟨hlen, hcode⟩, by rwa [streamBits_length], by rw [streamBits_length]; exact hbits⟩
  refine ⟨fun hend => ?_, fun hn hno => ?_⟩
  · obtain rfl : unreadBits s = n := hend
    exact exec_decodeSymbol_of_cut hT hword
  · exact exec_decodeSymbol_of_dead_bit hT hword hn fun v l c huses => hno v l c huses.1 huses.2

end Sys2Proof.Machine
end

section
/-! The code lengths of the reference code builder (R196): the tree of Step A, its limit in Step B, and the supply of lengths that
Step C hands out. Counts, number of codes and Kraft sum are sums with different weights over the same counts (`weigh`). -/

namespace Sys2Proof.Machine

/-! ## Sums over the counts `num` -/

/-- The sum of `w` over the codes that `num` counts: `num[l]` codes of length `l` weigh `w l` each. -/
def weigh (w : Nat → Nat) (num : List Nat) : Nat := ∑ l ∈ Finset.range num.length, num.getD l 0 * w l

@[simp] theorem weigh_nil (w : Nat → Nat) : weigh w [] = 0 := rfl

@[simp] theorem weigh_cons (w : Nat → Nat) (x : Nat) (num : List Nat) :
    weigh w (x :: num) = x * w 0 + weigh (fun l => w (l + 1)) num := by
  simp [weigh, Finset.sum_range_succ', Nat.add_comm]

/-- Every code weighed `c`. -/
theorem weigh_const (c : Nat) (num : List Nat) : weigh (fun _ => c) num = num.sum * c := by
  induction num with
  | nil => simp
  | cons x num ih => rw [weigh_cons, ih, List.sum_cons, Nat.add_mul]

theorem weigh_set (w : Nat → Nat) {num : List Nat} {k : Nat} (hk : k < num.length) (x : Nat) :
    weigh w (num.set k x) + num.getD k 0 * w k = weigh w num + x * w k := by
  induction num generalizing w k with
  | nil => simp at hk
  | cons y num ih =>
    cases k with
    | zero => simp only [List.set_cons_zero, weigh_cons, List.getD_cons_zero]; omega
    | succ k =>
      have hset := ih (fun l => w (l + 1)) (Nat.lt_of_succ_lt_succ hk)
      simp only [List.set_cons_succ, weigh_cons, List.getD_cons_succ]
      omega

/-- One code of length `k` less. -/
theorem weigh_set_pred (w : Nat → Nat) {num : List Nat} {k : Nat} (hk : k < num.length) (hpos : 0 < num.getD k 0) :
    weigh w (num.set k (num.getD k 0 - 1)) + w k = weigh w num := by
  have hset := weigh_set w hk (num.getD k 0 - 1)
  have hsplit : num.getD k 0 * w k = (num.getD k 0 - 1) * w k + w k := by
    rw [← Nat.succ_mul, Nat.succ_eq_add_one, Nat.sub_add_cancel hpos]
  omega

/-- R196 Step B: a code longer than `b` weighs as one of length `b`. -/
theorem weigh_foldCounts (w : Nat → Nat) {num : List Nat} {b : Nat} (hb : b < num.length) :
    weigh w (foldCounts b num) = weigh (fun l => w (min l b)) num := by
  induction num generalizing w b with
  | nil => simp at hb
  | cons x num ih =>
    cases b with
    | zero => simp [foldCounts, weigh_const, Nat.add_mul]
    | succ b =>
      have hfold : foldCounts (b + 1) (x :: num) = x :: foldCounts b num := rfl
      rw [hfold, weigh_cons, weigh_cons, ih _ (Nat.lt_of_succ_lt_succ hb)]
      simp only [Nat.zero_min, Nat.succ_min_succ]

theorem mem_and_le_foldl_max {depths : List Nat} (h : depths ≠ []) :
    depths.foldl max 0 ∈ depths ∧ ∀ d ∈ depths, d ≤ depths.foldl max 0 := by
  obtain ⟨m, hm⟩ := Option.ne_none_iff_exists'.mp (mt List.max?_eq_none_iff.mp h)
  have hmax : depths.foldl max 0 = m := by rw [List.foldl_max, hm]; exact Nat.zero_max m
  rw [hmax]
  exact List.max?_eq_some_iff.mp hm

/-- R196 Step A: the counts of the depths weigh what the depths weigh. -/
theorem weigh_depthCounts (w : Nat → Nat) {depths : List Nat} (h : depths ≠ []) :
    weigh w (depthCounts depths) = (depths.map w).sum := by
  have hsub : depths.toFinset ⊆ Finset.range (depths.foldl max 0 + 1) := fun d hd =>
    Finset.mem_range.mpr (Nat.lt_succ_of_le ((mem_and_le_foldl_max h).2 d (List.mem_toFinset.mp hd)))
  rw [Finset.sum_list_map_count, Finset.sum_subset hsub fun d _ hd => by
    rw [List.count_eq_zero.mpr (mt List.mem_toFinset.mpr hd), zero_smul]]
  simp only [weigh, depthCounts, List.length_map, List.length_range]
  refine Finset.sum_congr rfl fun l hl => ?_
  simp [List.getD_eq_getElem?_getD, Finset.mem_range.mp hl]

theorem lengthSupply_sum (w : Nat → Nat) {num : List Nat} (h0 : num.getD 0 0 = 0) :
    ((lengthSupply num).map w).sum = weigh w num := by
  rw [lengthSupply, List.map_flatMap, List.flatMap, List.sum_flatten, List.map_map]
  change _ = ((List.range num.length).map fun l => num.getD l 0 * w l).sum
  refine congrArg List.sum (List.map_congr_left fun l _ => ?_)
  by_cases hl : l = 0
  · subst hl; rw [h0]; simp
  · simp [hl]

theorem mem_lengthSupply {num : List Nat} {l : Nat} (h : l ∈ lengthSupply num) : l ≠ 0 ∧ l < num.length := by
  obtain ⟨k, hk, hl⟩ := List.mem_flatMap.mp h
  split at hl
  · simp at hl
  · rename_i hk0
    obtain rfl := List.eq_of_mem_replicate hl
    exact ⟨hk0, List.mem_range.mp hk⟩

theorem lengthSupply_sorted (num : List Nat) : (lengthSupply num).Pairwise (· ≤ ·) := by
  have hmem : ∀ {k l : Nat}, l ∈ (if k = 0 then [] else List.replicate (num.getD k 0) k) → l = k := by
    intro k l hl
    split at hl
    · simp at hl
    · exact List.eq_of_mem_replicate hl
  refine List.pairwise_flatMap.mpr ⟨fun k _ => ?_, List.pairwise_lt_range.imp fun hlt x hx y hy => ?_⟩
  · refine List.pairwise_of_forall_mem_list fun x hx y hy => ?_
    rw [hmem hx, hmem hy]
  · rw [hmem hx, hmem hy]; exact hlt.le

/-! ## The tree -/

/-- The number of leaves of a tree. -/
def HuffTree.leaves : HuffTree → Nat
  | .leaf _ => 1
  | .node l r => l.leaves + r.leaves

theorem leafDepths_length (t : HuffTree) (d : Nat) : (leafDepths d t).length = t.leaves := by
  induction t generalizing d with
  | leaf s => rfl
  | node l r ihl ihr => rw [leafDepths, List.length_append, ihl, ihr, HuffTree.leaves]

theorem HuffTree.leaves_pos (t : HuffTree) : 0 < t.leaves := by
  induction t with
  | leaf s => exact Nat.one_pos
  | node l r ihl _ => exact Nat.add_pos_left ihl _

theorem le_of_mem_leafDepths {t : HuffTree} {d : Nat} {p : Nat × Nat} (h : p ∈ leafDepths d t) : d ≤ p.2 := by
  induction t generalizing d with
  | leaf s => rw [List.mem_singleton.mp h]
  | node l r ihl ihr =>
    obtain hl | hr := List.mem_append.mp h
    · exact Nat.le_of_succ_le (ihl hl)
    · exact Nat.le_of_succ_le (ihr hr)

/-- The Kraft sum of the leaves below a node at depth `d`, scaled by `2^M` for any `M` no leaf is deeper than. -/
theorem kraft_leafDepths {M : Nat} {t : HuffTree} {d : Nat} (h : ∀ p ∈ leafDepths d t, p.2 ≤ M) :
    ((leafDepths d t).map fun p => 2 ^ (M - p.2)).sum = 2 ^ (M - d) := by
  induction t generalizing d with
  | leaf s => simp [leafDepths]
  | node l r ihl ihr =>
    obtain ⟨hl, hr⟩ := List.forall_mem_append.mp h
    obtain ⟨p, hp⟩ := List.exists_mem_of_length_pos (leafDepths_length l (d + 1) ▸ l.leaves_pos)
    have hd : d + 1 ≤ M := (le_of_mem_leafDepths hp).trans (hl p hp)
    rw [leafDepths, List.map_append, List.sum_append, ihl hl, ihr hr, ← Nat.two_mul, ← Nat.pow_succ']
    congr 1
    omega

/-! ## The priority queue -/

theorem insertItem_perm (x : HuffItem) (q : List HuffItem) : (insertItem x q).Perm (x :: q) := by
  induction q with
  | nil => exact .refl _
  | cons y q ih =>
    rw [insertItem]
    split
    · exact .refl _
    · exact (ih.cons y).trans (.swap x y q)

/-- An insertion sort permutes: each step inserts the image of one element. -/
theorem foldl_insert_perm {α β : Type} {f : α → β} {ins : α → List β → List β} (h : ∀ a q, (ins a q).Perm (f a :: q))
    (l : List α) (q : List β) : (l.foldl (fun q a => ins a q) q).Perm (l.map f ++ q) := by
  induction l generalizing q with
  | nil => exact .refl _
  | cons a l ih => exact (ih _).trans (((h a q).append_left _).trans List.perm_middle)

/-- The leaves of all the trees in a queue. -/
def queueLeaves (q : List HuffItem) : Nat := (q.map fun x => x.tree.leaves).sum

@[simp] theorem queueLeaves_cons (x : HuffItem) (q : List HuffItem) : queueLeaves (x :: q) = x.tree.leaves + queueLeaves q := rfl

theorem queueLeaves_perm {q q' : List HuffItem} (h : q.Perm q') : queueLeaves q = queueLeaves q' := (h.map _).sum_eq

/-- R196 Step A: merging ends with one tree, which has all the leaves. -/
theorem mergeItems_leaves {fuel k : Nat} {q : List HuffItem} (hq : q ≠ []) (hfuel : q.length ≤ fuel + 1) :
    ∃ t, mergeItems fuel k q = some t ∧ t.leaves = queueLeaves q := by
  induction fuel generalizing k q with
  | zero =>
    obtain ⟨a, rfl⟩ := List.length_eq_one_iff.mp (Nat.le_antisymm hfuel (List.length_pos_iff.mpr hq))
    exact ⟨a.tree, by simp [mergeItems], by simp [queueLeaves]⟩
  | succ fuel ih =>
    match q, hq with
    | [a], _ => exact ⟨a.tree, by simp [mergeItems], by simp [queueLeaves]⟩
    | a :: b :: q, _ =>
      have hperm := insertItem_perm ⟨a.weight + b.weight, k, .node a.tree b.tree⟩ q
      have hne := List.ne_nil_of_length_eq_add_one hperm.length_eq
      obtain ⟨t, ht, hleaves⟩ := ih (k := k + 1) hne (by rw [hperm.length_eq]; simpa using hfuel)
      refine ⟨t, by rw [mergeItems, ht], ?_⟩
      rw [hleaves, queueLeaves_perm hperm]
      simp [HuffTree.leaves, Nat.add_assoc]

/-- R196 Step A: the depths are those of a tree with one leaf for each used symbol. -/
theorem huffmanDepths_eq (n : Nat) {used : List (Nat × Nat)} (h : used ≠ []) :
    ∃ t, huffmanDepths n used = (leafDepths 0 t).map Prod.snd ∧ t.leaves = used.length := by
  have hperm := foldl_insert_perm (fun p q => insertItem_perm ⟨p.2, p.1, .leaf p.1⟩ q) used []
  rw [List.append_nil] at hperm
  have hlen := hperm.length_eq
  rw [List.length_map] at hlen
  obtain ⟨t, ht, hleaves⟩ := mergeItems_leaves (fuel := used.length) (k := n)
    (List.ne_nil_of_length_pos (hlen ▸ List.length_pos_iff.mpr h)) (by omega)
  refine ⟨t, by rw [huffmanDepths, ht], ?_⟩
  rw [hleaves, queueLeaves_perm hperm]
  simp [queueLeaves, HuffTree.leaves, Function.comp_def]

/-! ## Step B: the limit -/

/-- A code of length `l` in the Kraft sum that is scaled by `2^b`; a longer one counts as one of length `b`. -/
def kraftWeight (b l : Nat) : Nat := 2 ^ (b - l)

/-- 1 for a length of at least `b`. -/
def deepWeight (b l : Nat) : Nat := if b ≤ l then 1 else 0

theorem kraftTotal_eq_weigh {b : Nat} {num : List Nat} (hlen : num.length = b + 1) (h0 : num.getD 0 0 = 0) :
    kraftTotal b num = weigh (kraftWeight b) num := by
  rw [weigh, hlen, Finset.sum_range_succ', h0, Nat.zero_mul, Nat.add_zero]
  change _ = ((List.range b).map fun l => num.getD (l + 1) 0 * kraftWeight b (l + 1)).sum
  simp only [kraftTotal, Nat.shiftLeft_eq, kraftWeight]

/-- R196 Step B: either a code of a length in `1` to `n` becomes two of the next length, or there is none. -/
theorem splitCode_cases (n : Nat) (num : List Nat) :
    (∃ l, l ≠ 0 ∧ l ≤ n ∧ 0 < num.getD l 0 ∧
      splitCode n num = (num.set l (num.getD l 0 - 1)).set (l + 1) (num.getD (l + 1) 0 + 2)) ∨
    (∀ l, l ≠ 0 → l ≤ n → num.getD l 0 = 0) := by
  induction n with
  | zero => exact Or.inr fun l h0 hl => absurd (Nat.le_zero.mp hl) h0
  | succ n ih =>
    rw [splitCode]
    split
    · rename_i hpos
      exact Or.inl ⟨n + 1, n.succ_ne_zero, le_rfl, hpos, rfl⟩
    · rename_i hpos
      refine ih.imp (fun ⟨l, h0, hl, hrest⟩ => ⟨l, h0, hl.trans n.le_succ, hrest⟩) fun h l h0 hl => ?_
      obtain hl | rfl := Nat.le_succ_iff.mp hl
      · exact h l h0 hl
      · exact Nat.eq_zero_of_not_pos hpos

@[simp] theorem splitCode_length (n : Nat) (num : List Nat) : (splitCode n num).length = num.length := by
  induction n with
  | zero => rfl
  | succ n ih =>
    rw [splitCode]
    split
    · simp
    · exact ih

@[simp] theorem splitCode_getD_zero (n : Nat) (num : List Nat) : (splitCode n num).getD 0 0 = num.getD 0 0 := by
  induction n with
  | zero => rfl
  | succ n ih =>
    rw [splitCode]
    split
    · simp [List.getD_eq_getElem?_getD]
    · exact ih

theorem weigh_split (w : Nat → Nat) {num : List Nat} {l : Nat} (hl : l + 1 < num.length) (hpos : 0 < num.getD l 0) :
    weigh w ((num.set l (num.getD l 0 - 1)).set (l + 1) (num.getD (l + 1) 0 + 2)) + w l = weigh w num + 2 * w (l + 1) := by
  have hremove := weigh_set_pred w (Nat.lt_of_succ_lt hl) hpos
  have hadd := weigh_set w (num := num.set l (num.getD l 0 - 1)) (by simpa using hl) (num.getD (l + 1) 0 + 2)
  have hsame : (num.set l (num.getD l 0 - 1)).getD (l + 1) 0 = num.getD (l + 1) 0 := by simp [List.getD_eq_getElem?_getD]
  rw [hsame, Nat.add_mul] at hadd
  omega

/-- R196 Step B: where the loop on the counts stands. `room`: the codes shorter than `b` alone do not fill
the range, so that while it is overfull there is a code of length `b` to remove. -/
structure Repairing (b m : Nat) (num : List Nat) : Prop where
  length : num.length = b + 1
  zero : num.getD 0 0 = 0
  codes : weigh (fun _ => 1) num = m
  room : weigh (kraftWeight b) num < 2 ^ b + weigh (deepWeight b) num

/-- R196 Step B: one pass of the loop. -/
def repairPass (b : Nat) (num : List Nat) : List Nat := splitCode (b - 1) (num.set b (num.getD b 0 - 1))

theorem weigh_deepWeight {b : Nat} {num : List Nat} (hlen : num.length = b + 1) :
    weigh (deepWeight b) num = num.getD b 0 := by
  rw [weigh, hlen, Finset.sum_range_succ, Finset.sum_eq_zero fun l hl => ?_]
  · simp [deepWeight]
  · rw [deepWeight, if_neg (Nat.not_le.mpr (Finset.mem_range.mp hl)), Nat.mul_zero]

/-- With only codes of length `b` the Kraft sum is the number of codes. -/
theorem weigh_kraftWeight_of_only {b : Nat} {num : List Nat} (hlen : num.length = b + 1)
    (h : ∀ l < b, num.getD l 0 = 0) : weigh (kraftWeight b) num = weigh (fun _ => 1) num := by
  refine Finset.sum_congr rfl fun l hl => ?_
  obtain hl | rfl := Nat.lt_or_eq_of_le (Nat.le_of_lt_succ (hlen ▸ Finset.mem_range.mp hl))
  · rw [h l hl, Nat.zero_mul, Nat.zero_mul]
  · rw [kraftWeight, Nat.sub_self, Nat.pow_zero]

/-- R196: a pass removes a code of length `b` and splits a shorter one. -/
theorem Repairing.weigh_pass {b m : Nat} {num : List Nat} (h : Repairing b m num) (hm : m ≤ 2 ^ b)
    (hover : 2 ^ b < weigh (kraftWeight b) num) :
    ∃ l, l ≠ 0 ∧ l < b ∧ ∀ w : Nat → Nat, weigh w (repairPass b num) + w b + w l = weigh w num + 2 * w (l + 1) := by
  have hb : 0 < num.getD b 0 := by rw [← weigh_deepWeight h.length]; have := h.room; omega
  have hkeep : ∀ l < b, (num.set b (num.getD b 0 - 1)).getD l 0 = num.getD l 0 := by
    intro l hl
    rw [List.getD_eq_getElem?_getD, List.getElem?_set_ne hl.ne', List.getD_eq_getElem?_getD]
  obtain ⟨l, h0, hl, hpos, hsplit⟩ | hnone := splitCode_cases (b - 1) (num.set b (num.getD b 0 - 1))
  · refine ⟨l, h0, by omega, fun w => ?_⟩
    have hw := weigh_split w (by simp [h.length]; omega) hpos
    rw [← hsplit] at hw
    have hremove := weigh_set_pred w (h.length ▸ Nat.lt_succ_self b) hb
    rw [repairPass]
    omega
  · refine absurd hover (Nat.not_lt.mpr ?_)
    rw [weigh_kraftWeight_of_only h.length fun l hl => ?_, h.codes]
    · exact hm
    · by_cases h0 : l = 0
      · rw [h0, h.zero]
      · rw [← hkeep l hl]; exact hnone l h0 (by omega)

/-- R196: a pass keeps the number of codes and lowers the scaled Kraft sum by 1. -/
theorem Repairing.pass {b m : Nat} {num : List Nat} (h : Repairing b m num) (hm : m ≤ 2 ^ b)
    (hover : 2 ^ b < weigh (kraftWeight b) num) :
    Repairing b m (repairPass b num) ∧
      weigh (kraftWeight b) (repairPass b num) = weigh (kraftWeight b) num - 1 := by
  obtain ⟨l, h0, hl, hw⟩ := h.weigh_pass hm hover
  have hcodes := hw fun _ => 1
  have hkraft := hw (kraftWeight b)
  have hdeep := hw (deepWeight b)
  have hroom := h.room
  have hone : kraftWeight b b = 1 := by rw [kraftWeight, Nat.sub_self, Nat.pow_zero]
  have htwo : kraftWeight b l = 2 * kraftWeight b (l + 1) := by
    rw [kraftWeight, kraftWeight, ← Nat.pow_succ']; congr 1; omega
  have hdb : deepWeight b b = 1 := if_pos le_rfl
  have hdl : deepWeight b l = 0 := if_neg (Nat.not_le.mpr hl)
  have hlower : weigh (kraftWeight b) (repairPass b num) + 1 = weigh (kraftWeight b) num := by omega
  refine ⟨⟨?_, ?_, ?_, ?_⟩, by omega⟩
  · rw [repairPass, splitCode_length, List.length_set, h.length]
  · rw [repairPass, splitCode_getD_zero, List.getD_eq_getElem?_getD, List.getElem?_set_ne (by omega),
      ← List.getD_eq_getElem?_getD, h.zero]
  · rw [← h.codes]; omega
  · omega

/-- R196 Step B: what the loop leaves. -/
theorem Repairing.after_repairCounts {b m fuel : Nat} {num : List Nat} (h : Repairing b m num) (hm : m ≤ 2 ^ b)
    (hfuel : weigh (kraftWeight b) num ≤ 2 ^ b + fuel) :
    Repairing b m (repairCounts b fuel (weigh (kraftWeight b) num) num) ∧
      weigh (kraftWeight b) (repairCounts b fuel (weigh (kraftWeight b) num) num) ≤ 2 ^ b := by
  induction fuel generalizing num with
  | zero => exact ⟨h, hfuel⟩
  | succ fuel ih =>
    rw [repairCounts]
    split
    · rename_i hover
      obtain ⟨hpass, hlower⟩ := h.pass hm hover
      rw [← hlower]
      exact ih hpass (by omega)
    · rename_i hfits
      exact ⟨h, Nat.not_lt.mp hfits⟩

/-- R196: counts of `m` codes of lengths 1 to `b` within the Kraft inequality. -/
structure CountsOk (b m : Nat) (num : List Nat) : Prop where
  length : num.length ≤ b + 1
  zero : num.getD 0 0 = 0
  codes : weigh (fun _ => 1) num = m
  kraft : weigh (kraftWeight b) num ≤ 2 ^ b

/-- Scaling to a depth `M` that is below all: where there are depths of at least `b`, clamping them to `b` takes less than one
more unit for each. -/
theorem kraft_clamped_le {b M : Nat} (hb : b ≤ M) (depths : List Nat) :
    2 ^ (M - b) * (depths.map (kraftWeight b)).sum + (depths.map (deepWeight b)).sum ≤
      (depths.map (kraftWeight M)).sum + 2 ^ (M - b) * (depths.map (deepWeight b)).sum := by
  induction depths with
  | nil => simp
  | cons d depths ih =>
    have hd : 2 ^ (M - b) * kraftWeight b d + deepWeight b d ≤ kraftWeight M d + 2 ^ (M - b) * deepWeight b d := by
      unfold kraftWeight deepWeight
      split
      · rename_i hdeep
        have := Nat.two_pow_pos (M - d)
        rw [Nat.sub_eq_zero_of_le hdeep, Nat.pow_zero]
        omega
      · rename_i hdeep
        rw [← Nat.pow_add, show M - b + (b - d) = M - d by omega]
        omega
    simp only [List.map_cons, List.sum_cons, Nat.mul_add]
    omega

/-- R196 Step A: the depths of the leaves of a tree that is not a leaf alone. -/
structure TreeDepths (depths : List Nat) : Prop where
  nonempty : depths ≠ []
  nonzero : 0 ∉ depths
  kraft : ∀ M, (∀ d ∈ depths, d ≤ M) → (depths.map (kraftWeight M)).sum = 2 ^ M

theorem treeDepths_huffmanDepths (n : Nat) {used : List (Nat × Nat)} (h : 2 ≤ used.length) :
    TreeDepths (huffmanDepths n used) ∧ (huffmanDepths n used).length = used.length := by
  obtain ⟨t, hdepths, hleaves⟩ := huffmanDepths_eq n (List.ne_nil_of_length_pos (by omega : 0 < used.length))
  have hlen : (huffmanDepths n used).length = used.length := by
    rw [hdepths, List.length_map, leafDepths_length, hleaves]
  refine ⟨⟨List.ne_nil_of_length_pos (by omega), ?_, fun M hM => ?_⟩, hlen⟩
  · rw [hdepths]
    cases t with
    | leaf s => rw [HuffTree.leaves] at hleaves; omega
    | node l r =>
      intro hzero
      obtain ⟨p, hp, h0⟩ := List.mem_map.mp hzero
      have hdepth : 1 ≤ p.2 := (List.mem_append.mp hp).elim le_of_mem_leafDepths le_of_mem_leafDepths
      omega
  · rw [hdepths] at hM ⊢
    rw [List.map_map]
    exact kraft_leafDepths fun p hp => hM _ (List.mem_map_of_mem hp)

@[simp] theorem depthCounts_length (depths : List Nat) : (depthCounts depths).length = depths.foldl max 0 + 1 := by
  simp [depthCounts]

theorem TreeDepths.getD_zero {depths : List Nat} (h : TreeDepths depths) : (depthCounts depths).getD 0 0 = 0 := by
  have hcount := List.count_eq_zero.mpr h.nonzero
  simp [depthCounts, List.getD_eq_getElem?_getD, hcount]

theorem weigh_codes_depthCounts {depths : List Nat} (h : depths ≠ []) :
    weigh (fun _ => 1) (depthCounts depths) = depths.length := by
  rw [weigh_depthCounts _ h, List.map_const', List.sum_replicate, smul_eq_mul, Nat.mul_one]

/-- R196 Step B: the loop begins with room, since the tree was complete and some leaf of it is deeper than `b`. -/
theorem TreeDepths.repairing {b : Nat} {depths : List Nat} (h : TreeDepths depths) (hb : b ≠ 0)
    (hdeep : b < depths.foldl max 0) : Repairing b depths.length (foldCounts b (depthCounts depths)) := by
  obtain ⟨hmem, hmax⟩ := mem_and_le_foldl_max h.nonempty
  have hlt : b < (depthCounts depths).length := by rw [depthCounts_length]; omega
  have hfold : ∀ w : Nat → Nat, weigh w (foldCounts b (depthCounts depths)) = (depths.map fun d => w (min d b)).sum :=
    fun w => by rw [weigh_foldCounts w hlt, weigh_depthCounts _ h.nonempty]
  refine ⟨?_, ?_, ?_, ?_⟩
  · rw [foldCounts, List.length_append, List.length_take, Nat.min_eq_left hlt.le, List.length_singleton]
  · rw [foldCounts, List.getD_eq_getElem?_getD,
      List.getElem?_append_left (by rw [List.length_take]; omega), List.getElem?_take_of_lt (by omega),
      ← List.getD_eq_getElem?_getD, h.getD_zero]
  · rw [hfold, ← weigh_codes_depthCounts h.nonempty, weigh_depthCounts _ h.nonempty]
  · have hkraft : (fun d => kraftWeight b (min d b)) = kraftWeight b := by
      funext d; rw [kraftWeight, kraftWeight]; congr 1; omega
    have hdeepw : (fun d => deepWeight b (min d b)) = deepWeight b := by
      funext d; simp only [deepWeight, Nat.le_min, Nat.le_refl, and_true]
    rw [hfold, hfold, hkraft, hdeepw]
    have hone : 1 ≤ (depths.map (deepWeight b)).sum :=
      (if_pos hdeep.le : deepWeight b _ = 1) ▸ List.le_sum_of_mem (List.mem_map_of_mem hmem)
    have hclamp := kraft_clamped_le hdeep.le depths
    have hpow : 2 ^ depths.foldl max 0 = 2 ^ (depths.foldl max 0 - b) * 2 ^ b := by
      rw [← Nat.pow_add, Nat.sub_add_cancel hdeep.le]
    rw [h.kraft _ hmax, hpow, ← Nat.mul_add] at hclamp
    exact Nat.lt_of_mul_lt_mul_left (Nat.lt_of_lt_of_le (Nat.lt_add_of_pos_right hone) hclamp)

/-- R196 Step B: the counts after the limit. -/
theorem TreeDepths.limitCounts_ok {b : Nat} {depths : List Nat} (h : TreeDepths depths) (hb : b ≠ 0)
    (hm : depths.length ≤ 2 ^ b) : CountsOk b depths.length (limitCounts b (depthCounts depths)) := by
  rw [limitCounts, depthCounts_length]
  split
  · rename_i hdeep
    have hstart := h.repairing hb (Nat.lt_of_succ_lt_succ hdeep)
    rw [kraftTotal_eq_weigh hstart.length hstart.zero]
    obtain ⟨hend, hkraft⟩ := hstart.after_repairCounts hm (Nat.le_add_left _ _)
    exact ⟨hend.length.le, hend.zero, hend.codes, hkraft⟩
  · rename_i hshallow
    have hle : depths.foldl max 0 ≤ b := by omega
    refine ⟨by rw [depthCounts_length]; omega, h.getD_zero, weigh_codes_depthCounts h.nonempty, ?_⟩
    rw [weigh_depthCounts _ h.nonempty, h.kraft b fun d hd => ((mem_and_le_foldl_max h.nonempty).2 d hd).trans hle]

/-! ## Step C: the lengths in the order in which they are handed out -/

/-- R191 (b), (c): the lengths of `m` codes, shortest first. -/
structure SupplyOk (b m : Nat) (supply : List Nat) : Prop where
  length : supply.length = m
  sorted : supply.Pairwise (· ≤ ·)
  range : ∀ l ∈ supply, l ≠ 0 ∧ l ≤ b
  kraft : (supply.map (kraftWeight 15)).sum ≤ 2 ^ 15

theorem CountsOk.supplyOk {b m : Nat} {num : List Nat} (h : CountsOk b m num) (hb : b ≤ 15) :
    SupplyOk b m (lengthSupply num) := by
  have hrange : ∀ l ∈ lengthSupply num, l ≠ 0 ∧ l ≤ b := fun l hl =>
    ⟨(mem_lengthSupply hl).1, Nat.le_of_lt_succ ((mem_lengthSupply hl).2.trans_le h.length)⟩
  refine ⟨?_, lengthSupply_sorted num, hrange, ?_⟩
  · rw [← h.codes, ← lengthSupply_sum _ h.zero, List.map_const', List.sum_replicate, smul_eq_mul, Nat.mul_one]
  · have hscale : ∀ l ∈ lengthSupply num, kraftWeight 15 l = 2 ^ (15 - b) * kraftWeight b l := fun l hl => by
      have := (hrange l hl).2
      rw [kraftWeight, kraftWeight, ← Nat.pow_add, show 15 - b + (b - l) = 15 - l by omega]
    rw [List.map_congr_left hscale, List.sum_map_mul_left, lengthSupply_sum _ h.zero]
    calc 2 ^ (15 - b) * weigh (kraftWeight b) num ≤ 2 ^ (15 - b) * 2 ^ b := Nat.mul_le_mul_left _ h.kraft
      _ = 2 ^ 15 := by rw [← Nat.pow_add, Nat.sub_add_cancel hb]

/-- R193: the supply of at most one symbol. -/
theorem supplyOk_replicate_one {b m : Nat} (hb : b ≠ 0) (hm : m ≤ 1) : SupplyOk b m (List.replicate m 1) := by
  refine ⟨List.length_replicate, List.pairwise_replicate.mpr (Or.inr le_rfl), fun l hl => ?_, ?_⟩
  · rw [List.eq_of_mem_replicate hl]; omega
  · rw [List.map_replicate, List.sum_replicate, smul_eq_mul]
    exact Nat.mul_le_mul hm (Nat.pow_le_pow_right (by decide) (by decide : 15 - 1 ≤ 15)) |>.trans_eq (Nat.one_mul _)

/-- R193, R196: the lengths that `build_codes` hands out, in the order in which it does. -/
def codeSupply (freqs : List Len) (b : Nat) : List Nat :=
  if (usedSymbols freqs).length ≤ 1 then List.replicate (usedSymbols freqs).length 1
  else lengthSupply (limitCounts b (depthCounts (huffmanDepths freqs.length (usedSymbols freqs))))

theorem codeSupply_ok {freqs : List Len} {b : Nat} (hb : b ≠ 0) (h15 : b ≤ 15)
    (hm : (usedSymbols freqs).length ≤ 2 ^ b) : SupplyOk b (usedSymbols freqs).length (codeSupply freqs b) := by
  rw [codeSupply]
  split
  · rename_i hfew
    exact supplyOk_replicate_one hb hfew
  · rename_i hmany
    obtain ⟨htree, hlen⟩ := treeDepths_huffmanDepths freqs.length (Nat.lt_of_not_le hmany)
    rw [← hlen] at hm ⊢
    exact (htree.limitCounts_ok hb hm).supplyOk h15

end Sys2Proof.Machine
end

section
/-! Step C of the code builder: which symbol gets which length, and `build_codes` itself (R191, R193, R194): the obligation O26. -/

namespace Sys2Proof.Machine

/-! ## Step C: the symbols in the order in which lengths are handed out -/

theorem getElem?_zip_range_freqs {freqs : List Len} {i s f : Nat} :
    ((List.range freqs.length).zip (freqs.map BitVec.toNat))[i]? = some (s, f) ↔
      i = s ∧ freqs[s]?.map BitVec.toNat = some f := by
  rw [List.getElem?_zip_eq_some, List.getElem?_map, List.getElem?_eq_some_iff]
  simp only [List.getElem_range, List.length_range]
  constructor
  · rintro ⟨⟨_, rfl⟩, hf⟩; exact ⟨rfl, hf⟩
  · rintro ⟨rfl, hf⟩
    obtain ⟨g, hg, -⟩ := Option.map_eq_some_iff.mp hf
    exact ⟨⟨lt_length_of_getElem? hg, rfl⟩, hf⟩

theorem mem_usedSymbols {freqs : List Len} {s f : Nat} :
    (s, f) ∈ usedSymbols freqs ↔ freqs[s]?.map BitVec.toNat = some f ∧ f ≠ 0 := by
  rw [usedSymbols, List.mem_filter, List.mem_iff_getElem?, decide_eq_true_eq]
  simp only [getElem?_zip_range_freqs, exists_eq_left]

theorem usedSymbols_length (freqs : List Len) : (usedSymbols freqs).length = (freqs.filter fun f => f != 0).length := by
  have hsnd : ((List.range freqs.length).zip (freqs.map BitVec.toNat)).map Prod.snd = freqs.map BitVec.toNat :=
    List.map_snd_zip (by simp)
  have hp : (fun f : Len => f != 0) = (fun f => decide (f ≠ 0)) ∘ BitVec.toNat := by
    funext f
    rw [Function.comp_apply, bne, Bool.beq_eq_decide_eq, ← decide_not, decide_eq_decide, ← BitVec.toNat_inj]
    rfl
  rw [hp, ← List.length_map BitVec.toNat, ← List.filter_map, ← hsnd, List.filter_map, List.length_map]
  rfl

theorem usedSymbols_nodup (freqs : List Len) : ((usedSymbols freqs).map Prod.fst).Nodup := by
  refine List.nodup_range (n := freqs.length) |>.sublist ?_
  rw [← List.map_fst_zip (l₁ := List.range freqs.length) (l₂ := freqs.map BitVec.toNat) (by simp)]
  exact List.filter_sublist.map _

theorem insertByFreq_perm (x : Nat × Nat) (l : List (Nat × Nat)) : (insertByFreq x l).Perm (x :: l) := by
  induction l with
  | nil => exact .refl _
  | cons y l ih =>
    rw [insertByFreq]
    split
    · exact .refl _
    · exact (ih.cons y).trans (.swap x y l)

theorem insertByFreq_sorted (x : Nat × Nat) {l : List (Nat × Nat)} (h : l.Pairwise fun p q => q.2 ≤ p.2) :
    (insertByFreq x l).Pairwise fun p q => q.2 ≤ p.2 := by
  induction l with
  | nil => exact List.pairwise_singleton _ _
  | cons y l ih =>
    obtain ⟨hy, hl⟩ := List.pairwise_cons.mp h
    rw [insertByFreq]
    split
    · rename_i hbefore
      have hyx : y.2 ≤ x.2 := by omega
      exact List.pairwise_cons.mpr ⟨List.forall_mem_cons.mpr ⟨hyx, fun p hp => (hy p hp).trans hyx⟩, h⟩
    · rename_i hafter
      have hxy : x.2 ≤ y.2 := by omega
      refine List.pairwise_cons.mpr ⟨fun p hp => ?_, ih hl⟩
      obtain rfl | hp := List.mem_cons.mp ((insertByFreq_perm x l).mem_iff.mp hp)
      · exact hxy
      · exact hy p hp

/-- R196 Step C: the used symbols with their frequencies, the most frequent first. -/
def byFreq (freqs : List Len) : List (Nat × Nat) := (usedSymbols freqs).foldl (fun l p => insertByFreq p l) []

theorem byFreq_perm (freqs : List Len) : (byFreq freqs).Perm (usedSymbols freqs) := by
  have hperm := foldl_insert_perm (f := id) insertByFreq_perm (usedSymbols freqs) []
  rwa [List.map_id, List.append_nil] at hperm

theorem byFreq_sorted (freqs : List Len) : (byFreq freqs).Pairwise fun p q => q.2 ≤ p.2 :=
  List.foldlRecOn (motive := List.Pairwise fun p q : Nat × Nat => q.2 ≤ p.2) _ _ .nil fun _ h p _ => insertByFreq_sorted p h

/-! ## Step C: who gets which length -/

theorem lengthFor_of_notMem {s : Nat} {pairs : List (Nat × Nat)} (h : s ∉ pairs.map Prod.fst) : lengthFor s pairs = 0 := by
  induction pairs with
  | nil => rfl
  | cons p pairs ih =>
    obtain ⟨hne, hrest⟩ := not_or.mp (mt List.mem_cons.mpr h)
    rw [lengthFor, if_neg (Ne.symm hne), ih hrest]

theorem lengthFor_of_mem {s l : Nat} {pairs : List (Nat × Nat)} (hnodup : (pairs.map Prod.fst).Nodup) (h : (s, l) ∈ pairs) :
    lengthFor s pairs = l := by
  induction pairs with
  | nil => cases h
  | cons p pairs ih =>
    obtain ⟨hp, hrest⟩ := List.nodup_cons.mp hnodup
    obtain rfl | h := List.mem_cons.mp h
    · rw [lengthFor, if_pos rfl]
    · rw [lengthFor, if_neg, ih hrest h]
      rintro rfl
      exact hp (List.mem_map.mpr ⟨_, h, rfl⟩)

/-- R170: what a length adds to the Kraft sum. -/
def kraftShare (l : Nat) : Nat := if l ≠ 0 then 2 ^ (15 - l) else 0

/-- What all symbols weigh together is what the lengths weigh that were handed out. -/
theorem sum_lengthFor {w : Nat → Nat} (h0 : w 0 = 0) {n : Nat} {pairs : List (Nat × Nat)}
    (hnodup : (pairs.map Prod.fst).Nodup) (hlt : ∀ p ∈ pairs, p.1 < n) :
    ∑ s ∈ Finset.range n, w (lengthFor s pairs) = (pairs.map fun p => w p.2).sum := by
  induction pairs with
  | nil => simp [lengthFor, h0]
  | cons p pairs ih =>
    obtain ⟨hp, hrest⟩ := List.nodup_cons.mp hnodup
    obtain ⟨hpn, hltrest⟩ := List.forall_mem_cons.mp hlt
    have hsplit : ∀ s, w (lengthFor s (p :: pairs)) = (if p.1 = s then w p.2 else 0) + w (lengthFor s pairs) := by
      intro s
      rw [lengthFor]
      split
      · rename_i hs
        rw [← hs, lengthFor_of_notMem hp, h0, Nat.add_zero]
      · rw [Nat.zero_add]
    simp only [hsplit, Finset.sum_add_distrib, ih hrest hltrest, List.map_cons, List.sum_cons, Finset.sum_ite_eq,
      Finset.mem_range, hpn, if_true]

/-- R196 Step C: the symbols with the lengths they get. -/
def handedOut (freqs : List Len) (b : Nat) : List (Nat × Nat) := ((byFreq freqs).map Prod.fst).zip (codeSupply freqs b)

theorem referenceLengths_eq (freqs : List Len) (b : Nat) :
    referenceLengths freqs b = (List.range freqs.length).map fun s => lengthFor s (handedOut freqs b) := rfl

@[simp] theorem referenceLengths_length (freqs : List Len) (b : Nat) : (referenceLengths freqs b).length = freqs.length := by
  simp [referenceLengths_eq]

theorem getD_referenceLengths {freqs : List Len} {s : Nat} (b : Nat) (h : s < freqs.length) :
    (referenceLengths freqs b).getD s 0 = lengthFor s (handedOut freqs b) := by
  simp [referenceLengths_eq, List.getD_eq_getElem?_getD, h]

theorem getElem?_referenceLengths {freqs : List Len} {b s l : Nat} (h : (referenceLengths freqs b)[s]? = some l) :
    l = lengthFor s (handedOut freqs b) := by
  rw [← getD_zero_of_getElem? h]
  exact getD_referenceLengths b (referenceLengths_length freqs b ▸ lt_length_of_getElem? h)

section
variable {freqs : List Len} {b : Nat} (hsupply : SupplyOk b (usedSymbols freqs).length (codeSupply freqs b))
include hsupply

theorem byFreq_length : (byFreq freqs).length = (codeSupply freqs b).length := by
  rw [(byFreq_perm freqs).length_eq, hsupply.length]

theorem handedOut_fst : (handedOut freqs b).map Prod.fst = (byFreq freqs).map Prod.fst :=
  List.map_fst_zip (by rw [List.length_map, byFreq_length hsupply])

theorem handedOut_snd : (handedOut freqs b).map Prod.snd = codeSupply freqs b :=
  List.map_snd_zip (by rw [List.length_map, byFreq_length hsupply])

theorem handedOut_nodup : ((handedOut freqs b).map Prod.fst).Nodup := by
  rw [handedOut_fst hsupply]
  exact ((byFreq_perm freqs).map _).nodup_iff.mpr (usedSymbols_nodup freqs)

theorem mem_handedOut_fst {s : Nat} :
    s ∈ (handedOut freqs b).map Prod.fst ↔ ∃ f, freqs[s]?.map BitVec.toNat = some f ∧ f ≠ 0 := by
  rw [handedOut_fst hsupply, ((byFreq_perm freqs).map _).mem_iff]
  simp only [List.mem_map, Prod.exists, exists_and_right, exists_eq_right, mem_usedSymbols]

/-- R196 Step C: the `i`-th symbol in the order gets the `i`-th length. -/
theorem lengthFor_handedOut {s : Nat} {f : Len} (hs : freqs[s]? = some f) (hf : f.toNat ≠ 0) :
    ∃ i : Nat, (byFreq freqs)[i]? = some (s, f.toNat) ∧ (codeSupply freqs b)[i]? = some (lengthFor s (handedOut freqs b)) := by
  have hmem : (s, f.toNat) ∈ byFreq freqs := (byFreq_perm freqs).mem_iff.mpr (mem_usedSymbols.mpr ⟨by rw [hs]; rfl, hf⟩)
  obtain ⟨i, hi⟩ := List.mem_iff_getElem?.mp hmem
  have hlt : i < (codeSupply freqs b).length := byFreq_length hsupply ▸ lt_length_of_getElem? hi
  have hpair : (s, (codeSupply freqs b)[i]) ∈ handedOut freqs b := List.mem_iff_getElem?.mpr
    ⟨i, List.getElem?_zip_eq_some.mpr ⟨by rw [List.getElem?_map, hi]; rfl, List.getElem?_eq_getElem hlt⟩⟩
  exact ⟨i, hi, by rw [lengthFor_of_mem (handedOut_nodup hsupply) hpair, List.getElem?_eq_getElem hlt]⟩

theorem lengthFor_handedOut_mem {s : Nat} {f : Len} (hs : freqs[s]? = some f) (hf : f.toNat ≠ 0) :
    lengthFor s (handedOut freqs b) ∈ codeSupply freqs b := by
  obtain ⟨i, -, hi⟩ := lengthFor_handedOut hsupply hs hf
  exact List.mem_of_getElem? hi

theorem lengthFor_of_unused {s : Nat} {f : Len} (hs : freqs[s]? = some f) (hf : f.toNat = 0) :
    lengthFor s (handedOut freqs b) = 0 := by
  refine lengthFor_of_notMem fun hmem => ?_
  obtain ⟨g, hg, hne⟩ := (mem_handedOut_fst hsupply).mp hmem
  rw [hs, Option.map_some, Option.some.injEq] at hg
  exact hne (hg ▸ hf)

/-- R191 (a), (b). -/
theorem lengthFor_eq_zero_iff_and_le {s : Nat} {f : Len} (hs : freqs[s]? = some f) :
    (lengthFor s (handedOut freqs b) = 0 ↔ f = 0) ∧ lengthFor s (handedOut freqs b) ≤ b := by
  have hzero : f = 0 ↔ f.toNat = 0 := BitVec.toNat_inj.symm
  rw [hzero]
  by_cases hf : f.toNat = 0
  · simp [lengthFor_of_unused hsupply hs hf, hf]
  · obtain ⟨hne, hle⟩ := hsupply.range _ (lengthFor_handedOut_mem hsupply hs hf)
    exact ⟨iff_of_false hne hf, hle⟩

/-- R191 (f). -/
theorem lengthFor_le_of_freq_lt {u v : Nat} {f g : Len} (hu : freqs[u]? = some f) (hv : freqs[v]? = some g)
    (hpos : 0 < g.toNat) (hlt : g.toNat < f.toNat) :
    lengthFor u (handedOut freqs b) ≤ lengthFor v (handedOut freqs b) := by
  obtain ⟨i, hi, hiu⟩ := lengthFor_handedOut hsupply hu (by omega)
  obtain ⟨j, hj, hjv⟩ := lengthFor_handedOut hsupply hv (by omega)
  obtain ⟨hil, hi⟩ := List.getElem?_eq_some_iff.mp hi
  obtain ⟨hjl, hj⟩ := List.getElem?_eq_some_iff.mp hj
  obtain ⟨hisl, hiu⟩ := List.getElem?_eq_some_iff.mp hiu
  obtain ⟨hjsl, hjv⟩ := List.getElem?_eq_some_iff.mp hjv
  rw [← hiu, ← hjv]
  obtain hij | rfl | hji := Nat.lt_trichotomy i j
  · exact List.pairwise_iff_getElem.mp hsupply.sorted i j hisl hjsl hij
  · exact le_rfl
  · have hle := List.pairwise_iff_getElem.mp (byFreq_sorted freqs) j i hjl hil hji
    rw [hi, hj] at hle
    exact absurd hle (Nat.not_le.mpr hlt)

/-- R193: a symbol that is used alone gets length 1. -/
theorem lengthFor_le_one (hone : (usedSymbols freqs).length = 1) {s : Nat} {f : Len} (hs : freqs[s]? = some f) :
    lengthFor s (handedOut freqs b) ≤ 1 := by
  by_cases hf : f.toNat = 0
  · rw [lengthFor_of_unused hsupply hs hf]; exact Nat.zero_le 1
  · have hmem := lengthFor_handedOut_mem hsupply hs hf
    rw [codeSupply, if_pos hone.le] at hmem
    exact (List.eq_of_mem_replicate hmem).le

/-- R191 (c). -/
theorem kraftSum_referenceLengths_le : kraftSum (referenceLengths freqs b) ≤ 2 ^ 15 := by
  have hlt : ∀ p ∈ handedOut freqs b, p.1 < freqs.length := fun p hp => by
    obtain ⟨f, hf, -⟩ := (mem_handedOut_fst hsupply).mp (List.mem_map_of_mem hp)
    obtain ⟨g, hg, -⟩ := Option.map_eq_some_iff.mp hf
    exact lt_length_of_getElem? hg
  calc kraftSum (referenceLengths freqs b)
      = ∑ s ∈ Finset.range freqs.length, kraftShare (lengthFor s (handedOut freqs b)) := by
        rw [kraftSum_eq_sum, Finset.sum_filter, referenceLengths_length]
        exact Finset.sum_congr rfl fun s hs => by rw [getD_referenceLengths b (Finset.mem_range.mp hs)]; rfl
    _ = ((codeSupply freqs b).map kraftShare).sum := by
        rw [sum_lengthFor rfl (handedOut_nodup hsupply) hlt, ← handedOut_snd hsupply, List.map_map]; rfl
    _ = ((codeSupply freqs b).map (kraftWeight 15)).sum := by
        exact congrArg List.sum (List.map_congr_left fun l hl => if_pos (hsupply.range l hl).1)
    _ ≤ 2 ^ 15 := hsupply.kraft

end

/-! ## `build_codes` (R191, R194) -/

theorem exec_buildCodes_of_range {freqs : List Len} {b : Nat} (hb : b ≠ 0) (h15 : b ≤ 15)
    (hm : (usedSymbols freqs).length ≤ 2 ^ b) (s : State) :
    exec (.buildCodes freqs b) s = .next { s with
      enc := ⟨freqs, referenceLengths freqs b, canonicalCodes (referenceLengths freqs b)⟩,
      ret := .codes (canonicalCodes (referenceLengths freqs b)) } := by
  have hrange : ¬ (b = 0 ∨ Config.maxBits < b ∨ 2 ^ b < (usedSymbols freqs).length) := by
    rw [Config.maxBits]; omega
  rw [exec, execBuildCodes, buildCodes, if_neg hrange]
  rfl

theorem exec_buildCodes_of_no_range {freqs : List Len} {b : Nat} (h : b = 0 ∨ 15 < b ∨ 2 ^ b < (usedSymbols freqs).length)
    (s : State) : exec (.buildCodes freqs b) s = .refused .outsideContract := by
  rw [exec, execBuildCodes, buildCodes, Config.maxBits, if_pos h]
  rfl

/-- Settles O26: the supply of lengths meets the contract (`codeSupply_ok`), and Step C hands the shorter ones to the more frequent
symbols. -/
theorem buildCodesLengthsAndCodes : Obligations.BuildCodesLengthsAndCodes := by
  intro freqs b
  rw [← usedSymbols_length]
  refine ⟨fun h1 h15 hm => ⟨referenceLengths freqs b, ?_⟩, exec_buildCodes_of_no_range⟩
  have hb : b ≠ 0 := Nat.ne_of_gt h1
  have hsupply := codeSupply_ok hb h15 hm
  refine ⟨exec_buildCodes_of_range hb h15 hm, referenceLengths_length freqs b, ?_, kraftSum_referenceLengths_le hsupply, ?_, ?_⟩
  · intro v f l hf hl
    rw [getElem?_referenceLengths hl]
    exact lengthFor_eq_zero_iff_and_le hsupply hf
  · intro u v f g k l hf hg hk hl
    rw [getElem?_referenceLengths hk, getElem?_referenceLengths hl]
    exact lengthFor_le_of_freq_lt hsupply hf hg
  · intro hone l hl
    obtain ⟨v, hv⟩ := List.mem_iff_getElem?.mp hl
    have hlt : v < freqs.length := referenceLengths_length freqs b ▸ lt_length_of_getElem? hv
    rw [getElem?_referenceLengths hv]
    exact lengthFor_le_one hsupply hone (List.getElem?_eq_getElem hlt)

end Sys2Proof.Machine
end

section
/-! A decompress call never stops before its end: every instruction of the stream answers a next state at every state, so
a step of the inflate engine does (R232, R455), and the cursor moves towards the end of the input (R231): the obligation O58. -/

namespace Sys2Proof.Machine

/-! ## Operations that are never refused -/

/-- The operation completes or raises; it is not refused. -/
def Res.Answers {α : Type} (r : Res α) : Prop := ∀ w, r ≠ .refuse w

theorem Res.answers_ok {α : Type} (a : α) (s : State) : (Res.ok a s).Answers := nofun

theorem Res.answers_raise {α : Type} (c : Cause) (s : State) : (Res.raise c s : Res α).Answers := nofun

theorem Res.Answers.bind {α β : Type} {r : Res α} {f : α → State → Res β} (h : r.Answers) (hf : ∀ a t, (f a t).Answers) :
    (r.bind f).Answers := by
  cases r with
  | ok a t => exact hf a t
  | raise c t => exact Res.answers_raise c t
  | refuse w => exact absurd rfl (h w)

theorem Res.answers_each {α : Type} {f : α → State → Res Unit} (hf : ∀ a t, (f a t).Answers) :
    ∀ (l : List α) (t : State), (Res.each f l t).Answers
  | [], t => Res.answers_ok () t
  | a :: l, t => (hf a t).bind fun _ u => Res.answers_each hf l u

/-- An instruction whose operation is not refused has a next state. -/
theorem Res.Answers.toNext {r : Res Unit} (h : r.Answers) : ∃ t, r.toNext = .next t := by
  cases r with
  | ok _ t => exact ⟨t, rfl⟩
  | raise c t => exact ⟨raiseError c t, rfl⟩
  | refuse w => exact absurd rfl (h w)

theorem appendByte_answers (b : Byte) (s : State) : (appendByte b s).Answers := by
  rw [appendByte_eq]
  split
  · exact Res.answers_ok _ _
  · exact Res.answers_raise _ _

theorem readByte_answers (s : State) : (readByte s).Answers := by
  unfold readByte
  split
  · exact Res.answers_raise _ _
  · exact Res.answers_ok _ _

theorem buildInto_answers (t : BlockTable) (lens required : List Nat) (s : State) : (buildInto t lens required s).Answers := by
  unfold buildInto
  split
  · exact Res.answers_ok _ _
  · exact Res.answers_raise _ _

theorem storedBlock_answers (len nlen : BitVec 16) (s : State) : (storedBlock len nlen s).Answers := by
  unfold storedBlock
  simp only
  split
  · exact Res.answers_raise _ _
  · exact (Res.answers_each (fun _ u => (readByte_answers u).bind appendByte_answers) _ _).bind fun _ _ => Res.answers_ok _ _

theorem afterLengths_answers (s : State) : (afterLengths s).Answers := by
  unfold afterLengths
  split
  · exact Res.answers_ok _ _
  · exact (buildInto_answers _ _ _ _).bind fun _ _ => (buildInto_answers _ _ _ _).bind fun _ _ => Res.answers_ok _ _

theorem repeatLength_answers (v : BitVec 4) (rep : Nat) (s : State) : (repeatLength v rep s).Answers := by
  unfold repeatLength
  split
  · exact Res.answers_raise _ _
  · exact afterLengths_answers _

theorem distanceSymbol_answers (j y : Nat) (s : State) : (distanceSymbol j y s).Answers := by
  refine Res.Answers.bind ?_ fun _ _ => Res.answers_ok _ _
  unfold matchCopy
  split
  · exact Res.answers_raise _ _
  · exact Res.answers_each (fun _ t => appendByte_answers _ t) _ _

/-! ## Instructions of the stream -/

/-- R212 to R218. -/
theorem exec_headerInstr_next (f b0 b1 : Bool) (s : State) : ∃ t, exec (headerInstr f b0 b1) s = .next t := by
  cases b1 <;> cases b0 <;> exact ⟨_, rfl⟩

/-- R220, R221. -/
theorem exec_dynCll_next (v : BitVec 3) (s : State) : ∃ t, exec (.dynCll v) s = .next t := by
  unfold exec execDynCll
  simp only
  split
  · exact ⟨_, rfl⟩
  · exact ((buildInto_answers _ _ _ _).bind fun _ _ => Res.answers_ok _ _).toNext

/-- R226. -/
theorem exec_clRep16_next (x : BitVec 2) (s : State) : ∃ t, exec (.clRep16 x) s = .next t := by
  unfold exec execClRep16
  simp only
  split
  · exact ⟨_, rfl⟩
  · exact (repeatLength_answers _ _ _).toNext

/-- R232: whatever the decoder finds in the stream has a next state, at every state. -/
theorem exec_decoded_next {c : Ctx} (hc : c ≠ .ctrl) {bits : List Bool} {i : Instr} {used : Nat}
    (hd : decode c bits = .ok i used) (s : State) : ∃ t, exec i s = .next t := by
  cases c with
  | ctrl => exact absurd rfl hc
  | header =>
    simp only [decode] at hd
    split at hd
    · cases hd; exact exec_headerInstr_next _ _ _ s
    · cases hd
  | storedLen =>
    simp only [decode] at hd
    split at hd
    · cases hd
    · cases hd; exact (storedBlock_answers _ _ s).toNext
  | dynCounts =>
    simp only [decode] at hd
    split at hd
    · cases hd
    · cases hd; exact ⟨_, rfl⟩
  | dynCll =>
    obtain ⟨-, -, v, rfl⟩ := withField_ok hd
    exact exec_dynCll_next v s
  | cl T first =>
    obtain ⟨_, _, -, hn, hsym⟩ := withSymbol_cases hd
    obtain ⟨-, -, ⟨v, rfl⟩ | ⟨x, rfl⟩ | ⟨x, rfl⟩ | ⟨x, rfl⟩⟩ := clInstr_cases hn hsym
    · exact (afterLengths_answers _).toNext
    · exact exec_clRep16_next x s
    · exact (repeatLength_answers _ _ s).toNext
    · exact (repeatLength_answers _ _ s).toNext
  | ll T =>
    obtain ⟨_, _, -, hn, hsym⟩ := withSymbol_cases hd
    obtain ⟨-, -, ⟨b, hlit⟩ | rfl | ⟨sym, x, -, -, -, -, hlen⟩ | rfl | rfl⟩ := llInstr_cases hn hsym
    · rw [hlit]; exact (appendByte_answers b _).toNext
    · exact ⟨_, rfl⟩
    · exact ⟨_, hlen s⟩
    · exact ⟨_, rfl⟩
    · exact ⟨_, rfl⟩
  | dist T =>
    obtain ⟨_, _, -, hn, hsym⟩ := withSymbol_cases hd
    obtain ⟨-, -, ⟨j, y, -, -, hdist⟩ | rfl | rfl⟩ := distInstr_cases hn hsym
    · rw [hdist]; exact (distanceSymbol_answers j y s).toNext
    · exact ⟨_, rfl⟩
    · exact ⟨_, rfl⟩

/-! ## The step -/

/-- R217, R224: the two tables of a block's body are valid. -/
theorem current_valid {s : State} (h : bodyOk s) : (currentLL s).valid = true ∧ (currentD s).valid = true := by
  unfold currentLL currentD
  obtain hfixed | ⟨hdynamic, hll, hd⟩ := h
  · rw [if_pos hfixed, if_pos hfixed]
    exact ⟨builtTable_fll.valid, builtTable_fd.valid⟩
  · rw [hdynamic]
    exact ⟨hll, hd⟩

/-- R176, R217, R221, R224: where the engine stands at a Huffman symbol, the table of the symbol is valid. -/
theorem decode_fetchCtx_ne_tableInvalid {s : State} (hp : phaseOk s) (bits : List Bool) :
    decode (fetchCtx s) bits ≠ .tableInvalid := by
  intro hd
  obtain ⟨-, -, hinvalid⟩ := decode_rejections (fetchCtx_ne_ctrl s) (bits := bits)
  have hctx := hinvalid hd
  unfold phaseOk at hp
  unfold fetchCtx at hctx
  cases hphase : s.inf.phase <;> rw [hphase] at hp hctx
  case codeLengths => simp [hp.2.2] at hctx
  case body => simp [(current_valid hp).1] at hctx
  case distance => simp [(current_valid hp.1).2] at hctx
  all_goals simp at hctx

/-- R455, R232: a step of the inflate engine neither faults nor is refused. -/
theorem inflateStep_next {s : State} (hi : Inv s) (hb : s.status.state = .busy) (hc : ctrlOp s = false) :
    ∃ t, step s = .next t := by
  obtain ⟨-, -, hphase, -⟩ := hi.inflateOk hb hc
  obtain ⟨hlevel, -, -⟩ := decode_rejections (fetchCtx_ne_ctrl s) (bits := nextBits fetchWidth s)
  rw [step, nextAction, if_pos hb, hc, if_neg Bool.false_ne_true, fetchStream]
  cases hd : decode (fetchCtx s) (nextBits fetchWidth s) with
  | ok i used => exact exec_decoded_next (fetchCtx_ne_ctrl s) hd (advance used s)
  | short => exact ⟨_, rfl⟩
  | noLeaf => exact ⟨_, rfl⟩
  | noPrevious => exact ⟨_, rfl⟩
  | noStart => exact ⟨_, rfl⟩
  | illegalLevel => exact absurd hd hlevel
  | tableInvalid => exact absurd hd (decode_fetchCtx_ne_tableInvalid hphase _)

/-! ## The end of the call -/

/-- R231: while a decompress call goes on, the unread bits become fewer. -/
theorem Inflating.unreadBits_lt {s t : State} (h : Inflating s t) : unreadBits t < unreadBits s := by
  obtain ⟨hbit, hbyte, hend⟩ := h.reader
  have hlen := h.len
  have hmoved := h.moved
  unfold streamPos at hmoved
  unfold unreadBits
  omega

theorem engineRun_of_rest {s : State} (h : s.status.state ≠ .busy) (n : Nat) : engineRun n s = .next s := by
  cases n with
  | zero => rfl
  | succ n => rw [engineRun, if_neg h]

theorem engineRun_succ {s t : State} (hb : s.status.state = .busy) (ht : step s = .next t) (n : Nat) :
    engineRun (n + 1) s = engineRun n t := by
  rw [engineRun, if_pos hb, ht]

/-- The call has ended, with success or with an error. -/
abbrev callOver (t : State) : Prop := t.status.state = .done ∨ t.status.state = .error

theorem not_busy_of_callOver {t : State} (h : callOver t) : t.status.state ≠ .busy := by
  obtain h | h := h <;> rw [h] <;> decide

/-- R231: a decompress call with fewer than `n` unread bits ends within `n` steps: each step ends it or leaves fewer of them. -/
theorem inflateRun_ends (n : Nat) : ∀ s : State, Inv s → s.status.state = .busy → ctrlOp s = false → unreadBits s < n →
    ∃ t, engineRun n s = .next t ∧ callOver t := by
  induction n with
  | zero => exact fun s _ _ _ hn => absurd hn (Nat.not_lt_zero _)
  | succ n ih =>
    intro s hi hb hc hn
    obtain ⟨t, ht⟩ := inflateStep_next hi hb hc
    rw [engineRun_succ hb ht]
    have hstop : callOver t → ∃ u, engineRun n t = .next u ∧ callOver u :=
      fun h => ⟨t, engineRun_of_rest (not_busy_of_callOver h) n, h⟩
    cases step_stepped hi hb ht with
    | aborted c u _ ht => exact hstop (Or.inr (by rw [ht, abort_status]))
    | ended h => exact hstop (by obtain ⟨u, -, rfl⟩ := h; exact Or.inl rfl)
    | running _ h _ =>
      have hlt := h.unreadBits_lt
      exact ih t (stepKeepsInvariant s t hi ht) (h.state.trans hb) (by rw [ctrlOp, h.ctrl]; exact hc) (by omega)

/-- Settles O58, by induction on the number of unread bits; the steps counted are the model's own, one per element (log 1). -/
theorem decompressCallEnds : Obligations.DecompressCallEnds :=
  fun s hi hb hc => inflateRun_ends (unreadBits s + 1) s hi hb hc (Nat.lt_succ_self _)

end Sys2Proof.Machine
end

section
/-! A stored block (R215, R216): the obligations O28 and O29. -/

namespace Sys2Proof.Machine

/-- R410: the abort, from a state whose engine differs from `s` in registers and tables of the Decompressor alone. What it keeps
beyond R410 is the model's own (logs 4, 19 and 29). -/
theorem abortedWith_of_engine {s : State} (hb : s.status.state = .busy) (c : Cause) {inf : Inflate} {tCL tLL tD : HuffTable} :
    abortedWith c s (raiseError c { s with inf := inf, tCL := tCL, tLL := tLL, tD := tD }) :=
  abortedWith_raiseError c s _ hb rfl rfl rfl rfl rfl rfl rfl

/-- R215: the length fields match exactly if they add up to 65535. -/
theorem eq_not_iff_add_eq (len nlen : BitVec 16) : len = ~~~nlen ↔ len.toNat + nlen.toNat = 65535 := by
  have := len.isLt
  have := nlen.isLt
  rw [← BitVec.toNat_inj, BitVec.toNat_not]
  omega

/-- R215: the length fields are latched. -/
def latchLengths (len nlen : BitVec 16) (s : State) : State := { s with inf := { s.inf with LEN := len, NLEN := nlen } }

/-- R215: length fields that do not match. -/
theorem exec_storedLen_of_mismatch {len nlen : BitVec 16} (h : len.toNat + nlen.toNat ≠ 65535) (s : State) :
    exec (.storedLen len nlen) s = .next (raiseError .invalidStoredLength (latchLengths len nlen s)) := by
  rw [exec, execStoredLen, storedBlock, if_pos (mt (eq_not_iff_add_eq len nlen).mp h)]
  rfl

/-- R216: length fields that match: the copy, then the end of the block. -/
theorem exec_storedLen_of_match {len nlen : BitVec 16} (h : len.toNat + nlen.toNat = 65535) (s : State) :
    exec (.storedLen len nlen) s = ((Res.each (fun _ u => copyStoredByte u) (List.range len.toNat)
      (latchLengths len nlen s)).bind fun _ u => .ok () (endBlock u)).toNext := by
  rw [exec, execStoredLen, storedBlock, if_neg (not_not.mpr ((eq_not_iff_add_eq len nlen).mpr h))]
  rfl

/-- R211, R230, R388: while a call runs, what ends a block is what the claims say of it. -/
theorem endBlock_eq_blockOver {u : State} (hb : u.status.state = .busy) : endBlock u = blockOver u := by
  unfold endBlock blockOver
  split
  · rw [completeCall, if_pos hb]
  · rfl

/-- The end of a block leaves `OUT`. -/
theorem outByte_blockOver (u : State) (a : Nat) : outByte (blockOver u) a = outByte u a := by
  unfold blockOver
  split <;> rfl

/-- Settles O28: the copy loop in closed form (`storedCopy_ok`), then the end of the block. -/
theorem storedBlockCopiesItsBytes : Obligations.StoredBlockCopiesItsBytes := by
  intro len nlen s hb hmatch hthere hroom
  obtain ⟨u, hu, happ, hrd⟩ := storedCopy_ok (latchLengths len nlen s) len.toNat hthere hroom
  have hlen : u.outLen = BitVec.ofNat Config.lenw (s.outLen.toNat + len.toNat) :=
    BitVec.eq_of_toNat_eq (happ.outLen.trans (lenOfNat_toNat (hroom.trans_lt s.outMax.isLt)).symm)
  have hshape : u = { s with
      inf := { s.inf with LEN := len, NLEN := nlen }, rd := { s.rd with byte := s.rd.byte + len.toNat }
      outBuf := u.outBuf, outLen := BitVec.ofNat Config.lenw (s.outLen.toNat + len.toNat) } := by
    conv_lhs => rw [happ.touches, hrd, hlen]
    rfl
  refine ⟨u.outBuf, blockOver u, congrArg blockOver hshape, ?_, fun k hk => ?_, fun a ha => ?_⟩
  · rw [exec_storedLen_of_match hmatch, hu, ← endBlock_eq_blockOver ((congrArg Status.state happ.status).trans hb)]
    rfl
  · rw [outByte_blockOver]; exact happ.bytes k hk
  · rw [outByte_blockOver]; exact happ.frame a ha

/-- R216, R410: a stored copy that raises ends the call. -/
theorem exec_storedLen_of_raise {len nlen : BitVec 16} {s u : State} {c : Cause} {b : Nat → Byte} {k : Nat}
    (hb : s.status.state = .busy) (hmatch : len.toNat + nlen.toNat = 65535)
    (hu : Res.each (fun _ u => copyStoredByte u) (List.range len.toNat) (latchLengths len nlen s) = .raise c u)
    (happ : Appended b k (latchLengths len nlen s) u) :
    ∃ t, exec (.storedLen len nlen) s = .next t ∧ abortedWith c s t :=
  ⟨raiseError c u, by rw [exec_storedLen_of_match hmatch, hu]; rfl, happ.aborted hb c⟩

/-- Settles O29: the copy stops at the first byte that is missing, or at the first that is there and does not fit
(`storedCopy_fail`). -/
theorem storedBlockFailures : Obligations.StoredBlockFailures := by
  refine fun len nlen s hb => ⟨fun h => ?_, fun hmatch hmissing hroom => ?_, fun hmatch hle hfull hthere => ?_⟩
  · exact ⟨_, exec_storedLen_of_mismatch h s, abortedWith_of_engine hb _⟩
  · obtain ⟨u, hu, happ⟩ := (storedCopy_fail (latchLengths len nlen s) len.toNat _ hmissing (le_refl _) hroom).1 rfl
    exact exec_storedLen_of_raise hb hmatch hu happ
  · rw [BitVec.le_def] at hle
    have hfits : roomFor (s.outMax.toNat - s.outLen.toNat) (latchLengths len nlen s) := by
      show s.outLen.toNat + _ ≤ s.outMax.toNat
      omega
    have hnone : ¬ roomFor (s.outMax.toNat - s.outLen.toNat + 1) (latchLengths len nlen s) := by
      show ¬ s.outLen.toNat + _ ≤ s.outMax.toNat
      omega
    obtain ⟨u, hu, happ⟩ :=
      (storedCopy_fail (latchLengths len nlen s) len.toNat _ hfull (Nat.le_of_lt hthere) hfits).2 hthere hnone
    exact exec_storedLen_of_raise hb hmatch hu happ

end Sys2Proof.Machine
end

section
/-! The header of a dynamic block (R219 to R221): the obligation O30. -/

namespace Sys2Proof.Machine

/-- R171: a table that can be built is written. -/
theorem buildInto_of_some {t : BlockTable} {lens required : List Nat} {T : HuffTable} (h : buildTable lens required = some T)
    (s : State) : buildInto t lens required s = .ok () (setTable t T s) := by
  rw [buildInto, h]

/-- R37, R171: one that cannot be built is cleared, and the failure raised. -/
theorem buildInto_of_none {t : BlockTable} {lens required : List Nat} (h : buildTable lens required = none) (s : State) :
    buildInto t lens required s = .raise .invalidHuffmanTable (setTable t { tableOf (.block t) s with valid := false } s) := by
  rw [buildInto, h]

/-- R220: where the `k`-th 3-bit field goes. -/
theorem orderTable_getD_eq_iff {k j : Nat} (hj : j < 19) : orderTable.getD k 19 = j ↔ orderTable[k]? = some j := by
  rw [List.getD_eq_getElem?_getD]
  cases orderTable[k]? with
  | none => simp only [Option.getD_none, reduceCtorEq, iff_false]; omega
  | some i => simp

/-- R220: the length of one code-length symbol is set. -/
theorem getElem_storeCll (v : BitVec 3) (s : State) {j : Nat} (hj : j < 19) :
    (storeCll v s).inf.cll[j] = if orderTable[s.inf.k]? = some j then v else s.inf.cll[j] := by
  simp only [storeCll, Vector.getElem_setIfInBounds, orderTable_getD_eq_iff hj]

/-- R220: a field that another one follows. -/
theorem exec_dynCll_of_lt {v : BitVec 3} {s : State} (h : s.inf.k + 1 < s.inf.ncode) :
    exec (.dynCll v) s = .next (storeCll v s) :=
  if_pos h

/-- R220: the exit test of its loop after the last field. -/
theorem storeCll_last {s : State} (h : s.inf.k + 1 = s.inf.ncode) (v : BitVec 3) :
    ¬ (storeCll v s).inf.k < (storeCll v s).inf.ncode :=
  Nat.not_lt.mpr (Nat.le_of_eq h.symm)

/-- R221: the last field, with a code-length table that can be built. -/
theorem exec_dynCll_of_some {v : BitVec 3} {s : State} {T : HuffTable} (h : s.inf.k + 1 = s.inf.ncode)
    (hT : buildTable (storeCll v s).inf.clLens [] = some T) :
    exec (.dynCll v) s = .next { s with
      inf := { (storeCll v s).inf with i := 0, phase := .codeLengths }, tCL := T } := by
  rw [exec, execDynCll, if_neg (storeCll_last h v), buildInto_of_some hT]
  rfl

/-- R221: the last field, with one that cannot. -/
theorem exec_dynCll_of_none {v : BitVec 3} {s : State} (h : s.inf.k + 1 = s.inf.ncode)
    (hT : buildTable (storeCll v s).inf.clLens [] = none) :
    exec (.dynCll v) s = .next (raiseError .invalidHuffmanTable { s with
      inf := (storeCll v s).inf, tCL := { s.tCL with valid := false } }) := by
  rw [exec, execDynCll, if_neg (storeCll_last h v), buildInto_of_none hT]
  rfl

/-- Settles O30: each instruction latches its field; after the last one the build has its two outcomes. -/
theorem dynamicHeaderFields : Obligations.DynamicHeaderFields :=
  ⟨fun _ _ _ _ => rfl, fun v s _ => ⟨(storeCll v s).inf.cll, fun _ hj => getElem_storeCll v s hj, exec_dynCll_of_lt,
    fun hlast _ hT => exec_dynCll_of_some hlast hT,
    fun hlast hb hnone => ⟨_, exec_dynCll_of_none hlast hnone, abortedWith_of_engine hb _⟩⟩⟩

end Sys2Proof.Machine
end

section
/-! The code length sequence of a dynamic block (R222 to R228): the obligations O31, O32 and O33. -/

namespace Sys2Proof.Machine

/-- `s` with the code lengths `L`, `rep` of them new. -/
def storedLengths (L : Vector (BitVec 4) 320) (rep : Nat) (s : State) : State :=
  { s with inf := { s.inf with L := L, i := s.inf.i + rep } }

/-- R225 to R228: a repeat stores its length that many times, from `INF.i` on. -/
theorem pushLengths_filled (v : BitVec 4) : ∀ (rep : Nat) (s : State),
    ∃ L' : Vector (BitVec 4) 320, filledWith s.inf.L L' s.inf.i rep v ∧ pushLengths v rep s = storedLengths L' rep s
  | 0, s => ⟨s.inf.L, fun j _ => (if_neg (by omega)).symm, rfl⟩
  | rep + 1, s => by
    obtain ⟨L', hfilled, hpush⟩ := pushLengths_filled v rep (pushLength v s)
    refine ⟨L', fun j hj => ?_, ?_⟩
    · rw [hfilled j hj]
      simp only [pushLength, Vector.getElem_setIfInBounds]
      obtain rfl | hne := eq_or_ne s.inf.i j
      · simp
      · have hiff : (s.inf.i + 1 ≤ j ∧ j < s.inf.i + 1 + rep) ↔ (s.inf.i ≤ j ∧ j < s.inf.i + (rep + 1)) := by omega
        simp only [hiff, if_neg hne]
    · rw [pushLengths, hpush]
      simp only [storedLengths, pushLength, Nat.add_assoc, Nat.add_comm 1]

/-- R222: the exit test before the end of the sequence. -/
theorem afterLengths_of_lt {s : State} (h : s.inf.i < s.inf.total) : afterLengths s = .ok () s := if_pos h

/-- R224: at the end of the sequence, where both tables can be built. -/
theorem afterLengths_of_some {s : State} {T D : HuffTable} (h : s.inf.total ≤ s.inf.i)
    (hT : buildTable s.inf.llLens [256] = some T) (hD : buildTable s.inf.dLens [] = some D) :
    afterLengths s = .ok () { s with inf := { s.inf with phase := .body }, tLL := T, tD := D } := by
  rw [afterLengths, if_neg (Nat.not_lt.mpr h), buildInto_of_some hT, Res.bind_ok, setTable_inf, buildInto_of_some hD]
  rfl

/-- R224, R404: at the end of the sequence, where one of the tables cannot be built. -/
theorem afterLengths_of_none {s : State} (h : s.inf.total ≤ s.inf.i)
    (hnone : buildTable s.inf.llLens [256] = none ∨ buildTable s.inf.dLens [] = none) :
    ∃ tLL tD, afterLengths s = .raise .invalidHuffmanTable { s with tLL := tLL, tD := tD } := by
  rw [afterLengths, if_neg (Nat.not_lt.mpr h)]
  cases hT : buildTable s.inf.llLens [256] with
  | none => exact ⟨_, _, by rw [buildInto_of_none hT]; rfl⟩
  | some T =>
    have hD := hnone.resolve_left (by rw [hT]; exact Option.some_ne_none T)
    exact ⟨_, _, by rw [buildInto_of_some hT, Res.bind_ok, setTable_inf, buildInto_of_none hD]; rfl⟩

/-- R223: a repeat that stays within the sequence. -/
theorem repeatLength_of_le {v : BitVec 4} {rep : Nat} {s : State} (h : s.inf.i + rep ≤ s.inf.total) :
    repeatLength v rep s = afterLengths (pushLengths v rep s) :=
  if_neg (Nat.not_lt.mpr h)

/-- R223: a repeat that would overrun it. -/
theorem repeatLength_of_gt {v : BitVec 4} {rep : Nat} {s : State} (h : s.inf.total < s.inf.i + rep) :
    repeatLength v rep s = .raise .invalidHuffmanTable s :=
  if_pos h

/-- R225 to R228: what a code-length instruction does with the length and the number of copies it stands for. -/
theorem exec_of_clEffect {s : State} {i : Instr} {v : BitVec 4} {rep : Nat} (h : clEffect s i = some (v, rep)) :
    (i = .clLen v ∧ rep = 1) ∨ exec i s = (repeatLength v rep s).toNext := by
  unfold clEffect at h
  split at h
  · cases h; exact Or.inl ⟨rfl, rfl⟩
  · split at h
    · cases h
    · next hi =>
      cases h
      rw [exec, execClRep16, if_neg hi]
      exact Or.inr rfl
  · cases h; exact Or.inr rfl
  · cases h; exact Or.inr rfl
  · cases h

/-- R222: within the sequence, the lengths are stored and the exit test of its loop follows. -/
theorem exec_of_clEffect_of_le {s : State} {i : Instr} {v : BitVec 4} {rep : Nat} (h : clEffect s i = some (v, rep))
    (hle : s.inf.i + rep ≤ s.inf.total) : ∃ L' : Vector (BitVec 4) 320, filledWith s.inf.L L' s.inf.i rep v ∧
      exec i s = (afterLengths (storedLengths L' rep s)).toNext := by
  obtain ⟨L', hfilled, hpush⟩ := pushLengths_filled v rep s
  refine ⟨L', hfilled, ?_⟩
  rw [← hpush]
  obtain ⟨rfl, rfl⟩ | hrepeat := exec_of_clEffect h
  · rfl
  · rw [hrepeat, repeatLength_of_le hle]

/-- Settles O31: before the end of the sequence the exit test leaves what was stored. -/
theorem codeLengthsAreStored : Obligations.CodeLengthsAreStored := by
  intro i v rep s h hlt
  obtain ⟨L', hfilled, hexec⟩ := exec_of_clEffect_of_le h (Nat.le_of_lt hlt)
  refine ⟨L', hfilled, ?_⟩
  rw [hexec, afterLengths_of_lt hlt]
  rfl

/-- Settles O32: at the end of the sequence the two builds have their outcomes. -/
theorem lastCodeLengthBuildsTables : Obligations.LastCodeLengthBuildsTables := by
  intro i v rep s h hlast
  obtain ⟨L', hfilled, hexec⟩ := exec_of_clEffect_of_le h (Nat.le_of_eq hlast)
  have hend : (storedLengths L' rep s).inf.total ≤ (storedLengths L' rep s).inf.i := Nat.le_of_eq hlast.symm
  refine ⟨L', hfilled, fun T D hT hD => ?_, fun hb hnone => ?_⟩
  · rw [hexec, afterLengths_of_some hend hT hD]
    rfl
  · obtain ⟨tLL, tD, hraise⟩ := afterLengths_of_none hend hnone
    exact ⟨_, by rw [hexec, hraise]; rfl, abortedWith_of_engine hb _⟩

/-- R223: a repeat that would overrun the sequence. -/
theorem exec_of_clEffect_of_gt {s : State} {i : Instr} {v : BitVec 4} {rep : Nat} (h : clEffect s i = some (v, rep))
    (hrepeat : i ≠ .clLen v) (hgt : s.inf.total < s.inf.i + rep) :
    exec i s = .next (raiseError .invalidHuffmanTable s) := by
  obtain ⟨hlen, -⟩ | hexec := exec_of_clEffect h
  · exact absurd hlen hrepeat
  · rw [hexec, repeatLength_of_gt hgt]
    rfl

/-- R226: a repeat of a previous length where there is none. -/
theorem exec_clRep16_of_first {s : State} (h : s.inf.i = 0) (x : BitVec 2) :
    exec (.clRep16 x) s = .next (raiseError .invalidHuffmanTable s) := by
  rw [exec, execClRep16, if_pos h]
  rfl

/-- Settles O33: the overrun is tested before anything is stored, and symbol 16 first tests for a previous length. -/
theorem codeLengthRepeatFailures : Obligations.CodeLengthRepeatFailures := by
  refine fun s hb => ⟨fun i v rep hrepeat h hgt => ⟨_, exec_of_clEffect_of_gt h ?_ hgt, abortedWith_of_engine hb _⟩,
    fun x hi => ⟨_, exec_clRep16_of_first hi x, abortedWith_of_engine hb _⟩⟩
  obtain ⟨x, rfl⟩ | ⟨x, rfl⟩ | ⟨x, rfl⟩ := hrepeat <;> nofun

end Sys2Proof.Machine
end

section
/-! A step runs the decoded instruction (O7); the block headers (O27) and the encodings without meaning (O39). -/

namespace Sys2Proof.Machine

/-- Settles O7: by the mode of the block: inflating, deflating, or at rest with or without a move of the host. -/
theorem stepRunsDecodedInstruction : Obligations.StepRunsDecodedInstruction := by
  refine fun s i used => ⟨fun hb hc hd => ?_, fun hb hc => ?_, fun v rest hb hhost hd => ?_, fun hb hhost => ?_⟩
  · rw [step, nextAction, if_pos hb, hc, if_neg Bool.false_ne_true, fetchStream, fetchWidth, hd]
    rfl
  · rw [step, nextAction, if_pos hb, if_pos hc]
    rfl
  · rw [step, nextAction, if_neg hb, hhost]
    simp only [hostMove, if_neg hb, hd]
  · rw [step, nextAction, if_neg hb, hhost]

/-- Settles O27: the padding of a stored block is skipped by the reader's alignment. -/
theorem blockHeadersEnterBlocks : Obligations.BlockHeadersEnterBlocks :=
  fun final s => ⟨congrArg Host.Outcome.next (rdAlign_eq (enterBlock final 0 .stored .storedLen s)), rfl, rfl⟩

/-- R410: an instruction that only latches something in the Decompressor's registers and then raises ends the call. -/
theorem endsCallWith_of_raise {i : Instr} {c : Cause} (latch : Inflate → Inflate)
    (h : ∀ s, exec i s = .next (raiseError c { s with inf := latch s.inf })) : endsCallWith i c :=
  fun s hb => ⟨_, h s, abortedWith_of_engine hb c⟩

/-- Settles O39: each latches its type or symbol and raises. -/
theorem meaninglessEncodingsEndTheCall : Obligations.MeaninglessEncodingsEndTheCall :=
  ⟨fun final => endsCallWith_of_raise (fun f => { f with final := final, btype := 3 }) fun _ => rfl,
   endsCallWith_of_raise (fun f => { f with sym := 286 }) fun _ => rfl,
   endsCallWith_of_raise (fun f => { f with sym := 287 }) fun _ => rfl,
   endsCallWith_of_raise (fun f => { f with dsym := 30 }) fun _ => rfl,
   endsCallWith_of_raise (fun f => { f with dsym := 31 }) fun _ => rfl⟩

end Sys2Proof.Machine
end

section
/-! The symbols of a block (R251 to R256): the obligations O34 to O38 and O40. -/

namespace Sys2Proof.Machine

/-! ## What an append leaves -/

/-- Where the bytes appended fit, only `OUT` and `OUT_LEN` differ, apart from the cursor. -/
theorem Appended.exists_outBuf {b : Nat → Byte} {n : Nat} {s t : State} (h : Appended b n s t) (hrd : t.rd = s.rd)
    (hroom : roomFor n s) :
    ∃ m, t = { s with outBuf := m, outLen := BitVec.ofNat Config.lenw (s.outLen.toNat + n) } := by
  have hlen : t.outLen = BitVec.ofNat Config.lenw (s.outLen.toNat + n) :=
    BitVec.eq_of_toNat_eq (h.outLen.trans (lenOfNat_toNat (hroom.trans_lt s.outMax.isLt)).symm)
  refine ⟨t.outBuf, ?_⟩
  conv_lhs => rw [h.touches, hrd, hlen]

/-- R66: one byte that fits. -/
theorem appendByte_of_room (b : Byte) {s : State} (h : roomFor 1 s) :
    ∃ t, appendByte b s = .ok () t ∧ Appended (fun _ => b) 1 s t ∧ t.rd = s.rd :=
  ⟨_, (appendByte_eq b s).trans (if_pos h), (Appended.refl (fun _ => b) s).succ h rfl, rfl⟩

/-- R66: one that does not. -/
theorem appendByte_of_full (b : Byte) {s : State} (h : ¬ roomFor 1 s) : appendByte b s = .raise .outputOverflow s :=
  (appendByte_eq b s).trans (if_neg h)

/-! ## Literals and the end of a block (R251, R252) -/

/-- R251: both literal instructions are the literal of their byte. -/
theorem exec_literal {i : Instr} {b : Byte} (h : i = .lit0To143 b ∨ i = .lit144To255 b) (s : State) :
    exec i s = (literal b s).toNext := by
  obtain rfl | rfl := h <;> rfl

/-- A literal/length instruction without extra bits is, in a fixed block, the code of its symbol. -/
theorem encode_fll_of_symBits {i : Instr} {sym : Nat} {code : List Bool} (hp : llParts i = some (sym, []))
    (hcode : tableFLL.symBits sym = some code) : encode (.ll tableFLL) i = some code := by
  rw [encode, hp, encodeParts, Option.bind_some, hcode, Option.map_some, List.append_nil]

/-- Settles O34: a literal is an append after the latch of `INF.sym`; the fixed codes are those of its symbol. -/
theorem literalsAppendTheirByte : Obligations.LiteralsAppendTheirByte := by
  refine ⟨fun i b s hi => ⟨fun hroom => ?_, fun hfull => ?_⟩,
    fun b hb => encode_fll_of_symBits rfl (symBits_fll_lit0 (by omega)),
    fun b hb => encode_fll_of_symBits rfl (symBits_fll_lit144 hb b.isLt)⟩
  · obtain ⟨t, ht, happ, hrd⟩ := appendByte_of_room (s := setSym b.toNat s) b hroom
    obtain ⟨m, rfl⟩ := happ.exists_outBuf hrd hroom
    exact ⟨m, _, rfl, by rw [exec_literal hi, literal, ht]; rfl, happ.bytes 0 Nat.one_pos, happ.frame⟩
  · rw [exec_literal hi, literal, appendByte_of_full (s := setSym b.toNat s) b hfull]
    rfl

/-- R252: while a call runs, `EOB` ends its block. -/
theorem exec_eob {s : State} (hb : s.status.state = .busy) : exec .eob s = .next (blockOver (setSym 256 s)) :=
  congrArg Host.Outcome.next (endBlock_eq_blockOver (u := setSym 256 s) hb)

/-- Settles O35: a final block ends the call, another header follows otherwise. -/
theorem endOfBlockEndsBlock : Obligations.EndOfBlockEndsBlock :=
  ⟨fun _ hb => ⟨fun hfinal => (exec_eob hb).trans (congrArg _ (if_pos hfinal)),
    fun hnot => (exec_eob hb).trans (congrArg _ (if_neg (Bool.not_eq_true _ |>.mpr hnot)))⟩,
    encode_fll_of_symBits rfl (symBits_fll_short (by decide) (by decide))⟩

/-! ## Length symbols (R253) -/

/-- R100, R253: every length is from 3 to 258. -/
theorem lengthValue_bounds {sym x : Nat} (hsym : sym ≤ 285) (hx : x < 2 ^ lextra (sym - 257)) :
    3 ≤ lengthValue sym x ∧ lengthValue sym x ≤ 258 := by
  have hrange : ∀ k < 29, 3 ≤ lbase k ∧ lbase k + 2 ^ lextra k ≤ 259 := by decide
  obtain ⟨hlo, hhi⟩ := hrange (sym - 257) (by omega)
  unfold lengthValue
  omega

/-- R253: an instruction that is a length symbol has the length of its base and its extra value. -/
theorem lengthMeaning_of_exec {i : Instr} {sym : Nat} (x : Nat) (hsym : sym ≤ 285) (hx : x < 2 ^ lextra (sym - 257))
    (hexec : ∀ s, exec i s = .next (lengthSymbol sym x s)) : lengthMeaning i sym (lengthValue sym x) := by
  obtain ⟨hlo, hhi⟩ := lengthValue_bounds hsym hx
  exact ⟨hlo, hhi, hexec⟩

/-- R253: a length symbol without extra bits. -/
theorem lengthMeaning_of_base {i : Instr} {sym : Nat} (hsym : sym ≤ 285)
    (hexec : ∀ s, exec i s = .next (lengthSymbol sym 0 s)) : lengthMeaning i sym (lengthValue sym 0) :=
  lengthMeaning_of_exec 0 hsym (Nat.two_pow_pos _) hexec

/-- Settles O36: each symbol's base and extra bits are those of R100. -/
theorem lengthSymbolsSetTheLength : Obligations.LengthSymbolsSetTheLength := by
  refine ⟨?_, ?_, ?_, ?_, ?_, ?_, ?_, ?_, fun x => ⟨?_, ?_, ?_, ?_⟩, fun x => ⟨?_, ?_, ?_, ?_⟩, fun x => ⟨?_, ?_, ?_, ?_⟩,
    fun x => ⟨?_, ?_, ?_, ?_⟩, fun x => ⟨?_, ?_, ?_, ?_⟩, ?_⟩
  iterate 8 exact lengthMeaning_of_base (by decide) fun _ => rfl
  iterate 20 exact lengthMeaning_of_exec x.toNat (by decide) x.isLt fun _ => rfl
  exact lengthMeaning_of_base (by decide) fun _ => rfl

/-! ## The copy (R255, R256, R259) -/

/-- R255: a distance beyond the bytes produced. -/
theorem matchCopy_of_far {s : State} (h : s.outLen.toNat < s.inf.mdist) : matchCopy s = .raise .invalidBackReference s :=
  if_pos h

/-- R256: a distance in range: the copy. -/
theorem matchCopy_of_inRange {s : State} (h : s.inf.mdist ≤ s.outLen.toNat) :
    matchCopy s = Res.each (fun _ u => copyMatchByte u) (List.range s.inf.mlen) s :=
  if_neg (Nat.not_lt.mpr h)

/-- R256 with distance 0 (log 17): the copy reads each cell just before it writes it. -/
theorem matchCopy_ok_of_zero (s : State) (hd : s.inf.mdist = 0) : ∀ n, roomFor n s →
    ∃ t, Res.each (fun _ u => copyMatchByte u) (List.range n) s = .ok () t ∧
      Appended (fun k => outByte s (s.outLen.toNat + k)) n s t ∧ t.rd = s.rd := by
  intro n
  induction n with
  | zero => exact fun _ => ⟨s, rfl, Appended.refl _ s, rfl⟩
  | succ n ih =>
    intro hroom
    obtain ⟨t, ht, happ, hrd⟩ := ih (Nat.le_of_succ_le hroom)
    have hbyte : outByte t (t.outLen.toNat - t.inf.mdist) = outByte s (s.outLen.toNat + n) := by
      rw [happ.inf, hd, Nat.sub_zero, happ.outLen, happ.frame _ (Or.inr (le_refl _))]
    have hfits : t.outLen.toNat < t.outMax.toNat := by
      rw [happ.outLen, happ.outMax]
      exact hroom
    rw [Res.each_range_succ, ht, Res.bind_ok, copyMatchByte, hbyte, appendByte_eq, if_pos hfits]
    exact ⟨_, rfl, happ.succ hfits rfl, hrd⟩

/-- Bytes appended that are those their cells read before leave every read of `OUT` as it was. -/
theorem Appended.outByte_eq {n : Nat} {s t : State} (h : Appended (fun k => outByte s (s.outLen.toNat + k)) n s t) (a : Nat) :
    outByte t a = outByte s a := by
  rcases Nat.lt_or_ge a s.outLen.toNat with hlo | hlo
  · exact h.frame a (Or.inl hlo)
  rcases Nat.lt_or_ge a (s.outLen.toNat + n) with hhi | hhi
  · have hread := h.bytes (a - s.outLen.toNat) (by omega)
    rwa [Nat.add_sub_cancel' hlo] at hread
  · exact h.frame a (Or.inr hhi)

/-- Settles O40: the copy in closed form (`matchCopy_ok`), the range check before it, and the copy with distance 0. -/
theorem matchCopyClosedForm : Obligations.MatchCopyClosedForm := by
  refine fun s => ⟨fun hd hrange hroom => ?_, fun hfar => ?_, fun hzero hroom => ?_⟩
  · obtain ⟨t, ht, happ, hrd⟩ := matchCopy_ok s hd hrange s.inf.mlen hroom
    obtain ⟨m, rfl⟩ := happ.exists_outBuf hrd hroom
    exact ⟨m, _, rfl, by rw [exec, execMatchCopy, matchCopy_of_inRange hrange, ht]; rfl, happ.bytes, happ.frame⟩
  · rw [exec, execMatchCopy, matchCopy_of_far hfar]
    rfl
  · have hrange : s.inf.mdist ≤ s.outLen.toNat := hzero ▸ Nat.zero_le _
    obtain ⟨t, ht, happ, hrd⟩ := matchCopy_ok_of_zero s hzero s.inf.mlen hroom
    obtain ⟨m, rfl⟩ := happ.exists_outBuf hrd hroom
    exact ⟨m, _, rfl, by rw [exec, execMatchCopy, matchCopy_of_inRange hrange, ht]; rfl, happ.outByte_eq⟩

/-! ## Distance symbols (R254 to R256) -/

/-- R254: the distance symbol and its distance are latched. -/
def latchDistance (j y : Nat) (s : State) : State :=
  { s with inf := { s.inf with dsym := j, mdist := distanceValue j y } }

/-- R254, R255: a distance beyond the bytes produced. -/
theorem distanceSymbol_of_far {j y : Nat} {s : State} (h : s.outLen.toNat < distanceValue j y) :
    distanceSymbol j y s = .raise .invalidBackReference (latchDistance j y s) :=
  congrArg (Res.bind · _) (matchCopy_of_far (s := latchDistance j y s) h)

/-- R254, R256: a distance in range: the copy, and the next element. -/
theorem distanceSymbol_of_inRange {j y : Nat} {s : State} (h : distanceValue j y ≤ s.outLen.toNat) :
    distanceSymbol j y s = (Res.each (fun _ u => copyMatchByte u) (List.range s.inf.mlen) (latchDistance j y s)).bind
      fun _ t => .ok () { t with inf := { t.inf with phase := .body } } :=
  congrArg (Res.bind · _) (matchCopy_of_inRange (s := latchDistance j y s) h)

/-- R102, R254: no distance is 0. -/
theorem distanceValue_pos {j : Nat} (hj : j < 30) (y : Nat) : 1 ≤ distanceValue j y := by
  have hbase : ∀ k < 30, 1 ≤ dbase k := by decide
  exact Nat.le_add_right_of_le (hbase j hj)

/-- R254 to R256, R259: what an instruction that is a distance symbol appends. -/
theorem distanceMeaning_of_exec {i : Instr} {j y : Nat} (hj : j < 30) (hy : y < 2 ^ dextra j)
    (hexec : ∀ s, exec i s = (distanceSymbol j y s).toNext) : distanceMeaning i j (distanceValue j y) := by
  refine ⟨distanceValue_pos hj y, distanceValue_le hj hy, fun s hrange hroom => ?_⟩
  obtain ⟨t, ht, happ, hrd⟩ := matchCopy_ok (latchDistance j y s) (distanceValue_pos hj y) hrange s.inf.mlen hroom
  obtain ⟨m, rfl⟩ := happ.exists_outBuf hrd hroom
  exact ⟨m, _, rfl, by rw [hexec, distanceSymbol_of_inRange hrange, ht]; rfl, happ.bytes, happ.frame⟩

/-- R255, R256, R410: how it ends a call. -/
theorem distanceFailure_of_exec {i : Instr} {j y : Nat} (hexec : ∀ s, exec i s = (distanceSymbol j y s).toNext) :
    distanceFailure i (distanceValue j y) := by
  refine fun s hb => ⟨fun hfar => ?_, fun hrange hle hfull => ?_⟩
  · have hraise : exec i s = .next (raiseError .invalidBackReference (latchDistance j y s)) := by
      rw [hexec, distanceSymbol_of_far hfar]
      rfl
    exact ⟨_, hraise, abortedWith_of_engine hb _⟩
  · obtain ⟨t, b, k, ht, happ⟩ := matchCopy_overflow (latchDistance j y s) hle s.inf.mlen hfull
    exact ⟨raiseError .outputOverflow t, by rw [hexec, distanceSymbol_of_inRange hrange, ht]; rfl, happ.aborted hb _⟩

/-- R254, R290 to R319: what holds of an instruction wherever it is a distance symbol whose extra value fits its width, holds of the
thirty distance symbols with every extra value. -/
theorem forall_distanceSymbols {P : Instr → Nat → Nat → Prop}
    (hP : ∀ {i : Instr} {j : Nat} (y : Nat), j < 30 → y < 2 ^ dextra j → (∀ s, exec i s = (distanceSymbol j y s).toNext) →
      P i j (distanceValue j y)) :
    P .dist0 0 1 ∧ P .dist1 1 2 ∧ P .dist2 2 3 ∧ P .dist3 3 4 ∧
    (∀ y : BitVec 1, P (.dist4 y) 4 (5 + y.toNat) ∧ P (.dist5 y) 5 (7 + y.toNat)) ∧
    (∀ y : BitVec 2, P (.dist6 y) 6 (9 + y.toNat) ∧ P (.dist7 y) 7 (13 + y.toNat)) ∧
    (∀ y : BitVec 3, P (.dist8 y) 8 (17 + y.toNat) ∧ P (.dist9 y) 9 (25 + y.toNat)) ∧
    (∀ y : BitVec 4, P (.dist10 y) 10 (33 + y.toNat) ∧ P (.dist11 y) 11 (49 + y.toNat)) ∧
    (∀ y : BitVec 5, P (.dist12 y) 12 (65 + y.toNat) ∧ P (.dist13 y) 13 (97 + y.toNat)) ∧
    (∀ y : BitVec 6, P (.dist14 y) 14 (129 + y.toNat) ∧ P (.dist15 y) 15 (193 + y.toNat)) ∧
    (∀ y : BitVec 7, P (.dist16 y) 16 (257 + y.toNat) ∧ P (.dist17 y) 17 (385 + y.toNat)) ∧
    (∀ y : BitVec 8, P (.dist18 y) 18 (513 + y.toNat) ∧ P (.dist19 y) 19 (769 + y.toNat)) ∧
    (∀ y : BitVec 9, P (.dist20 y) 20 (1025 + y.toNat) ∧ P (.dist21 y) 21 (1537 + y.toNat)) ∧
    (∀ y : BitVec 10, P (.dist22 y) 22 (2049 + y.toNat) ∧ P (.dist23 y) 23 (3073 + y.toNat)) ∧
    (∀ y : BitVec 11, P (.dist24 y) 24 (4097 + y.toNat) ∧ P (.dist25 y) 25 (6145 + y.toNat)) ∧
    (∀ y : BitVec 12, P (.dist26 y) 26 (8193 + y.toNat) ∧ P (.dist27 y) 27 (12289 + y.toNat)) ∧
    (∀ y : BitVec 13, P (.dist28 y) 28 (16385 + y.toNat) ∧ P (.dist29 y) 29 (24577 + y.toNat)) := by
  refine ⟨?_, ?_, ?_, ?_, fun y => ⟨?_, ?_⟩, fun y => ⟨?_, ?_⟩, fun y => ⟨?_, ?_⟩, fun y => ⟨?_, ?_⟩, fun y => ⟨?_, ?_⟩,
    fun y => ⟨?_, ?_⟩, fun y => ⟨?_, ?_⟩, fun y => ⟨?_, ?_⟩, fun y => ⟨?_, ?_⟩, fun y => ⟨?_, ?_⟩, fun y => ⟨?_, ?_⟩,
    fun y => ⟨?_, ?_⟩, fun y => ⟨?_, ?_⟩⟩
  iterate 4 exact hP 0 (by decide) (by decide) fun _ => rfl
  iterate 26 exact hP y.toNat (by decide) y.isLt fun _ => rfl

/-- Settles O37: the copy of each of the thirty in closed form. -/
theorem distanceSymbolsCopyTheMatch : Obligations.DistanceSymbolsCopyTheMatch :=
  forall_distanceSymbols fun _ hj hy hexec => distanceMeaning_of_exec hj hy hexec

/-- Settles O38: the range check of each comes before its copy. -/
theorem distanceSymbolsCheckTheRange : Obligations.DistanceSymbolsCheckTheRange :=
  forall_distanceSymbols (P := fun i _ d => distanceFailure i d) fun _ _ _ hexec => distanceFailure_of_exec hexec

end Sys2Proof.Machine
end

section
/-! The reference search (R349 to R352): what a pass of its loop over distances does, and from it the obligations O42 and O43. -/

namespace Sys2Proof.Machine

/-- R343, read from `IN`: the `len` bytes from `pos` on repeat those `d` bytes back, and `len` is from 3 to `maxl`. -/
def Repeats (s : State) (pos maxl len d : Nat) : Prop :=
  3 ≤ len ∧ len ≤ maxl ∧ ∀ k < len, inByte s (pos - d + k) = inByte s (pos + k)

theorem getElem?_inBytes (s : State) (a n k : Nat) :
    (inBytes s a n)[k]? = if k < n then some (inByte s (a + k)) else none := by
  rw [inBytes, List.getElem?_map]
  split
  · next hk => rw [List.getElem?_range hk, Option.map_some]
  · next hk => rw [List.getElem?_eq_none (by simpa using hk), Option.map_none]

@[simp] theorem inBytes_length (s : State) (a n : Nat) : (inBytes s a n).length = n := by
  rw [inBytes, List.length_map, List.length_range]

/-- R343: a valid match at `pos` of the input in `IN`. -/
theorem validMatch_inBytes {s : State} {pos len d : Nat} : validMatch (inBytes s 0 (inputLength s)) pos len d ↔
    1 ≤ d ∧ d ≤ min pos Config.wsize ∧ Repeats s pos (min Config.maxMatch (inputLength s - pos)) len d := by
  have hread : ∀ a, a < inputLength s → (inBytes s 0 (inputLength s))[a]? = some (inByte s a) := by
    intro a ha
    rw [getElem?_inBytes, if_pos ha, Nat.zero_add]
  unfold validMatch Repeats
  rw [inBytes_length]
  refine ⟨fun ⟨h3, hmax, h1, hd, hrep⟩ => ⟨h1, hd, h3, hmax, fun k hk => ?_⟩,
    fun ⟨h1, hd, h3, hmax, hrep⟩ => ⟨h3, hmax, h1, hd, fun k hk => ?_⟩⟩
  · have hbytes := hrep k hk
    rw [hread _ (by omega), hread _ (by omega), Option.some_inj] at hbytes
    rw [hbytes]
    congr 1
    omega
  · rw [hread _ (by omega), hread _ (by omega), hrep k hk |>.symm]
    congr 2
    omega

/-! ## The match at one distance -/

/-- R350: a match grows over equal bytes only. -/
theorem extendMatch_agrees (s : State) (p pos : Nat) : ∀ left m k, m ≤ k → k < extendMatch s p pos left m →
    inByte s (p + k) = inByte s (pos + k)
  | 0, m, k, hm, hk => absurd hk (by unfold extendMatch; omega)
  | left + 1, m, k, hm, hk => by
    unfold extendMatch at hk
    split at hk
    · next heq =>
      rcases Nat.eq_or_lt_of_le hm with rfl | hlt
      · exact heq
      · exact extendMatch_agrees s p pos left (m + 1) k hlt hk
    · exact absurd hk (by omega)

/-- R350: a match grows as far as the bytes are equal. -/
theorem extendMatch_ge (s : State) (p pos : Nat) : ∀ left m len, len ≤ m + left →
    (∀ k < len, inByte s (p + k) = inByte s (pos + k)) → len ≤ extendMatch s p pos left m
  | 0, m, len, hlen, _ => hlen
  | left + 1, m, len, hlen, heq => by
    unfold extendMatch
    split
    · exact extendMatch_ge s p pos left (m + 1) len (by omega) heq
    · next hne => exact Nat.le_of_not_lt fun hlt => hne (heq m hlt)

/-- R350: the length that the search finds at distance `d`; 0 where the first three bytes differ. -/
def lengthAt (s : State) (pos maxl d : Nat) : Nat :=
  if sameThree s (pos - d) pos then extendMatch s (pos - d) pos (maxl - 3) 3 else 0

/-- R349. -/
theorem sameThree_iff (s : State) (p pos : Nat) :
    sameThree s p pos = true ↔ ∀ k < 3, inByte s (p + k) = inByte s (pos + k) := by
  rw [sameThree, decide_eq_true_iff]
  refine ⟨fun ⟨h0, h1, h2⟩ k hk => ?_, fun h => ⟨h 0 (by decide), h 1 (by decide), h 2 (by decide)⟩⟩
  match k, hk with
  | 0, _ => exact h0
  | 1, _ => exact h1
  | 2, _ => exact h2

/-- A length found at a distance is a repetition. -/
theorem repeats_lengthAt {s : State} {pos maxl d : Nat} (h3 : 3 ≤ maxl) (h : 0 < lengthAt s pos maxl d) :
    Repeats s pos maxl (lengthAt s pos maxl d) d := by
  unfold lengthAt at h ⊢
  split at h
  · next hsame =>
    rw [if_pos hsame]
    obtain ⟨hlo, hhi⟩ := extendMatch_bounds s (pos - d) pos (maxl - 3) 3
    refine ⟨hlo, by omega, fun k hk => ?_⟩
    rcases Nat.lt_or_ge k 3 with hk3 | hk3
    · exact (sameThree_iff s _ _).mp hsame k hk3
    · exact extendMatch_agrees s _ _ _ 3 k hk3 hk
  · exact absurd h (Nat.lt_irrefl 0)

/-- No repetition at a distance is longer than the length found there. -/
theorem Repeats.le_lengthAt {s : State} {pos maxl len d : Nat} (h : Repeats s pos maxl len d) : len ≤ lengthAt s pos maxl d := by
  obtain ⟨h3, hmax, heq⟩ := h
  rw [lengthAt, if_pos ((sameThree_iff s _ _).mpr fun k hk => heq k (by omega))]
  exact extendMatch_ge s _ _ _ 3 len (by omega) heq

/-! ## The loop over distances -/

/-- R350: the best match after distance `d` was tried. -/
def betterMatch (s : State) (pos maxl d : Nat) (best : Nat × Nat) : Nat × Nat :=
  if best.1 < lengthAt s pos maxl d then (lengthAt s pos maxl d, d) else best

theorem betterMatch_cases (s : State) (pos maxl d : Nat) (best : Nat × Nat) :
    (betterMatch s pos maxl d best = best ∧ lengthAt s pos maxl d ≤ best.1) ∨
    (betterMatch s pos maxl d best = (lengthAt s pos maxl d, d) ∧ best.1 < lengthAt s pos maxl d) := by
  unfold betterMatch
  split
  · next h => exact Or.inr ⟨rfl, h⟩
  · next h => exact Or.inl ⟨rfl, Nat.le_of_not_lt h⟩

/-- R350: once the candidates are used up the loop ends. -/
theorem searchFrom_of_used_up {s : State} {pos maxl cm left d bl bd ex : Nat} (h : cm ≤ ex) :
    searchFrom s pos maxl cm left d bl bd ex = (bl, bd, ex) := by
  cases left with
  | zero => rfl
  | succ left => rw [searchFrom, if_pos h]

/-- R350: one pass of the loop; a candidate that reaches the longest length possible ends it. -/
theorem searchFrom_succ {s : State} {pos maxl cm left d bl bd ex : Nat} (h : ex < cm) :
    searchFrom s pos maxl cm (left + 1) d bl bd ex =
      if sameThree s (pos - d) pos = true ∧ (betterMatch s pos maxl d (bl, bd)).1 = maxl then
        ((betterMatch s pos maxl d (bl, bd)).1, (betterMatch s pos maxl d (bl, bd)).2, ex + 1)
      else searchFrom s pos maxl cm left (d + 1) (betterMatch s pos maxl d (bl, bd)).1 (betterMatch s pos maxl d (bl, bd)).2
        (ex + (sameThree s (pos - d) pos).toNat) := by
  rw [searchFrom, if_neg (Nat.not_le.mpr h)]
  unfold betterMatch lengthAt
  cases sameThree s (pos - d) pos with
  | true =>
    simp only [if_true, true_and]
    rfl
  | false =>
    simp only [Bool.false_eq_true, if_false, false_and, Nat.not_lt_zero]
    rfl

/-- What the loop answers is the best match it began with, or a longer repetition at a distance that it tried. -/
theorem searchFrom_found {s : State} {pos maxl cm : Nat} (h3 : 3 ≤ maxl) : ∀ left d bl bd ex,
    ((searchFrom s pos maxl cm left d bl bd ex).1 = bl ∧ (searchFrom s pos maxl cm left d bl bd ex).2.1 = bd) ∨
    (bl < (searchFrom s pos maxl cm left d bl bd ex).1 ∧ d ≤ (searchFrom s pos maxl cm left d bl bd ex).2.1 ∧
      (searchFrom s pos maxl cm left d bl bd ex).2.1 < d + left ∧
      Repeats s pos maxl (searchFrom s pos maxl cm left d bl bd ex).1 (searchFrom s pos maxl cm left d bl bd ex).2.1) := by
  intro left
  induction left with
  | zero => exact fun d bl bd ex => Or.inl ⟨rfl, rfl⟩
  | succ left ih =>
    intro d bl bd ex
    rcases Nat.lt_or_ge ex cm with hex | hex
    · have hbetter := betterMatch_cases s pos maxl d (bl, bd)
      rw [searchFrom_succ hex]
      generalize betterMatch s pos maxl d (bl, bd) = best at hbetter ⊢
      have hone : (best.1 = bl ∧ best.2 = bd) ∨ (bl < best.1 ∧ best.2 = d ∧ Repeats s pos maxl best.1 best.2) := by
        obtain ⟨rfl, -⟩ | ⟨rfl, hlt⟩ := hbetter
        · exact Or.inl ⟨rfl, rfl⟩
        · exact Or.inr ⟨hlt, rfl, repeats_lengthAt h3 (Nat.zero_lt_of_lt hlt)⟩
      split
      · obtain h | ⟨hlt, hd, hrep⟩ := hone
        · exact Or.inl h
        · exact Or.inr ⟨hlt, hd.ge, by show best.2 < _; omega, hrep⟩
      · obtain ⟨hl, hdist⟩ | ⟨hlt, hlo, hhi, hrep⟩ :=
          ih (d + 1) best.1 best.2 (ex + (sameThree s (pos - d) pos).toNat)
        · rw [hl, hdist]
          obtain h | ⟨hlt, hd, hrep⟩ := hone
          · exact Or.inl h
          · exact Or.inr ⟨hlt, hd.ge, by omega, hrep⟩
        · exact Or.inr ⟨by omega, by omega, by omega, hrep⟩
    · rw [searchFrom_of_used_up hex]
      exact Or.inl ⟨rfl, rfl⟩

/-- The best length never falls. -/
theorem le_searchFrom {s : State} {pos maxl cm : Nat} (h3 : 3 ≤ maxl) (left d bl bd ex : Nat) :
    bl ≤ (searchFrom s pos maxl cm left d bl bd ex).1 := by
  obtain ⟨h, -⟩ | ⟨h, -⟩ := searchFrom_found (s := s) (pos := pos) (cm := cm) h3 left d bl bd ex
  · exact h.ge
  · exact h.le

/-- R351: while the candidates are not used up, the loop finds the longest repetition at the distances it tries, and of that
length the nearest. -/
theorem searchFrom_longest {s : State} {pos maxl cm : Nat} (h3 : 3 ≤ maxl) : ∀ left d bl bd ex, ex + left ≤ cm → bd < d →
    ∀ len dist, Repeats s pos maxl len dist → d ≤ dist → dist < d + left →
    len ≤ (searchFrom s pos maxl cm left d bl bd ex).1 ∧
      (len = (searchFrom s pos maxl cm left d bl bd ex).1 → (searchFrom s pos maxl cm left d bl bd ex).2.1 ≤ dist) := by
  intro left
  induction left with
  | zero => exact fun d bl bd ex _ _ len dist _ hlo hhi => absurd hhi (by omega)
  | succ left ih =>
    intro d bl bd ex hcm hbd len dist hrep hlo hhi
    have hmax := hrep.2.1
    have htried := (sameThree s (pos - d) pos).toNat_le
    have hbetter := betterMatch_cases s pos maxl d (bl, bd)
    rw [searchFrom_succ (by omega)]
    generalize betterMatch s pos maxl d (bl, bd) = best at hbetter ⊢
    have hbest : best.2 ≤ d ∧ lengthAt s pos maxl d ≤ best.1 := by
      obtain ⟨rfl, hle⟩ | ⟨rfl, -⟩ := hbetter
      · exact ⟨hbd.le, hle⟩
      · exact ⟨le_refl d, le_refl _⟩
    split
    · next hend => exact ⟨hend.2 ▸ hmax, fun _ => hbest.1.trans hlo⟩
    · rcases Nat.eq_or_lt_of_le hlo with rfl | hlt
      · have hlen := hrep.le_lengthAt
        obtain ⟨hl, hdist⟩ | ⟨hl, -⟩ := searchFrom_found (s := s) (pos := pos) (cm := cm) h3 left (d + 1) best.1 best.2
          (ex + (sameThree s (pos - d) pos).toNat)
        · exact ⟨by omega, fun _ => by omega⟩
        · exact ⟨by omega, fun he => absurd he (by omega)⟩
      · exact ih (d + 1) best.1 best.2 _ (by omega) (by omega) len dist hrep (by omega) (by omega)

/-- R352: with more candidates the loop finds no shorter match. -/
theorem searchFrom_mono {s : State} {pos maxl cm cm' : Nat} (h3 : 3 ≤ maxl) (hcm : cm ≤ cm') : ∀ left d bl bd ex,
    (searchFrom s pos maxl cm left d bl bd ex).1 ≤ (searchFrom s pos maxl cm' left d bl bd ex).1 := by
  intro left
  induction left with
  | zero => exact fun d bl bd ex => le_refl bl
  | succ left ih =>
    intro d bl bd ex
    rcases Nat.lt_or_ge ex cm with hex | hex
    · rw [searchFrom_succ hex, searchFrom_succ (hex.trans_le hcm)]
      split
      · exact le_refl _
      · exact ih _ _ _ _
    · rw [searchFrom_of_used_up hex]
      exact le_searchFrom h3 _ _ _ _ _

/-! ## `longest_match` -/

theorem longestMatch_of_short {pos l : Nat} {s : State} (h : inputLength s - pos < 3) : longestMatch pos l s = (0, 0, 0) :=
  if_pos h

theorem longestMatch_of_long {pos l : Nat} {s : State} (h : 3 ≤ inputLength s - pos) : longestMatch pos l s =
    searchFrom s pos (min Config.maxMatch (inputLength s - pos)) (chain l) (min pos Config.wsize) 1 0 0 0 :=
  if_neg (Nat.not_lt.mpr h)

/-- R349, R350: the search reads `IN` alone. -/
theorem longestMatch_congr {s t : State} (hlen : t.inLen = s.inLen) (hin : ∀ a, inByte t a = inByte s a) (pos l : Nat) :
    longestMatch pos l t = longestMatch pos l s := by
  have hextend : ∀ p left m, extendMatch t p pos left m = extendMatch s p pos left m := by
    intro p left
    induction left with
    | zero => exact fun m => rfl
    | succ left ih => intro m; rw [extendMatch, extendMatch, hin, hin, ih]
  have hsame : ∀ p, sameThree t p pos = sameThree s p pos := by
    intro p
    unfold sameThree
    simp only [hin]
  have hsearch : ∀ maxl cm left d bl bd ex,
      searchFrom t pos maxl cm left d bl bd ex = searchFrom s pos maxl cm left d bl bd ex := by
    intro maxl cm left
    induction left with
    | zero => exact fun d bl bd ex => rfl
    | succ left ih => intro d bl bd ex; simp only [searchFrom, hsame, hextend, ih]
  rw [longestMatch, longestMatch, inputLength, inputLength, hlen, hsearch]

/-- R350: where three bytes are left, so is a longest length of at least three. -/
theorem three_le_maxl {n : Nat} (h : 3 ≤ n) : 3 ≤ min Config.maxMatch n := by
  rw [Config.maxMatch]
  omega

/-- R343, R350: the search answers 0, 0 or a valid match, at any level. -/
theorem longestMatch_valid (pos l : Nat) (s : State) :
    ((longestMatch pos l s).1 = 0 ∧ (longestMatch pos l s).2.1 = 0) ∨
    validMatch (inBytes s 0 (inputLength s)) pos (longestMatch pos l s).1 (longestMatch pos l s).2.1 := by
  rcases Nat.lt_or_ge (inputLength s - pos) 3 with hshort | hlong
  · rw [longestMatch_of_short hshort]
    exact Or.inl ⟨rfl, rfl⟩
  · rw [longestMatch_of_long hlong, validMatch_inBytes]
    obtain hnone | ⟨-, hlo, hhi, hrep⟩ := searchFrom_found (s := s) (pos := pos) (cm := chain l) (three_le_maxl hlong)
      (min pos Config.wsize) 1 0 0 0
    · exact Or.inl hnone
    · exact Or.inr ⟨hlo, by omega, hrep⟩

/-- R349: the default search effort of a level (log 8). -/
theorem chain_of_level {l : Nat} (h1 : 1 ≤ l) (h9 : l ≤ 9) :
    chain l = [4, 8, 16, 32, 64, 128, 256, 1024, 32768].getD (l - 1) 0 :=
  if_pos ⟨h1, h9⟩

/-- R349: a higher level searches no less. -/
theorem chain_mono {l l' : Nat} (h1 : 1 ≤ l) (hle : l ≤ l') (h9 : l' ≤ 9) : chain l ≤ chain l' := by
  have hmono : ∀ a < 9, ∀ b < 9, a ≤ b → [4, 8, 16, 32, 64, 128, 256, 1024, 32768].getD a 0 ≤
      [4, 8, 16, 32, 64, 128, 256, 1024, 32768].getD b 0 := by decide
  rw [chain_of_level h1 (hle.trans h9), chain_of_level (h1.trans hle) h9]
  exact hmono _ (by omega) _ (by omega) (by omega)

/-- Settles O42: the pair is what the loop over distances found; the bounds are those of the search. -/
theorem longestMatchIsValid : Obligations.LongestMatchIsValid := by
  intro pos level s
  obtain ⟨-, -, hmax, hchain, -⟩ := longestMatch_bounds pos level s
  exact ⟨_, _, _, rfl, hmax, fun h1 h9 => chain_of_level h1 h9 ▸ hchain, longestMatch_valid pos level s⟩

/-- R351: at level 9 the search tries every distance. -/
theorem longestMatch_nine_longest {pos len dist : Nat} {s : State}
    (h : validMatch (inBytes s 0 (inputLength s)) pos len dist) :
    len ≤ (longestMatch pos 9 s).1 ∧ (len = (longestMatch pos 9 s).1 → (longestMatch pos 9 s).2.1 ≤ dist) := by
  obtain ⟨h1, hdist, hrep⟩ := validMatch_inBytes.mp h
  have hlong : 3 ≤ inputLength s - pos := by have := hrep.1; have := hrep.2.1; omega
  have hchain : chain 9 = 32768 := rfl
  have hwsize : Config.wsize = 32768 := rfl
  rw [longestMatch_of_long hlong]
  exact searchFrom_longest (three_le_maxl hlong) _ 1 0 0 0 (by omega) Nat.one_pos len dist hrep h1 (by omega)

/-- R352. -/
theorem longestMatch_mono (pos : Nat) (s : State) {l l' : Nat} (h1 : 1 ≤ l) (hle : l ≤ l') (h9 : l' ≤ 9) :
    (longestMatch pos l s).1 ≤ (longestMatch pos l' s).1 := by
  rcases Nat.lt_or_ge (inputLength s - pos) 3 with hshort | hlong
  · rw [longestMatch_of_short hshort, longestMatch_of_short hshort]
  · rw [longestMatch_of_long hlong, longestMatch_of_long hlong]
    exact searchFrom_mono (three_le_maxl hlong) (chain_mono h1 hle h9) _ _ _ _ _

/-- Settles O43: at level 9 no candidate is left out; two levels take the same passes until the lower one's candidates are used
up. -/
theorem longestMatchIsLongestAndNearest : Obligations.LongestMatchIsLongestAndNearest :=
  fun pos s => ⟨⟨_, _, _, rfl, rfl, fun _ _ => longestMatch_nine_longest⟩,
    fun _ _ h1 hle h9 => ⟨_, _, _, _, _, _, rfl, rfl, rfl, rfl, longestMatch_mono pos s h1 hle h9⟩⟩

end Sys2Proof.Machine
end

section
/-! Emission (R353 to R355): what each token writes, on any operands: the obligation O44. -/

namespace Sys2Proof.Machine

/-- R104, R353: the code of a literal. -/
theorem tokenBits_lit0 {b : Byte} (h : b.toNat ≤ 143) : tokenBits (.lit b) = codeBits 8 (0x30 + b.toNat) := by
  rw [tokenBits, symBits_fll_lit0 (by omega), Option.getD_some]

theorem tokenBits_lit144 {b : Byte} (h : 144 ≤ b.toNat) : tokenBits (.lit b) = codeBits 9 (0x190 + (b.toNat - 144)) := by
  rw [tokenBits, symBits_fll_lit144 h b.isLt, Option.getD_some]

/-- R104, R354: the code of length index `i`. -/
def lengthCode (i : Nat) : List Bool := if i ≤ 22 then codeBits 7 (1 + i) else codeBits 8 (0xC0 + (i - 23))

theorem symBits_length {i : Nat} (h : i ≤ 28) : tableFLL.symBits (257 + i) = some (lengthCode i) := by
  unfold lengthCode
  split
  · rw [symBits_fll_short (by omega) (by omega), show 257 + i - 256 = 1 + i by omega]
  · rw [symBits_fll_long (by omega) (by omega), show 257 + i - 280 = i - 23 by omega]

theorem lengthCode_length (i : Nat) : (lengthCode i).length = if i ≤ 22 then 7 else 8 := by
  unfold lengthCode
  split <;> exact codeBits_length _ _

/-- R97, R104, R105: a match is the code and the extra bits of its length, then those of its distance. -/
theorem matchBits_eq {i j : Nat} (hi : i ≤ 28) (hj : j ≤ 29) (x y : Nat) : matchBits i x j y =
    (lengthCode i ++ fieldBits (lextra i) x) ++ (codeBits 5 j ++ fieldBits (dextra j) y) := by
  rw [matchBits, symBits_length hi, symBits_fd (by omega), Option.getD_some, Option.getD_some, List.append_assoc]

/-- R97: the number of bits of a match. -/
theorem matchBits_length {i j : Nat} (hi : i ≤ 28) (hj : j ≤ 29) (x y : Nat) :
    (matchBits i x j y).length = (if i ≤ 22 then 7 else 8) + lextra i + 5 + dextra j := by
  rw [matchBits_eq hi hj]
  simp only [List.length_append, fieldBits_length, codeBits_length, lengthCode_length]
  omega

/-! ## The operations -/

/-- R353. -/
theorem writes_emitLit (b : Byte) : Writes (fun _ => tokenBits (.lit b)) (emitLit b) := by
  have hb := b.isLt
  unfold emitLit
  rcases Nat.lt_or_ge 143 b.toNat with h | h
  · rw [tokenBits_lit144 h]
    simp only [if_neg (Nat.not_le.mpr h)]
    exact writes_code _ 9 (by decide) (by omega)
  · rw [tokenBits_lit0 h]
    simp only [if_pos h]
    exact writes_code _ 8 (by decide) (by omega)

/-- R354: an extra-bits field, also of width 0. -/
theorem writes_emitExtra (v : Nat) {w : Nat} (h : w ≤ 16) : Writes (fun _ => fieldBits w v) (emitExtra v w) := by
  unfold emitExtra
  cases w with
  | zero => exact writes_nothing
  | succ w =>
    simp only [Nat.succ_pos, if_true]
    exact writes_bits v (w + 1) (Nat.succ_pos w) h

/-- R354: the code of a length index. -/
theorem writes_emitLengthCode {i : Nat} (h : i ≤ 28) : Writes (fun _ => lengthCode i) (emitLengthCode (257 + i)) := by
  unfold emitLengthCode lengthCode
  rcases Nat.lt_or_ge 22 i with hi | hi
  · simp only [if_neg (Nat.not_le.mpr hi), show ¬ 257 + i ≤ 279 by omega, if_false, show 257 + i - 280 = i - 23 by omega]
    exact writes_code _ 8 (by decide) (by omega)
  · simp only [if_pos hi, show 257 + i ≤ 279 by omega, if_true, show 257 + i - 256 = 1 + i by omega]
    exact writes_code _ 7 (by decide) (by omega)

/-- R100, R102: the widths of the extra-bits fields. -/
theorem lextra_le {i : Nat} (h : i ≤ 28) : lextra i ≤ 5 := by
  have hmax : ∀ i < 29, lextra i ≤ 5 := by decide
  exact hmax i (by omega)

theorem dextra_le {j : Nat} (h : j ≤ 29) : dextra j ≤ 13 := by
  have hmax : ∀ j < 30, dextra j ≤ 13 := by decide
  exact hmax j (by omega)

theorem distanceFields_le (dist : Nat) : (distanceFields dist).1 ≤ 29 := by
  unfold distanceFields
  split
  · exact Nat.le_of_lt_succ (lastIndexLe_lt (by decide))
  · exact Nat.le_of_lt_succ (Nat.mod_lt _ (by decide))

/-- R354: the bits that EMIT_MATCH writes, for any length and distance. -/
def emittedMatch (len dist : Nat) : List Bool :=
  matchBits (lengthFields len).1 (lengthFields len).2 (distanceFields dist).1 (distanceFields dist).2

/-- R354. -/
theorem writes_emitMatch (len dist : Nat) : Writes (fun _ => emittedMatch len dist) (emitMatch len dist) := by
  have hl := lengthFields_le len
  have hd := distanceFields_le dist
  have h := (writes_emitLengthCode hl).bind ((writes_emitExtra (lengthFields len).2 ((lextra_le hl).trans (by decide))).bind
    ((writes_code (distanceFields dist).1 5 (by decide) (by omega)).bind
      (writes_emitExtra (distanceFields dist).2 ((dextra_le hd).trans (by decide)))))
  exact h.congr fun _ => by rw [emittedMatch, matchBits_eq hl hd, List.append_assoc]

/-- R355. -/
theorem writes_emitEob : Writes (fun _ => codeBits 7 0) emitEob := writes_code 0 7 (by decide) (by decide)

/-! ## The fields of a match -/

/-- R101, R354: the fields of a token's length. -/
theorem lengthFields_of_token {len : Nat} (h3 : 3 ≤ len) (h258 : len ≤ 258) :
    lengthFields len = (lengthIndex len, len - lbase (lengthIndex len)) :=
  if_pos ⟨h3, h258⟩

/-- R103, R354: the fields of a token's distance. -/
theorem distanceFields_of_token {dist : Nat} (h1 : 1 ≤ dist) (hmax : dist ≤ 32768) :
    distanceFields dist = (distanceIndex dist, dist - dbase (distanceIndex dist)) :=
  if_pos ⟨h1, hmax⟩

/-- R354: a token is written with its own fields. -/
theorem emittedMatch_of_token {len dist : Nat} (h3 : 3 ≤ len) (h258 : len ≤ 258) (h1 : 1 ≤ dist) (hmax : dist ≤ 32768) :
    emittedMatch len dist = tokenBits (.copy len dist) := by
  rw [emittedMatch, lengthFields_of_token h3 h258, distanceFields_of_token h1 hmax, tokenBits]

/-- R101: the extra value of any length fits its field. -/
theorem lengthFields_extra_lt (len : Nat) : (lengthFields len).2 < 2 ^ lextra (lengthFields len).1 := by
  unfold lengthFields
  split
  · next h =>
    obtain ⟨-, x, hx, hlen⟩ := lengthIndex_inverse h.1 h.2
    rw [lengthValue, Nat.add_sub_cancel_left] at hlen
    show len - lbase (lengthIndex len) < 2 ^ lextra (lengthIndex len)
    omega
  · exact Nat.mod_lt _ (Nat.two_pow_pos _)

/-- R103: the extra value of any distance fits its field. -/
theorem distanceFields_extra_lt (dist : Nat) : (distanceFields dist).2 < 2 ^ dextra (distanceFields dist).1 := by
  unfold distanceFields
  split
  · next h =>
    obtain ⟨y, hy, hdist⟩ := distanceIndex_inverse h.1 h.2
    rw [distanceValue] at hdist
    show dist - dbase (distanceIndex dist) < 2 ^ dextra (distanceIndex dist)
    omega
  · exact Nat.mod_lt _ (Nat.two_pow_pos _)

/-- R354: a match takes at most 31 bits. -/
theorem emittedMatch_length_le (len dist : Nat) : (emittedMatch len dist).length ≤ 31 := by
  have hl := lengthFields_le len
  have hd := distanceFields_le dist
  have hx := lextra_le hl
  have hy := dextra_le hd
  rw [emittedMatch, matchBits_length hl hd]
  split <;> omega

/-- R151: a writer that is ready for some bits is ready for fewer. -/
theorem writerReady.mono {n m : Nat} {s : State} (h : writerReady n s) (hm : m ≤ n) : writerReady m s := by
  obtain ⟨hfin, hok, hroom⟩ := h
  refine ⟨hfin, hok, ?_⟩
  unfold roomFor at *
  omega

/-- Settles O44: each operation writes its token's bits (`writes_emitLit`, `writes_emitMatch`, `writes_emitEob`); outside the token
ranges the fields of a match are free values in their ranges (log 16). -/
theorem emissionWritesTheCodes : Obligations.EmissionWritesTheCodes := by
  refine ⟨fun b s hb hs => ?_, fun b s hb hs => ?_, fun len dist s h3 h258 h1 hmax hs => ?_, fun len dist _ => ?_,
    fun s hs => ?_⟩
  · rw [← tokenBits_lit0 hb]
    exact (writes_emitLit b).completes rfl (by rwa [tokenBits_lit0 hb, codeBits_length])
  · rw [← tokenBits_lit144 hb]
    exact (writes_emitLit b).completes rfl (by rwa [tokenBits_lit144 hb, codeBits_length])
  · rw [← emittedMatch_of_token h3 h258 h1 hmax] at hs ⊢
    exact (writes_emitMatch len dist).completes rfl hs
  · refine ⟨_, _, _, _, lengthFields_le len, lengthFields_extra_lt len, distanceFields_le dist, distanceFields_extra_lt dist,
      fun h3 h258 => ?_, fun h1 hmax => ?_, fun s hs => ?_⟩
    · rw [lengthFields_of_token h3 h258]
      exact ⟨rfl, rfl⟩
    · rw [distanceFields_of_token h1 hmax]
      exact ⟨rfl, rfl⟩
    · exact (writes_emitMatch len dist).completes rfl (hs.mono (emittedMatch_length_le len dist))
  · exact writes_emitEob.completes rfl (by rwa [codeBits_length])

end Sys2Proof.Machine
end

section
/-! A compress call ends in its one step, and no cause but `OutputOverflow` can be raised in it (R361): the obligation O48. -/

namespace Sys2Proof.Machine

/-- The operation completes with `Q`, or it raises `OutputOverflow`; nothing else. -/
def Res.OnlyOverflows (Q : State → Prop) : Res Unit → Prop
  | .ok _ t => Q t
  | .raise c _ => c = .outputOverflow
  | .refuse _ => False

theorem Res.OnlyOverflows.bind {Q Q' : State → Prop} {r : Res Unit} {f : Unit → State → Res Unit} (h : r.OnlyOverflows Q)
    (hf : ∀ t, Q t → (f () t).OnlyOverflows Q') : (r.bind f).OnlyOverflows Q' := by
  cases r with
  | ok _ t => exact hf t h
  | raise c t => exact h
  | refuse w => exact h

theorem Res.OnlyOverflows.each {α : Type} {Q : State → Prop} {f : α → State → Res Unit}
    (hf : ∀ a t, Q t → (f a t).OnlyOverflows Q) : ∀ (l : List α) (t : State), Q t → (Res.each f l t).OnlyOverflows Q
  | [], _, h => h
  | a :: l, t, h => (hf a t h).bind fun u hu => Res.OnlyOverflows.each hf l u hu

/-- A moment of a compress call at which the writer takes bits. -/
structure TakesBits (t : State) : Prop where
  form : writerOk t
  unfinished : t.wr.finished = false
  room : t.outLen ≤ t.outMax

/-- R151, R408: an operation that writes bits can only fail for want of room. -/
theorem Writes.onlyOverflows {bits : Nat → List Bool} {f : State → Res Unit} (hf : Writes bits f) {t : State}
    (h : TakesBits t) : (f t).OnlyOverflows TakesBits := by
  obtain ⟨hroom, hnone⟩ := hf t h.unfinished h.form
  by_cases hr : roomFor ((t.wr.cnt + (bits (writtenCount t)).length) / 8) t
  · obtain ⟨u, hu, hw, -⟩ := hroom hr
    rw [hu]
    exact ⟨hw.form, hw.finished.trans h.unfinished, hw.room h.room⟩
  · obtain ⟨u, hu, -⟩ := hnone hr h.room
    rw [hu]
    exact rfl

/-- R155, R388. -/
theorem finish_onlyOverflows {t : State} (h : TakesBits t) :
    ((finish t).bind fun _ u => .ok () (completeCall u)).OnlyOverflows fun _ => True := by
  refine Res.OnlyOverflows.bind (Q := fun _ => True) ?_ fun _ _ => trivial
  exact (writes_align.onlyOverflows h).bind fun _ _ => trivial

/-- R345. -/
theorem emitStoredBlock_onlyOverflows (nb k : Nat) {t : State} (h : TakesBits t) :
    (emitStoredBlock nb k t).OnlyOverflows TakesBits := by
  refine ((writes_bits _ 1 (by decide) (by decide)).onlyOverflows h).bind fun u hu => ?_
  refine ((writes_bits 0 2 (by decide) (by decide)).onlyOverflows hu).bind fun u hu => ?_
  refine (writes_align.onlyOverflows hu).bind fun u hu => ?_
  refine ((writes_bits _ 16 (by decide) (by decide)).onlyOverflows hu).bind fun u hu => ?_
  refine ((writes_bits _ 16 (by decide) (by decide)).onlyOverflows hu).bind fun u hu => ?_
  exact Res.OnlyOverflows.each (fun _ _ hv => (writes_byte _).onlyOverflows hv) _ u hu

/-- R344, R345. -/
theorem compressStored_onlyOverflows {t : State} (h : TakesBits t) : (compressStored t).OnlyOverflows fun _ => True :=
  (Res.OnlyOverflows.each (fun k _ hu => emitStoredBlock_onlyOverflows _ k hu) _ t h).bind fun _ hu => finish_onlyOverflows hu

/-- R348: registers of the Compressor do not matter to the writer. -/
theorem TakesBits.withDfl {t : State} (h : TakesBits t) (d : Deflate) : TakesBits { t with dfl := d } :=
  ⟨h.form, h.unfinished, h.room⟩

/-- R348. -/
theorem parseStep_onlyOverflows {t : State} (h : TakesBits t) : (parseStep t).OnlyOverflows TakesBits := by
  have hsearch : TakesBits (searchAt t.dfl.pos t.dfl.level.toNat t) := h.withDfl _
  unfold parseStep
  simp only
  split
  · exact ((writes_emitMatch _ _).onlyOverflows hsearch).bind fun _ hu => hu.withDfl _
  · exact ((writes_emitLit _).onlyOverflows hsearch).bind fun _ hu => hu.withDfl _

theorem parseLoop_onlyOverflows : ∀ (fuel : Nat) {t : State}, TakesBits t → (parseLoop fuel t).OnlyOverflows TakesBits
  | 0, _, h => h
  | fuel + 1, t, h => by
    unfold parseLoop
    split
    · exact (parseStep_onlyOverflows h).bind fun _ hu => parseLoop_onlyOverflows fuel hu
    · exact h

/-- R348, R38. -/
theorem compressFixed_onlyOverflows {t : State} (h : TakesBits t) : (compressFixed t).OnlyOverflows fun _ => True := by
  have hfixed : TakesBits (setFixedReady t) := ⟨h.form, h.unfinished, h.room⟩
  refine ((writes_bits 1 1 (by decide) (by decide)).onlyOverflows hfixed).bind fun u hu => ?_
  refine ((writes_bits 1 2 (by decide) (by decide)).onlyOverflows hu).bind fun u hu => ?_
  refine (parseLoop_onlyOverflows _ (hu.withDfl _)).bind fun u hu => ?_
  exact (writes_emitEob.onlyOverflows hu).bind fun _ hu => finish_onlyOverflows hu

/-- R361, R388, R410: the body of a compress call ends the call, with success or with the abort for `OutputOverflow`. -/
theorem Res.OnlyOverflows.toNext {s : State} {r : Res Unit} (h : r.OnlyOverflows fun _ => True) (hr : r.Leads s (Ended s))
    (hb : s.status.state = .busy) :
    ∃ t, r.toNext = .next t ∧ (Ended s t ∨ ∃ u, Kept s u ∧ t = abort .outputOverflow u) := by
  cases r with
  | ok _ t => exact ⟨t, rfl, Or.inl hr⟩
  | raise c u =>
    cases h
    have hkept : Kept s u := hr
    exact ⟨_, rfl, Or.inr ⟨u, hkept, raiseError_of_busy _ u (hkept.state.trans hb)⟩⟩
  | refuse w => exact h.elim

/-- Settles O48: the body of either level is writer operations alone. That one step is the whole of the call is the model's
granularity (log 1). -/
theorem compressOnlyOverflows : Obligations.CompressOnlyOverflows := by
  intro s hi hb hc
  obtain ⟨hwr, -, -⟩ := hi.deflateOk hb hc
  have hwrites : Writing s s := ⟨Ran.start hi hb, by rw [writerOk, hwr]; decide, by rw [hwr]; rfl⟩
  have htakes : TakesBits s := ⟨hwrites.form, hwrites.unfinished, hwrites.room⟩
  have hstep : ∃ t, step s = .next t ∧ (Ended s t ∨ ∃ u, Kept s u ∧ t = abort .outputOverflow u) := by
    rw [step, nextAction, if_pos hb, if_pos hc, deflateInstr]
    by_cases hl : s.dfl.level = 0
    · rw [if_pos hl]
      exact (compressStored_onlyOverflows htakes).toNext (compressStored_leads hwrites hb) hb
    · rw [if_neg hl]
      exact (compressFixed_onlyOverflows htakes).toNext (compressFixed_leads hwrites hb) hb
  have hnone := statusOk_of_busy hi.2.1 hb
  obtain ⟨t, ht, ⟨u, hu, rfl⟩ | ⟨u, -, rfl⟩⟩ := hstep
  · exact ⟨_, ht, Or.inl ⟨rfl, hu.no_error hnone⟩⟩
  · exact ⟨_, ht, Or.inr ⟨rfl, rfl, rfl, rfl⟩⟩

end Sys2Proof.Machine
end

section
/-! The tokens of the greedy parse (R341 to R343, R348, R359): what they expand to, and how many bits they take. -/

namespace Sys2Proof.Machine

/-- R341: how many bytes a token stands for. -/
def Token.length : Token → Nat
  | .lit _ => 1
  | .copy len _ => len

/-- R341: a copy from a distance within the bytes before `pos`, of bytes that the input repeats, gives the input's next bytes. -/
theorem copyBack_take {input : List Byte} {d : Nat} : ∀ {len pos : Nat}, 1 ≤ d → d ≤ pos → pos + len ≤ input.length →
    (∀ k < len, input[pos + k]? = input[pos + k - d]?) → copyBack d len (input.take pos) = input.take (pos + len)
  | 0, _, _, _, _, _ => rfl
  | len + 1, pos, h1, hd, hlen, hrep => by
    have hbyte : (input.take pos).getD ((input.take pos).length - d) 0 = input[pos] := by
      have h0 := hrep 0 (Nat.succ_pos len)
      rw [Nat.add_zero, List.getElem?_eq_getElem (by omega)] at h0
      rw [List.length_take, Nat.min_eq_left (by omega), List.getD_eq_getElem?_getD, List.getElem?_take, if_pos (by omega), ← h0,
        Option.getD_some]
    have hnext : ∀ k < len, input[pos + 1 + k]? = input[pos + 1 + k - d]? := by
      intro k hk
      have h := hrep (k + 1) (by omega)
      rwa [show pos + (k + 1) = pos + 1 + k by omega] at h
    rw [copyBack, hbyte, List.take_append_getElem (by omega), copyBack_take h1 (by omega) (by omega) hnext]
    congr 1
    omega

/-- R341, R343: a valid match gives the input's next bytes. -/
theorem applyToken_of_validMatch {input : List Byte} {pos len d : Nat} (h : validMatch input pos len d) :
    applyToken (input.take pos) (.copy len d) = some (input.take (pos + len)) := by
  obtain ⟨h3, hmax, h1, hd, hrep⟩ := h
  have hmin : Config.minMatch = 3 := rfl
  have hlength : (input.take pos).length = pos := by rw [List.length_take]; omega
  have hranges : Config.minMatch ≤ len ∧ len ≤ Config.maxMatch ∧ 1 ≤ d ∧ d ≤ Config.wsize ∧ d ≤ (input.take pos).length :=
    ⟨h3, by omega, h1, by omega, by omega⟩
  rw [applyToken, if_pos hranges, copyBack_take h1 (by omega) (by omega) hrep]

/-- R359: a match takes at most nine bits for each of its bytes. -/
theorem tokenBits_copy_length_le {len d : Nat} (h3 : 3 ≤ len) (h258 : len ≤ 258) (h1 : 1 ≤ d) (hmax : d ≤ 32768) :
    (tokenBits (.copy len d)).length ≤ 9 * len := by
  have hl := lengthIndex_le len
  have hd := distanceFields_le d
  rw [distanceFields_of_token h1 hmax] at hd
  have hy := dextra_le hd
  have hbase : ∀ i < 29, (if i ≤ 22 then 7 else 8) + lextra i + 18 ≤ 9 * lbase i := by decide
  have hi := hbase (lengthIndex len) (by omega)
  obtain ⟨-, x, -, hlen⟩ := lengthIndex_inverse h3 h258
  rw [lengthValue, Nat.add_sub_cancel_left] at hlen
  rw [tokenBits, matchBits_length hl hd]
  omega

/-- R353: a literal takes at most nine bits. -/
theorem tokenBits_lit_length_le (b : Byte) : (tokenBits (.lit b)).length ≤ 9 := by
  rcases Nat.lt_or_ge 143 b.toNat with h | h
  · rw [tokenBits_lit144 h, codeBits_length]
  · rw [tokenBits_lit0 h, codeBits_length]
    decide

/-! ## The greedy parse -/

/-- R348: the token of the greedy parse at `pos`. -/
def greedyToken (s : State) (l pos : Nat) : Token :=
  if 3 ≤ (longestMatch pos l s).1 then .copy (longestMatch pos l s).1 (longestMatch pos l s).2.1 else .lit (inByte s pos)

theorem greedyTokens_succ {s : State} {l fuel pos : Nat} (h : pos < inputLength s) : greedyTokens s l (fuel + 1) pos =
    greedyToken s l pos :: greedyTokens s l fuel (pos + (greedyToken s l pos).length) := by
  rw [greedyTokens, if_pos h, greedyToken]
  split <;> rfl

theorem greedyTokens_end {s : State} {l fuel pos : Nat} (h : inputLength s ≤ pos) : greedyTokens s l fuel pos = [] := by
  cases fuel with
  | zero => rfl
  | succ fuel => rw [greedyTokens, if_neg (Nat.not_lt.mpr h)]

/-- R348: the parse reads `IN` alone. -/
theorem greedyTokens_congr {s t : State} (hlen : t.inLen = s.inLen) (hin : ∀ a, inByte t a = inByte s a) (l : Nat) :
    ∀ fuel pos, greedyTokens t l fuel pos = greedyTokens s l fuel pos := by
  have hn : inputLength t = inputLength s := congrArg BitVec.toNat hlen
  intro fuel
  induction fuel with
  | zero => exact fun pos => rfl
  | succ fuel ih => intro pos; simp only [greedyTokens, hn, hin, longestMatch_congr hlen hin, ih]

/-- R342, R348: the token at `pos` is a literal, or a match that is valid there. -/
theorem greedyToken_cases (s : State) (l pos : Nat) :
    greedyToken s l pos = .lit (inByte s pos) ∧ (longestMatch pos l s).1 < 3 ∨
    greedyToken s l pos = .copy (longestMatch pos l s).1 (longestMatch pos l s).2.1 ∧ 3 ≤ (longestMatch pos l s).1 ∧
      validMatch (inBytes s 0 (inputLength s)) pos (longestMatch pos l s).1 (longestMatch pos l s).2.1 := by
  unfold greedyToken
  split
  · next h3 =>
    obtain ⟨h0, -⟩ | hvalid := longestMatch_valid pos l s
    · rw [h0] at h3
      cases h3
    · exact Or.inr ⟨rfl, h3, hvalid⟩
  · next h3 => exact Or.inl ⟨rfl, Nat.lt_of_not_le h3⟩

/-- R348: each pass moves on, within the input. -/
theorem greedyToken_length {s : State} {l pos : Nat} (h : pos < inputLength s) :
    1 ≤ (greedyToken s l pos).length ∧ pos + (greedyToken s l pos).length ≤ inputLength s := by
  obtain ⟨heq, -⟩ | ⟨heq, h3, -⟩ := greedyToken_cases s l pos
  · rw [heq]
    exact ⟨le_refl 1, h⟩
  · obtain ⟨hmax, -⟩ := longestMatch_bounds pos l s
    rw [heq]
    exact ⟨by show 1 ≤ Prod.fst _; omega, by show pos + Prod.fst _ ≤ _; omega⟩

/-- R359. -/
theorem greedyToken_bits_le (s : State) (l pos : Nat) :
    (tokenBits (greedyToken s l pos)).length ≤ 9 * (greedyToken s l pos).length := by
  obtain ⟨heq, -⟩ | ⟨heq, h3, hvalid⟩ := greedyToken_cases s l pos
  · rw [heq]
    exact tokenBits_lit_length_le _
  · obtain ⟨hmax, hdist, -⟩ := longestMatch_bounds pos l s
    rw [heq]
    exact tokenBits_copy_length_le h3 (by omega) hvalid.2.2.1 hdist

/-- R341, R342: the token at `pos` gives the input's next bytes. -/
theorem applyToken_greedyToken {s : State} {l pos : Nat} (h : pos < inputLength s) :
    applyToken ((inBytes s 0 (inputLength s)).take pos) (greedyToken s l pos) =
      some ((inBytes s 0 (inputLength s)).take (pos + (greedyToken s l pos).length)) := by
  obtain ⟨heq, -⟩ | ⟨heq, -, hvalid⟩ := greedyToken_cases s l pos
  · have hbyte : (inBytes s 0 (inputLength s))[pos]? = some (inByte s pos) := by
      rw [getElem?_inBytes, if_pos h, Nat.zero_add]
    rw [heq, applyToken, Token.length, List.take_add_one, hbyte, Option.toList_some]
  · rw [heq, applyToken_of_validMatch hvalid, Token.length]

/-- R342, R357: from any position on, the greedy parse is a valid parse of the rest of the input. -/
theorem greedyTokens_expand (s : State) (l : Nat) : ∀ fuel pos, pos ≤ inputLength s → inputLength s - pos ≤ fuel →
    expandTokens ((inBytes s 0 (inputLength s)).take pos) (greedyTokens s l fuel pos) =
      some ((inBytes s 0 (inputLength s)).take (inputLength s)) := by
  intro fuel
  induction fuel with
  | zero => exact fun pos hpos hfuel => by rw [show pos = inputLength s by omega]; rfl
  | succ fuel ih =>
    intro pos hpos hfuel
    rcases Nat.eq_or_lt_of_le hpos with rfl | hlt
    · rw [greedyTokens_end (le_refl _)]
      rfl
    · obtain ⟨h1, hend⟩ := greedyToken_length (l := l) hlt
      rw [greedyTokens_succ hlt, expandTokens, applyToken_greedyToken hlt, Option.bind_some]
      exact ih _ hend (by omega)

/-- R359: the greedy parse takes at most nine bits for each byte. -/
theorem greedyTokens_bits_le (s : State) (l : Nat) : ∀ fuel pos, pos ≤ inputLength s →
    ((greedyTokens s l fuel pos).flatMap tokenBits).length ≤ 9 * (inputLength s - pos) := by
  intro fuel
  induction fuel with
  | zero => exact fun _ _ => Nat.zero_le _
  | succ fuel ih =>
    intro pos hpos
    rcases Nat.eq_or_lt_of_le hpos with rfl | hlt
    · rw [greedyTokens_end (le_refl _)]
      exact Nat.zero_le _
    · obtain ⟨h1, hend⟩ := greedyToken_length (l := l) hlt
      have hbits := greedyToken_bits_le s l pos
      have hrest := ih _ hend
      rw [greedyTokens_succ hlt, List.flatMap_cons, List.length_append]
      omega

end Sys2Proof.Machine
end

section
/-! The output of a compress call (R344 to R348): the bits that the writer holds as the body goes on, and the two bodies: the
obligations O46 and O47. -/

namespace Sys2Proof.Machine

/-! ## The writer during a call -/

/-- `t` is a moment of a compress call that began at `s`: the writer holds exactly `bits`, and apart from it, `OUT` and the
Compressor's registers nothing differs from `s`. -/
structure Encoded (s : State) (bits : List Bool) (t : State) : Prop where
  form : writerOk t
  unfinished : t.wr.finished = false
  written : writtenBits t = bits
  rest : t = { s with outBuf := t.outBuf, outLen := t.outLen, wr := t.wr, dfl := t.dfl }

/-- `f` writes the bits `b p` behind `p` bits, where they fit in `OUT_MAX`, and leaves the Compressor's registers alone. -/
def Encodes (s : State) (b : Nat → List Bool) (f : State → Res Unit) : Prop :=
  ∀ t bits, Encoded s bits t → bits.length + (b bits.length).length ≤ 8 * s.outMax.toNat →
    ∃ u, f t = .ok () u ∧ Encoded s (bits ++ b bits.length) u ∧ u.dfl = t.dfl

/-- R340, R442: at the start of a call nothing has been written. -/
theorem Encoded.start {s : State} (hwr : s.wr = ⟨0, 0, false⟩) (hlen : s.outLen = 0) : Encoded s [] s := by
  have hcount : writtenCount s = 0 := by rw [writtenCount, hwr, hlen]; rfl
  exact ⟨by rw [writerOk, hwr]; decide, by rw [hwr], List.eq_nil_of_length_eq_zero (by rw [writtenBits_length, hcount]), rfl⟩

theorem Encoded.count {s t : State} {bits : List Bool} (h : Encoded s bits t) : writtenCount t = bits.length := by
  rw [← h.written, writtenBits_length]

theorem Encoded.outMax {s t : State} {bits : List Bool} (h : Encoded s bits t) : t.outMax = s.outMax := by rw [h.rest]

theorem Encoded.inByte {s t : State} {bits : List Bool} (h : Encoded s bits t) (a : Nat) : inByte t a = inByte s a := by
  rw [h.rest]; rfl

theorem Encoded.inputLength {s t : State} {bits : List Bool} (h : Encoded s bits t) : inputLength t = inputLength s := by
  rw [h.rest]; rfl

/-- The search reads `IN` alone. -/
theorem Encoded.longestMatch {s t : State} {bits : List Bool} (h : Encoded s bits t) (pos l : Nat) :
    longestMatch pos l t = longestMatch pos l s :=
  longestMatch_congr (by rw [h.rest]) h.inByte pos l

theorem Encoded.withDfl {s t : State} {bits : List Bool} (h : Encoded s bits t) (d : Deflate) :
    Encoded s bits { t with dfl := d } :=
  ⟨h.form, h.unfinished, h.written, by conv_lhs => rw [h.rest]⟩

/-- R151 to R156. -/
theorem Writes.encodes {b : Nat → List Bool} {f : State → Res Unit} (hf : Writes b f) (s : State) : Encodes s b f := by
  intro t bits h hfit
  have hcount := h.count
  have hroom : roomFor ((t.wr.cnt + (b (writtenCount t)).length) / 8) t := by
    rw [hcount, roomFor, h.outMax]
    rw [writtenCount] at hcount
    omega
  obtain ⟨u, hu, hwrote, htouch⟩ := (hf t h.unfinished h.form).1 hroom
  refine ⟨u, hu, ⟨hwrote.form, hwrote.finished.trans h.unfinished, ?_, ?_⟩, htouch.dfl⟩
  · rw [hwrote.written, h.written, hcount]
  · rw [htouch.dfl]
    conv_lhs => rw [htouch, h.rest]

theorem Encodes.congr {s : State} {b b' : Nat → List Bool} {f : State → Res Unit} (h : Encodes s b f) (hb : ∀ p, b p = b' p) :
    Encodes s b' f := by
  rwa [← funext hb]

theorem Encodes.bind {s : State} {b1 b2 : Nat → List Bool} {f g : State → Res Unit} (hf : Encodes s b1 f)
    (hg : Encodes s b2 g) : Encodes s (fun p => b1 p ++ b2 (p + (b1 p).length)) fun t => (f t).bind fun _ u => g u := by
  intro t bits h hfit
  rw [List.length_append] at hfit
  obtain ⟨u, hu, hbits, hdfl⟩ := hf t bits h (by omega)
  obtain ⟨v, hv, hbits', hdfl'⟩ := hg u _ hbits (by rw [List.length_append]; omega)
  rw [List.length_append, List.append_assoc] at hbits'
  exact ⟨v, (congrArg (Res.bind · fun _ => g) hu).trans hv, hbits', hdfl'.trans hdfl⟩

theorem encodes_nothing (s : State) : Encodes s (fun _ => []) fun t => .ok () t :=
  fun t bits h _ => ⟨t, rfl, by rwa [List.append_nil], rfl⟩

theorem Encodes.each {α : Type} {s : State} {bits : α → List Bool} {f : α → State → Res Unit}
    (hf : ∀ a, Encodes s (fun _ => bits a) (f a)) : ∀ l : List α, Encodes s (fun _ => l.flatMap bits) (Res.each f l)
  | [] => encodes_nothing s
  | a :: l => (hf a).bind (Encodes.each hf l)

/-- R155, R388: the call ends with the bits written as whole bytes. -/
theorem finish_encoded {s t : State} {bits : List Bool} (hb : s.status.state = .busy) (h : Encoded s bits t)
    (hfit : bits.length ≤ 8 * s.outMax.toNat) :
    ∃ (m : Memory) (u : State),
      u = { s with status := { s.status with state := .done }, outBuf := m, wr := ⟨0, 0, true⟩, dfl := t.dfl
                   outLen := BitVec.ofNat Config.lenw ((bits.length + 7) / 8) } ∧
      ((finish t).bind fun _ u => .ok () (completeCall u)) = .ok () u ∧ outBytes u = bitsToBytes bits := by
  have hcount := h.count
  have hroom : t.wr.cnt ≠ 0 → roomFor 1 t := by
    intro hcnt
    rw [roomFor, h.outMax]
    rw [writtenCount] at hcount
    omega
  obtain ⟨u, hu, hwrote, htouch⟩ := wrAlign_of_room h.unfinished h.form hroom
  have hwr := hwrote.aligned
  have hlen : u.outLen = BitVec.ofNat Config.lenw ((bits.length + 7) / 8) := by
    have hmax := len_toNat_lt s.outMax
    have hbytes : 8 * u.outLen.toNat + 0 = bits.length + (8 - bits.length % 8) % 8 := by
      rw [← hcount, ← padBits_length, ← hwrote.count, writtenCount, hwr]
    refine BitVec.eq_of_toNat_eq (Eq.trans ?_ (lenOfNat_toNat ?_).symm) <;> omega
  have hbits : bytesToBits (outBytes u) = bytesToBits (bitsToBytes bits) := by
    have hwritten := hwrote.written
    rw [writtenBits, hwr, h.written, hcount] at hwritten
    rw [bytesToBits_bitsToBytes]
    exact (List.append_nil _).symm.trans hwritten
  have hshape : u = { s with outBuf := u.outBuf, wr := ⟨0, 0, t.wr.finished⟩, dfl := t.dfl
                             outLen := BitVec.ofNat Config.lenw ((bits.length + 7) / 8) } := by
    rw [← hwr, ← hlen]
    conv_lhs => rw [htouch, h.rest]
  refine ⟨u.outBuf, _, rfl, ?_, bytesToBits_inj (Eq.trans ?_ hbits)⟩
  · rw [finish, hu, Res.bind_ok, Res.bind_ok, completeCall, hshape]
    exact congrArg (Res.ok ()) (if_pos hb)
  · conv_rhs => rw [hshape]
    rfl

/-! ## Level 0 (R344 to R346) -/

/-- R93: the stream bits of a stored block: its header, the padding, the length fields and the bytes. -/
theorem blockBits_stored (pos : Nat) (final : Bool) (bytes : List Byte) : blockBits pos final (.stored bytes) =
    [final, false, false] ++ (padBits (pos + 3) ++
      ((fieldBits 16 bytes.length ++ fieldBits 16 (0xFFFF - bytes.length)) ++ bytesToBits bytes)) := by
  simp only [blockBits, padBits, List.append_assoc]

/-- R346: from a byte boundary on, a stored block takes five bytes beside its own. -/
theorem blockBits_stored_length {pos : Nat} (hpos : pos % 8 = 0) (final : Bool) (bytes : List Byte) :
    (blockBits pos final (.stored bytes)).length = 8 * (5 + bytes.length) := by
  simp only [blockBits_stored, List.length_append, List.length_cons, List.length_nil, padBits_length, fieldBits_length,
    bytesToBits_length]
  omega

theorem storedChunk_length (s : State) (k : Nat) : (storedChunk s k).length = min 65535 (inputLength s - 65535 * k) :=
  inBytes_length s _ _

/-- R345: the bytes of a chunk. -/
theorem encodes_chunk (s : State) (a len : Nat) :
    Encodes s (fun _ => bytesToBits (inBytes s a len)) (Res.each (fun j t => writeByte (inByte t (a + j)) t) (List.range len)) := by
  have hbyte : ∀ j, Encodes s (fun _ => fieldBits 8 (inByte s (a + j)).toNat) fun t => writeByte (inByte t (a + j)) t := by
    intro j t bits h hfit
    simp only [h.inByte]
    exact (writes_byte _).encodes s t bits h hfit
  exact (Encodes.each hbyte (List.range len)).congr fun _ => by rw [inBytes, bytesToBits, List.flatMap_map]

/-- R93, R345: chunk `k` is one stored block. -/
theorem encodes_emitStoredBlock (s : State) (nb k : Nat) :
    Encodes s (fun p => blockBits p (decide (k + 1 = nb)) (.stored (storedChunk s k))) (emitStoredBlock nb k) := by
  intro t bits h hfit
  have hstored : storedChunk s k = inBytes s (65535 * k) (min 65535 (inputLength s - 65535 * k)) := rfl
  have hbody := ((writes_bits (if k + 1 = nb then 1 else 0) 1 (by decide) (by decide)).encodes s).bind
    (((writes_bits 0 2 (by decide) (by decide)).encodes s).bind ((writes_align.encodes s).bind
    (((writes_bits (min 65535 (inputLength s - 65535 * k)) 16 (by decide) (by decide)).encodes s).bind
    (((writes_bits (0xFFFF - min 65535 (inputLength s - 65535 * k)) 16 (by decide) (by decide)).encodes s).bind
      (encodes_chunk s (65535 * k) (min 65535 (inputLength s - 65535 * k)))))))
  have hrun := (hbody.congr (b' := fun p => blockBits p (decide (k + 1 = nb)) (.stored (storedChunk s k))) fun p => by
    have hfinal : fieldBits 1 (if k + 1 = nb then 1 else 0) = [decide (k + 1 = nb)] := by
      by_cases hk : k + 1 = nb <;> simp [hk, fieldBits]
    have hzero : fieldBits 2 0 = [false, false] := by decide
    simp only [hfinal, hzero, blockBits_stored, hstored, inBytes_length, List.append_assoc, List.cons_append,
      List.nil_append, List.length_cons, List.length_nil, Nat.add_assoc, Nat.reduceAdd]) t bits h hfit
  rw [← h.inputLength] at hrun
  exact hrun

/-- The blocks of the chunks from `k` on, `m` of them. -/
def storedBlocks (s : State) (k m : Nat) : List OutBlock := (List.range' k m).map fun j => .stored (storedChunk s j)

theorem storedBlocks_succ (s : State) (k m : Nat) :
    storedBlocks s k (m + 1) = .stored (storedChunk s k) :: storedBlocks s (k + 1) m := rfl

theorem storedBlocks_isEmpty (s : State) (k m : Nat) : (storedBlocks s k m).isEmpty = decide (m = 0) := by
  cases m <;> rfl

/-- R90, R345: the blocks of the chunks from `k` to the last one. -/
theorem encodes_storedBlocks (s : State) : ∀ m k, Encodes s (fun p => blocksBits p (storedBlocks s k m))
    (Res.each (emitStoredBlock (k + m)) (List.range' k m)) := by
  intro m
  induction m with
  | zero => exact fun k => encodes_nothing s
  | succ m ih =>
    intro k
    have hlast : (storedBlocks s (k + 1) m).isEmpty = decide (k + 1 = k + (m + 1)) := by
      rw [storedBlocks_isEmpty]
      congr 1
      exact propext (by omega)
    have hrest := ih (k + 1)
    rw [Nat.add_right_comm k 1 m] at hrest
    refine ((encodes_emitStoredBlock s (k + (m + 1)) k).bind hrest).congr fun p => ?_
    rw [storedBlocks_succ, blocksBits, hlast]

theorem le_storedBlockCount (n : Nat) : 1 ≤ storedBlockCount n ∧ n ≤ 65535 * storedBlockCount n ∧
    ∀ k < storedBlockCount n, 65535 * k ≤ n := by
  have hcount : storedBlockCount n = max 1 ((n + 65534) / 65535) := rfl
  rw [hcount]
  refine ⟨by omega, by omega, fun k hk => by omega⟩

/-- R346: five bytes for each block, and the bytes of the input from the first chunk on. -/
theorem storedBlocks_bits_length (s : State) : ∀ m k pos, k + m = storedBlockCount (inputLength s) → pos % 8 = 0 →
    (blocksBits pos (storedBlocks s k m)).length = 8 * (5 * m + (inputLength s - 65535 * k)) := by
  intro m
  induction m with
  | zero =>
    intro k pos hk _
    obtain ⟨-, hn, -⟩ := le_storedBlockCount (inputLength s)
    rw [← hk] at hn
    show 0 = _
    omega
  | succ m ih =>
    intro k pos hk hpos
    have hchunk := storedChunk_length s k
    rw [storedBlocks_succ, blocksBits, List.length_append, blockBits_stored_length hpos, ih (k + 1) _ (by omega) (by omega)]
    omega

theorem take_drop_inBytes (s : State) {a len n : Nat} (h : a + len ≤ n) :
    ((inBytes s 0 n).drop a).take len = inBytes s a len := by
  refine List.ext_getElem? fun k => ?_
  rw [List.getElem?_take, List.getElem?_drop, getElem?_inBytes, getElem?_inBytes, Nat.zero_add]
  by_cases hk : k < len
  · rw [if_pos hk, if_pos (by omega), if_pos hk]
  · rw [if_neg hk, if_neg hk]

/-- R344, R356 (c): the chunks are consecutive segments of the input, up to its end. -/
theorem storedBlocks_carry (s : State) : ∀ m k, k + m = storedBlockCount (inputLength s) →
    blocksCarry (inBytes s 0 (inputLength s)) (min (65535 * k) (inputLength s)) (storedBlocks s k m) := by
  intro m
  induction m with
  | zero =>
    intro k hk
    obtain ⟨-, hn, -⟩ := le_storedBlockCount (inputLength s)
    rw [← hk] at hn
    show min (65535 * k) (inputLength s) = (inBytes s 0 (inputLength s)).length
    rw [inBytes_length]
    omega
  | succ m ih =>
    intro k hk
    obtain ⟨-, -, hstart⟩ := le_storedBlockCount (inputLength s)
    have hk0 := hstart k (by omega)
    have hchunk := storedChunk_length s k
    refine ⟨by rw [hchunk]; exact Nat.min_le_left _ _, ?_, ?_⟩
    · rw [Nat.min_eq_left hk0, take_drop_inBytes s (by omega), hchunk]
      rfl
    · rw [show min (65535 * k) (inputLength s) + (storedChunk s k).length = min (65535 * (k + 1)) (inputLength s) by omega]
      exact ih (k + 1) (by omega)

/-- Settles O46: the loop over chunks writes one stored block each (`encodes_storedBlocks`); the size is summed over the
blocks. The output is the reference one (log 10). -/
theorem compressLevelZeroStores : Obligations.CompressLevelZeroStores := by
  intro s hb hwr hlen hroom
  have hcount : storedBlockCount (inputLength s) = max 1 ((s.inLen.toNat + 65534) / 65535) := rfl
  rw [← hcount] at hroom ⊢
  have hblocks : ((List.range (storedBlockCount (inputLength s))).map fun k => OutBlock.stored (storedChunk s k)) =
      storedBlocks s 0 (storedBlockCount (inputLength s)) := by
    rw [List.range_eq_range']
    rfl
  have hsize := storedBlocks_bits_length s _ 0 0 (Nat.zero_add _) rfl
  have hcarry := storedBlocks_carry s _ 0 (Nat.zero_add _)
  have hrun := encodes_storedBlocks s (storedBlockCount (inputLength s)) 0
  rw [Nat.zero_add, ← List.range_eq_range'] at hrun
  have hn : inputLength s = s.inLen.toNat := rfl
  obtain ⟨t, ht, hbits, hdfl⟩ := hrun s [] (Encoded.start hwr hlen) (by rw [List.length_nil, hsize]; omega)
  rw [List.nil_append, List.length_nil] at hbits
  obtain ⟨m, u, hu, hdone, hout⟩ := finish_encoded hb hbits (by rw [hsize]; omega)
  rw [hblocks]
  refine ⟨m, u, ?_, ?_, hout, storedBlocks s 0 (storedBlockCount (inputLength s)), ?_, fun _ => ⟨?_, ?_⟩, ?_, hout⟩
  · rw [hu, hdfl, hsize, show (8 * (5 * storedBlockCount (inputLength s) + (inputLength s - 65535 * 0)) + 7) / 8 =
      s.inLen.toNat + 5 * storedBlockCount (inputLength s) by omega]
  · rw [exec, execCompress0, compressStored, ht, Res.bind_ok, hdone]
    rfl
  · obtain ⟨hpos, -⟩ := le_storedBlockCount (inputLength s)
    rw [← List.isEmpty_eq_false_iff, storedBlocks_isEmpty, decide_eq_false_iff_not]
    omega
  · intro b hb
    obtain ⟨k, -, rfl⟩ := List.mem_map.mp hb
    exact ⟨_, rfl⟩
  · rw [storedBlocks, List.length_map, List.length_range', ← hn, inBytes_length]
  · rwa [Nat.mul_zero, Nat.zero_min] at hcarry

/-! ## Levels 1 to 9 (R347, R348) -/

/-- R348, R350: the search of a pass finds what the greedy parse finds at its position. -/
theorem searchAt_encoded {s t : State} {bits : List Bool} (h : Encoded s bits t) :
    (searchAt t.dfl.pos t.dfl.level.toNat t).dfl = { t.dfl with
      bestLen := (longestMatch t.dfl.pos t.dfl.level.toNat s).1
      bestDist := (longestMatch t.dfl.pos t.dfl.level.toNat s).2.1
      examined := (longestMatch t.dfl.pos t.dfl.level.toNat s).2.2 } := by
  rw [searchAt, h.longestMatch]

/-- R348: one pass of the parse loop writes the greedy token at its position. -/
theorem parseStep_encoded {s t : State} {bits : List Bool} (h : Encoded s bits t) {l pos : Nat}
    (hl : t.dfl.level.toNat = l) (hpos : t.dfl.pos = pos)
    (hfit : bits.length + (tokenBits (greedyToken s l pos)).length ≤ 8 * s.outMax.toNat) :
    ∃ u, parseStep t = .ok () u ∧ Encoded s (bits ++ tokenBits (greedyToken s l pos)) u ∧
      u.dfl.pos = pos + (greedyToken s l pos).length ∧ u.dfl.level = t.dfl.level := by
  have hdfl := searchAt_encoded h
  have hsearch : Encoded s bits (searchAt t.dfl.pos t.dfl.level.toNat t) := h.withDfl _
  rw [hl, hpos] at hdfl hsearch
  unfold parseStep
  rw [hl, hpos]
  generalize searchAt pos l t = w at hdfl hsearch
  simp only [hdfl]
  obtain ⟨heq, hshort⟩ | ⟨heq, h3, hvalid⟩ := greedyToken_cases s l pos
  · rw [heq] at hfit ⊢
    obtain ⟨u, hu, hbits, hudfl⟩ := (writes_emitLit (inByte s pos)).encodes s w bits hsearch hfit
    rw [if_neg (Nat.not_le.mpr hshort), hpos, hsearch.inByte, hu]
    exact ⟨_, rfl, hbits.withDfl _, by rw [hudfl, hdfl, hpos]; rfl, by rw [hudfl, hdfl]⟩
  · obtain ⟨hmax, hdist, -⟩ := longestMatch_bounds pos l s
    rw [heq, ← emittedMatch_of_token h3 (by omega) hvalid.2.2.1 hdist] at hfit ⊢
    obtain ⟨u, hu, hbits, hudfl⟩ := (writes_emitMatch _ _).encodes s w bits hsearch hfit
    rw [if_pos h3, hu]
    exact ⟨_, rfl, hbits.withDfl _, by rw [hudfl, hdfl, hpos]; rfl, by rw [hudfl, hdfl]⟩

/-- R348: the parse loop writes the tokens of the greedy parse and ends at the end of the input. -/
theorem parseLoop_encoded {s : State} {l : Nat} : ∀ (fuel pos : Nat) {t : State} {bits : List Bool}, Encoded s bits t →
    t.dfl.level.toNat = l → t.dfl.pos = pos → pos ≤ inputLength s → inputLength s - pos ≤ fuel →
    bits.length + 9 * (inputLength s - pos) ≤ 8 * s.outMax.toNat →
    ∃ u, parseLoop fuel t = .ok () u ∧ Encoded s (bits ++ (greedyTokens s l fuel pos).flatMap tokenBits) u ∧
      u.dfl.pos = inputLength s ∧ u.dfl.level = t.dfl.level := by
  intro fuel
  induction fuel with
  | zero =>
    intro pos t bits h hl hpos hle hfuel hfit
    refine ⟨t, rfl, ?_, by omega, rfl⟩
    rwa [greedyTokens, List.flatMap_nil, List.append_nil]
  | succ fuel ih =>
    intro pos t bits h hl hpos hle hfuel hfit
    unfold parseLoop
    rw [hpos, h.inputLength]
    rcases Nat.eq_or_lt_of_le hle with rfl | hlt
    · rw [if_neg (Nat.lt_irrefl _), greedyTokens_end (le_refl _), List.flatMap_nil, List.append_nil]
      exact ⟨t, rfl, h, hpos, rfl⟩
    · obtain ⟨h1, hend⟩ := greedyToken_length (l := l) hlt
      have hbits := greedyToken_bits_le s l pos
      obtain ⟨u, hu, hnext, hpos', hlevel⟩ := parseStep_encoded h hl hpos (by omega)
      obtain ⟨v, hv, hrest, hvpos, hvlevel⟩ :=
        ih _ hnext (by rw [hlevel, hl]) hpos' hend (by omega) (by rw [List.length_append]; omega)
      rw [if_pos hlt, hu, greedyTokens_succ hlt, List.flatMap_cons, ← List.append_assoc]
      exact ⟨v, hv, hrest, hvpos, hvlevel.trans hlevel⟩

/-- R347: the stream bits of the one final fixed block. -/
theorem blocksBits_fixed (ts : List Token) :
    blocksBits 0 [.fixed ts] = [true] ++ [true, false] ++ ts.flatMap tokenBits ++ codeBits 7 0 := by
  simp only [blocksBits, blockBits, List.isEmpty_nil, List.append_nil, List.cons_append, List.nil_append]

/-- R359: the worst case. -/
theorem fixedBlock_length_le (s : State) (l : Nat) :
    (blocksBits 0 [.fixed (greedyTokens s l (inputLength s) 0)]).length ≤ 3 + 9 * inputLength s + 7 := by
  have htokens := greedyTokens_bits_le s l (inputLength s) 0 (Nat.zero_le _)
  rw [blocksBits_fixed, List.length_append, List.length_append, codeBits_length]
  exact Nat.add_le_add_right (Nat.add_le_add_left htokens 3) 7

/-- R347, R348: the body writes one final fixed block of the greedy parse, and ends the call. -/
theorem compressFixed_ok {s : State} (hb : s.status.state = .busy) (hwr : s.wr = ⟨0, 0, false⟩) (hlen : s.outLen = 0)
    (hfit : 3 + 9 * inputLength s + 7 ≤ 8 * s.outMax.toNat) {bits : List Bool}
    (hblock : blocksBits 0 [.fixed (greedyTokens s s.dfl.level.toNat (inputLength s) 0)] = bits) :
    ∃ (m : Memory) (d : Deflate) (t : State),
      t = { s with
        status := { s.status with state := .done, fixedReady := true }, outBuf := m, wr := ⟨0, 0, true⟩
        outLen := BitVec.ofNat Config.lenw ((bits.length + 7) / 8), dfl := d } ∧
      d.level = s.dfl.level ∧ d.pos = inputLength s ∧ compressFixed s = .ok () t ∧ outBytes t = bitsToBytes bits := by
  have htokens := greedyTokens_bits_le s s.dfl.level.toNat (inputLength s) 0 (Nat.zero_le _)
  have hsame : ∀ fuel, greedyTokens (setFixedReady s) s.dfl.level.toNat fuel 0 = greedyTokens s s.dfl.level.toNat fuel 0 :=
    fun fuel => greedyTokens_congr (s := s) (t := setFixedReady s) rfl (fun _ => rfl) _ fuel 0
  have hstart : Encoded (setFixedReady s) [] (setFixedReady s) := Encoded.start hwr hlen
  obtain ⟨u, hu, hbits1, hdfl1⟩ := (writes_bits 1 1 (by decide) (by decide)).encodes _ _ [] hstart
    (by show 0 + 1 ≤ 8 * s.outMax.toNat; omega)
  obtain ⟨v, hv, hbits2, hdfl2⟩ := (writes_bits 1 2 (by decide) (by decide)).encodes _ u _ hbits1
    (by show 1 + 2 ≤ 8 * s.outMax.toNat; omega)
  have hheader : ([] ++ fieldBits 1 1) ++ fieldBits 2 1 = [true] ++ [true, false] := by decide
  have hlevel : v.dfl.level = s.dfl.level := congrArg Deflate.level (hdfl2.trans hdfl1)
  obtain ⟨w, hw, hbits3, hpos, hlevel3⟩ := parseLoop_encoded (inputLength s) 0 (hbits2.withDfl { v.dfl with pos := 0 })
    (congrArg BitVec.toNat hlevel) rfl (Nat.zero_le _) (le_refl _)
    (by show 3 + 9 * (inputLength s - 0) ≤ 8 * s.outMax.toNat; omega)
  rw [hheader, hsame] at hbits3
  obtain ⟨x, hx, hbits4, hdfl4⟩ := writes_emitEob.encodes _ w _ hbits3
    (by simp only [List.length_append, codeBits_length]; show 1 + 2 + _ + 7 ≤ 8 * s.outMax.toNat; omega)
  have hsize := hblock ▸ fixedBlock_length_le s s.dfl.level.toNat
  rw [← blocksBits_fixed, hblock] at hbits4
  obtain ⟨m, y, hy, hdone, hout⟩ := finish_encoded (s := setFixedReady s) hb hbits4 (hsize.trans hfit)
  refine ⟨m, x.dfl, y, hy, ?_, ?_, ?_, hout⟩
  · rw [hdfl4, hlevel3, ← hlevel]
  · rw [hdfl4, hpos]
    rfl
  · rw [compressFixed, hu, Res.bind_ok, hv, Res.bind_ok, show inputLength v = inputLength s from hbits2.inputLength, hw,
      Res.bind_ok, hx, Res.bind_ok, hdone]

/-- Settles O47: the parse loop writes the greedy tokens (`parseLoop_encoded`), which expand to the input
(`greedyTokens_expand`) and take at most nine bits a byte (`greedyTokens_bits_le`). The output is the reference one (log 10),
with R7's default search effort (log 8), and above level 9 a free one (log 16). -/
theorem compressLevelsOneToNine : Obligations.CompressLevelsOneToNine := by
  intro s hb hwr hlen hroom
  have hn : inputLength s = s.inLen.toNat := rfl
  have hparse : validParse (inBytes s 0 (inputLength s)) 0 (inputLength s) (greedyTokens s s.dfl.level.toNat (inputLength s) 0) :=
    greedyTokens_expand s _ _ 0 (Nat.zero_le _) (le_refl _)
  obtain ⟨bits, hblock⟩ : ∃ bits, blocksBits 0 [.fixed (greedyTokens s s.dfl.level.toNat (inputLength s) 0)] = bits :=
    ⟨_, rfl⟩
  have hsize := hblock ▸ fixedBlock_length_le s s.dfl.level.toNat
  obtain ⟨m, d, t, ht, hlevel, hpos, hrun, hout⟩ := compressFixed_ok hb hwr hlen (by omega) hblock
  rw [← hblock] at hout
  refine ⟨m, BitVec.ofNat Config.lenw ((bits.length + 7) / 8), d, t, ?_, ?_, hout, hparse, fun h1 _ => ?_, ?_⟩
  · rw [ht, ← hlevel, ← hn, ← hpos]
  · rw [exec, execCompress1To9, hrun]
    rfl
  · refine ⟨_, List.cons_ne_nil _ _, fun h0 => absurd h0 (by omega), ?_, hout⟩
    have hlength : inputLength s = (inBytes s 0 (inputLength s)).length := (inBytes_length s 0 _).symm
    exact ⟨inputLength s, Nat.zero_le _, hlength.le, hparse, hlength⟩
  · have hmax := len_toNat_lt s.outMax
    rw [lenOfNat_toNat (by omega)]
    omega

end Sys2Proof.Machine
end

section
/-! The Decompressor on bits that are known (R358): the moments at which a decompress call stands at the head of known bits with
known bytes behind it, and how the tokens of a fixed block lead from one such moment to another. -/

namespace Sys2Proof.Machine

/-! ## Runs of a call -/

/-- A call that stands at `s` comes to `t`, from where it goes on. -/
def Reaches (s t : State) : Prop := ∃ n, ∀ m, engineRun (n + m) s = engineRun m t

theorem Reaches.refl (s : State) : Reaches s s := ⟨0, fun m => by rw [Nat.zero_add]⟩

theorem Reaches.trans {s t u : State} (h : Reaches s t) (h' : Reaches t u) : Reaches s u := by
  obtain ⟨n, hn⟩ := h
  obtain ⟨n', hn'⟩ := h'
  exact ⟨n + n', fun m => by rw [Nat.add_assoc, hn, hn']⟩

theorem Reaches.of_step {s t : State} (hb : s.status.state = .busy) (ht : step s = .next t) : Reaches s t :=
  ⟨1, fun m => by rw [Nat.add_comm, engineRun_succ hb ht]⟩

theorem Reaches.engineRun {s t : State} (h : Reaches s t) : ∃ n, engineRun n s = .next t := by
  obtain ⟨n, hn⟩ := h
  exact ⟨n, hn 0⟩

/-! ## The bits ahead and the bytes behind -/

/-- R130: what a fetch sees is the head of the unread bits. -/
theorem nextBits_eq_take (n : Nat) (s : State) : nextBits n s = (unread s).take n := by
  refine List.ext_getElem? fun k => ?_
  simp only [List.getElem?_take, nextBits, unread, getElem?_streamBits, Nat.lt_min, ite_and]

/-- R8: the stream bits of whole bytes of `IN`, from a byte boundary on. -/
theorem streamBits_of_boundary (s : State) (a n : Nat) : streamBits s (8 * a) (8 * n) = bytesToBits (inBytes s a n) := by
  refine List.ext_getElem? fun p => ?_
  rw [getElem?_streamBits, getElem?_bytesToBits, getElem?_inBytes]
  by_cases hp : p < 8 * n
  · rw [if_pos hp, if_pos (by omega), streamBit, show (8 * a + p) / 8 = a + p / 8 by omega,
      show (8 * a + p) % 8 = p % 8 by omega]
    rfl
  · rw [if_neg hp, if_neg (by omega)]
    rfl

/-- A decompress call stands at stream position `pos`, at the head of `bits`; its output so far is `out`, and `n` bytes fit in
`OUT`. -/
structure Decoding (n pos : Nat) (bits : List Bool) (out : List Byte) (t : State) : Prop where
  busy : t.status.state = .busy
  noError : t.status.errCause = none
  op : ctrlOp t = false
  bit : t.rd.bit ≤ 7
  pos : streamPos t = pos
  unread : unread t = bits
  out : outBytes t = out
  max : n ≤ t.outMax.toNat

theorem outBytes_length (s : State) : (outBytes s).length = s.outLen.toNat := by
  rw [outBytes, List.length_map, List.length_range]

theorem Decoding.outLen {n pos : Nat} {bits : List Bool} {out : List Byte} {t : State} (h : Decoding n pos bits out t) :
    t.outLen.toNat = out.length := by
  rw [← h.out, outBytes_length]

/-- What is still to come fits. -/
theorem Decoding.room {n pos k : Nat} {bits : List Bool} {out : List Byte} {t : State} (h : Decoding n pos bits out t)
    (hk : out.length + k ≤ n) : roomFor k t := by
  rw [roomFor, h.outLen]
  exact hk.trans h.max

theorem Decoding.withInf {n pos : Nat} {bits : List Bool} {out : List Byte} {t : State} (h : Decoding n pos bits out t)
    (f : Inflate) : Decoding n pos bits out { t with inf := f } :=
  ⟨h.busy, h.noError, h.op, h.bit, h.pos, h.unread, h.out, h.max⟩

/-- The cursor moves past bits that are there. -/
theorem Decoding.advanced {n pos : Nat} {code rest : List Bool} {out : List Byte} {t : State}
    (h : Decoding n pos (code ++ rest) out t) : Decoding n (pos + code.length) rest out (advance code.length t) := by
  obtain ⟨-, -, hrest⟩ := unread_split h.unread
  exact ⟨h.busy, h.noError, h.op, Nat.le_of_lt_succ (Nat.mod_lt _ (by decide)), by rw [streamPos_advance, h.pos], hrest, h.out,
    h.max⟩

/-- R3, R455: an instruction at the head of the bits is run, past its bits. -/
theorem step_of_decoding {n pos : Nat} {code rest : List Bool} {out : List Byte} {t : State} {i : Instr}
    (h : Decoding n pos (code ++ rest) out t) (hlen : code.length ≤ 32)
    (hd : decode (fetchCtx t) (code ++ rest.take (32 - code.length)) = .ok i code.length) :
    step t = exec i (advance code.length t) := by
  refine (stepRunsDecodedInstruction t i code.length).1 h.busy h.op ?_
  rw [nextBits_eq_take, h.unread, List.take_append, List.take_of_length_le hlen, hd]

/-- The bytes behind after an append. -/
theorem Appended.outBytes {b : Nat → Byte} {k : Nat} {s t : State} (h : Appended b k s t) :
    outBytes t = outBytes s ++ (List.range k).map b := by
  rw [Machine.outBytes, h.outLen, List.range_add, List.map_append, List.map_map]
  congr 1
  · exact List.map_congr_left fun a ha => h.frame a (Or.inl (List.mem_range.mp ha))
  · exact List.map_congr_left fun a ha => h.bytes a (List.mem_range.mp ha)

theorem Decoding.appended {n pos : Nat} {bits : List Bool} {out : List Byte} {s t : State} {b : Nat → Byte} {k : Nat}
    (h : Decoding n pos bits out s) (ha : Appended b k s t) (hrd : t.rd = s.rd) :
    Decoding n pos bits (out ++ (List.range k).map b) t := by
  have hpos : streamPos t = streamPos s := by rw [streamPos, streamPos, hrd]
  have hunread : Machine.unread t = Machine.unread s := by rw [ha.touches, hrd]; rfl
  refine ⟨by rw [ha.status, h.busy], by rw [ha.status, h.noError], ?_, by rw [hrd]; exact h.bit, hpos.trans h.pos,
    hunread.trans h.unread, by rw [ha.outBytes, h.out], by rw [ha.outMax]; exact h.max⟩
  rw [ha.touches]
  exact h.op

/-! ## Tokens -/

/-- R217: in the body of a fixed block. -/
structure FixedBody (final : Bool) (t : State) : Prop where
  phase : t.inf.phase = .body
  state : t.inf.state = .fixedHuffman
  final : t.inf.final = final

theorem FixedBody.ctx {final : Bool} {t : State} (h : FixedBody final t) : fetchCtx t = .ll tableFLL := by
  rw [fetchCtx, h.phase, currentLL, if_pos h.state]

theorem copyBack_length (d : Nat) : ∀ (len : Nat) (h : List Byte), (copyBack d len h).length = h.length + len
  | 0, _ => rfl
  | len + 1, h => by rw [copyBack, copyBack_length d len, List.length_append, List.length_singleton]; omega

/-- R341: where a copy is defined, its ranges hold. -/
theorem applyToken_copy {h h' : List Byte} {len d : Nat} (hap : applyToken h (.copy len d) = some h') :
    3 ≤ len ∧ len ≤ 258 ∧ 1 ≤ d ∧ d ≤ 32768 ∧ d ≤ h.length ∧ h' = copyBack d len h := by
  rw [applyToken] at hap
  split at hap
  · next hr =>
    cases hap
    obtain ⟨h3, h258, h1, hmax, hd⟩ := hr
    exact ⟨h3, h258, h1, hmax, hd, rfl⟩
  · cases hap

/-- R341: tokens only add to the output. -/
theorem length_le_of_applyToken {h h' : List Byte} {tok : Token} (hap : applyToken h tok = some h') : h.length ≤ h'.length := by
  cases tok with
  | lit b => cases hap; rw [List.length_append]; omega
  | copy len d =>
    obtain ⟨-, -, -, -, -, rfl⟩ := applyToken_copy hap
    rw [copyBack_length]
    omega

theorem length_le_of_expandTokens : ∀ {ts : List Token} {h h' : List Byte}, expandTokens h ts = some h' →
    h.length ≤ h'.length
  | [], _, _, hex => by cases hex; exact le_refl _
  | t :: ts, h, h', hex => by
    rw [expandTokens, Option.bind_eq_some_iff] at hex
    obtain ⟨g, hg, hex⟩ := hex
    exact (length_le_of_applyToken hg).trans (length_le_of_expandTokens hex)

/-- R251: a literal of a fixed block. -/
theorem decode_literal (b : Byte) : ∃ i, (i = .lit0To143 b ∨ i = .lit144To255 b) ∧
    ∀ r, decode (.ll tableFLL) (tokenBits (.lit b) ++ r) = .ok i (tokenBits (.lit b)).length := by
  rcases Nat.lt_or_ge b.toNat 144 with h | h
  · refine ⟨_, Or.inl rfl, fun r => encodeThenDecode _ _ _ r builtTable_fll (decide_eq_true (Nat.le_of_lt_succ h)) ?_ nofun⟩
    rw [tokenBits_lit0 (Nat.le_of_lt_succ h)]
    exact encode_fll_of_symBits rfl (symBits_fll_lit0 h)
  · refine ⟨_, Or.inr rfl, fun r => encodeThenDecode _ _ _ r builtTable_fll (decide_eq_true h) ?_ nofun⟩
    rw [tokenBits_lit144 h]
    exact encode_fll_of_symBits rfl (symBits_fll_lit144 h b.isLt)

/-- R251: a literal token. -/
theorem literal_decoded {n pos : Nat} {rest : List Bool} {out : List Byte} {t : State} {final : Bool} {b : Byte}
    (h : Decoding n pos (tokenBits (.lit b) ++ rest) out t) (hf : FixedBody final t) (hn : out.length + 1 ≤ n) :
    ∃ u, Reaches t u ∧ Decoding n (pos + (tokenBits (.lit b)).length) rest (out ++ [b]) u ∧ FixedBody final u := by
  obtain ⟨i, hi, hd⟩ := decode_literal b
  have hlen := tokenBits_lit_length_le b
  have hstep := step_of_decoding (i := i) h (hlen.trans (by decide)) (by rw [hf.ctx]; exact hd _)
  have hsym : Decoding n _ rest out (setSym b.toNat (advance (tokenBits (.lit b)).length t)) := h.advanced.withInf _
  obtain ⟨u, hu, happ, hrd⟩ := appendByte_of_room b (hsym.room hn)
  rw [exec_literal hi, literal, hu] at hstep
  refine ⟨u, .of_step h.busy hstep, hsym.appended happ hrd, ?_⟩
  exact ⟨by rw [happ.inf]; exact hf.phase, by rw [happ.inf]; exact hf.state, by rw [happ.inf]; exact hf.final⟩

/-- An extra-bits field that is there is given to its instruction, whose meaning is `effect` of the field's value. -/
theorem withField_effect {w n : Nat} {bits : List Bool} {mk : BitVec w → Instr}
    {effect : Nat → State → Host.Outcome State Fault Refusal} (hexec : ∀ x s, exec (mk x) s = effect x.toNat s)
    (hl : n + w ≤ bits.length) : ∃ i, withField w bits n mk = .ok i (n + w) ∧
      ∀ s, exec i s = effect (bitsToNat ((bits.drop n).take w)) s := by
  have hlen : ((bits.drop n).take w).length = w := by rw [List.length_take, List.length_drop]; omega
  have hlt := bitsToNat_lt ((bits.drop n).take w)
  rw [hlen] at hlt
  refine ⟨mk (BitVec.ofNat w (bitsToNat ((bits.drop n).take w))), ?_, fun s => ?_⟩
  · rw [withField, if_neg (by rw [List.length_drop]; omega)]
  · rw [hexec, BitVec.toNat_ofNat, Nat.mod_eq_of_lt hlt]

/-- R253, R260 to R288: the instruction of a length symbol, by its extra-bits field. -/
theorem llInstr_length {sym n : Nat} {bits : List Bool} (h257 : 257 ≤ sym) (h285 : sym ≤ 285)
    (hl : n + lextra (sym - 257) ≤ bits.length) : ∃ i, llInstr sym bits n = .ok i (n + lextra (sym - 257)) ∧
      ∀ s, exec i s = .next (lengthSymbol sym (bitsToNat ((bits.drop n).take (lextra (sym - 257)))) s) := by
  interval_cases sym
  iterate 8 exact ⟨_, rfl, fun _ => rfl⟩
  iterate 20 exact withField_effect (effect := fun x s => .next (lengthSymbol _ x s)) (fun _ _ => rfl) hl
  exact ⟨_, rfl, fun _ => rfl⟩

/-- R254, R290 to R319: the instruction of a distance symbol, by its extra-bits field. -/
theorem distInstr_distance {j n : Nat} {bits : List Bool} (h : j < 30) (hl : n + dextra j ≤ bits.length) :
    ∃ i, distInstr j bits n = .ok i (n + dextra j) ∧
      ∀ s, exec i s = (distanceSymbol j (bitsToNat ((bits.drop n).take (dextra j))) s).toNext := by
  interval_cases j
  iterate 4 exact ⟨_, rfl, fun _ => rfl⟩
  iterate 26 exact withField_effect (effect := fun y s => (distanceSymbol _ y s).toNext) (fun _ _ => rfl) hl

/-- R253: the length of a match of a fixed block is read back. -/
theorem decode_lengthBits {i x : Nat} (hi : i ≤ 28) (hx : x < 2 ^ lextra i) (r : List Bool) :
    ∃ ins, decode (.ll tableFLL) (lengthCode i ++ fieldBits (lextra i) x ++ r) =
        .ok ins (lengthCode i ++ fieldBits (lextra i) x).length ∧
      ∀ s, exec ins s = .next (lengthSymbol (257 + i) x s) := by
  have hsub : 257 + i - 257 = i := Nat.add_sub_cancel_left 257 i
  obtain ⟨ins, hins, hexec⟩ := llInstr_length (sym := 257 + i) (n := (lengthCode i).length)
    (bits := lengthCode i ++ (fieldBits (lextra i) x ++ r)) (by omega) (by omega)
    (by rw [hsub, List.length_append, List.length_append, fieldBits_length]; omega)
  rw [hsub] at hins hexec
  rw [List.drop_left, List.take_left' (fieldBits_length _ _), bitsToNat_fieldBits_of_lt hx] at hexec
  refine ⟨ins, ?_, hexec⟩
  rw [List.append_assoc, List.length_append, fieldBits_length]
  exact (withSymbol_code builtTable_fll (symBits_length hi) _ _).trans hins

/-- R254: the distance of a match of a fixed block is read back. -/
theorem decode_distanceBits {j y : Nat} (hj : j ≤ 29) (hy : y < 2 ^ dextra j) (r : List Bool) :
    ∃ ins, decode (.dist tableFD) (codeBits 5 j ++ fieldBits (dextra j) y ++ r) =
        .ok ins (codeBits 5 j ++ fieldBits (dextra j) y).length ∧
      ∀ s, exec ins s = (distanceSymbol j y s).toNext := by
  obtain ⟨ins, hins, hexec⟩ := distInstr_distance (n := (codeBits 5 j).length)
    (bits := codeBits 5 j ++ (fieldBits (dextra j) y ++ r)) (show j < 30 by omega)
    (by rw [List.length_append, List.length_append, fieldBits_length]; omega)
  rw [List.drop_left, List.take_left' (fieldBits_length _ _), bitsToNat_fieldBits_of_lt hy] at hexec
  refine ⟨ins, ?_, hexec⟩
  rw [List.append_assoc, List.length_append, fieldBits_length]
  exact (withSymbol_code builtTable_fd (symBits_fd (by omega)) _ _).trans hins

theorem getD_outBytes {s : State} {a : Nat} (h : a < s.outLen.toNat) : (outBytes s).getD a 0 = outByte s a := by
  rw [List.getD_eq_getElem?_getD, outBytes, List.getElem?_map, List.getElem?_range h]
  rfl

/-- R256: the copy of the Decompressor makes the bytes of a copy token. -/
theorem outBytes_matchCopy : ∀ (l : List Nat) {s t : State}, 1 ≤ s.inf.mdist → s.inf.mdist ≤ s.outLen.toNat →
    Res.each (fun _ u => copyMatchByte u) l s = .ok () t → outBytes t = copyBack s.inf.mdist l.length (outBytes s)
  | [], _, _, _, _, ht => by cases ht; rfl
  | a :: l, s, t, h1, hd, ht => by
    rw [Res.each, copyMatchByte] at ht
    by_cases hroom : roomFor 1 s
    · obtain ⟨w, hw, happ, -⟩ := appendByte_of_room (outByte s (s.outLen.toNat - s.inf.mdist)) hroom
      rw [hw, Res.bind_ok] at ht
      rw [outBytes_matchCopy l (by rwa [happ.inf]) (by rw [happ.inf, happ.outLen]; omega) ht, happ.inf, happ.outBytes,
        List.length_cons, copyBack, outBytes_length, getD_outBytes (by omega)]
      rfl
    · rw [appendByte_of_full _ hroom] at ht
      cases ht

/-- R253: the length of a copy token. -/
theorem length_decoded {n pos i x : Nat} {rest : List Bool} {out : List Byte} {t : State} {final : Bool} (hi : i ≤ 28)
    (hx : x < 2 ^ lextra i) (h : Decoding n pos (lengthCode i ++ fieldBits (lextra i) x ++ rest) out t)
    (hf : FixedBody final t) :
    step t = .next (lengthSymbol (257 + i) x (advance (lengthCode i ++ fieldBits (lextra i) x).length t)) := by
  obtain ⟨ins, hd, hexec⟩ := decode_lengthBits hi hx (rest.take (32 - (lengthCode i ++ fieldBits (lextra i) x).length))
  have hlen : (lengthCode i ++ fieldBits (lextra i) x).length ≤ 32 := by
    have := lextra_le hi
    rw [List.length_append, lengthCode_length, fieldBits_length]
    split <;> omega
  rw [step_of_decoding h hlen (by rw [hf.ctx]; exact hd), hexec]

/-- R254 to R256: the distance of a copy token, and the copy. -/
theorem distance_decoded {n pos j y : Nat} {rest : List Bool} {out : List Byte} {t : State} {final : Bool} (hj : j ≤ 29)
    (hy : y < 2 ^ dextra j) (h : Decoding n pos (codeBits 5 j ++ fieldBits (dextra j) y ++ rest) out t)
    (hphase : t.inf.phase = .distance) (hstate : t.inf.state = .fixedHuffman) (hfinal : t.inf.final = final)
    (hd : distanceValue j y ≤ out.length) (hn : out.length + t.inf.mlen ≤ n) :
    ∃ u, step t = .next u ∧
      Decoding n (pos + (codeBits 5 j ++ fieldBits (dextra j) y).length) rest (copyBack (distanceValue j y) t.inf.mlen out) u ∧
      FixedBody final u := by
  obtain ⟨ins, hdec, hexec⟩ := decode_distanceBits hj hy (rest.take (32 - (codeBits 5 j ++ fieldBits (dextra j) y).length))
  have hctx : fetchCtx t = .dist tableFD := by rw [fetchCtx, hphase, currentD, if_pos hstate]
  have hlen : (codeBits 5 j ++ fieldBits (dextra j) y).length ≤ 32 := by
    have := dextra_le hj
    rw [List.length_append, codeBits_length, fieldBits_length]
    omega
  have hadv := h.advanced
  have hlatch : Decoding n _ rest out (latchDistance j y (advance (codeBits 5 j ++ fieldBits (dextra j) y).length t)) :=
    hadv.withInf _
  have hpos : 1 ≤ distanceValue j y := distanceValue_pos (by omega) y
  have hrange : distanceValue j y ≤ t.outLen.toNat := by rw [h.outLen]; exact hd
  obtain ⟨u, hu, happ, hrd⟩ := matchCopy_ok _ hpos hrange t.inf.mlen (hlatch.room hn)
  have hbytes := outBytes_matchCopy _ hpos hrange hu
  have hdone := hlatch.appended happ hrd
  rw [← hlatch.out, ← happ.outBytes, hbytes, List.length_range, hlatch.out] at hdone
  refine ⟨{ u with inf := { u.inf with phase := .body } }, ?_, hdone.withInf _, rfl, ?_, ?_⟩
  · rw [step_of_decoding h hlen (by rw [hctx]; exact hdec), hexec, distanceSymbol_of_inRange (s := advance _ t) hrange,
      advance_inf, hu]
    rfl
  · rw [happ.inf]; exact hstate
  · rw [happ.inf]; exact hfinal

/-- R341: a copy token. -/
theorem copy_decoded {n pos len d : Nat} {rest : List Bool} {out out' : List Byte} {t : State} {final : Bool}
    (h : Decoding n pos (tokenBits (.copy len d) ++ rest) out t) (hf : FixedBody final t)
    (hap : applyToken out (.copy len d) = some out') (hn : out'.length ≤ n) :
    ∃ u, Reaches t u ∧ Decoding n (pos + (tokenBits (.copy len d)).length) rest out' u ∧ FixedBody final u := by
  obtain ⟨h3, h258, h1, hmax, hd, rfl⟩ := applyToken_copy hap
  rw [copyBack_length] at hn
  have hi := lengthIndex_le len
  obtain ⟨-, x, hx, hlen⟩ := lengthIndex_inverse h3 h258
  obtain ⟨y, hy, hdist⟩ := distanceIndex_inverse h1 hmax
  have hj : distanceIndex d ≤ 29 := Nat.le_of_lt_succ (lastIndexLe_lt (by decide))
  have hxlen : len - lbase (lengthIndex len) = x := by rw [lengthValue, Nat.add_sub_cancel_left] at hlen; omega
  have hydist : d - dbase (distanceIndex d) = y := by rw [distanceValue] at hdist; omega
  rw [tokenBits, hxlen, hydist, matchBits_eq hi hj] at h ⊢
  generalize lengthIndex len = i at hi hx hlen h ⊢
  generalize distanceIndex d = j at hj hy hdist h ⊢
  rw [List.append_assoc] at h
  have hstep := length_decoded hi hx h hf
  have hmid : Decoding n _ (codeBits 5 j ++ fieldBits (dextra j) y ++ rest) out
      (lengthSymbol (257 + i) x (advance (lengthCode i ++ fieldBits (lextra i) x).length t)) := h.advanced.withInf _
  obtain ⟨u, hu, hdone, hbody⟩ := distance_decoded hj hy hmid rfl hf.state hf.final (hdist.trans_le hd)
    (by show _ + lengthValue (257 + i) x ≤ n; rwa [hlen])
  refine ⟨u, (Reaches.of_step h.busy hstep).trans (.of_step hmid.busy hu), ?_, hbody⟩
  have hmlen : (lengthSymbol (257 + i) x (advance (lengthCode i ++ fieldBits (lextra i) x).length t)).inf.mlen = len := hlen
  rwa [hmlen, hdist, Nat.add_assoc, ← List.length_append] at hdone

/-- R341: the tokens of a fixed block, one after the other. -/
theorem tokens_decoded {n : Nat} {rest : List Bool} {out' : List Byte} {final : Bool} (hn : out'.length ≤ n) :
    ∀ (ts : List Token) {pos : Nat} {out : List Byte} {t : State}, Decoding n pos (ts.flatMap tokenBits ++ rest) out t →
    FixedBody final t → expandTokens out ts = some out' →
    ∃ u, Reaches t u ∧ Decoding n (pos + (ts.flatMap tokenBits).length) rest out' u ∧ FixedBody final u := by
  intro ts
  induction ts with
  | nil => intro pos out t h hf hex; cases hex; exact ⟨t, .refl t, h, hf⟩
  | cons tok ts ih =>
    intro pos out t h hf hex
    rw [expandTokens, Option.bind_eq_some_iff] at hex
    obtain ⟨mid, hap, hex⟩ := hex
    rw [List.flatMap_cons, List.append_assoc] at h
    have hmid := length_le_of_expandTokens hex
    obtain ⟨u, hu, hnext, hbody⟩ : ∃ u, Reaches t u ∧
        Decoding n (pos + (tokenBits tok).length) (ts.flatMap tokenBits ++ rest) mid u ∧ FixedBody final u := by
      cases tok with
      | lit b =>
        cases hap
        rw [List.length_append, List.length_singleton] at hmid
        exact literal_decoded h hf (hmid.trans hn)
      | copy len d => exact copy_decoded h hf hap (hmid.trans hn)
    obtain ⟨v, hv, hdone, hbody⟩ := ih hnext hbody hex
    rw [Nat.add_assoc, ← List.length_append, ← List.flatMap_cons] at hdone
    exact ⟨v, hu.trans hv, hdone, hbody⟩

end Sys2Proof.Machine
end

section
/-! A decompress call on an output that the spec allows the Compressor (R356, R358): how a block leads to the next header, and how
the last one ends the call: the obligation O49. -/

namespace Sys2Proof.Machine

/-! ## Blocks -/

/-- R212, R213: the header of a block is read back. -/
theorem header_decoded {n pos : Nat} {rest : List Bool} {out : List Byte} {t : State} {final b0 b1 : Bool}
    (h : Decoding n pos ([final, b0, b1] ++ rest) out t) (hphase : t.inf.phase = .header) :
    step t = exec (headerInstr final b0 b1) (advance 3 t) :=
  step_of_decoding h (show 3 ≤ 32 by decide) (by rw [fetchCtx, hphase]; rfl)

/-- R217, R252: a fixed block, up to its end. -/
theorem fixedBlock_decoded {n pos : Nat} {rest : List Bool} {out out' : List Byte} {t : State} {final : Bool} {ts : List Token}
    (h : Decoding n pos (blockBits pos final (.fixed ts) ++ rest) out t) (hphase : t.inf.phase = .header)
    (hex : expandTokens out ts = some out') (hn : out'.length ≤ n) :
    ∃ v, Reaches t (blockOver v) ∧ Decoding n (pos + (blockBits pos final (.fixed ts)).length) rest out' v ∧
      v.inf.final = final := by
  rw [blockBits, List.append_assoc, List.append_assoc] at h
  have hstep : step t = .next (setFixedReady (enterBlock final 1 .fixedHuffman .body (advance 3 t))) := header_decoded h hphase
  have hadv := h.advanced
  have hentered : Decoding n (pos + 3) (ts.flatMap tokenBits ++ (codeBits 7 0 ++ rest)) out
      (setFixedReady (enterBlock final 1 .fixedHuffman .body (advance 3 t))) :=
    ⟨h.busy, h.noError, h.op, hadv.bit, hadv.pos, hadv.unread, h.out, h.max⟩
  obtain ⟨u, hu, hend, hbody⟩ := tokens_decoded (final := final) hn ts hentered ⟨rfl, rfl, rfl⟩ hex
  have heob : ∀ r, decode (.ll tableFLL) (codeBits 7 0 ++ r) = .ok .eob (codeBits 7 0).length := fun r =>
    encodeThenDecode _ _ _ r builtTable_fll rfl (encode_fll_of_symBits rfl (symBits_fll_short (by decide) (by decide))) nofun
  have hover := step_of_decoding hend (by decide) (by rw [hbody.ctx]; exact heob _)
  rw [exec_eob (s := advance _ u) hend.busy] at hover
  refine ⟨_, (Reaches.of_step h.busy hstep).trans (hu.trans (.of_step hend.busy hover)), ?_, hbody.final⟩
  have hdone : Decoding n _ rest out' (setSym 256 (advance (codeBits 7 0).length u)) := hend.advanced.withInf _
  rw [Nat.add_assoc, Nat.add_assoc] at hdone
  rw [blockBits, List.length_append, List.length_append, Nat.add_assoc]
  exact hdone

/-- R215: the length fields of a stored block are read back. -/
theorem storedLen_decoded {n pos len : Nat} {rest : List Bool} {out : List Byte} {t : State}
    (h : Decoding n pos (fieldBits 16 len ++ fieldBits 16 (0xFFFF - len) ++ rest) out t) (hphase : t.inf.phase = .storedLen) :
    step t = exec (.storedLen (BitVec.ofNat 16 len) (BitVec.ofNat 16 (0xFFFF - len))) (advance 32 t) := by
  have hfields : encode .storedLen (.storedLen (BitVec.ofNat 16 len) (BitVec.ofNat 16 (0xFFFF - len))) =
      some (fieldBits 16 len ++ fieldBits 16 (0xFFFF - len)) := by
    rw [encode, BitVec.toNat_ofNat, BitVec.toNat_ofNat, fieldBits_mod, fieldBits_mod]
  have hstep := step_of_decoding h (by rw [List.length_append, fieldBits_length, fieldBits_length])
    (by rw [fetchCtx, hphase]; exact decode_encode_storedLen _ hfields)
  rwa [List.length_append, fieldBits_length, fieldBits_length] at hstep

/-- R216: from a byte boundary on, unread bits that are whole bytes are the bytes at the cursor. -/
theorem inBytes_of_unread {n pos : Nat} {bytes : List Byte} {rest : List Bool} {out : List Byte} {t : State}
    (h : Decoding n pos (bytesToBits bytes ++ rest) out t) (hbit : t.rd.bit = 0) :
    inBytes t t.rd.byte bytes.length = bytes ∧ bytes.length ≤ t.rd.len - t.rd.byte := by
  obtain ⟨hle, hbits, -⟩ := unread_split h.unread
  rw [bytesToBits_length] at hle hbits
  rw [streamPos, hbit, Nat.add_zero, streamBits_of_boundary] at hbits
  rw [unreadBits] at hle
  exact ⟨bytesToBits_inj hbits, by omega⟩

/-- R216: the copy of a stored block. -/
theorem storedCopy_decoded {n pos : Nat} {bytes : List Byte} {rest : List Bool} {out : List Byte} {t : State}
    {nlen : BitVec 16} (hlen : bytes.length ≤ 65535) (hnlen : nlen = BitVec.ofNat 16 (0xFFFF - bytes.length))
    (h : Decoding n pos (bytesToBits bytes ++ rest) out t) (hbit : t.rd.bit = 0) (hn : out.length + bytes.length ≤ n) :
    ∃ v, exec (.storedLen (BitVec.ofNat 16 bytes.length) nlen) t = .next (blockOver v) ∧
      Decoding n (pos + 8 * bytes.length) rest (out ++ bytes) v ∧ v.inf.final = t.inf.final := by
  obtain ⟨hbytes, hthere⟩ := inBytes_of_unread h hbit
  have hvalue : (BitVec.ofNat 16 bytes.length).toNat = bytes.length := by
    rw [BitVec.toNat_ofNat, Nat.mod_eq_of_lt (by omega)]
  have hmatch : (BitVec.ofNat 16 bytes.length).toNat + nlen.toNat = 65535 := by
    rw [hvalue, hnlen, BitVec.toNat_ofNat, Nat.mod_eq_of_lt (by omega)]
    omega
  have hlatch : Decoding n pos _ out (latchLengths (BitVec.ofNat 16 bytes.length) nlen t) := h.withInf _
  obtain ⟨v, hv, happ, hrd⟩ := storedCopy_ok (latchLengths (BitVec.ofNat 16 bytes.length) nlen t) bytes.length hthere
    (hlatch.room hn)
  have hadv := hlatch.advanced
  rw [bytesToBits_length] at hadv
  have hcursor : v.rd = (advance (8 * bytes.length) (latchLengths (BitVec.ofNat 16 bytes.length) nlen t)).rd := by
    rw [hrd, advance_rd, streamPos]
    show (⟨t.rd.byte + bytes.length, t.rd.bit, t.rd.len⟩ : Reader) = ⟨_, _, t.rd.len⟩
    congr 1
    · show _ = (8 * t.rd.byte + t.rd.bit + 8 * bytes.length) / 8
      omega
    · show _ = (8 * t.rd.byte + t.rd.bit + 8 * bytes.length) % 8
      omega
  have hmoved : Appended (fun k => inByte t (t.rd.byte + k)) bytes.length
      (advance (8 * bytes.length) (latchLengths (BitVec.ofNat 16 bytes.length) nlen t)) v :=
    ⟨happ.touches, happ.outLen, happ.bytes, happ.frame, happ.cells⟩
  refine ⟨v, ?_, ?_, ?_⟩
  · rw [exec_storedLen_of_match hmatch, hvalue, hv, ← endBlock_eq_blockOver (by rw [happ.status]; exact h.busy)]
    rfl
  · have hdone := hadv.appended hmoved hcursor
    rwa [← inBytes, hbytes] at hdone
  · rw [happ.inf]
    rfl

/-- R215, R216: a stored block, up to its end. -/
theorem storedBlock_decoded {n pos : Nat} {rest : List Bool} {out bytes : List Byte} {t : State} {final : Bool}
    (h : Decoding n pos (blockBits pos final (.stored bytes) ++ rest) out t) (hphase : t.inf.phase = .header)
    (hlen : bytes.length ≤ 65535) (hn : (out ++ bytes).length ≤ n) :
    ∃ v, Reaches t (blockOver v) ∧ Decoding n (pos + (blockBits pos final (.stored bytes)).length) rest (out ++ bytes) v ∧
      v.inf.final = final := by
  rw [List.length_append] at hn
  rw [blockBits_stored] at h ⊢
  simp only [List.append_assoc _ _ rest] at h
  have hstep : step t = .next (rdAlign (enterBlock final 0 .stored .storedLen (advance 3 t))) := header_decoded h hphase
  have hentered : Decoding n (pos + 3) _ out (enterBlock final 0 .stored .storedLen (advance 3 t)) := h.advanced.withInf _
  have haligned := hentered.advanced
  have halign := rdAlign_eq_advance hentered.bit
  rw [hentered.pos] at halign
  rw [← halign] at haligned
  have hbit := rdAlign_bit (enterBlock final 0 .stored .storedLen (advance 3 t))
  have hinf := rdAlign_inf (enterBlock final 0 .stored .storedLen (advance 3 t))
  generalize rdAlign (enterBlock final 0 .stored .storedLen (advance 3 t)) = u at hstep haligned hbit hinf
  have hfields := storedLen_decoded haligned (by rw [hinf]; rfl)
  have hcopy := haligned.advanced
  rw [List.length_append, fieldBits_length, fieldBits_length] at hcopy
  have hboundary : (advance 32 u).rd.bit = 0 := by rw [advance_rd, streamPos, hbit]; show (8 * u.rd.byte + 0 + 32) % 8 = 0; omega
  obtain ⟨v, hv, hdone, hfinal⟩ := storedCopy_decoded hlen rfl hcopy hboundary hn
  refine ⟨v, (Reaches.of_step h.busy hstep).trans (.of_step haligned.busy (hfields.trans hv)), ?_, ?_⟩
  · simp only [List.length_append, fieldBits_length, bytesToBits_length, ← Nat.add_assoc]
    exact hdone
  · rw [hfinal, advance_inf, hinf]
    rfl

/-- R341, R356: what a block adds to the output. -/
def expandBlock (out : List Byte) : OutBlock → Option (List Byte)
  | .stored bytes => if bytes.length ≤ 65535 then some (out ++ bytes) else none
  | .fixed ts => expandTokens out ts

/-- R93, R94: a block, up to its end. -/
theorem block_decoded {n pos : Nat} {rest : List Bool} {out out' : List Byte} {t : State} {final : Bool} {b : OutBlock}
    (h : Decoding n pos (blockBits pos final b ++ rest) out t) (hphase : t.inf.phase = .header)
    (hex : expandBlock out b = some out') (hn : out'.length ≤ n) :
    ∃ v, Reaches t (blockOver v) ∧ Decoding n (pos + (blockBits pos final b).length) rest out' v ∧ v.inf.final = final := by
  cases b with
  | stored bytes =>
    rw [expandBlock] at hex
    split at hex
    · next hlen => cases hex; exact storedBlock_decoded h hphase hlen hn
    · cases hex
  | fixed ts => exact fixedBlock_decoded h hphase hex hn

/-- R356 (c): the first block carries a segment of the input, the others the rest. -/
theorem blocksCarry_cons {input : List Byte} {a : Nat} {b : OutBlock} {bs : List OutBlock} (ha : a ≤ input.length)
    (h : blocksCarry input a (b :: bs)) : ∃ a', a' ≤ input.length ∧ expandBlock (input.take a) b = some (input.take a') ∧
      blocksCarry input a' bs := by
  cases b with
  | stored bytes =>
    obtain ⟨hlen, hbytes, hrest⟩ := h
    have hend := congrArg List.length hbytes
    rw [List.length_take, List.length_drop] at hend
    refine ⟨a + bytes.length, by omega, ?_, hrest⟩
    rw [expandBlock, if_pos (show bytes.length ≤ 65535 from hlen), List.take_add, ← hbytes]
  | fixed ts =>
    obtain ⟨a', -, hend, hparse, hrest⟩ := h
    exact ⟨a', hend, hparse, hrest⟩

/-! ## The call -/

/-- R388: the call has ended with success, and its result is `out`. -/
structure DoneWith (out : List Byte) (t : State) : Prop where
  done : t.status.state = .done
  noError : t.status.errCause = none
  out : outBytes t = out

/-- R230, R388: after a final block the call has ended. -/
theorem doneWith_blockOver {n pos : Nat} {bits : List Bool} {out : List Byte} {v : State} (h : Decoding n pos bits out v)
    (hfinal : v.inf.final = true) : DoneWith out (blockOver v) := by
  rw [blockOver, if_pos hfinal]
  exact ⟨rfl, h.noError, h.out⟩

/-- R211, R230: after any other block another header follows. -/
theorem decoding_blockOver {n pos : Nat} {bits : List Bool} {out : List Byte} {v : State} (h : Decoding n pos bits out v)
    (hfinal : v.inf.final = false) : Decoding n pos bits out (blockOver v) ∧ (blockOver v).inf.phase = .header := by
  rw [blockOver, hfinal]
  exact ⟨h.withInf _, rfl⟩

/-- R90, R356: blocks back to back that carry the input from byte `a` on end the call with the input as its result. -/
theorem blocks_decoded {input : List Byte} {rest : List Bool} : ∀ (bs : List OutBlock) {a pos : Nat} {t : State}, bs ≠ [] →
    a ≤ input.length → blocksCarry input a bs → Decoding input.length pos (blocksBits pos bs ++ rest) (input.take a) t →
    t.inf.phase = .header → ∃ u, Reaches t u ∧ DoneWith input u := by
  intro bs
  induction bs with
  | nil => exact fun hne => absurd rfl hne
  | cons b bs ih =>
    intro a pos t _ ha hcarry h hphase
    obtain ⟨a', ha', hex, hrest⟩ := blocksCarry_cons ha hcarry
    rw [blocksBits, List.append_assoc] at h
    obtain ⟨v, hv, hnext, hfinal⟩ := block_decoded h hphase hex (by rw [List.length_take]; exact Nat.min_le_right _ _)
    cases bs with
    | nil =>
      have hall : a' = input.length := hrest
      rw [hall, List.take_length] at hnext
      exact ⟨_, hv, doneWith_blockOver hnext hfinal⟩
    | cons b' bs =>
      obtain ⟨hnext, hphase'⟩ := decoding_blockOver hnext hfinal
      obtain ⟨u, hu, hdone⟩ := ih (List.cons_ne_nil b' bs) ha' hrest hnext hphase'
      exact ⟨u, hv.trans hu, hdone⟩

/-- R210, R442: at the start of a decompress call the whole of `IN` is ahead and nothing is behind. -/
theorem decoding_startDecompress {n : Nat} (op : BitVec 4) {s : State} (hn : n ≤ s.outMax.toNat) :
    Decoding n 0 (bytesToBits (inBytes s 0 s.inLen.toNat)) [] (startDecompress op s) ∧
      (startDecompress op s).inf.phase = .header :=
  ⟨⟨rfl, rfl, ctrlOp_startCall false op s, Nat.zero_le 7, rfl, streamBits_of_boundary _ 0 _, rfl, hn⟩, rfl⟩

/-- Settles O49: by induction over the blocks of the allowed output (`blocks_decoded`), a fixed block by induction over its
tokens (`tokens_decoded`). -/
theorem allowedOutputsRoundTrip : Obligations.AllowedOutputsRoundTrip := by
  intro input output level op s u hallowed hlen hin hmax hexec
  obtain ⟨bs, hne, -, hcarry, houtput⟩ := hallowed
  have hu : u = startDecompress op s := by
    rw [exec, execDecompress] at hexec
    split at hexec
    · cases hexec
    · cases hexec; rfl
  obtain ⟨hstart, hphase⟩ := decoding_startDecompress op hmax
  rw [hlen, hin, houtput, bytesToBits_bitsToBytes] at hstart
  obtain ⟨t, ht, hdone, hnone, hout⟩ := blocks_decoded bs hne (Nat.zero_le _) hcarry hstart hphase
  obtain ⟨k, hk⟩ := ht.engineRun
  exact ⟨k, t, hu ▸ hk, hdone, hnone, by rw [← outBytes_length, hout], hout⟩

end Sys2Proof.Machine
end

section
/-! An element of the stream or a `CTRL` write cut short (R402): the obligation O5. -/

namespace Sys2Proof.Machine

/-- R91, R110, R119, R215, R220: the number of bits where the format is fixed; a Huffman symbol's depends on its code. -/
def fixedWidth : Ctx → Option Nat
  | .ctrl => some 8
  | .header => some 3
  | .storedLen => some 32
  | .dynCounts => some 14
  | .dynCll => some 3
  | .cl _ _ | .ll _ | .dist _ => none

theorem length_of_fixedWidth {c : Ctx} {w : Nat} (hw : fixedWidth c = some w) {i : Instr} {bits : List Bool}
    (he : encode c i = some bits) : bits.length = w := by
  cases c <;> cases hw
  all_goals simp only [encode] at he
  all_goals split at he <;> cases he
  all_goals simp only [List.length_append, fieldBits_length, List.length_cons, List.length_nil]

theorem decode_short_of_fixedWidth {c : Ctx} {w : Nat} (hw : fixedWidth c = some w) {bits : List Bool} (h : bits.length < w) :
    decode c bits = .short := by
  cases c <;> cases hw
  case ctrl =>
    simp only [decode]
    split
    · simp only [List.length_cons] at h; omega
    · rfl
  case header =>
    simp only [decode]
    split
    · simp only [List.length_cons] at h; omega
    · rfl
  case storedLen => exact if_pos h
  case dynCounts => exact if_pos h
  case dynCll => exact if_pos h

/-- Settles O5: by the number of bits where the format is fixed; a Huffman symbol is cut inside its code or inside its extra bits
(`parts_short`). -/
theorem truncatedElementIsShort : Obligations.TruncatedElementIsShort := by
  intro c i bits n hc he hn hrep
  cases hw : fixedWidth c with
  | some w =>
    have hlen := length_of_fixedWidth hw he
    refine decode_short_of_fixedWidth hw ?_
    rw [List.length_take]
    omega
  | none =>
    cases c with
    | cl T first =>
      refine parts_short hc he hn _ fun s ext code m hp hm => cl_short i s first ext code m hm hp ?_
      rintro x ⟨rfl, hx⟩
      exact hrep T x ⟨rfl, hx⟩
    | ll T => exact parts_short hc he hn _ fun s ext code m hp hm => ll_short i s ext code m hm hp
    | dist T => exact parts_short hc he hn _ fun s ext code m hp hm => dist_short i s ext code m hm hp
    | ctrl | header | storedLen | dynCounts | dynCll => cases hw

end Sys2Proof.Machine
end

section
/-! What is refused after `finish()` (R452), and what appends at `OUT_MAX` (R408): the obligations O19 and O41. -/

namespace Sys2Proof.Machine

/-- An instruction that begins with an operation that is refused is refused. -/
theorem exec_of_refuse {i : Instr} {r : Res Unit} {g : Unit → State → Res Ret} {s : State} {w : Refusal}
    (hi : exec i s = (r.bind g).toReturn) (hr : r = .refuse w) : exec i s = .refused w := by
  rw [hi, hr]
  rfl

/-- R151, R155: a finished writer refuses every field. -/
theorem writeBits_finished {s : State} (h : s.wr.finished = true) (value : Nat) {n : Nat} (h1 : 1 ≤ n) (h16 : n ≤ 16) :
    writeBits value n s = .refuse .writerFinished := by
  have hwidth : ¬ (n = 0 ∨ Config.rdMax < n) := by
    show ¬ (n = 0 ∨ 16 < n)
    omega
  rw [writeBits, if_neg hwidth, if_pos h]

/-- R153, R155: and every alignment. -/
theorem wrAlign_finished {s : State} (h : s.wr.finished = true) : wrAlign s = .refuse .writerFinished := if_pos h

/-- R353. -/
theorem emitLit_finished {s : State} (h : s.wr.finished = true) (b : Byte) : emitLit b s = .refuse .writerFinished := by
  unfold emitLit
  split <;> exact writeCode_finished h _ _

/-- R354: a match begins with the code of its length. -/
theorem emitMatch_finished {s : State} (h : s.wr.finished = true) (len dist : Nat) :
    emitMatch len dist s = .refuse .writerFinished := by
  have hcode : emitLengthCode (257 + (lengthFields len).1) s = .refuse .writerFinished := by
    unfold emitLengthCode
    split <;> exact writeCode_finished h _ _
  simp only [emitMatch, hcode, Res.bind_refuse]

/-- Settles O19: each begins with a field, a code or an alignment, which the finished writer refuses. -/
theorem writerDeadAfterFinish : Obligations.WriterDeadAfterFinish := by
  intro s h
  have hfinish : finish s = .refuse .writerFinished := by rw [finish, wrAlign_finished h, Res.bind_refuse]
  exact ⟨fun value n h1 h16 => exec_of_refuse rfl (writeBits_finished h value h1 h16),
    fun code len => exec_of_refuse rfl (writeCode_finished h code len),
    fun b => exec_of_refuse rfl (writeBits_finished h _ (by decide) (by decide)),
    exec_of_refuse rfl (wrAlign_finished h), by rw [exec, execFinish, hfinish]; rfl,
    fun b => exec_of_refuse rfl (emitLit_finished h b), fun len dist => exec_of_refuse rfl (emitMatch_finished h len dist),
    exec_of_refuse rfl (writeCode_finished h 0 7)⟩

/-- R251, R408: a literal at `OUT_MAX`. -/
theorem exec_literal_of_full {i : Instr} {b : Byte} (hi : i = .lit0To143 b ∨ i = .lit144To255 b) {s : State}
    (h : ¬ roomFor 1 s) : exec i s = .next (raiseError .outputOverflow (setSym b.toNat s)) := by
  rw [exec_literal hi, literal, appendByte_of_full (s := setSym b.toNat s) b h]
  rfl

/-- Settles O41: an append at `OUT_MAX` raises, and so does a copy at its first byte that does not fit (`matchCopy_overflow`). What
the abort keeps beyond R410 is the model's own (logs 4, 19 and 29). -/
theorem appendAtTheBoundOverflows : Obligations.AppendAtTheBoundOverflows := by
  refine fun s hb => ⟨fun hmax b => ?_, fun hle hrange hfull => ?_⟩
  · have hfull : ¬ roomFor 1 s := by
      rw [roomFor, hmax]
      omega
    exact ⟨⟨_, exec_literal_of_full (Or.inl rfl) hfull, abortedWith_of_engine hb _⟩,
      ⟨_, exec_literal_of_full (Or.inr rfl) hfull, abortedWith_of_engine hb _⟩,
      ⟨_, exec_outAppend_of_full b (by rw [hmax]), abortedWith_of_engine hb _⟩⟩
  · obtain ⟨t, b, k, ht, happ⟩ := matchCopy_overflow s hle s.inf.mlen hfull
    exact ⟨raiseError .outputOverflow t, by rw [exec, execMatchCopy, matchCopy_of_inRange hrange, ht]; rfl, happ.aborted hb _⟩

end Sys2Proof.Machine
end

section
/-! `STATUS` as the host reads it (R22, R401), the values after reset (R440) and after an abort (R410): the obligations O52, O53 and
O55. -/

namespace Sys2Proof.Machine

/-! ## The fields of `STATUS` -/

/-- R22, R401: the code of `ERR_CAUSE`. -/
def errCauseCode : Option Cause → Nat
  | some c => causeCode c
  | none => 0

/-- R22: the codes of the fields, and the latch, fit their widths. -/
theorem statusCodes_lt (st : Status) : callStateCode st.state < 4 ∧ errClassCode st.errClass < 4 ∧
    errCauseCode st.errCause < 16 ∧ st.fixedReady.toNat < 2 := by
  refine ⟨?_, ?_, ?_, st.fixedReady.toNat_lt⟩
  · cases st.state <;> decide
  · cases st.errClass <;> decide
  · cases st.errCause with
    | none => decide
    | some c => cases c <;> decide

/-- R22: the word is the sum of its fields at their places. -/
theorem statusWord_toNat (st : Status) : (statusWord st).toNat =
    callStateCode st.state + 4 * errClassCode st.errClass + 16 * errCauseCode st.errCause + 256 * st.fixedReady.toNat := by
  have := statusCodes_lt st
  exact Nat.mod_eq_of_lt (show callStateCode st.state + 4 * errClassCode st.errClass + 16 * errCauseCode st.errCause +
    256 * st.fixedReady.toNat < 2 ^ 16 by omega)

/-- A field of the word holds the code that stands at its place. -/
theorem extract_statusWord_eq {st : Status} {start len code : Nat}
    (h : (statusWord st).toNat / 2 ^ start % 2 ^ len = code % 2 ^ len) :
    (statusWord st).extractLsb' start len = BitVec.ofNat len code := by
  rw [← BitVec.toNat_inj, BitVec.extractLsb'_toNat, Nat.shiftRight_eq_div_pow, h, BitVec.toNat_ofNat]

theorem statusWord_state (st : Status) : (statusWord st).extractLsb' 0 2 = BitVec.ofNat 2 (callStateCode st.state) :=
  extract_statusWord_eq (by rw [statusWord_toNat]; omega)

theorem statusWord_errClass (st : Status) : (statusWord st).extractLsb' 2 2 = BitVec.ofNat 2 (errClassCode st.errClass) := by
  have := statusCodes_lt st
  exact extract_statusWord_eq (by rw [statusWord_toNat]; omega)

theorem statusWord_errCause (st : Status) : (statusWord st).extractLsb' 4 4 = BitVec.ofNat 4 (errCauseCode st.errCause) := by
  have := statusCodes_lt st
  exact extract_statusWord_eq (by rw [statusWord_toNat]; omega)

theorem statusWord_zeros (st : Status) : (statusWord st).extractLsb' 9 7 = BitVec.ofNat 7 0 := by
  have := statusCodes_lt st
  exact extract_statusWord_eq (by rw [statusWord_toNat]; omega)

theorem statusWord_fixedReady (st : Status) : (statusWord st).getLsbD 8 = st.fixedReady := by
  have := statusCodes_lt st
  have hbit : (statusWord st).toNat / 2 ^ 8 % 2 = st.fixedReady.toNat := by
    rw [statusWord_toNat]
    omega
  rw [BitVec.getLsbD, Nat.testBit_eq_decide_div_mod_eq, hbit]
  cases st.fixedReady <;> rfl

/-! ## Reset (R440) -/

/-- Settles O52: the reset state's fields as it is defined, `STATUS` field by field, and the other registers by whether a call runs.
That a read of `CTRL` gives 0, and `STATUS` and `OUT_LEN` are readable, while a call runs is the model's own deduction (log 24), and `LENW` its choice of R7's
default (log 7). -/
theorem resetValues : Obligations.ResetValues := by
  have hreset : step State.reset = .next State.reset :=
    (stepRunsDecodedInstruction State.reset .eob 0).2.2.2 nofun rfl
  refine ⟨rfl, rfl, rfl, rfl, rfl, rfl, rfl, rfl, rfl, rfl, rfl, rfl, rfl, rfl, rfl, rfl, rfl, rfl, rfl, rfl, rfl, rfl, rfl, rfl,
    rfl, rfl, hreset, fun s => ⟨rfl, ⟨statusWord s.status, rfl, ?_, ?_, ?_, statusWord_fixedReady _, statusWord_zeros _⟩, rfl,
    fun hb => ⟨if_neg hb, if_neg hb, fun a ha => ?_⟩, fun hb => ⟨if_pos hb, if_pos hb, fun a => if_pos (Or.inl hb)⟩⟩⟩
  · rw [statusWord_state]
    cases s.status.state <;> rfl
  · rw [statusWord_errClass]
    cases s.status.errClass <;> rfl
  · rw [statusWord_errCause]
    cases s.status.errCause with
    | none => rfl
    | some c => cases c <;> rfl
  · have hcell : ¬ 2 ^ Config.lenw - 1 ≤ a := by
      have := len_toNat_lt s.outLen
      show ¬ 2 ^ 32 - 1 ≤ a
      omega
    exact if_neg (not_or.mpr ⟨hb, hcell⟩)

/-- Settles O55: at rest, with empty memories, no error and every register 0. -/
theorem resetMeetsInvariant : Obligations.ResetMeetsInvariant :=
  inv_of_rest ⟨rfl, nofun, rfl⟩ ⟨nofun, rfl⟩ (by decide) nofun

/-! ## An abort (R410) -/

/-- Settles O53: the abort of R410, and the word that its `STATUS` reads as. -/
theorem abortReportsTheCause : Obligations.AbortReportsTheCause := by
  intro c s hb
  rw [raiseError_of_busy c s hb]
  refine ⟨rfl, rfl, ?_, rfl, rfl, rfl, rfl, rfl, ?_⟩
  · cases c <;> rfl
  · rw [readReg, statusWord_toNat]
    cases c <;> rfl

end Sys2Proof.Machine
end

section
/-! The host's commands and moves (R380 to R385, R442), and that a running call never stops (R455): the obligations O50, O51, O54 and
O57. -/

namespace Sys2Proof.Machine

/-- Settles O50. That the writer and the Compressor's registers (log 27) and the encoder arrays (log 29) stay is the model's own. -/
theorem decompressStartsFresh : Obligations.DecompressStartsFresh :=
  fun level s => ⟨fun hb => ⟨startDecompress level s, if_neg hb, rfl, rfl, rfl, rfl, rfl, rfl, rfl, rfl, rfl, rfl,
    ctrlOp_startCall false level s, rfl, rfl, rfl, rfl, rfl, rfl, rfl, rfl⟩, fun hb => if_pos hb⟩

/-- Settles O51. That the reader, the Decompressor's registers and the tables (log 27) and the encoder arrays (log 29) stay is the
model's own. -/
theorem compressStartsFresh : Obligations.CompressStartsFresh := by
  refine fun level s => ⟨fun hb hl => ⟨startCompress level s, ?_, rfl, rfl, rfl, rfl, ctrlOp_startCall true level s, rfl, rfl, rfl,
    rfl, rfl, rfl, rfl, rfl, rfl, rfl, rfl⟩, fun hb hl => ?_, fun hb => if_pos hb⟩
  · rw [exec, execCompress, if_neg hb, if_neg (Nat.not_lt.mpr hl)]
  · rw [exec, execCompress, if_neg hb, if_pos hl]

/-- R380, R440: at rest the host's oldest pending move is taken. -/
theorem nextAction_of_move {s : State} (hb : s.status.state ≠ .busy) {m : HostMove} {rest : List HostMove}
    (h : s.host = m :: rest) : nextAction s = hostMove m { s with host := rest } := by
  rw [nextAction, if_neg hb, h]

/-- Settles O54, move by move. The fault beyond the cells of `IN` and the list of pending moves are the model's own (log 4). -/
theorem hostMovesTakeEffect : Obligations.HostMovesTakeEffect := by
  intro s rest hb
  refine ⟨fun a b h ha => ?_, fun a b h ha => ?_, fun v h => ?_, fun v h => ?_, fun v h hstart => ?_,
    fun v h hstart hop hlevel => ?_⟩ <;> rw [step, nextAction_of_move hb h] <;> simp only [hostMove, if_neg hb]
  · obtain ⟨t, ht⟩ : ∃ t, t = { s with host := rest, inBuf := s.inBuf.write a b } := ⟨_, rfl⟩
    have hbuf : t.inBuf = s.inBuf.write a b := by rw [ht]
    refine ⟨_, t, ht, by rw [if_pos ha, ht], Memory.wf_write _ a b, ?_, fun a' hne => ?_⟩
    · rw [inByte, hbuf, Memory.read?_write_same]
      rfl
    · rw [inByte, hbuf, Memory.read?_write_other _ _ _ _ hne, inByte]
  · rw [if_neg (Nat.not_lt.mpr ha)]
  · rw [controlWritesDecode v, if_pos hstart]
  · rw [controlWritesDecode v, hstart, hop, if_neg (Nat.not_le.mpr hlevel)]
    rfl

/-- Settles O57: the Decompressor's step always answers (`inflateStep_next`), and the Compressor's ends its call (O48). -/
theorem runningCallNeverStops : Obligations.RunningCallNeverStops := by
  intro s hi hb
  cases hc : ctrlOp s with
  | false => exact inflateStep_next hi hb hc
  | true =>
    obtain ⟨t, ht, -⟩ := compressOnlyOverflows s hi hb hc
    exact ⟨t, ht⟩

end Sys2Proof.Machine
end
section
/-! The fetch of a running decompress call: the element it finds, or the error that ends the call (R402, R404, R407): the
obligation O9. -/

namespace Sys2Proof.Machine

/-- R211, R455: an element that was fetched is run, past its bits. -/
theorem step_of_fetched {s : State} {i : Instr} {used : Nat} (hb : s.status.state = .busy) (hc : ctrlOp s = false)
    (hd : decode (fetchCtx s) (nextBits fetchWidth s) = .ok i used) : step s = exec i (advance used s) :=
  (stepRunsDecodedInstruction s i used).1 hb hc hd

/-- R402, R404 (e), R407: the cause of what the decoder finds instead of an element. -/
def fetchError : DecodeResult → Option Cause
  | .short => some .unexpectedEnd
  | .noLeaf => some .invalidSymbol
  | .noPrevious => some .invalidHuffmanTable
  | _ => none

/-- R402, R404 (e), R407: an error found at the fetch is raised. -/
theorem step_of_fetchError {s : State} {c : Cause} (hb : s.status.state = .busy) (hc : ctrlOp s = false)
    (he : fetchError (decode (fetchCtx s) (nextBits fetchWidth s)) = some c) : step s = .next (raiseError c s) := by
  rw [step, nextAction, if_pos hb, hc, if_neg Bool.false_ne_true, fetchStream]
  cases hd : decode (fetchCtx s) (nextBits fetchWidth s) <;> rw [hd] at he <;> cases he <;> rfl

/-- Settles O9: each of the three is raised in the state the fetch began in. That the abort keeps `CTRL` (log 19), the encoder
arrays (log 29) and the host's moves (log 4) is the model's own. -/
theorem fetchErrorsEndTheCall : Obligations.FetchErrorsEndTheCall := by
  intro s hb hc
  have hends : ∀ {d c}, decode (fetchCtx s) (nextBits 32 s) = d → fetchError d = some c →
      ∃ t, step s = .next t ∧ abortedWith c s t := by
    rintro _ c rfl he
    exact ⟨_, step_of_fetchError hb hc he, abortedWith_of_engine hb c⟩
  exact ⟨fun hd => hends hd rfl, fun hd => hends hd rfl, fun hd => hends hd rfl⟩

end Sys2Proof.Machine
end

section
/-! Two decompress calls on the same input (R386): what they agree on between two elements of the stream (`Twins`, and `SamePlace`
for the registers and tables that the engine's place reads), and that a step keeps it: the obligation O59. -/

namespace Sys2Proof.Machine

/-! ## What two calls agree on -/

/-- R386: what is compared of two calls: `STATE`, the error fields, `OUT_LEN` and the bytes of the output. -/
structure SameAnswer (s t : State) : Prop where
  state : s.status.state = t.status.state
  errCause : s.status.errCause = t.status.errCause
  errClass : s.status.errClass = t.status.errClass
  outLen : s.outLen = t.outLen
  output : outBytes s = outBytes t

/-- Two decompress calls on the same input, at the same element of the stream with the same output so far. -/
structure Twins (s t : State) : Prop extends SameAnswer s t where
  busy : s.status.state = .busy
  inflates : ctrlOp s = false
  inflates' : ctrlOp t = false
  rd : s.rd = t.rd
  input : ∀ a, a < s.rd.len → inByte s a = inByte t a
  outMax : s.outMax = t.outMax
  final : s.inf.final = t.inf.final
  block : s.inf.state = t.inf.state
  phase : s.inf.phase = t.inf.phase

/-- R219, R220: the fields of a dynamic header read so far. -/
structure SameHeader (f g : Inflate) : Prop where
  hlit : f.hlit = g.hlit
  hdist : f.hdist = g.hdist
  hclen : f.hclen = g.hclen
  cll : f.cll = g.cll
  k : f.k = g.k

/-- R222: the code lengths of a dynamic block read so far; the entries of `INF.L` from `INF.i` on may differ. -/
structure SameLengths (f g : Inflate) : Prop where
  hlit : f.hlit = g.hlit
  hdist : f.hdist = g.hdist
  i : f.i = g.i
  lengths : ∀ (j : Nat) (hj : j < 320), j < f.i → f.L[j] = g.L[j]

/-- R217, R224: the tables of a block's body, which are valid. -/
structure SameTables (s t : State) : Prop where
  ll : currentLL s = currentLL t
  d : currentD s = currentD t
  llValid : (currentLL s).valid = true
  dValid : (currentD s).valid = true

/-- R211 to R229: what the engine reads at a place in a block; the registers and tables that it does not read there may differ. -/
def SamePlace (p : Phase) (s t : State) : Prop :=
  match p with
  | .header | .storedLen | .dynCounts => True
  | .dynCll => SameHeader s.inf t.inf
  | .codeLengths => SameLengths s.inf t.inf ∧ s.tCL = t.tCL ∧ s.tCL.valid = true
  | .body => SameTables s t
  | .distance => SameTables s t ∧ s.inf.mlen = t.inf.mlen

/-- Two calls that have ended alike. -/
def EndedAlike (s t : State) : Prop := SameAnswer s t ∧ s.status.state ≠ .busy

/-- Two calls that have come equally far. -/
def Together (s t : State) : Prop := (Twins s t ∧ SamePlace s.inf.phase s t) ∨ EndedAlike s t

theorem Together.answer {s t : State} (h : Together s t) : SameAnswer s t := by
  obtain ⟨h, -⟩ | ⟨h, -⟩ := h
  · exact h.toSameAnswer
  · exact h

/-- R410: an error ends two calls alike. -/
theorem Twins.raised {s t : State} (h : Twins s t) (c : Cause) : EndedAlike (raiseError c s) (raiseError c t) := by
  rw [raiseError_of_busy c s h.busy, raiseError_of_busy c t (h.state.symm.trans h.busy)]
  exact ⟨⟨rfl, rfl, rfl, rfl, rfl⟩, nofun⟩

/-! ## Operations of two calls -/

/-- Two runs of an operation complete with states of which `Q` holds, or raise the same cause. -/
inductive Res.Same (Q : State → State → Prop) : Res Unit → Res Unit → Prop
  | ok {s t : State} (h : Q s t) : Res.Same Q (.ok () s) (.ok () t)
  | raise {s t : State} (c : Cause) (h : Twins s t) : Res.Same Q (.raise c s) (.raise c t)

theorem Res.Same.bind {Q Q' : State → State → Prop} {r r' : Res Unit} {f g : Unit → State → Res Unit} (h : Res.Same Q r r')
    (hf : ∀ s t, Q s t → Res.Same Q' (f () s) (g () t)) : Res.Same Q' (r.bind f) (r'.bind g) := by
  cases h with
  | ok h => exact hf _ _ h
  | raise c h => exact .raise c h

theorem Res.Same.each {α : Type} {Q : State → State → Prop} {f : α → State → Res Unit}
    (hf : ∀ a s t, Q s t → Res.Same Q (f a s) (f a t)) : ∀ (l : List α) (s t : State), Q s t →
      Res.Same Q (Res.each f l s) (Res.each f l t)
  | [], _, _, h => .ok h
  | a :: l, s, t, h => (hf a s t h).bind fun _ _ hu => Res.Same.each hf l _ _ hu

theorem Res.Same.toNext {r r' : Res Unit} (h : Res.Same Together r r') :
    ∃ u v, r.toNext = .next u ∧ r'.toNext = .next v ∧ Together u v := by
  cases h with
  | ok h => exact ⟨_, _, rfl, rfl, h⟩
  | raise c h => exact ⟨_, _, rfl, rfl, Or.inr (h.raised c)⟩

/-- New registers of the Decompressor, in the same block at the same place. -/
theorem Twins.withInf {s t : State} (h : Twins s t) (f g : Inflate) (hfinal : f.final = g.final) (hblock : f.state = g.state)
    (hphase : f.phase = g.phase) : Twins { s with inf := f } { t with inf := g } :=
  { h with final := hfinal, block := hblock, phase := hphase }

/-- The cursor moves within the same input. -/
theorem Twins.withRd {s t : State} (h : Twins s t) (r : Reader) (hl : r.len = s.rd.len) :
    Twins { s with rd := r } { t with rd := r } :=
  { h with
    rd := rfl
    input := fun a ha => h.input a (hl ▸ ha) }

theorem Twins.advance {s t : State} (h : Twins s t) (n : Nat) : Twins (advance n s) (advance n t) := by
  unfold Machine.advance streamPos
  rw [← h.rd]
  exact h.withRd _ rfl

/-- R133. -/
theorem Twins.aligned {s t : State} (h : Twins s t) : Twins (rdAlign s) (rdAlign t) := by
  unfold rdAlign
  rw [← h.rd]
  split
  · exact h.withRd _ rfl
  · exact h

/-- R38: the latch of the static tables is no part of the answer. -/
theorem Twins.setFixedReady {s t : State} (h : Twins s t) : Twins (setFixedReady s) (setFixedReady t) := { h with }

theorem Twins.withTable {s t : State} (h : Twins s t) (k : BlockTable) (T T' : HuffTable) :
    Twins (setTable k T s) (setTable k T' t) := by
  cases k <;> exact { h with }

/-- R8, R130: two fetches see the same bits. -/
theorem Twins.nextBits_eq {s t : State} (h : Twins s t) (n : Nat) : nextBits n s = nextBits n t := by
  have hunread : unreadBits s = unreadBits t := by rw [unreadBits, unreadBits, h.rd]
  have hpos : streamPos s = streamPos t := by rw [streamPos, streamPos, h.rd]
  refine List.ext_getElem? fun k => ?_
  rw [getElem?_nextBits, getElem?_nextBits, ← hunread, ← hpos]
  split
  · next hk =>
    have hk : k < unreadBits s := hk.2
    have hin : (streamPos s + k) / 8 < s.rd.len := by
      unfold unreadBits at hk
      unfold streamPos
      omega
    rw [streamBit, h.input _ hin, streamBit]
  · rfl

/-- A byte of the output so far. -/
theorem Twins.outByte_eq {s t : State} (h : Twins s t) {a : Nat} (ha : a < s.outLen.toNat) : outByte s a = outByte t a := by
  rw [← getD_outBytes ha, h.output, getD_outBytes (h.outLen ▸ ha)]

/-- R66: two appends of a byte. -/
theorem Twins.appendByte_same {s t : State} {Q : State → State → Prop} (h : Twins s t) (b : Byte)
    (hQ : ∀ m m' len, len.toNat = s.outLen.toNat + 1 →
      Twins { s with outBuf := m, outLen := len } { t with outBuf := m', outLen := len } →
      Q { s with outBuf := m, outLen := len } { t with outBuf := m', outLen := len }) :
    Res.Same Q (appendByte b s) (appendByte b t) := by
  have hiff : roomFor 1 s ↔ roomFor 1 t := by rw [roomFor, roomFor, h.outLen, h.outMax]
  by_cases hroom : roomFor 1 s
  · have hroom' := hiff.mp hroom
    obtain ⟨u, hu, happ, hrd⟩ := appendByte_of_room b hroom
    obtain ⟨v, hv, happ', hrd'⟩ := appendByte_of_room b hroom'
    obtain ⟨m, rfl⟩ := happ.exists_outBuf hrd hroom
    obtain ⟨m', rfl⟩ := happ'.exists_outBuf hrd' hroom'
    have houtput := happ.outBytes.trans ((congrArg (· ++ _) h.output).trans happ'.outBytes.symm)
    rw [hu, hv]
    rw [← h.outLen] at houtput ⊢
    exact .ok (hQ m m' _ happ.outLen { h with outLen := rfl, output := houtput })
  · rw [appendByte_of_full b hroom, appendByte_of_full b (mt hiff.mpr hroom)]
    exact .raise _ h

/-- R171: two builds of a table from the same lengths. -/
theorem Twins.buildInto_same {s t : State} {Q : State → State → Prop} (h : Twins s t) (k : BlockTable) {lens lens' : List Nat}
    (hlens : lens = lens') (required : List Nat)
    (hQ : ∀ T, builtTable T → Twins (setTable k T s) (setTable k T t) → Q (setTable k T s) (setTable k T t)) :
    Res.Same Q (buildInto k lens required s) (buildInto k lens' required t) := by
  rw [← hlens]
  cases hT : buildTable lens required with
  | some T =>
    rw [buildInto_of_some hT, buildInto_of_some hT]
    exact .ok (hQ T (builtTable_of_buildTable hT).1 (h.withTable k T T))
  | none =>
    rw [buildInto_of_none hT, buildInto_of_none hT]
    exact .raise _ (h.withTable k _ _)

/-! ## Instructions of two calls -/

/-- Instruction `i` takes two calls equally far. -/
def RunsAlike (i : Instr) (s t : State) : Prop :=
  ∃ r r' : Res Unit, exec i s = r.toNext ∧ exec i t = r'.toNext ∧ Res.Same Together r r'

/-- An instruction that latches something and raises. -/
theorem Twins.raises {s t : State} {i : Instr} {c : Cause} (h : Twins s t) (latch : Inflate → Inflate)
    (hi : ∀ s, exec i s = .next (raiseError c { s with inf := latch s.inf }))
    (hfinal : (latch s.inf).final = (latch t.inf).final) (hblock : (latch s.inf).state = (latch t.inf).state)
    (hphase : (latch s.inf).phase = (latch t.inf).phase) : RunsAlike i s t :=
  ⟨.raise c _, .raise c _, hi s, hi t, .raise c (h.withInf _ _ hfinal hblock hphase)⟩

/-- R211, R230, R388: the end of a block. -/
theorem Twins.endBlock {s t : State} (h : Twins s t) : Together (endBlock s) (endBlock t) := by
  unfold Machine.endBlock
  rw [← h.final]
  split
  · refine Or.inr ?_
    have hbusy : t.status.state = .busy := h.state.symm.trans h.busy
    rw [completeCall, if_pos h.busy, completeCall, if_pos hbusy]
    exact ⟨⟨rfl, h.errCause, h.errClass, h.outLen, h.output⟩, nofun⟩
  · exact Or.inl ⟨h.withInf _ _ h.final rfl rfl, trivial⟩

/-- R212 to R218. -/
theorem Twins.header {s t : State} (h : Twins s t) (f b0 b1 : Bool) : RunsAlike (headerInstr f b0 b1) s t := by
  have henter := fun btype state phase => h.withInf { s.inf with final := f, btype := btype, state := state, phase := phase }
    { t.inf with final := f, btype := btype, state := state, phase := phase } rfl rfl rfl
  cases b1 <;> cases b0
  case false.false =>
    refine ⟨.ok () _, .ok () _, rfl, rfl, .ok (Or.inl ⟨(henter 0 .stored .storedLen).aligned, ?_⟩)⟩
    rw [rdAlign_inf]
    trivial
  case false.true =>
    exact ⟨.ok () _, .ok () _, rfl, rfl, .ok (Or.inl ⟨(henter 1 .fixedHuffman .body).setFixedReady,
      ⟨rfl, rfl, builtTable_fll.valid, builtTable_fd.valid⟩⟩)⟩
  case true.false => exact ⟨.ok () _, .ok () _, rfl, rfl, .ok (Or.inl ⟨henter 2 .dynamicHuffman .dynCounts, trivial⟩)⟩
  case true.true => exact h.raises (fun g => { g with final := f, btype := 3 }) (fun _ => rfl) rfl h.block h.phase

/-- R216: one byte of a stored copy. -/
theorem Twins.copyStoredByte {s t : State} (h : Twins s t) : Res.Same Twins (copyStoredByte s) (copyStoredByte t) := by
  unfold Machine.copyStoredByte readByte
  rw [← h.rd]
  split
  · exact .raise _ h
  · next hlt =>
    rw [Res.bind_ok, Res.bind_ok, h.input _ (Nat.lt_of_not_le hlt)]
    exact (h.withRd { s.rd with byte := s.rd.byte + 1 } rfl).appendByte_same _ fun _ _ _ _ hu => hu

/-- R215, R216. -/
theorem Twins.storedLen {s t : State} (h : Twins s t) (len nlen : BitVec 16) : RunsAlike (.storedLen len nlen) s t := by
  have hlatch : Twins (latchLengths len nlen s) (latchLengths len nlen t) := h.withInf _ _ h.final h.block h.phase
  refine ⟨storedBlock len nlen s, storedBlock len nlen t, rfl, rfl, ?_⟩
  unfold storedBlock
  simp only
  split
  · exact .raise _ hlatch
  · exact (Res.Same.each (fun _ _ _ hu => hu.copyStoredByte) _ _ _ hlatch).bind fun _ _ hu => .ok hu.endBlock

/-- R219. -/
theorem Twins.dynCounts {s t : State} (h : Twins s t) (hlit hdist : BitVec 5)
    (hclen : BitVec 4) : RunsAlike (.dynCounts hlit hdist hclen) s t :=
  ⟨.ok () _, .ok () _, rfl, rfl, .ok (Or.inl ⟨h.withInf _ _ h.final h.block rfl, ⟨rfl, rfl, rfl, rfl, rfl⟩⟩)⟩

/-- R220: the length of one code-length symbol is set. -/
theorem SameHeader.storeCll {s t : State} (h : SameHeader s.inf t.inf) (v : BitVec 3) :
    SameHeader (storeCll v s).inf (storeCll v t).inf :=
  { h with
    cll := by simp only [Machine.storeCll, h.cll, h.k]
    k := congrArg (· + 1) h.k }

/-- R220, R221. -/
theorem Twins.dynCll {s t : State} (h : Twins s t) (hp : s.inf.phase = .dynCll) (hh : SameHeader s.inf t.inf)
    (v : BitVec 3) : RunsAlike (.dynCll v) s t := by
  have hu : Twins (storeCll v s) (storeCll v t) := h.withInf _ _ h.final h.block h.phase
  have hnext := hh.storeCll v
  have hncode : (storeCll v s).inf.ncode = (storeCll v t).inf.ncode := by rw [Inflate.ncode, hnext.hclen, Inflate.ncode]
  have hlens : (storeCll v s).inf.clLens = (storeCll v t).inf.clLens := by rw [Inflate.clLens, hnext.cll, Inflate.clLens]
  unfold RunsAlike exec execDynCll
  simp only
  rw [← hnext.k, ← hncode]
  split
  · refine ⟨.ok () _, .ok () _, rfl, rfl, .ok (Or.inl ⟨hu, ?_⟩)⟩
    rw [show (storeCll v s).inf.phase = .dynCll from hp]
    exact hnext
  · refine ⟨_, _, rfl, rfl, (hu.buildInto_same (Q := fun x y => ∃ T, builtTable T ∧ x = setTable .cl T (storeCll v s) ∧
      y = setTable .cl T (storeCll v t) ∧ Twins x y) .cl hlens [] fun T hT hw => ⟨T, hT, rfl, rfl, hw⟩).bind ?_⟩
    rintro _ _ ⟨T, hT, rfl, rfl, hw⟩
    exact .ok (Or.inl ⟨hw.withInf _ _ hw.final hw.block rfl, ⟨hh.hlit, hh.hdist, rfl, nofun⟩, rfl, hT.valid⟩)

/-! ## The code length sequence -/

theorem SameLengths.total {f g : Inflate} (h : SameLengths f g) : f.total = g.total := by
  rw [Inflate.total, Inflate.nlen, Inflate.ndist, h.hlit, h.hdist]
  rfl

/-- R226: the previous length. -/
theorem SameLengths.previous {f g : Inflate} (h : SameLengths f g) (hi : f.i ≠ 0) :
    f.L.toList.getD (f.i - 1) 0 = g.L.toList.getD (f.i - 1) 0 := by
  by_cases hj : f.i - 1 < 320
  · have := h.lengths _ hj (by omega)
    simpa [List.getD_eq_getElem?_getD, hj] using this
  · simp [List.getD_eq_getElem?_getD, hj]

/-- The entries read so far. -/
theorem SameLengths.take {f g : Inflate} (h : SameLengths f g) {n : Nat} (hn : n ≤ f.i) :
    f.L.toList.take n = g.L.toList.take n := by
  refine List.ext_getElem (by simp) fun j h1 h2 => ?_
  rw [List.length_take, Vector.length_toList] at h1
  simpa using h.lengths j (by omega) (by omega)

/-- R224: the lengths of both tables, at the end of the sequence. -/
theorem SameLengths.lens {f g : Inflate} (h : SameLengths f g) (hend : f.total ≤ f.i) :
    f.llLens = g.llLens ∧ f.dLens = g.dLens := by
  have hlit : f.nlen = g.nlen := by rw [Inflate.nlen, h.hlit, Inflate.nlen]
  have hdist : f.ndist = g.ndist := by rw [Inflate.ndist, h.hdist, Inflate.ndist]
  have hle : f.nlen ≤ f.total := Nat.le_add_right _ _
  constructor
  · rw [Inflate.llLens, h.take (hle.trans hend), hlit, Inflate.llLens]
  · have htake : f.L.toList.take (f.nlen + f.ndist) = g.L.toList.take (f.nlen + f.ndist) := h.take hend
    rw [Inflate.dLens, Inflate.dLens, ← hlit, ← hdist, List.take_drop, List.take_drop, htake]

/-- R217, R224: in a block with tables of its own these are what its body reads. -/
theorem SameTables.of_valid {s t : State} (hblock : s.inf.state = t.inf.state) (hll : s.tLL = t.tLL) (hd : s.tD = t.tD)
    (hllv : s.tLL.valid = true) (hdv : s.tD.valid = true) : SameTables s t := by
  have hvalid : (currentLL s).valid = true ∧ (currentD s).valid = true := by
    unfold currentLL currentD
    split
    · exact ⟨builtTable_fll.valid, builtTable_fd.valid⟩
    · exact ⟨hllv, hdv⟩
  exact ⟨by rw [currentLL, hblock, hll, currentLL], by rw [currentD, hblock, hd, currentD], hvalid.1, hvalid.2⟩

/-- Within the code length sequence of a dynamic block (R222). -/
structure InLengths (s t : State) : Prop extends Twins s t where
  here : s.inf.phase = .codeLengths
  tCL : s.tCL = t.tCL
  valid : s.tCL.valid = true

/-- R222, R224: the exit test of the sequence. -/
theorem InLengths.afterLengths {s t : State} (h : InLengths s t) (hl : SameLengths s.inf t.inf) :
    Res.Same Together (afterLengths s) (afterLengths t) := by
  unfold Machine.afterLengths
  rw [← hl.total, ← hl.i]
  split
  · refine .ok (Or.inl ⟨h.toTwins, ?_⟩)
    rw [h.here]
    exact ⟨hl, h.tCL, h.valid⟩
  · next hend =>
    obtain ⟨hlls, hds⟩ := hl.lens (Nat.le_of_not_lt hend)
    refine (h.toTwins.buildInto_same (Q := fun x y => Twins x y ∧ x.tLL = y.tLL ∧ x.tLL.valid = true ∧ x.inf.dLens = y.inf.dLens)
      .ll hlls [256] fun T hT hw => ⟨hw, rfl, hT.valid, hds⟩).bind ?_
    rintro x y ⟨hw, hll, hllv, hds⟩
    refine (hw.buildInto_same (Q := fun x y => Twins x y ∧ SameTables x y) .d hds [] fun T hT hx =>
      ⟨hx, .of_valid hx.block hll rfl hllv hT.valid⟩).bind ?_
    rintro x y ⟨hx, htables⟩
    exact .ok (Or.inl ⟨hx.withInf _ _ hx.final hx.block rfl, htables.ll, htables.d, htables.llValid, htables.dValid⟩)

/-- R225 to R228: lengths stored. -/
theorem InLengths.afterPush {s t : State} (h : InLengths s t) (hl : SameLengths s.inf t.inf) (v : BitVec 4) (rep : Nat) :
    Res.Same Together (Machine.afterLengths (pushLengths v rep s)) (Machine.afterLengths (pushLengths v rep t)) := by
  obtain ⟨L, hL, hs⟩ := pushLengths_filled v rep s
  obtain ⟨L', hL', ht⟩ := pushLengths_filled v rep t
  have hu : InLengths (storedLengths L rep s) (storedLengths L' rep t) :=
    { h.toTwins.withInf _ _ h.final h.block h.phase with here := h.here, tCL := h.tCL, valid := h.valid }
  rw [hs, ht]
  refine hu.afterLengths { hlit := hl.hlit, hdist := hl.hdist, i := congrArg (· + rep) hl.i, lengths := fun j hj hlt => ?_ }
  show L[j] = L'[j]
  have hlt : j < s.inf.i + rep := hlt
  rw [hL j hj, hL' j hj, ← hl.i]
  split
  · rfl
  · next hout => exact hl.lengths j hj (by omega)

/-- R223. -/
theorem InLengths.repeatLength {s t : State} (h : InLengths s t) (hl : SameLengths s.inf t.inf) (v : BitVec 4) (rep : Nat) :
    Res.Same Together (repeatLength v rep s) (repeatLength v rep t) := by
  unfold Machine.repeatLength
  rw [← hl.total, ← hl.i]
  split
  · exact .raise _ h.toTwins
  · exact h.afterPush hl v rep

/-- R226. -/
theorem InLengths.clRep16 {s t : State} (h : InLengths s t) (hl : SameLengths s.inf t.inf) (x : BitVec 2) :
    RunsAlike (.clRep16 x) s t := by
  refine ⟨_, _, rfl, rfl, ?_⟩
  rw [← hl.i]
  split
  · exact .raise _ h.toTwins
  · next hi =>
    rw [← hl.previous hi]
    exact h.repeatLength hl _ _

/-- R225 to R228: any code-length symbol. -/
theorem InLengths.clInstr {s t : State} (h : InLengths s t) (hl : SameLengths s.inf t.inf) {first : Bool} {sym n used : Nat}
    {bits : List Bool} {i : Instr} (hn : n ≤ bits.length) (hd : clInstr first sym bits n = .ok i used) : RunsAlike i s t := by
  obtain ⟨-, -, ⟨v, rfl⟩ | ⟨x, rfl⟩ | ⟨x, rfl⟩ | ⟨x, rfl⟩⟩ := clInstr_cases hn hd
  · exact ⟨Machine.afterLengths (pushLengths v 1 s), Machine.afterLengths (pushLengths v 1 t), rfl, rfl, h.afterPush hl v 1⟩
  · exact h.clRep16 hl x
  · exact ⟨_, _, rfl, rfl, h.repeatLength hl 0 _⟩
  · exact ⟨_, _, rfl, rfl, h.repeatLength hl 0 _⟩

/-! ## Symbols -/

/-- R251. -/
theorem Twins.literal {s t : State} (h : Twins s t) (hp : s.inf.phase = .body) (hb : SameTables s t) (b : Byte) :
    Res.Same Together (literal b s) (literal b t) := by
  have hsym : Twins (setSym b.toNat s) (setSym b.toNat t) := h.withInf _ _ h.final h.block h.phase
  refine hsym.appendByte_same b fun m m' len _ hu => Or.inl ⟨hu, ?_⟩
  rw [show (setSym b.toNat s).inf.phase = .body from hp]
  exact ⟨hb.ll, hb.d, hb.llValid, hb.dValid⟩

/-- R251 to R253, R257: any literal/length symbol. -/
theorem Twins.llInstr {s t : State} (h : Twins s t) (hp : s.inf.phase = .body) (hb : SameTables s t) {sym n used : Nat}
    {bits : List Bool} {i : Instr} (hn : n ≤ bits.length) (hd : llInstr sym bits n = .ok i used) : RunsAlike i s t := by
  obtain ⟨-, -, ⟨b, hlit⟩ | rfl | ⟨sym, x, -, -, -, -, hlen⟩ | rfl | rfl⟩ := llInstr_cases hn hd
  · exact ⟨_, _, hlit s, hlit t, h.literal hp hb b⟩
  · exact ⟨.ok () _, .ok () _, rfl, rfl, .ok (h.withInf { s.inf with sym := 256 } { t.inf with sym := 256 } h.final
      h.block h.phase).endBlock⟩
  · exact ⟨.ok () _, .ok () _, hlen s, hlen t, .ok (Or.inl ⟨h.withInf _ _ h.final h.block rfl,
      ⟨hb.ll, hb.d, hb.llValid, hb.dValid⟩, rfl⟩)⟩
  · exact h.raises (fun g => { g with sym := 286 }) (fun _ => rfl) h.final h.block h.phase
  · exact h.raises (fun g => { g with sym := 287 }) (fun _ => rfl) h.final h.block h.phase

/-- R256: during the copy of a match, whose distance is in range. -/
structure Copying (s t : State) : Prop extends Twins s t where
  tables : SameTables s t
  mdist : s.inf.mdist = t.inf.mdist
  pos : 1 ≤ s.inf.mdist
  range : s.inf.mdist ≤ s.outLen.toNat

/-- R256: one byte of the copy is read from the output so far. -/
theorem Copying.copyMatchByte {s t : State} (h : Copying s t) : Res.Same Copying (copyMatchByte s) (copyMatchByte t) := by
  have hpos := h.pos
  have hrange := h.range
  unfold Machine.copyMatchByte
  rw [← h.outLen, ← h.mdist, ← h.outByte_eq (by omega)]
  refine h.toTwins.appendByte_same _ fun m m' len hlen hu => { hu with
    tables := ⟨h.tables.ll, h.tables.d, h.tables.llValid, h.tables.dValid⟩
    mdist := h.mdist
    pos := hpos
    range := ?_ }
  show s.inf.mdist ≤ len.toNat
  omega

/-- R254 to R256. -/
theorem Twins.distanceSymbol {s t : State} (h : Twins s t) (hb : SameTables s t) (hm : s.inf.mlen = t.inf.mlen) {j : Nat}
    (hj : j < 30) (y : Nat) : Res.Same Together (distanceSymbol j y s) (distanceSymbol j y t) := by
  have hlatch : Twins (latchDistance j y s) (latchDistance j y t) := h.withInf _ _ h.final h.block h.phase
  by_cases hfar : s.outLen.toNat < distanceValue j y
  · rw [distanceSymbol_of_far hfar, distanceSymbol_of_far (h.outLen ▸ hfar)]
    exact .raise _ hlatch
  · have hrange : distanceValue j y ≤ s.outLen.toNat := Nat.le_of_not_lt hfar
    rw [distanceSymbol_of_inRange hrange, distanceSymbol_of_inRange (h.outLen ▸ hrange), ← hm]
    have hcopy : Copying (latchDistance j y s) (latchDistance j y t) := { hlatch with
      tables := ⟨hb.ll, hb.d, hb.llValid, hb.dValid⟩, mdist := rfl, pos := distanceValue_pos hj y, range := hrange }
    refine (Res.Same.each (fun _ _ _ hu => hu.copyMatchByte) _ _ _ hcopy).bind fun u v hu => ?_
    exact .ok (Or.inl ⟨hu.toTwins.withInf _ _ hu.final hu.block rfl, hu.tables.ll, hu.tables.d, hu.tables.llValid,
      hu.tables.dValid⟩)

/-- R254, R258: any distance symbol. -/
theorem Twins.distInstr {s t : State} (h : Twins s t) (hb : SameTables s t) (hm : s.inf.mlen = t.inf.mlen) {sym n used : Nat}
    {bits : List Bool} {i : Instr} (hn : n ≤ bits.length) (hd : distInstr sym bits n = .ok i used) : RunsAlike i s t := by
  obtain ⟨-, -, ⟨j, y, hj, -, hdist⟩ | rfl | rfl⟩ := distInstr_cases hn hd
  · exact ⟨_, _, hdist s, hdist t, h.distanceSymbol hb hm hj y⟩
  · exact h.raises (fun g => { g with dsym := 30 }) (fun _ => rfl) h.final h.block h.phase
  · exact h.raises (fun g => { g with dsym := 31 }) (fun _ => rfl) h.final h.block h.phase

/-! ## The step of two calls -/

/-- What the engine reads at its place is not what the fetch moves. -/
theorem SamePlace.advance {p : Phase} {s t : State} (h : SamePlace p s t) (n : Nat) :
    SamePlace p (advance n s) (advance n t) := by
  cases p
  case body => exact ⟨h.ll, h.d, h.llValid, h.dValid⟩
  case distance => exact ⟨⟨h.1.ll, h.1.d, h.1.llValid, h.1.dValid⟩, h.2⟩
  all_goals exact h

/-- R115: both calls fetch in the same context. -/
theorem Twins.fetchCtx_eq {s t : State} (h : Twins s t) (hp : SamePlace s.inf.phase s t) : fetchCtx s = fetchCtx t := by
  unfold fetchCtx
  rw [← h.phase]
  cases hphase : s.inf.phase <;> rw [hphase] at hp
  case codeLengths =>
    obtain ⟨hl, hcl, -⟩ := hp
    simp only [hcl, hl.i]
  case body => simp only [hp.ll]
  case distance => simp only [hp.1.d]

/-- R176: the table that a symbol is fetched with is valid. -/
theorem SamePlace.decode_ne_tableInvalid {s t : State} (hp : SamePlace s.inf.phase s t) (bits : List Bool) :
    decode (fetchCtx s) bits ≠ .tableInvalid := by
  intro hd
  obtain ⟨-, -, hinvalid⟩ := decode_rejections (fetchCtx_ne_ctrl s) (bits := bits)
  have hctx := hinvalid hd
  unfold fetchCtx at hctx
  cases hphase : s.inf.phase <;> rw [hphase] at hp hctx
  case codeLengths => simp [hp.2.2] at hctx
  case body => simp [hp.llValid] at hctx
  case distance => simp [hp.1.dValid] at hctx
  all_goals simp at hctx

/-- Whatever is fetched takes both calls equally far. -/
theorem Twins.fetched {s t : State} {bits : List Bool} {i : Instr} {used : Nat} (h : Twins s t)
    (hp : SamePlace s.inf.phase s t) (hd : decode (fetchCtx s) bits = .ok i used) : RunsAlike i s t := by
  unfold fetchCtx at hd
  cases hphase : s.inf.phase <;> rw [hphase] at hd hp
  case header =>
    simp only [decode] at hd
    split at hd <;> cases hd
    exact h.header _ _ _
  case storedLen =>
    simp only [decode] at hd
    split at hd <;> cases hd
    exact h.storedLen _ _
  case dynCounts =>
    simp only [decode] at hd
    split at hd <;> cases hd
    exact h.dynCounts _ _ _
  case dynCll =>
    obtain ⟨-, -, v, rfl⟩ := withField_ok hd
    exact h.dynCll hphase hp v
  case codeLengths =>
    obtain ⟨hl, hcl, hv⟩ := hp
    obtain ⟨_, _, -, hn, hsym⟩ := withSymbol_cases hd
    exact InLengths.clInstr ⟨h, hphase, hcl, hv⟩ hl hn hsym
  case body =>
    obtain ⟨_, _, -, hn, hsym⟩ := withSymbol_cases hd
    exact h.llInstr hphase hp hn hsym
  case distance =>
    obtain ⟨_, _, -, hn, hsym⟩ := withSymbol_cases hd
    exact h.distInstr hp.1 hp.2 hn hsym

/-- R386: a step takes two calls equally far. -/
theorem Twins.step {s t : State} (h : Twins s t) (hp : SamePlace s.inf.phase s t) :
    ∃ u v, step s = .next u ∧ step t = .next v ∧ Together u v := by
  have hbusy : t.status.state = .busy := h.state.symm.trans h.busy
  have hfetch : decode (fetchCtx s) (nextBits fetchWidth s) = decode (fetchCtx t) (nextBits fetchWidth t) := by
    rw [h.fetchCtx_eq hp, h.nextBits_eq]
  have herror : ∀ c, fetchError (decode (fetchCtx s) (nextBits fetchWidth s)) = some c →
      ∃ u v, Machine.step s = .next u ∧ Machine.step t = .next v ∧ Together u v :=
    fun c hc => ⟨_, _, step_of_fetchError h.busy h.inflates hc, step_of_fetchError hbusy h.inflates' (hfetch ▸ hc),
      Or.inr (h.raised c)⟩
  obtain ⟨hlevel, hstart, -⟩ := decode_rejections (fetchCtx_ne_ctrl s) (bits := nextBits fetchWidth s)
  cases hd : decode (fetchCtx s) (nextBits fetchWidth s) with
  | ok i used =>
    obtain ⟨r, r', hr, hr', hsame⟩ := (h.advance used).fetched (hp.advance used) hd
    rw [step_of_fetched h.busy h.inflates hd, step_of_fetched hbusy h.inflates' (hfetch ▸ hd), hr, hr']
    exact hsame.toNext
  | short => exact herror _ (by rw [hd]; rfl)
  | noLeaf => exact herror _ (by rw [hd]; rfl)
  | noPrevious => exact herror _ (by rw [hd]; rfl)
  | noStart => exact absurd hd hstart
  | illegalLevel => exact absurd hd hlevel
  | tableInvalid => exact absurd hd (hp.decode_ne_tableInvalid _)

/-! ## The two calls -/

/-- R386: two calls that have come equally far answer alike after any number of steps. -/
theorem Together.run (n : Nat) : ∀ {s t : State}, Together s t →
    ∃ u v, engineRun n s = .next u ∧ engineRun n t = .next v ∧ SameAnswer u v := by
  induction n with
  | zero => exact fun h => ⟨_, _, rfl, rfl, h.answer⟩
  | succ n ih =>
    rintro s t (⟨h, hp⟩ | ⟨h, hend⟩)
    · obtain ⟨u, v, hu, hv, htogether⟩ := h.step hp
      rw [engineRun_succ h.busy hu, engineRun_succ (h.state.symm.trans h.busy) hv]
      exact ih htogether
    · exact ⟨s, t, engineRun_of_rest hend _, engineRun_of_rest (h.state ▸ hend) _, h⟩

/-- R210, R381, R442: two decompress calls start together, whatever earlier calls left. -/
theorem twins_startDecompress {s t : State} (l l' : BitVec 4) (hlen : s.inLen = t.inLen) (hmax : s.outMax = t.outMax)
    (hin : ∀ a, a < s.inLen.toNat → inByte s a = inByte t a) : Twins (startDecompress l s) (startDecompress l' t) where
  state := rfl
  errCause := rfl
  errClass := rfl
  outLen := rfl
  output := rfl
  busy := rfl
  inflates := ctrlOp_startCall false l s
  inflates' := ctrlOp_startCall false l' t
  rd := congrArg (fun len : Len => (⟨0, 0, len.toNat⟩ : Reader)) hlen
  input := hin
  outMax := hmax
  final := rfl
  block := rfl
  phase := rfl

/-- R381, R384: DECOMPRESS starts a call if it is not refused. -/
theorem exec_decompress_next {l : BitVec 4} {s u : State} (h : exec (.decompress l) s = .next u) : u = startDecompress l s := by
  rw [exec, execDecompress] at h
  split at h <;> cases h
  rfl

/-- Settles O59, by induction on the number of steps: the two calls start together and each step keeps them so (`Twins.step`);
what they may differ in, the registers and tables that the engine does not read at its place, is left out of `SamePlace`. -/
theorem decompressDependsOnInputAlone : Obligations.DecompressDependsOnInputAlone := by
  intro s1 s2 u1 u2 l1 l2 n hlen hmax hin h1 h2
  have hstart : Together u1 u2 := by
    rw [exec_decompress_next h1, exec_decompress_next h2]
    exact Or.inl ⟨twins_startDecompress l1 l2 hlen hmax hin, trivial⟩
  obtain ⟨t1, t2, ht1, ht2, h⟩ := hstart.run n
  exact ⟨t1, t2, ht1, ht2, h.state, h.errCause, h.errClass, h.outLen, h.output⟩

end Sys2Proof.Machine
end
